-- ==== Sys2Proof/Word.lean ====
section
/-! DEFINITION. The words the VZ192's frames, messages and registers are made of, and the indices of its slots and
socket links (00_scope.md, Dimensions). -/

namespace Sys2Proof

/-- One byte of a frame, a message, a stamp or buffer memory. -/
abbrev Byte := BitVec 8

/-- A 32-bit word: a CRC, a guard sum, a session tag or a counter. -/
abbrev Word32 := BitVec 32

/-- A request tag, 2 bytes of a REQUEST or REPLY frame (R185). -/
abbrev ReqTag := BitVec 16

/-- A socket link tag, 0 to 255 (R91). -/
abbrev LinkTag := BitVec 8

/-- A slot number, 0 to 191. -/
abbrev SlotIx := Fin 192

/-- A socket link number, 0 to 11. -/
abbrev LinkIx := Fin 12

/-- A socket of one link, 0 to 15. -/
abbrev Socket := Fin 16

end Sys2Proof
end

