-- ==== Sys2Proof/Config.lean ====
section
/-! DEFINITION. What the part fixes (00_scope.md, Dimensions) and the values its reference leaves open. -/

namespace Sys2Proof.Config

/-- Bytes of one sector. -/
def sectorBytes : Nat := 512

/-- Sectors of one chunk. -/
def chunkSectors : Nat := 128

/-- Bytes of one chunk, and of one buffer-memory frame (R24). -/
def chunkBytes : Nat := 65536

/-- Bytes of one segment, and the most one port transfer moves (R43). -/
def segmentBytes : Nat := 4096

/-- Buffer-memory frames (R24). -/
def frames : Nat := 4096

/-- Bytes of one stamp scratch area (R129). -/
def scratchBytes : Nat := 32768

/-- The largest image, in chunks (R3). -/
def maxChunks : Nat := 1048576

/-- Requests the request queue holds (R172). -/
def requestQueue : Nat := 8

/-- Replies the outbox may hold before REQ stops taking requests (R173). -/
def outboxTake : Nat := 4

/-- Replies the outbox may hold before a REFUSED-BUSY is no longer built (R172). -/
def outboxBusy : Nat := 15

/-- FLOW frames the FLOW outbox holds (R178). -/
def flowOutbox : Nat := 8

/-- Notices the notice queue holds (R194). -/
def noticeQueue : Nat := 32

/-- Ordinals of one session (R7). -/
def ordinals : Nat := 65536

/-- Lapsed tags at which a socket link is lost (R89). -/
def lapsedLimit : Nat := 192

/-- Missed PINGs at which a socket link is lost (R89). -/
def missedLimit : Nat := 3

/-- Milliseconds between two PINGs of a link (R88). -/
def pingPeriod : Nat := 100

/-- The settle time while no session exists, in ms (R1). -/
def idleSettle : Nat := 500

/-- What a byte of buffer memory that nothing has written reads as. DESIGN CHOICE (log 7), unsafe: the reference
gives buffer memory no contents at power-on, and says that no such byte reaches a stick (R24, R129). -/
def unwrittenByte : Byte := 0

/-- FREE VALUE (log 8). Which of the parameters that a failed check turns on the REPLY's detail names, for check
`check` of rule `rule` on a request's parameters. The reference says that the refusal names "the parameter" and not
which one, where a check turns on several (R115, R116, R197, R203); nothing constrains the choice among them. -/
opaque namedParam (rule check : Nat) (params : List Byte) : Nat

/-- FREE VALUE (log 36). The detail of a REPLY that is no refusal, for its request's tag and code and its data. R174 and
R175 give the detail of a refusal and lay out the byte in every REPLY; no rule gives it with status OK or OK-HELD. -/
opaque acceptedDetail (tag : BitVec 16) (code : Byte) (data : List Byte) : Byte

/-- FREE VALUE (log 37). What the probe index of a slot's qualification record comes from in phase SIZE, for the slot
and the time of its entry. R68 sets the phase and no probe index; R70 and R74 set one when the probes begin. -/
opaque sizeProbe (slot now : Nat) : Nat

end Sys2Proof.Config
end

