-- ==== Sys2Proof/Syntax.lean ====
section
/-! DEFINITION. The commands of the VZ192, one constructor per row of spec/opcode_table.json. A row that takes a
request from the request queue (R173) has no operand of its own: the queued request carries its parameters. -/

namespace Sys2Proof

/-- The 49 commands. -/
inductive Instr where
  /-- Power-on reset (R23). -/
  | powerOnReset
  /-- Buffer-memory initialisation is complete (R180). -/
  | bufferInitComplete
  /-- The link layer reports the image link established (R45). -/
  | imageLinkEstablished
  /-- The link layer reports the image link lost (R46). -/
  | imageLinkLost
  /-- A downstream frame whose frame check failed (R47). -/
  | badFrame
  /-- A downstream frame with a good check, a kind and a body length that R171 does not accept. -/
  | malformedFrame (kind : Byte) (bodyLength : BitVec 16)
  /-- A SEGMENT frame: chunk index, segment index, image bytes (R48, R185). -/
  | segment (chunk : Word32) (index : Byte) (bytes : List Byte)
  /-- A REQUEST frame: request tag, request code, parameters (R172, R185). -/
  | requestFrame (tag : ReqTag) (code : Byte) (params : List Byte)
  /-- REQ takes a request whose code names no request (R173). -/
  | unknownRequest
  /-- REQ takes an IDENTIFY (R181). -/
  | identify
  /-- REQ takes an ENGINE RESET (R182). -/
  | engineReset
  /-- A waiting ENGINE RESET takes effect (R183). -/
  | engineResetTakesEffect
  /-- REQ takes an OPEN SESSION (R5). -/
  | openSession
  /-- REQ takes a LOAD PATCH SITE (R115). -/
  | loadPatchSite
  /-- REQ takes a LOAD GUARD REGION (R117). -/
  | loadGuardRegion
  /-- REQ takes a CLEAR PATCH TABLE (R118). -/
  | clearPatchTable
  /-- REQ takes a START SESSION (R6). -/
  | startSession
  /-- REQ takes a PASS START (R9). -/
  | passStart
  /-- REQ takes a HOLD (R108). -/
  | hold
  /-- REQ takes a RELEASE HOLD (R110). -/
  | releaseHold
  /-- REQ takes a SESSION TUNE (R113). -/
  | sessionTune
  /-- REQ takes a RELEASE SLOT (R78). -/
  | releaseSlot
  /-- REQ takes a STAMP SUPPLY (R134). -/
  | stampSupply
  /-- REQ takes a SLOT STATUS (R84). -/
  | slotStatus
  /-- REQ takes a SESSION STATUS (R22). -/
  | sessionStatus
  /-- REQ takes a CLEAR MARKS (R197). -/
  | clearMarks
  /-- REQ takes a SNAPSHOT (R202). -/
  | snapshot
  /-- REQ takes a READ SNAPSHOT (R203). -/
  | readSnapshot
  /-- REQ takes a SET NOTICE MASK (R195). -/
  | setNoticeMask
  /-- REQ takes a CLOSE SESSION (R19). -/
  | closeSession
  /-- The idle upstream lane is granted (R177). -/
  | upstreamGrant
  /-- The auto-snapshot timer expires (R202). -/
  | autoSnapshotExpiry
  /-- The buffer-memory arbiter grants the port (R43). -/
  | bufferTransferGrant
  /-- PRESENCE INSERTED for a socket of a link (R63). -/
  | presenceInserted (link : LinkIx) (socket : Socket)
  /-- PRESENCE REMOVED for a socket of a link (R64). -/
  | presenceRemoved (link : LinkIx) (socket : Socket)
  /-- A slot's settle deadline is reached (R66). -/
  | settleDeadline (slot : SlotIx)
  /-- A PONG arrives on a link (R88). -/
  | pong (link : LinkIx)
  /-- A PING becomes due on a link (R88). -/
  | pingDue (link : LinkIx)
  /-- A malformed message arrives on a link, given as its bytes (R191). -/
  | bridgeMessageMalformed (link : LinkIx) (bytes : List Byte)
  /-- A link's transmit path is granted (R96). -/
  | transmitGrant (link : LinkIx)
  /-- The command granted a link's transmit path is sent (R97). -/
  | commandSend (link : LinkIx)
  /-- A WRITE-ACK: link, tag, status code (R93, R190). -/
  | writeAck (link : LinkIx) (tag : LinkTag) (status : Byte)
  /-- A CAPACITY: link, tag, status code, the bytes after the status (R70, R190). -/
  | capacity (link : LinkIx) (tag : LinkTag) (status : Byte) (data : List Byte)
  /-- A READ-DATA: link, tag, status code, the bytes after the status (R93, R190). -/
  | readData (link : LinkIx) (tag : LinkTag) (status : Byte) (data : List Byte)
  /-- The deadline of a busy tag passes (R92). -/
  | tagLapse (link : LinkIx) (tag : LinkTag)
  /-- A slot's stall deadline is reached (R131). -/
  | stallDeadline (slot : SlotIx)
  /-- The pace timer expires (R156). -/
  | paceTick
  /-- The decay timer expires (R166). -/
  | decayTick
  /-- The frame on the upstream lane has been sent in full (R177). -/
  | upstreamFrameSent
deriving DecidableEq, Repr

end Sys2Proof
end

