-- ==== Sys2Proof/Machine/State.lean ====
section
/-! DEFINITION. The state of the VZ192, block by block as 00_scope.md divides it, and its value after power-on reset.
Each field's docstring names the rule that gives it. Plain data throughout. -/

namespace Sys2Proof.Machine

/-! ## Enumerations (R186 gives their codes, in this order) -/

/-- When a slot that becomes READY during a pass is served (R8). -/
inductive JoinPolicy where
  | nextPass | live
deriving DecidableEq, Repr

/-- What happens to a laggard (R158 to R160). -/
inductive LaggardPolicy where
  | wait | detach | fail
deriving DecidableEq, Repr

/-- How sticks are read back (R138). -/
inductive VerifyMode where
  | off | inline | trailing
deriving DecidableEq, Repr

/-- How sticks are qualified (R70). -/
inductive QualifyMode where
  | sizeOnly | probe
deriving DecidableEq, Repr

/-- The states of a session that exists (R1); NONE is the absence of the session record. -/
inductive SessionPhase where
  | opened | running | faulted
deriving DecidableEq, Repr

/-- The pass state (R1). -/
inductive PassState where
  | noPass | streaming | draining
deriving DecidableEq, Repr

/-- The scheduler's hold state (R108). -/
inductive HoldState where
  | run | holding | held
deriving DecidableEq, Repr

/-- The flow state (R44). -/
inductive FlowState where
  | paused | opened
deriving DecidableEq, Repr

/-- The eleven slot states (R61). -/
inductive SlotState where
  | empty | settling | present | sizing | probing | ready | waiting | live | verifying | done | failed
deriving DecidableEq, Repr

/-- The outcomes of a slot (R79). -/
inductive OutcomeKind where
  | passed | tooSmall | aliased | probeFailed | writeProtected | sizeFailed | writeFailed | readFailed
  | verifyMismatch | trouble | laggard | stampTimeout | removedEarly | linkLost | withdrawn | incomplete
deriving DecidableEq, Repr

/-- Lamp patterns (R81, R190). -/
inductive LampPattern where
  | off | amberSteady | amberBlink | green | red
deriving DecidableEq, Repr

/-- Overflow modes of computed sites (R123). -/
inductive OverflowMode where
  | wrap | clamp | defer
deriving DecidableEq, Repr

/-- How an ordinal-kind site is written (R114, R124, R125). -/
inductive OrdinalForm where
  | le | be | dec | decCheck | hex
deriving DecidableEq, Repr

/-- The kinds of a slot command (R87). -/
inductive CmdKind where
  | size | write | read
deriving DecidableEq, Repr

/-- The statuses of an answer (R87). -/
inductive Status where
  | ok | mediumError | notReady | protected_ | gone
deriving DecidableEq, Repr

/-- The statuses of a reply (R175, codes in R185). -/
inductive ReplyStatus where
  | ok | okHeld | refusedState | refusedRange | refusedFull | refusedBusy | notHeld | stale | notReady | unknown
deriving DecidableEq, Repr

/-- The cause of the last reset (R181). -/
inductive ResetCause where
  | powerOn | engineReset
deriving DecidableEq, Repr

/-- The cause of a socket link loss (R90). -/
inductive LossCause where
  | ping | lapsedTags
deriving DecidableEq, Repr

/-! ## Session Controller -/

/-- The session values that carry a tunable range (R4). -/
structure Tunables where
  depth          : Nat
  commandTimeout : Nat
  retryLimit     : Nat
  settleTime     : Nat
  paceInterval   : Nat
  declareCount   : Nat
  clearCount     : Nat
  decayInterval  : Nat
  throttle       : Nat
  eject          : Nat
  residencyMin   : Nat
  stampWait      : Nat
deriving DecidableEq, Repr

/-- The session record with its pass record (R1). It exists in OPEN, RUNNING and FAULTED only. -/
structure Session where
  phase       : SessionPhase
  imageLength : Nat
  windowSize  : Nat
  pauseMark   : Nat
  resumeMark  : Nat
  probeCount  : Nat
  join        : JoinPolicy
  laggard     : LaggardPolicy
  verify      : VerifyMode
  qualify     : QualifyMode
  sessionTag  : Word32
  tune        : Tunables
  nextOrdinal : Nat
  exhausted   : Bool
  faultChunk  : Option Nat
  passNumber  : Nat
  pass        : PassState
  startChunk  : Nat
  nextChunk   : Nat
deriving DecidableEq, Repr

/-! ## Image Intake -/

/-- The assembly record (R44). -/
structure Assembly where
  chunk       : Nat
  nextSegment : Nat
  frame       : Nat
  crc         : Word32
deriving DecidableEq, Repr

/-- The state of INT (R44). -/
structure Intake where
  assembly : Option Assembly
  flow     : FlowState
  linkUp   : Bool
deriving DecidableEq, Repr

/-! ## Chunk Window -/

/-- What a RESIDENT record holds beside its chunk and frame (R26). -/
structure Resident where
  crc     : Word32
  owed    : Nat
  stamped : Bool
deriving DecidableEq, Repr

/-- One record of the window list (R26): ASSEMBLING while `resident` is absent. -/
structure ChunkRecord where
  chunk    : Nat
  frame    : Nat
  resident : Option Resident
deriving DecidableEq, Repr

/-- One transfer waiting on the buffer-memory port (R43): FILL, DIGEST, STAMP for intake's capture, STAMP for the build
on a link, DRAIN for a link. -/
inductive Transfer where
  | fill
  | digest
  | capture
  | stamp (link : LinkIx)
  | drain (link : LinkIx)
deriving DecidableEq, Repr

/-- A byte memory: address and byte pairs, addresses strictly rising, no pair equal to what an unlisted address reads as
(`Config.unwrittenByte`). -/
abbrev Memory := List Host.Cell

/-- The state of WIN (R24, R26, R40, R43). Frames are free when no record holds them; free frames are the window size
less the records (R27). -/
structure Window where
  records : List ChunkRecord
  /-- The PRESENT digest entries, chunks strictly rising (R40). -/
  digest  : List (Nat × Word32)
  /-- The frame area, byte `65536 * frame + offset`. -/
  frames  : Memory
  /-- The member of the ring last granted: 0 DIGEST, 1 STAMP, 2 + k DRAIN k (R43). -/
  ring    : Fin 14
  /-- The transfers waiting, in the order they were requested. -/
  waiting : List Transfer
deriving DecidableEq, Repr

/-! ## Slot Table -/

/-- The outcome record (R79). -/
structure Outcome where
  kind  : OutcomeKind
  chunk : Option Nat
  probe : Option Nat
  other : Option Nat
deriving DecidableEq, Repr

/-- The phases of qualification (R61). -/
inductive QualPhase where
  | size | probeWrite | probeRead
deriving DecidableEq, Repr

/-- The qualification record (R61). `retries` is the retries-used count of the command it names (R71), kept here while
no in-flight entry holds it. -/
structure Qualification where
  phase   : QualPhase
  probe   : Nat
  retries : Nat
deriving DecidableEq, Repr

/-- A span, chunks `lo` to `hi - 1` (00_scope.md, Chunk ranges). -/
structure Span where
  lo : Nat
  hi : Nat
deriving DecidableEq, Repr

/-- What a slot command is for (R61): SIZE, a probe WRITE or READ, an image piece, a verify read. -/
inductive Work where
  | size
  | probeWrite (probe : Nat)
  | probeRead (probe : Nat)
  | piece (chunk : Nat) (piece : Nat) (rewrite : Nat)
  | verify (chunk : Nat) (rewrite : Nat)
deriving DecidableEq, Repr

/-- An in-flight entry (R61, R99). It holds a tag while sent and none while waiting. -/
structure Entry where
  work    : Work
  tag     : Option LinkTag
  retries : Nat
deriving DecidableEq, Repr

/-- A rewrite record (R138). -/
structure Rewrite where
  chunk     : Nat
  nextPiece : Nat
  number    : Nat
deriving DecidableEq, Repr

/-- The stall record (R130). -/
structure Stall where
  site     : Nat
  chunk    : Nat
  deadline : Nat
deriving DecidableEq, Repr

/-- The lamp record (R81). -/
structure Lamp where
  shown : LampPattern
  due   : Option LampPattern
deriving DecidableEq, Repr

/-- A counter with its saturated flag (R198). -/
structure Counter where
  value     : Word32
  saturated : Bool
deriving DecidableEq, Repr

/-- One slot record (R61). -/
structure Slot where
  state          : SlotState
  settleDeadline : Option Nat
  outcome        : Option Outcome
  capacity       : Option Nat
  qual           : Option Qualification
  ordinal        : Option Nat
  span           : Option Span
  deferred       : Option Span
  ackPoint       : Option Nat
  issueCursor    : Option Nat
  /-- The acknowledged-ahead set. -/
  ahead          : List Nat
  inFlight       : List Entry
  rewrites       : List Rewrite
  /-- Pieces of the chunk at the issue cursor already sent (R101, R204). -/
  piecesSent     : Nat
  rostered       : Bool
  trouble        : Nat
  throttled      : Bool
  residency      : Nat
  /-- The throttled depth in force (R99). -/
  throttledDepth : Option Nat
  pinCount       : Nat
  clearCount     : Nat
  laggard        : Bool
  verifyCursor   : Option Nat
  stall          : Option Stall
  lamp           : Lamp
  changeMark     : Bool
  /-- The five per-slot counters, in the order of R199. -/
  counters       : Vector Counter 5
deriving DecidableEq, Repr

/-! ## Write Scheduler -/

/-- The state of WSC outside the slot records (R108, R154, R166). -/
structure Scheduler where
  hold      : HoldState
  holdReply : Option ReqTag
  /-- The next expiry of the pace timer, absent while it is stopped. -/
  paceAt    : Option Nat
  /-- The next expiry of the decay timer, absent while it is stopped. -/
  decayAt   : Option Nat
deriving DecidableEq, Repr

/-! ## Socket Link Controllers -/

/-- What a busy tag holds (R91). -/
structure Busy where
  slot     : SlotIx
  kind     : CmdKind
  deadline : Nat
deriving DecidableEq, Repr

/-- The states of a tag (R91). -/
inductive TagState where
  | free
  | bound (b : Busy)
  | abandoned (b : Busy)
  | orphaned (b : Busy)
  | lapsed
deriving DecidableEq, Repr

/-- Where a granted command comes from: a first send of a qualification command, a cursor piece or a trailing read
(R69, R100, R147), a rewrite piece (R143), or a waiting entry (R99). -/
inductive Origin where
  | first | rewrite | waiting
deriving DecidableEq, Repr

/-- A run of like sectors of a chunk (R98). -/
structure Piece where
  stamped : Bool
  first   : Nat
  count   : Nat
deriving DecidableEq, Repr

/-- A command granted the transmit path and not yet sent (R97): its slot, what it is, and the bytes read for it. -/
structure Grant where
  slot    : SlotIx
  work    : Work
  retries : Nat
  origin  : Origin
  /-- The frame and sectors its bytes come from; absent when it reads nothing from buffer memory. -/
  source  : Option (Nat × Piece)
  /-- Port transfers done. -/
  moved   : Nat
  /-- Bytes read toward the link. -/
  data    : List Byte
deriving DecidableEq, Repr

/-- One link record (R86) with its transmit path (R96). -/
structure Link where
  up           : Bool
  missed       : Nat
  tags         : Vector TagState 256
  lapsed       : Nat
  lastTag      : LinkTag
  lastSocket   : Socket
  /-- A PING is waiting to be sent (R88). -/
  pingWaiting  : Bool
  /-- When the next PING becomes due (R88). -/
  pingAt       : Nat
  /-- A PING has been sent and no PONG has arrived since (R88). -/
  pingOpen     : Bool
  /-- The command holding the transmit path; idle when absent (R96). -/
  path         : Option Grant
  /-- The last message sent on the link, as bytes (R190): the link's transmit side as a bridge sees it. -/
  sent         : Option (List Byte)
deriving DecidableEq, Repr

/-! ## Stamp Unit -/

/-- The kind of a patch site with the fields that apply to it (R114). -/
inductive SiteKind where
  | ordinal (form : OrdinalForm) (mode : OverflowMode) (base stride : Nat)
  | capacity (bigEndian : Bool) (mode : OverflowMode) (offset align : Nat)
  | supplied
  | guard (region : Nat)
deriving DecidableEq, Repr

/-- One site record; its number is its place in the table (R114). -/
structure Site where
  chunk    : Nat
  offset   : Nat
  width    : Nat
  kind     : SiteKind
  pristine : Option (List Byte)
deriving DecidableEq, Repr

/-- One guard region record; its number is its place in the table (R117). -/
structure Region where
  chunk   : Nat
  start   : Nat
  length  : Nat
  baseSum : Option Word32
deriving DecidableEq, Repr

/-- One entry of the stamp record store (R119). -/
inductive StampEntry where
  | unrendered
  | rendered (bytes : List Byte)
  | deferred
  | supplied (bytes : List Byte)
deriving DecidableEq, Repr

/-- The state of STU (R114, R117, R119, R129). -/
structure Stamps where
  sites   : List Site
  regions : List Region
  entries : Vector (Vector StampEntry 32) 192
  /-- The stamp scratch, byte `32768 * link + offset`. -/
  scratch : Memory
deriving DecidableEq, Repr

/-! ## Notice and Counter Unit -/

/-- The ten event kinds with their data (R189, R193). -/
inductive Event where
  | slotChanged (slot : SlotIx) (previous new : SlotState) (outcome : Option OutcomeKind)
  | passEnded (pass : Nat) (waiting : Nat) (lowest : Option Nat)
  | stampDeferred (slot : SlotIx) (ordinal : Nat) (site : Nat) (overflow : Option Nat)
  | stampStalled (slot : SlotIx) (ordinal : Nat) (site : Nat) (chunk : Nat)
  | held
  | laggard (slot : SlotIx) (ordinal : Nat) (ackPoint : Nat) (pinCount : Nat) (policy : LaggardPolicy)
  | imageMismatch (chunk : Nat) (recorded received : Word32) (pass : Nat)
  | linkLost (link : LinkIx) (cause : LossCause)
  | ordinalsExhausted (slot : SlotIx)
  | snapshotTaken (number : Word32)
deriving DecidableEq, Repr

/-- The snapshot bank (R201). -/
structure Bank where
  number : Word32
  time   : Word32
  engine : Vector Counter 10
  slots  : Vector (Vector Counter 5) 192
deriving DecidableEq, Repr

/-- The state of NCU outside the slot records (R194 to R202). -/
structure Ncu where
  notices      : List Event
  mask         : BitVec 10
  seen         : BitVec 10
  noticesLost  : Bool
  /-- The ten engine counters, in the order of R198. -/
  counters     : Vector Counter 10
  bank         : Bank
  autoInterval : Nat
  /-- The next expiry of the auto-snapshot timer, absent while it is stopped (R202). -/
  autoAt       : Option Nat
deriving DecidableEq, Repr

/-! ## Request Unit -/

/-- A queued request (R172). -/
structure Request where
  tag    : ReqTag
  code   : Byte
  params : List Byte
deriving DecidableEq, Repr

/-- A REPLY frame (R175, R185). -/
structure Reply where
  tag    : ReqTag
  code   : Byte
  status : ReplyStatus
  detail : Byte
  data   : List Byte
deriving DecidableEq, Repr

/-- A FLOW frame (R59): flow state, H and free frames, the last two absent without a session. -/
structure FlowFrame where
  flow : FlowState
  next : Option Nat
  free : Option Nat
deriving DecidableEq, Repr

/-- An upstream frame (R171). -/
inductive UpFrame where
  | reply (r : Reply)
  | notice (e : Event)
  | flow (f : FlowFrame)
deriving DecidableEq, Repr

/-- The frame on the upstream lane (R177): the frame, its bytes (R185), and whether it still stands at the front of its
source (it does not once an ENGINE RESET has discarded the source, R194). -/
structure LaneFrame where
  frame  : UpFrame
  bytes  : List Byte
  queued : Bool
deriving DecidableEq, Repr

/-- The state of REQ (R172, R176 to R182). -/
structure ReqUnit where
  queue        : List Request
  outbox       : List Reply
  flowOut      : List FlowFrame
  lane         : Option LaneFrame
  /-- The reply outbox was served at the previous grant between it and the notice queue (R177). -/
  replyServed  : Bool
  /-- The NOT-READY period is running (R180). -/
  initialising : Bool
  /-- An ENGINE RESET waits to take effect (R182). -/
  resetWaiting : Bool
  cause        : ResetCause
deriving DecidableEq, Repr

/-! ## The machine -/

/-- The whole state. -/
structure State where
  /-- The commands waiting, first in, first out (the model's own, log 28). -/
  pending : List Instr
  /-- The engine timebase, ms since the last reset (R181). -/
  now     : Nat
  session : Option Session
  intake  : Intake
  win     : Window
  slots   : Vector Slot 192
  wsc     : Scheduler
  links   : Vector Link 12
  stu     : Stamps
  req     : ReqUnit
  ncu     : Ncu
deriving DecidableEq, Repr

/-- Why the machine stops with a fault: never. The reference gives the engine no event that stops it (INVENTORY.md,
Faults); FAULTED is a session state. -/
inductive Fault where
deriving DecidableEq, Repr

/-- Why a command is refused. -/
inductive Refusal where
  /-- Raised by `exec` for a row that has no meaning yet; safe. No row is without one. -/
  | notModelled (mnemonic : String)
deriving DecidableEq, Repr

/-! ## Reset values -/

/-- A zero counter (R200). -/
def Counter.zero : Counter := ⟨0, false⟩

/-- A slot record after power-on reset and ENGINE RESET (R61). -/
def Slot.reset : Slot where
  state := .empty
  settleDeadline := none
  outcome := none
  capacity := none
  qual := none
  ordinal := none
  span := none
  deferred := none
  ackPoint := none
  issueCursor := none
  ahead := []
  inFlight := []
  rewrites := []
  piecesSent := 0
  rostered := false
  trouble := 0
  throttled := false
  residency := 0
  throttledDepth := none
  pinCount := 0
  clearCount := 0
  laggard := false
  verifyCursor := none
  stall := none
  lamp := ⟨.off, none⟩
  changeMark := false
  counters := .replicate 5 Counter.zero

/-- A link record after power-on reset and ENGINE RESET (R86). Its first PING is due at time 0 (R88, log 3). -/
def Link.reset : Link where
  up := false
  missed := 0
  tags := .replicate 256 .free
  lapsed := 0
  lastTag := 255
  lastSocket := 15
  pingWaiting := false
  pingAt := 0
  pingOpen := false
  path := none
  sent := none

/-- NCU after power-on reset and ENGINE RESET (R194 to R202). -/
def Ncu.reset : Ncu where
  notices := []
  mask := BitVec.allOnes 10
  seen := 0
  noticesLost := false
  counters := .replicate 10 Counter.zero
  bank := ⟨0, 0, .replicate 10 Counter.zero, .replicate 192 (.replicate 5 Counter.zero)⟩
  autoInterval := 0
  autoAt := none

/-- The state right after power-on reset (R1, R23, R24, R40, R43, R44, R61, R86, R108, R119, R172, R176 to R181, R194 to
R202), with no command waiting. Buffer memory lists nothing (log 7). -/
def State.reset : State where
  pending := []
  now := 0
  session := none
  intake := ⟨none, .paused, false⟩
  win := ⟨[], [], [], 13, []⟩
  slots := .replicate 192 Slot.reset
  wsc := ⟨.run, none, none, none⟩
  links := .replicate 12 Link.reset
  stu := ⟨[], [], .replicate 192 (.replicate 32 .unrendered), []⟩
  req := ⟨[], [], [], none, false, true, false, .powerOn⟩
  ncu := Ncu.reset

end Sys2Proof.Machine
end

