-- ==== Sys2Proof/Machine/Memory.lean ====
section
/-! DEFINITION. Buffer memory as bytes (02 section 2.1): read and write of a run of bytes in the one canonical form. -/

namespace Sys2Proof.Machine

/-- The cells of `bytes` written from address `a` up, without those that equal an unwritten byte. -/
def cellsOf (a : Nat) : List Byte → Memory
  | [] => []
  | b :: bs => if b = Config.unwrittenByte then cellsOf (a + 1) bs else (a, b) :: cellsOf (a + 1) bs

/-- The canonical form: every address at least `lo`, addresses strictly rising, no cell equal to an unwritten byte. -/
def Memory.wfFrom (lo : Nat) : Memory → Bool
  | [] => true
  | (a, b) :: m => decide (lo ≤ a) && (b != Config.unwrittenByte) && Memory.wfFrom (a + 1) m

/-- The canonical form of a byte memory. -/
def Memory.wf (m : Memory) : Bool := Memory.wfFrom 0 m

/-- The byte at an address; an unlisted address reads as `Config.unwrittenByte` (log 7). -/
def Memory.byte (m : Memory) (a : Nat) : Byte :=
  match m.find? (fun c => c.1 == a) with
  | some c => c.2
  | none => Config.unwrittenByte

/-- `n` bytes from address `a` up, from a memory whose cells below `a` have been dropped. -/
def readRun (a : Nat) : Nat → Memory → List Byte
  | 0, _ => []
  | n + 1, [] => Config.unwrittenByte :: readRun (a + 1) n []
  | n + 1, (k, b) :: m =>
    if k = a then b :: readRun (a + 1) n m else Config.unwrittenByte :: readRun (a + 1) n ((k, b) :: m)

/-- `n` bytes from address `a` up. -/
def Memory.read (m : Memory) (a n : Nat) : List Byte :=
  readRun a n (m.dropWhile (fun c => decide (c.1 < a)))

/-- Write `bytes` from address `a` up. -/
def Memory.write (m : Memory) (a : Nat) (bytes : List Byte) : Memory :=
  m.filter (fun c => decide (c.1 < a)) ++ (cellsOf a bytes ++ m.filter (fun c => decide (a + bytes.length ≤ c.1)))

/-- The address of a byte of a frame (R24). -/
def frameAddr (frame offset : Nat) : Nat := Config.chunkBytes * frame + offset

/-- The address of a byte of a link's stamp scratch area (R129). -/
def scratchAddr (link : LinkIx) (offset : Nat) : Nat := Config.scratchBytes * link.val + offset

end Sys2Proof.Machine
end

