-- ==== Sys2Proof/Decode.lean ====
section
/-! DEFINITION. The command a word spells. spec/opcode_table.json gives no row any bits ("fields": [] in every row),
so no word spells a command. The byte layouts the spec does give (section 9.6) are read in Machine/Operands.lean: a
downstream frame by downstreamFrame, a bridge message by bridgeMessage, a request's parameters by field; which frames and
messages are malformed is decided here. -/

namespace Sys2Proof

/-- The command that a word of `nbits` bits spells by the table's bits: none, since the table gives bits to no row. -/
def decodeTableWord (_nbits _w : Nat) : Option Instr := none

/-- R171: the downstream frames with a good check that are handed on: SEGMENT (kind 01 hex) with a body of 4,101 bytes,
REQUEST (kind 02 hex) with a body of at least 3. -/
def downstreamAccepted (kind : Byte) (bodyLength : BitVec 16) : Bool :=
  (kind == 0x01#8 && bodyLength == 4101#16) || (kind == 0x02#8 && decide (3 ≤ bodyLength.toNat))

/-- R191: a bridge message (its kind, then its fields) is not malformed when its kind is one of the five, it is long
enough for the fields before its data, and a PRESENCE names a socket to 15 and an event 0 or 1. -/
def bridgeMessageOk : List Byte → Bool
  | [] => false
  | kind :: fields =>
    if kind = 0x24#8 then true
    else if kind = 0x23#8 then
      match fields with
      | socket :: event :: _ => decide (socket.toNat ≤ 15) && decide (event.toNat ≤ 1)
      | _ => false
    else if kind = 0x20#8 ∨ kind = 0x21#8 ∨ kind = 0x22#8 then decide (2 ≤ fields.length)
    else false

end Sys2Proof
end

