-- ==== Sys2Proof/Machine/Operands.lean ====
section
/-! DEFINITION. The byte layouts of section 9.6: little-endian fields, the codes of R185, R186 and R190, request
parameters, reply data, notices, frames and socket link messages. -/

namespace Sys2Proof.Machine

/-! ## Fields -/

/-- `n` bytes of `v`, least significant first (R184). -/
def leBytes : Nat → Nat → List Byte
  | 0, _ => []
  | n + 1, v => BitVec.ofNat 8 v :: leBytes n (v / 256)

/-- The value of a little-endian run of bytes (R184). -/
def leValue : List Byte → Nat
  | [] => 0
  | b :: bs => b.toNat + 256 * leValue bs

/-- The `len`-byte field at offset `off` of a request's parameters. -/
def field (ps : List Byte) (off len : Nat) : Nat := leValue ((ps.drop off).take len)

/-- All ones in `n` bytes, the code of an absent value (R184). -/
def allOnes (n : Nat) : Nat := 256 ^ n - 1

/-- An optional value in `n` bytes, absent as all ones (R184). -/
def leOption (n : Nat) (v : Option Nat) : List Byte := leBytes n (v.getD (allOnes n))

/-- Member `k` of a set (R184). -/
def member (set k : Nat) : Bool := set.testBit k

/-- A set written from its members, member 0 in the lowest bit (R184). -/
def setOf : List Bool → Nat
  | [] => 0
  | b :: bs => b.toNat + 2 * setOf bs

/-! ## Codes (R185, R186, R190) -/

def JoinPolicy.ofCode : Nat → Option JoinPolicy
  | 0 => some .nextPass
  | 1 => some .live
  | _ => none

def JoinPolicy.code : JoinPolicy → Nat
  | .nextPass => 0
  | .live => 1

def LaggardPolicy.ofCode : Nat → Option LaggardPolicy
  | 0 => some .wait
  | 1 => some .detach
  | 2 => some .fail
  | _ => none

def LaggardPolicy.code : LaggardPolicy → Nat
  | .wait => 0
  | .detach => 1
  | .fail => 2

def VerifyMode.ofCode : Nat → Option VerifyMode
  | 0 => some .off
  | 1 => some .inline
  | 2 => some .trailing
  | _ => none

def VerifyMode.code : VerifyMode → Nat
  | .off => 0
  | .inline => 1
  | .trailing => 2

def QualifyMode.ofCode : Nat → Option QualifyMode
  | 0 => some .sizeOnly
  | 1 => some .probe
  | _ => none

def QualifyMode.code : QualifyMode → Nat
  | .sizeOnly => 0
  | .probe => 1

def OverflowMode.ofCode : Nat → Option OverflowMode
  | 0 => some .wrap
  | 1 => some .clamp
  | 2 => some .defer
  | _ => none

/-- The session state's code, NONE being 0. -/
def phaseCode : Option SessionPhase → Nat
  | none => 0
  | some .opened => 1
  | some .running => 2
  | some .faulted => 3

def PassState.code : PassState → Nat
  | .noPass => 0
  | .streaming => 1
  | .draining => 2

def HoldState.code : HoldState → Nat
  | .run => 0
  | .holding => 1
  | .held => 2

def FlowState.code : FlowState → Nat
  | .paused => 0
  | .opened => 1

def SlotState.code : SlotState → Nat
  | .empty => 0
  | .settling => 1
  | .present => 2
  | .sizing => 3
  | .probing => 4
  | .ready => 5
  | .waiting => 6
  | .live => 7
  | .verifying => 8
  | .done => 9
  | .failed => 10

/-- The slot states in code order. -/
def slotStates : List SlotState :=
  [.empty, .settling, .present, .sizing, .probing, .ready, .waiting, .live, .verifying, .done, .failed]

def OutcomeKind.code : OutcomeKind → Nat
  | .passed => 1
  | .tooSmall => 2
  | .aliased => 3
  | .probeFailed => 4
  | .writeProtected => 5
  | .sizeFailed => 6
  | .writeFailed => 7
  | .readFailed => 8
  | .verifyMismatch => 9
  | .trouble => 10
  | .laggard => 11
  | .stampTimeout => 12
  | .removedEarly => 13
  | .linkLost => 14
  | .withdrawn => 15
  | .incomplete => 16

/-- The code of an optional outcome kind, 0 for none. -/
def outcomeCode (o : Option OutcomeKind) : Nat := (o.map OutcomeKind.code).getD 0

def LampPattern.code : LampPattern → Nat
  | .off => 0
  | .amberSteady => 1
  | .amberBlink => 2
  | .green => 3
  | .red => 4

def QualPhase.code : QualPhase → Nat
  | .size => 0
  | .probeWrite => 1
  | .probeRead => 2

def ReplyStatus.code : ReplyStatus → Nat
  | .ok => 0
  | .okHeld => 1
  | .refusedState => 2
  | .refusedRange => 3
  | .refusedFull => 4
  | .refusedBusy => 5
  | .notHeld => 6
  | .stale => 7
  | .notReady => 8
  | .unknown => 9

def ResetCause.code : ResetCause → Nat
  | .powerOn => 0
  | .engineReset => 1

def LossCause.code : LossCause → Nat
  | .ping => 0
  | .lapsedTags => 1

/-- The status an answer's code stands for; a code above 4 is taken as MEDIUM-ERROR (R190, R191). -/
def Status.ofCode (b : Byte) : Status :=
  match b.toNat with
  | 0 => .ok
  | 2 => .notReady
  | 3 => .protected_
  | 4 => .gone
  | _ => .mediumError

/-! ## Requests (section 9.5) -/

/-- The twenty requests of the catalogue. -/
inductive ReqKind where
  | identify | engineReset | openSession | loadPatchSite | loadGuardRegion | clearPatchTable | startSession
  | passStart | hold | releaseHold | sessionTune | releaseSlot | stampSupply | slotStatus | sessionStatus
  | clearMarks | snapshot | readSnapshot | setNoticeMask | closeSession
deriving DecidableEq, Repr

/-- The request a code names (section 9.5), none for a code that names no request. -/
def ReqKind.ofCode (code : Byte) : Option ReqKind :=
  match code.toNat with
  | 0x01 => some .identify
  | 0x02 => some .engineReset
  | 0x03 => some .openSession
  | 0x04 => some .loadPatchSite
  | 0x05 => some .loadGuardRegion
  | 0x06 => some .clearPatchTable
  | 0x07 => some .startSession
  | 0x08 => some .passStart
  | 0x09 => some .hold
  | 0x0A => some .releaseHold
  | 0x0B => some .sessionTune
  | 0x0C => some .releaseSlot
  | 0x0D => some .stampSupply
  | 0x0E => some .slotStatus
  | 0x0F => some .sessionStatus
  | 0x10 => some .clearMarks
  | 0x11 => some .snapshot
  | 0x12 => some .readSnapshot
  | 0x13 => some .setNoticeMask
  | 0x14 => some .closeSession
  | _ => none

/-- The code of a HOLD, which its pending reply echoes (R175). -/
def holdCode : Byte := 0x09

/-- The session states in which R2 takes a request; `none` is state NONE. -/
def ReqKind.takenIn : ReqKind → Option SessionPhase → Bool
  | .identify, _ | .engineReset, _ | .sessionStatus, _ | .slotStatus, _ | .snapshot, _ | .readSnapshot, _ => true
  | .clearMarks, p | .setNoticeMask, p => p != some .faulted
  | .openSession, p => p == none
  | .loadPatchSite, p | .loadGuardRegion, p | .clearPatchTable, p | .startSession, p => p == some .opened
  | .passStart, p | .hold, p | .releaseHold, p | .sessionTune, p | .stampSupply, p => p == some .running
  | .releaseSlot, p => p == some .opened || p == some .running
  | .closeSession, p => p != none

/-- The parameter length of a request (R174, R187, R188); STAMP SUPPLY's is 5 plus the byte count it carries. -/
def ReqKind.lengthOk (k : ReqKind) (ps : List Byte) : Bool :=
  match k with
  | .identify | .engineReset | .clearPatchTable | .startSession | .hold | .releaseHold | .sessionStatus
  | .closeSession => ps.length == 0
  | .openSession => ps.length == 36
  | .loadPatchSite => ps.length == 32
  | .loadGuardRegion => ps.length == 10
  | .passStart => ps.length == 4
  | .sessionTune => ps.length == 26
  | .releaseSlot => ps.length == 1
  | .stampSupply => decide (5 ≤ ps.length) && ps.length == 5 + field ps 4 1
  | .slotStatus | .readSnapshot | .setNoticeMask => ps.length == 2
  | .clearMarks => ps.length == 5
  | .snapshot => ps.length == 1

/-- The position a REFUSED-RANGE names for a check that turns on the parameters at positions `ps`: the one, or one of
several, which one being a free value (R174, log 8). -/
def namedAmong (rule check : Nat) (params : List Byte) (ps : List Nat) : Nat :=
  ps.getD (Config.namedParam rule check params % ps.length) 0

/-- The positions whose values fail their check. -/
def failing (checks : List (Nat × Bool)) : List Nat := (checks.filter Prod.snd).map Prod.fst

/-! ## Session parameters (R4, R187) -/

/-- A value brought into its range (R4). -/
def clamp (lo hi v : Nat) : Nat := if v < lo then lo else if hi < v then hi else v

/-- A tunable field of R4: its range and default. -/
structure TuneRange where
  lo : Nat
  hi : Nat
  dflt : Nat
deriving DecidableEq, Repr

/-- The value a tunable field takes: the default when its member of the default set is present, else clamped (R4). -/
def TuneRange.value (r : TuneRange) (dflt : Bool) (v : Nat) : Nat := if dflt then r.dflt else clamp r.lo r.hi v

def depthRange : TuneRange := ⟨1, 4, 2⟩
def commandTimeoutRange : TuneRange := ⟨10, 10000, 2000⟩
def retryLimitRange : TuneRange := ⟨0, 7, 3⟩
def settleTimeRange : TuneRange := ⟨100, 2500, 500⟩
def paceIntervalRange : TuneRange := ⟨50, 1000, 250⟩
def declareCountRange : TuneRange := ⟨1, 255, 8⟩
def clearCountRange : TuneRange := ⟨1, 255, 4⟩
def decayIntervalRange : TuneRange := ⟨1, 60, 5⟩
def throttleRange : TuneRange := ⟨1, 63, 24⟩
def ejectRange : TuneRange := ⟨1, 63, 48⟩
def residencyMinRange : TuneRange := ⟨1, 255, 3⟩
def stampWaitRange : TuneRange := ⟨1, 60, 15⟩

/-- The throttle threshold lowered to the eject threshold if it lies above it (R4). -/
def Tunables.capped (t : Tunables) : Tunables := { t with throttle := min t.throttle t.eject }

/-- The twelve tunable fields, laid out from offset `off` (R187), with `pick i range value` deciding field `i`. -/
def readTunables (ps : List Byte) (off : Nat) (pick : Nat → TuneRange → Nat → Nat) : Tunables where
  depth := pick 0 depthRange (field ps off 1)
  commandTimeout := pick 1 commandTimeoutRange (field ps (off + 1) 2)
  retryLimit := pick 2 retryLimitRange (field ps (off + 3) 1)
  settleTime := pick 3 settleTimeRange (field ps (off + 4) 2)
  paceInterval := pick 4 paceIntervalRange (field ps (off + 6) 2)
  declareCount := pick 5 declareCountRange (field ps (off + 8) 1)
  clearCount := pick 6 clearCountRange (field ps (off + 9) 1)
  decayInterval := pick 7 decayIntervalRange (field ps (off + 10) 1)
  throttle := pick 8 throttleRange (field ps (off + 11) 1)
  eject := pick 9 ejectRange (field ps (off + 12) 1)
  residencyMin := pick 10 residencyMinRange (field ps (off + 13) 1)
  stampWait := pick 11 stampWaitRange (field ps (off + 14) 1)

/-- The tunable values OPEN SESSION asks for, after R4. Members 1 to 12 of its default set are its tunable fields. -/
def openTunables (ps : List Byte) : Tunables :=
  (readTunables ps 19 (fun i r v => r.value (member (field ps 34 2) (i + 1)) v)).capped

/-- The tunable values in order, as `SESSION TUNE` numbers them. -/
def Tunables.values (t : Tunables) : List Nat :=
  [t.depth, t.commandTimeout, t.retryLimit, t.settleTime, t.paceInterval, t.declareCount, t.clearCount,
   t.decayInterval, t.throttle, t.eject, t.residencyMin, t.stampWait]

/-- The tunable values after a SESSION TUNE (R113, R174): a field in the default set takes its default, one in the
given set is clamped, another keeps its value. -/
def tuneTunables (old : Tunables) (ps : List Byte) : Tunables :=
  (readTunables ps 7 (fun i r v =>
    if member (field ps 24 2) i then r.dflt
    else if member (field ps 22 2) (i + 4) then clamp r.lo r.hi v
    else old.values.getD i 0)).capped

/-- The session parameter block, positions 1 to 22 (R187). -/
def paramBlock (s : Session) : List Byte :=
  leBytes 4 s.imageLength ++ leBytes 2 s.windowSize ++ leBytes 2 s.pauseMark ++ leBytes 2 s.resumeMark ++
  leBytes 1 s.probeCount ++ leBytes 1 s.join.code ++ leBytes 1 s.laggard.code ++ leBytes 1 s.verify.code ++
  leBytes 1 s.qualify.code ++ leBytes 4 s.sessionTag.toNat ++ leBytes 1 s.tune.depth ++
  leBytes 2 s.tune.commandTimeout ++ leBytes 1 s.tune.retryLimit ++ leBytes 2 s.tune.settleTime ++
  leBytes 2 s.tune.paceInterval ++ leBytes 1 s.tune.declareCount ++ leBytes 1 s.tune.clearCount ++
  leBytes 1 s.tune.decayInterval ++ leBytes 1 s.tune.throttle ++ leBytes 1 s.tune.eject ++
  leBytes 1 s.tune.residencyMin ++ leBytes 1 s.tune.stampWait

/-! ## Upstream frames (R185, R189) -/

/-- The member of an event's kind in the mask and the seen set (R186). -/
def Event.member : Event → Fin 10
  | .slotChanged .. => 0
  | .passEnded .. => 1
  | .stampDeferred .. => 2
  | .stampStalled .. => 3
  | .held => 4
  | .laggard .. => 5
  | .imageMismatch .. => 6
  | .linkLost .. => 7
  | .ordinalsExhausted .. => 8
  | .snapshotTaken .. => 9

/-- A notice's event data (R189). -/
def Event.data : Event → List Byte
  | .slotChanged i old new o => leBytes 1 i.val ++ leBytes 1 old.code ++ leBytes 1 new.code ++ leBytes 1 (outcomeCode o)
  | .passEnded n w low => leBytes 2 n ++ leBytes 1 w ++ leOption 4 low
  | .stampDeferred i n site v =>
    leBytes 1 i.val ++ leBytes 2 n ++ leBytes 1 site ++ leBytes 1 (if v.isSome then 1 else 0) ++ leBytes 8 (v.getD 0)
  | .stampStalled i n site c => leBytes 1 i.val ++ leBytes 2 n ++ leBytes 1 site ++ leBytes 4 c
  | .held => []
  | .laggard i n a pins p =>
    leBytes 1 i.val ++ leBytes 2 n ++ leBytes 4 a ++ leBytes 1 pins ++ leBytes 1 p.code
  | .imageMismatch c rec_ got n => leBytes 4 c ++ leBytes 4 rec_.toNat ++ leBytes 4 got.toNat ++ leBytes 2 n
  | .linkLost k cause => leBytes 1 k.val ++ leBytes 1 cause.code
  | .ordinalsExhausted i => leBytes 1 i.val
  | .snapshotTaken n => leBytes 4 n.toNat

/-- The kind byte and body of an upstream frame (R185). -/
def UpFrame.body : UpFrame → Byte × List Byte
  | .reply r => (0x81#8, leBytes 2 r.tag.toNat ++ [r.code] ++ leBytes 1 r.status.code ++ [r.detail] ++ r.data)
  | .notice e => (0x82#8, leBytes 1 (e.member.val + 1) ++ e.data)
  | .flow f => (0x83#8, leBytes 1 f.flow.code ++ leOption 4 f.next ++ leOption 2 f.free)

/-- The bytes of an upstream frame: kind, body length, body (R185). -/
def UpFrame.bytes (f : UpFrame) : List Byte := f.body.1 :: (leBytes 2 f.body.2.length ++ f.body.2)

/-- The command a downstream frame is, from its bytes (R171, R185): kind, 2-byte body length, body; a SEGMENT of 4,101
bytes, a REQUEST of at least 3, anything else malformed. None for bytes that are not a header and a body of the length
it gives: the link layer delimits frames (R171). -/
def downstreamFrame : List Byte → Option Instr
  | kind :: lo :: hi :: body =>
    let len := leValue [lo, hi]
    if body.length ≠ len then none
    else if kind = 0x01#8 ∧ len = 4101 then
      some (.segment (BitVec.ofNat 32 (field body 0 4)) (BitVec.ofNat 8 (field body 4 1)) (body.drop 5))
    else if kind = 0x02#8 ∧ 3 ≤ len then
      some (.requestFrame (BitVec.ofNat 16 (field body 0 2)) (BitVec.ofNat 8 (field body 2 1)) (body.drop 3))
    else some (.malformedFrame kind (BitVec.ofNat 16 len))
  | _ => none

/-! ## Socket link messages (R190) -/

/-- The command a message from a link's bridge is, from its bytes (R190, R191). Bytes past the fields of a WRITE-ACK, a
PRESENCE or a PONG are ignored, as R191 and R192 ask only that a message is not too short. -/
def bridgeMessage (k : LinkIx) (bytes : List Byte) : Instr :=
  match bytes with
  | [] => .bridgeMessageMalformed k bytes
  | kind :: fields =>
    if kind = 0x24#8 then .pong k
    else match fields with
      | a :: b :: data =>
        if kind = 0x20#8 then .writeAck k a b
        else if kind = 0x21#8 then .readData k a b data
        else if kind = 0x22#8 then .capacity k a b data
        else if h : kind = 0x23#8 ∧ a.toNat < 16 ∧ b.toNat ≤ 1 then
          if b = 0 then .presenceRemoved k ⟨a.toNat, h.2.1⟩ else .presenceInserted k ⟨a.toNat, h.2.1⟩
        else .bridgeMessageMalformed k bytes
      | _ => .bridgeMessageMalformed k bytes

/-- The kind of command a piece of work is sent as (R87). -/
def Work.kind : Work → CmdKind
  | .size => .size
  | .probeWrite _ | .piece .. => .write
  | .probeRead _ | .verify .. => .read

/-- WRITE: kind, tag, socket, first sector, sector count, data. -/
def writeMessage (tag : LinkTag) (socket : Socket) (first count : Nat) (data : List Byte) : List Byte :=
  0x10#8 :: tag :: (leBytes 1 socket.val ++ leBytes 8 first ++ leBytes 1 count ++ data)

/-- READ: kind, tag, socket, first sector, sector count. -/
def readMessage (tag : LinkTag) (socket : Socket) (first count : Nat) : List Byte :=
  0x11#8 :: tag :: (leBytes 1 socket.val ++ leBytes 8 first ++ leBytes 1 count)

/-- SIZE: kind, tag, socket. -/
def sizeMessage (tag : LinkTag) (socket : Socket) : List Byte := 0x12#8 :: tag :: leBytes 1 socket.val

/-- LAMP: kind, socket, pattern. -/
def lampMessage (socket : Socket) (p : LampPattern) : List Byte := 0x13#8 :: (leBytes 1 socket.val ++ leBytes 1 p.code)

/-- PING: kind alone. -/
def pingMessage : List Byte := [0x14#8]

end Sys2Proof.Machine
end

