-- ==== Sys2Proof/Machine/Arith.lean ====
section
/-! DEFINITION. The arithmetic of the reference: the CRC (R42), the digest table, the division of a chunk into pieces
(R98), site values and their encodings (R121 to R125), guard sums (R126, R127) and probe patterns (R73). -/

namespace Sys2Proof.Machine

/-! ## CRC (R42) -/

/-- One right shift of the CRC register. -/
def crcShift (r : Word32) : Word32 :=
  if r.getLsbD 0 then (r >>> 1) ^^^ 0xEDB88320#32 else r >>> 1

/-- The register after one byte. -/
def crcByte (r : Word32) (b : Byte) : Word32 :=
  crcShift (crcShift (crcShift (crcShift (crcShift (crcShift (crcShift (crcShift (r ^^^ b.setWidth 32))))))))

/-- The register carried over a run of bytes. -/
def crcRun (r : Word32) (bs : List Byte) : Word32 := bs.foldl crcByte r

/-- The register before the first byte. -/
def crcStart : Word32 := 0xFFFFFFFF#32

/-- The CRC of a message. -/
def crc (bs : List Byte) : Word32 := ~~~ crcRun crcStart bs

/-! ## The digest table (R40) -/

/-- The digest entry of a chunk, absent or present with its CRC. -/
def digestEntry (d : List (Nat × Word32)) (c : Nat) : Option Word32 := (d.find? (fun e => e.1 == c)).map Prod.snd

/-- The table with the entry of a chunk made present. -/
def digestPut (d : List (Nat × Word32)) (c : Nat) (v : Word32) : List (Nat × Word32) :=
  d.filter (fun e => decide (e.1 < c)) ++ ((c, v) :: d.filter (fun e => decide (c < e.1)))

/-! ## Sites and pieces (R98, R114) -/

/-- The sites of a chunk, with their numbers. -/
def sitesOf (sites : List Site) (c : Nat) : List (Nat × Site) :=
  (sites.zipIdx.map (fun p => (p.2, p.1))).filter (fun p => p.2.chunk == c)

/-- A sector of a chunk is stamped when one of its bytes belongs to a site of the chunk (R98). -/
def sectorStamped (sites : List Site) (c sector : Nat) : Bool :=
  sites.any (fun t => t.chunk == c && decide (0 < t.width) && decide (t.offset < Config.sectorBytes * (sector + 1)) &&
    decide (Config.sectorBytes * sector < t.offset + t.width))

/-- The maximal runs of like sectors in a list of consecutive sectors. -/
def runsOf (like : Nat → Bool) : List Nat → List Piece
  | [] => []
  | x :: xs =>
    match runsOf like xs with
    | [] => [⟨like x, x, 1⟩]
    | p :: ps => if p.stamped = like x then ⟨like x, x, p.count + 1⟩ :: ps else ⟨like x, x, 1⟩ :: p :: ps

/-- The pieces of a chunk in issue order (R98): one pristine WRITE of 128 sectors when the stamped-sector mark is clear,
else its pristine runs and then its stamped runs, each in ascending sector order. -/
def piecesOf (sites : List Site) (c : Nat) (marked : Bool) : List Piece :=
  if marked then
    let runs := runsOf (sectorStamped sites c) (List.range Config.chunkSectors)
    runs.filter (fun p => !p.stamped) ++ runs.filter (fun p => p.stamped)
  else [⟨false, 0, Config.chunkSectors⟩]

/-- How many of a chunk's pieces are pristine; they stand first. -/
def pristineCount (ps : List Piece) : Nat := (ps.filter (fun p => !p.stamped)).length

/-! ## Site values and encodings (R120 to R125) -/

/-- The value of a computed site for ordinal `n` and capacity `c` (R121, R122). -/
def siteValue (k : SiteKind) (n c : Nat) : Nat :=
  match k with
  | .ordinal _ _ base stride => base + n * stride
  | .capacity _ _ off al => (c - off) / al * al
  | .supplied | .guard _ => 0

/-- The number of values a computed site of width `w` can show (R123). -/
def siteLimit (k : SiteKind) (w : Nat) : Nat :=
  match k with
  | .ordinal .dec _ _ _ => 10 ^ w
  | .ordinal .decCheck _ _ _ => 10 ^ (w - 1)
  | .ordinal .hex _ _ _ => 16 ^ w
  | _ => 256 ^ w

/-- The `w` digits of `v` in base `b`, most significant first. -/
def digits (b : Nat) : Nat → Nat → List Nat
  | 0, _ => []
  | w + 1, v => digits b w (v / b) ++ [v % b]

/-- An ASCII digit, '0' to '9' and then 'A' to 'F' (R124). -/
def asciiDigit (d : Nat) : Byte := BitVec.ofNat 8 (if d < 10 then 48 + d else 55 + d)

/-- The weighted sum of digits given from the rightmost leftward, with weights 3, 1, 3, 1, … (R125). -/
def checkSum : List Nat → Bool → Nat
  | [], _ => 0
  | d :: ds, heavy => (if heavy then 3 * d else d) + checkSum ds (!heavy)

/-- The check digit over value digits given most significant first (R125). -/
def checkDigit (ds : List Nat) : Nat := (10 - checkSum ds.reverse true % 10) % 10

/-- A value below its limit encoded into `w` bytes (R124, R125). -/
def encodeValue (k : SiteKind) (w v : Nat) : List Byte :=
  match k with
  | .ordinal .be _ _ _ => (leBytes w v).reverse
  | .ordinal .dec _ _ _ => (digits 10 w v).map asciiDigit
  | .ordinal .decCheck _ _ _ =>
    (digits 10 (w - 1) v).map asciiDigit ++ [asciiDigit (checkDigit (digits 10 (w - 1) v))]
  | .ordinal .hex _ _ _ => (digits 16 w v).map asciiDigit
  | .capacity true _ _ _ => (leBytes w v).reverse
  | _ => leBytes w v

/-- The overflow mode of a computed site. -/
def SiteKind.mode : SiteKind → Option OverflowMode
  | .ordinal _ m _ _ => some m
  | .capacity _ m _ _ => some m
  | .supplied | .guard _ => none

/-- A non-GUARD site rendered for ordinal `n` and capacity `c`: its entry, and for a DEFERRED one the value that
overflowed (none for a SUPPLIED site) (R120, R123). -/
def renderSite (t : Site) (n c : Nat) : StampEntry × Option Nat :=
  match t.kind.mode with
  | none => (.deferred, none)
  | some m =>
    let v := siteValue t.kind n c
    let limit := siteLimit t.kind t.width
    if v < limit then (.rendered (encodeValue t.kind t.width v), none)
    else match m with
      | .wrap => (.rendered (encodeValue t.kind t.width (v % limit)), none)
      | .clamp => (.rendered (encodeValue t.kind t.width (limit - 1)), none)
      | .defer => (.deferred, some v)

/-- The bytes a stamp entry holds. -/
def StampEntry.bytes? : StampEntry → Option (List Byte)
  | .rendered bs | .supplied bs => some bs
  | .unrendered | .deferred => none

/-- A RENDERED or SUPPLIED entry. -/
def StampEntry.ready (e : StampEntry) : Bool := e.bytes?.isSome

/-! ## Guard sums (R126, R127) -/

/-- A site is wholly inside a region. -/
def Site.inside (t : Site) (g : Region) : Bool :=
  t.chunk == g.chunk && decide (g.start ≤ t.offset) && decide (t.offset + t.width ≤ g.start + g.length)

/-- A site shares a byte with a region of its chunk. -/
def Site.touches (t : Site) (g : Region) : Bool :=
  t.chunk == g.chunk && decide (t.offset < g.start + g.length) && decide (g.start < t.offset + t.width)

/-- The weight of a region position (R126). -/
def guardWeight (i : Nat) : Word32 := BitVec.ofNat 32 (i % 255 + 1)

/-- The weighted sum of bytes from position `i` on, leaving out the positions `skip` picks, modulo 2^32 (R126). -/
def guardSum (skip : Nat → Bool) : Nat → List Byte → Word32
  | _, [] => 0
  | i, b :: bs => (if skip i then 0 else b.setWidth 32 * guardWeight i) + guardSum skip (i + 1) bs

/-- What a site adds to a guard sum: the differences of its stamp from its pristine bytes, weighted from position `i`
on, modulo 2^32 (R127). -/
def guardDelta : Nat → List Byte → List Byte → Word32
  | i, b :: bs, p :: ps => (b.setWidth 32 - p.setWidth 32) * guardWeight i + guardDelta (i + 1) bs ps
  | _, _, _ => 0

/-- The number of a region's GUARD site, if it has one. -/
def guardSiteOf (sites : List Site) (region : Nat) : Option Nat :=
  sites.findIdx? (fun t => t.kind == .guard region)

/-- The positions of a region that belong to its GUARD site (R126). -/
def guardSkip (sites : List Site) (region : Nat) (g : Region) (i : Nat) : Bool :=
  sites.any (fun t => t.kind == .guard region && decide (t.offset ≤ g.start + i) &&
    decide (g.start + i < t.offset + t.width))

/-! ## Probes (R73) -/

/-- Probe sector `j` of a stick of `c` sectors with `k` probes. -/
def probeSector (c k j : Nat) : Nat := j * (c - 1) / (k - 1)

/-- The 16-byte pattern of probe `j`. -/
def probePattern (tag : Word32) (slot : SlotIx) (sector j : Nat) : List Byte :=
  leBytes 4 tag.toNat ++ leBytes 2 slot.val ++ leBytes 2 j ++ leBytes 4 sector ++ leBytes 4 (~~~tag).toNat

/-- The content of a probe sector: its pattern 32 times. -/
def probeData (tag : Word32) (slot : SlotIx) (c k j : Nat) : List Byte :=
  (List.replicate 32 (probePattern tag slot (probeSector c k j) j)).flatten

end Sys2Proof.Machine
end

