-- ==== Sys2Proof/Machine/Flags.lean ====
section
/-! DEFINITION. Access to slot and link records, and the operations of NCU: counters (R198, R199), seen flags, notices
(R193, R194) and change marks with the slot change itself (R62, R81, R196). -/

namespace Sys2Proof.Machine

/-! ## Slot and link records -/

/-- The record of a slot. -/
def State.slot (s : State) (i : SlotIx) : Slot := s.slots[i]

/-- Replace the record of a slot. -/
def State.setSlot (s : State) (i : SlotIx) (v : Slot) : State := { s with slots := s.slots.set i v }

/-- Change the record of a slot. -/
def State.updSlot (s : State) (i : SlotIx) (f : Slot → Slot) : State := s.setSlot i (f (s.slot i))

/-- The record of a socket link. -/
def State.link (s : State) (k : LinkIx) : Link := s.links[k]

/-- Replace the record of a socket link. -/
def State.setLink (s : State) (k : LinkIx) (v : Link) : State := { s with links := s.links.set k v }

/-- Change the record of a socket link. -/
def State.updLink (s : State) (k : LinkIx) (f : Link → Link) : State := s.setLink k (f (s.link k))

/-- The slot of a socket of a link (R85). -/
def slotAt (k : LinkIx) (j : Socket) : SlotIx := ⟨16 * k.val + j.val, by omega⟩

/-- The link of a slot (R85). -/
def linkOf (i : SlotIx) : LinkIx := ⟨i.val / 16, by omega⟩

/-- The socket of a slot (R85). -/
def socketOf (i : SlotIx) : Socket := ⟨i.val % 16, by omega⟩

/-- Run an event over every slot, in ascending slot number. -/
def State.forSlots (s : State) (f : SlotIx → State → State) : State :=
  (List.finRange 192).foldl (fun t i => f i t) s

/-! ## Counters -/

/-- One increment (R198): it stays at its maximum and sets the saturated flag there. -/
def Counter.bump (c : Counter) : Counter :=
  if c.value = BitVec.allOnes 32 then { c with saturated := true } else { c with value := c.value + 1 }

/-- The engine counters by their places in R198, less 1. -/
def ctrChunks : Fin 10 := 0
def ctrNoPass : Fin 10 := 1
def ctrDuplicate : Fin 10 := 2
def ctrOutOfOrder : Fin 10 := 3
def ctrOverrun : Fin 10 := 4
def ctrSequence : Fin 10 := 5
def ctrBadFrames : Fin 10 := 6
def ctrLate : Fin 10 := 7
def ctrLapsed : Fin 10 := 8
def ctrNoticesLost : Fin 10 := 9

/-- The per-slot counters by their places in R199, less 1. -/
def ctrWritten : Fin 5 := 0
def ctrRetried : Fin 5 := 1
def ctrTimeouts : Fin 5 := 2
def ctrMedium : Fin 5 := 3
def ctrMismatches : Fin 5 := 4

/-- Count one on an engine counter (R198). -/
def State.count (s : State) (k : Fin 10) : State :=
  { s with ncu.counters := s.ncu.counters.set k s.ncu.counters[k].bump }

/-- Count one on a counter of a slot (R199). -/
def State.countSlot (s : State) (i : SlotIx) (k : Fin 5) : State :=
  s.updSlot i (fun sl => { sl with counters := sl.counters.set k sl.counters[k].bump })

/-! ## Events -/

/-- The bit of an event kind in the mask and the seen set. -/
def Event.bit (e : Event) : BitVec 10 := 1#10 <<< e.member.val

/-- Append a notice, or drop it when 32 are waiting (R194). -/
def State.appendNotice (s : State) (e : Event) : State :=
  if s.ncu.notices.length < Config.noticeQueue then { s with ncu.notices := s.ncu.notices ++ [e] }
  else { s with ncu.noticesLost := true }.count ctrNoticesLost

/-- Raise an event (R193): its seen flag is set, and its notice appended when its kind is enabled. -/
def State.raise (s : State) (e : Event) : State :=
  let s1 := { s with ncu.seen := s.ncu.seen ||| e.bit }
  if s.ncu.mask.getLsbD e.member.val then s1.appendNotice e else s1

/-! ## Slot changes and lamps -/

/-- The lamp pattern of a slot state (R81). -/
def SlotState.lamp : SlotState → LampPattern
  | .empty => .off
  | .settling | .present | .sizing | .probing | .ready => .amberSteady
  | .waiting | .live | .verifying => .amberBlink
  | .done => .green
  | .failed => .red

/-- The evaluation of a lamp record for a pattern (R81): due when it differs from the pattern shown. -/
def Lamp.eval (l : Lamp) (p : LampPattern) : Lamp := { l with due := if p = l.shown then none else some p }

/-- A slot change (R62): the new state, the change mark, the SLOT-CHANGED event with the outcome as it stands, and the
lamp evaluated. The lamp after several changes of one event is the lamp of the last, since the evaluation looks at the
new state and the shown pattern alone. -/
def State.moveSlot (s : State) (i : SlotIx) (new : SlotState) : State :=
  let sl := s.slot i
  (s.setSlot i { sl with state := new, changeMark := true, lamp := sl.lamp.eval new.lamp }).raise
    (.slotChanged i sl.state new (sl.outcome.map Outcome.kind))

/-- Write an outcome record where none is held (R79). -/
def Slot.withOutcome (sl : Slot) (o : Outcome) : Slot := { sl with outcome := some (sl.outcome.getD o) }

/-- A slot enrolled in the session: WAITING, LIVE or VERIFYING (00_scope.md, Terms). -/
def SlotState.enrolled : SlotState → Bool
  | .waiting | .live | .verifying => true
  | _ => false

end Sys2Proof.Machine
end

