-- ==== Sys2Proof/Machine/Ops.lean ====
section
/-! DEFINITION. The shared operations of the engine: replies and FLOW frames, flow (R57), the window's counts and
retirement (R32, R34), pass end (R12), the abandonment of commands (R94), the ways a slot leaves a state (R64, R159,
R165), trouble (R163, R164), HELD (R109), acknowledgement (R103, R13, R14), the stamp store and enrolment (R7, R8). -/

namespace Sys2Proof.Machine

/-! ## Reading the session -/

/-- The values read where no session exists: all zero. No rule that needs a session value acts in state NONE, and flow
is PAUSED there whatever they are (R57), so in no state a run reaches do they decide a result (log 18). -/
def Session.blank : Session where
  phase := .opened
  imageLength := 0
  windowSize := 0
  pauseMark := 0
  resumeMark := 0
  probeCount := 0
  join := .nextPass
  laggard := .wait
  verify := .off
  qualify := .sizeOnly
  sessionTag := 0
  tune := ⟨0, 0, 0, 0, 0, 0, 0, 0, 0, 0, 0, 0⟩
  nextOrdinal := 0
  exhausted := false
  faultChunk := none
  passNumber := 0
  pass := .noPass
  startChunk := 0
  nextChunk := 0

/-- The session record in force. -/
def State.ses (s : State) : Session := s.session.getD Session.blank

/-- Change the session record of a session that exists. -/
def State.updSession (s : State) (f : Session → Session) : State := { s with session := s.session.map f }

/-- The session state, none for NONE. -/
def State.phase (s : State) : Option SessionPhase := s.session.map Session.phase

/-- The session is RUNNING. -/
def State.running (s : State) : Bool := s.phase == some .running

/-- The session is FAULTED. -/
def State.faulted (s : State) : Bool := s.phase == some .faulted

/-- The pass is STREAMING (and a session exists). -/
def State.streaming (s : State) : Bool := s.session.any (fun x => x.pass == .streaming)

/-- The settle time read at this moment: the session's, or 500 ms in NONE (R1). -/
def State.settleTime (s : State) : Nat := (s.session.map (fun x => x.tune.settleTime)).getD Config.idleSettle

/-- The time is at least `d`: the timer with deadline `d` has just expired (log 2). -/
def State.reach (s : State) (d : Nat) : State := { s with now := max s.now d }

/-! ## The window's figures (R27) -/

/-- Free frames: the window size less the records, absent in NONE. -/
def State.free (s : State) : Option Nat := s.session.map (fun x => x.windowSize - s.win.records.length)

/-- H, absent in NONE. -/
def State.head (s : State) : Option Nat := s.session.map Session.nextChunk

/-- T: the first record's chunk, or H when the list is empty; absent in NONE. -/
def State.tail (s : State) : Option Nat :=
  s.session.map (fun x => ((s.win.records.head?).map ChunkRecord.chunk).getD x.nextChunk)

/-- The record of a chunk. -/
def State.record (s : State) (c : Nat) : Option ChunkRecord := s.win.records.find? (fun r => r.chunk == c)

/-- The lowest-numbered free frame (R24). -/
def lowestFree (rs : List ChunkRecord) : Nat :=
  ((List.range Config.frames).find? (fun f => rs.all (fun r => r.frame != f))).getD 0

/-- The pieces of a chunk (R98), divided by its record's mark while it is in the window (R36). -/
def State.pieces (s : State) (c : Nat) : List Piece :=
  let marked := match s.record c with
    | some r => (r.resident.map Resident.stamped).getD false
    | none => s.stu.sites.any (fun t => t.chunk == c)
  piecesOf s.stu.sites c marked

/-! ## Replies and FLOW frames -/

/-- A REPLY frame joins the end of the outbox (R176). -/
def State.pushReply (s : State) (r : Reply) : State := { s with req.outbox := s.req.outbox ++ [r] }

/-- Refuse a request (R174, R175). -/
def State.answer (s : State) (r : Request) (st : ReplyStatus) (detail : Nat) (data : List Byte) : State :=
  s.pushReply ⟨r.tag, r.code, st, BitVec.ofNat 8 detail, data⟩

/-- The REPLY of a request taken, with status OK or OK-HELD (R175); its detail is a free value (log 36). -/
def acceptance (tag : ReqTag) (code : Byte) (st : ReplyStatus) (data : List Byte) : Reply :=
  ⟨tag, code, st, Config.acceptedDetail tag code data, data⟩

/-- Answer a request taken (R175). -/
def State.accept (s : State) (r : Request) (st : ReplyStatus) (data : List Byte) : State :=
  s.pushReply (acceptance r.tag r.code st data)

/-- Settle the pending HOLD reply, if any, with a status and the hold state it reports (R109 to R111). -/
def State.settleHold (s : State) (st : ReplyStatus) (h : HoldState) : State :=
  match s.wsc.holdReply with
  | none => s
  | some tag => { s with wsc.holdReply := none }.pushReply (acceptance tag holdCode st (leBytes 1 h.code))

/-- Place a FLOW frame with the flow state, H and free frames as they stand (R59, R178): a ninth takes the place of the
newest. -/
def State.sendFlow (s : State) : State :=
  let f : FlowFrame := ⟨s.intake.flow, s.head, s.free⟩
  let q := if s.req.flowOut.length < Config.flowOutbox then s.req.flowOut else s.req.flowOut.dropLast
  { s with req.flowOut := q ++ [f] }

/-- The flow state R57 gives on the inputs as they stand. -/
def State.flowNext (s : State) : FlowState :=
  let free := s.free.getD 0
  match s.intake.flow with
  | .opened =>
    if free ≤ s.ses.pauseMark ∨ s.wsc.hold ≠ .run ∨ s.streaming = false then .paused else .opened
  | .paused =>
    if s.ses.resumeMark ≤ free ∧ s.wsc.hold = .run ∧ s.streaming = true then .opened else .paused

/-- Intake's evaluation of the flow state (R57 to R59): nothing while the link is DOWN; a change sends a FLOW frame. -/
def State.evalFlow (s : State) : State :=
  if s.intake.linkUp = true ∧ s.flowNext ≠ s.intake.flow then { s with intake.flow := s.flowNext }.sendFlow else s

/-! ## Pending counts, retirement and pass end -/

/-- Lower by one the pending count of every resident chunk that `owes` picks (R32). -/
def lowerOwed (owes : Nat → Bool) (rs : List ChunkRecord) : List ChunkRecord :=
  rs.map (fun r =>
    { r with resident := r.resident.map (fun x => if owes r.chunk then { x with owed := x.owed - 1 } else x) })

/-- The list after retirement (R34): RESIDENT tail records with pending count 0 are gone. -/
def retired : List ChunkRecord → List ChunkRecord
  | [] => []
  | r :: rs =>
    match r.resident with
    | some x => if x.owed = 0 then retired rs else r :: rs
    | none => r :: rs

/-- The slots in WAITING. -/
def State.waitingSlots (s : State) : List Slot := s.slots.toList.filter (fun sl => sl.state == .waiting)

/-- The lowest current-span from among the slots in WAITING (R12). -/
def State.lowestFrom (s : State) : Option Nat :=
  ((s.waitingSlots.filterMap Slot.span).map Span.lo).min?

/-- Clear every rostered mark (R12, R17). -/
def State.clearRoster (s : State) : State := { s with slots := s.slots.map (fun sl => { sl with rostered := false }) }

/-- Pass end (R12). -/
def State.passEnd (s : State) : State :=
  let s1 := (s.updSession (fun x => { x with pass := .noPass })).clearRoster
  s1.raise (.passEnded s.ses.passNumber s.waitingSlots.length s.lowestFrom)

/-- Retirement, and the end of a DRAINING pass whose window has become empty (R34, R35, R12). -/
def State.retire (s : State) : State :=
  let kept := retired s.win.records
  let s1 := { s with win.records := kept }
  if kept = [] ∧ s.win.records ≠ [] ∧ s.ses.pass = .draining then s1.passEnd else s1

/-- Retirement after an event that may have lowered counts, and the flow state when records went (R34, R35, R58). -/
def State.retireFlow (s : State) : State :=
  let s1 := s.retire
  if s1.win.records.length = s.win.records.length then s1 else s1.evalFlow

/-! ## HELD (R109, R111) -/

/-- The transmit path of a link is held for a slot. -/
def Link.grants (l : Link) (i : SlotIx) : Bool := l.path.any (fun g => g.slot == i)

/-- A slot does not stand in the way of HELD: it is not enrolled, or has nothing in flight or granted and, while
RUNNING, no rewrite queued (R144) and no partly issued chunk other than one at which it holds a stall record. -/
def State.atRest (s : State) (i : SlotIx) : Bool :=
  let sl := s.slot i
  !sl.state.enrolled || (sl.inFlight.isEmpty && !(s.link (linkOf i)).grants i &&
    (s.faulted || (sl.rewrites.isEmpty &&
      (sl.piecesSent == 0 || sl.stall.any (fun x => sl.issueCursor == some x.chunk)))))

/-- The test for HELD, and HELD itself: the pending reply OK-HELD and the HELD notice. -/
def State.testHeld (s : State) : State :=
  if s.wsc.hold = .holding ∧ (s.running || s.faulted) = true ∧ (List.finRange 192).all s.atRest = true then
    (({ s with wsc.hold := .held }).settleHold .okHeld .held).raise .held
  else s

/-- What ends an event that can have released pending or given up a depth place: retirement, pass end, flow, then the
test for HELD (log 12). -/
def State.close (s : State) : State := s.retireFlow.testHeld

/-! ## Depth places and abandonment (R94, R99) -/

/-- The place of a command granted and not yet sent that has no entry in its slot's list. -/
def State.grantPlace (s : State) (i : SlotIx) : Nat :=
  if (s.link (linkOf i)).path.any (fun g => g.slot == i && g.origin != .waiting) then 1 else 0

/-- The places a slot occupies: its entries, and a command granted and not yet sent that has none. -/
def State.places (s : State) (i : SlotIx) : Nat := (s.slot i).inFlight.length + s.grantPlace i

/-- The depth in force: the throttled depth, else D for an enrolled slot and 1 for a qualifying one (R99, R69). -/
def State.depth (s : State) (i : SlotIx) : Nat :=
  let sl := s.slot i
  if sl.state.enrolled then (if sl.throttled then sl.throttledDepth.getD 1 else s.ses.tune.depth) else 1

/-- A slot gives up `n` depth places: a throttled depth above 1 falls with each, down to 1 (R99). -/
def Slot.givePlaces (sl : Slot) (n : Nat) : Slot :=
  { sl with throttledDepth := sl.throttledDepth.map (fun d => max 1 (d - n)) }

/-- The tag of an abandoned command: ORPHANED when its slot goes EMPTY, else ABANDONED (R94). -/
def TagState.abandon (i : SlotIx) (toEmpty : Bool) (t : TagState) : TagState :=
  match t with
  | .bound b => if b.slot = i then (if toEmpty then .orphaned b else .abandoned b) else t
  | .abandoned b => if b.slot = i ∧ toEmpty = true then .orphaned b else t
  | _ => t

/-- Withdraw a link's waiting piece transfers (R43). -/
def withdraw (k : LinkIx) (ts : List Transfer) : List Transfer :=
  ts.filter (fun t => t != .stamp k && t != .drain k)

/-- Release a link's transmit path if it is held for a slot: the piece being read is stopped (R25, R97). -/
def State.stopRead (s : State) (i : SlotIx) : State :=
  let k := linkOf i
  if (s.link k).grants i then
    { s.updLink k (fun l => { l with path := none }) with win.waiting := withdraw k s.win.waiting }
  else s

/-- Abandon a slot's commands (R94): the read is stopped, the list and the rewrite queue are emptied, and its tags
become ABANDONED or ORPHANED. The record of the pieces sent goes with them (R204). -/
def State.abandon (s : State) (i : SlotIx) (toEmpty : Bool) : State :=
  let n := s.places i
  ((s.stopRead i).updSlot i (fun sl =>
      { sl.givePlaces n with inFlight := [], rewrites := [], piecesSent := 0 })).updLink (linkOf i)
    (fun l => { l with tags := l.tags.map (TagState.abandon i toEmpty) })

/-! ## Leaving states -/

/-- The chunks a LIVE slot owes, given H (R32). -/
def Slot.owes (sl : Slot) (h : Nat) (c : Nat) : Bool :=
  match sl.ackPoint, sl.span with
  | some a, some sp => decide (a ≤ c) && decide (c < min sp.hi h) && !sl.ahead.contains c
  | _, _ => false

/-- Release the pending a LIVE slot owes (R32). -/
def State.releaseOwed (s : State) (i : SlotIx) : State :=
  let sl := s.slot i
  if sl.state = .live then
    { s with win.records := lowerOwed (sl.owes (s.head.getD 0)) s.win.records }
  else s

/-- What every departure of a slot from a state has in common: commands abandoned (R94), owed pending released (R32),
the stall record absent (R132), the rostered mark clear (R16), the acknowledged-ahead set empty (R204). -/
def State.leave (s : State) (i : SlotIx) (toEmpty : Bool) : State :=
  ((s.abandon i toEmpty).releaseOwed i).updSlot i (fun sl => { sl with stall := none, rostered := false, ahead := [] })

/-- A slot goes to FAILED with an outcome (R79). -/
def State.failSlot (s : State) (i : SlotIx) (o : Outcome) : State :=
  ((s.leave i false).updSlot i (fun sl => { sl.withOutcome o with qual := none })).moveSlot i .failed

/-- A slot that is not EMPTY goes to EMPTY (R64, R83); an enrolled slot records `why`. -/
def State.emptySlot (s : State) (i : SlotIx) (why : OutcomeKind) : State :=
  let sl := s.slot i
  if sl.state = .empty then s
  else
    ((s.leave i true).updSlot i (fun t =>
      { (if sl.state.enrolled then t.withOutcome ⟨why, none, none, none⟩ else t) with
        settleDeadline := none, qual := none })).moveSlot i .empty

/-- A LIVE slot goes back to WAITING with the unacknowledged rest of its span (R15, R159). -/
def State.detachSlot (s : State) (i : SlotIx) : State :=
  ((s.leave i false).updSlot i (fun sl =>
    { sl with
      span := sl.span.map (fun sp => ⟨sl.ackPoint.getD sp.lo, sp.hi⟩)
      issueCursor := sl.ackPoint
      pinCount := 0, clearCount := 0 })).moveSlot i .waiting

/-! ## Trouble (R163 to R165) -/

/-- The throttled flag and the residency count after a rise at or above the throttle threshold (R164, R99). -/
def State.throttleSlot (s : State) (i : SlotIx) : State :=
  let n := s.places i
  s.updSlot i (fun sl =>
    if sl.throttled then { sl with residency := 0 }
    else { sl with throttled := true, residency := 0, throttledDepth := some (max 1 n) })

/-- Raise a slot's trouble score by a weight and compare it: ejection, or throttling, and then the owning rule's retry
decision `go` (R163, R164, R165). -/
def State.raiseTrouble (s : State) (i : SlotIx) (weight : Nat) (go : State → State) : State :=
  let score := min 63 ((s.slot i).trouble + weight)
  let s1 := s.updSlot i (fun sl => { sl with trouble := score })
  if s.ses.tune.eject ≤ score then s1.failSlot i ⟨.trouble, none, none, none⟩
  else go (if s.ses.tune.throttle ≤ score then s1.throttleSlot i else s1)

/-! ## In-flight entries -/

/-- The entry that holds a tag. -/
def Slot.entry (sl : Slot) (tag : LinkTag) : Option Entry := sl.inFlight.find? (fun e => e.tag == some tag)

/-- The list without the entry that holds a tag. -/
def Slot.dropEntry (sl : Slot) (tag : LinkTag) : Slot :=
  { sl with inFlight := sl.inFlight.eraseP (fun e => e.tag == some tag) }

/-- The list with the entry that holds a tag replaced in its place. -/
def Slot.putEntry (sl : Slot) (tag : LinkTag) (e : Entry) : Slot :=
  { sl with inFlight := sl.inFlight.map (fun x => if x.tag = some tag then e else x) }

/-- The retry decision for an entry in a depth place (R104, R106, R145, R146): a waiting entry with retries used one
higher below the limit, else FAILED. -/
def State.retryEntry (s : State) (i : SlotIx) (tag : LinkTag) (e : Entry) (o : Outcome) : State :=
  if e.retries < s.ses.tune.retryLimit then
    s.updSlot i (fun sl => sl.putEntry tag ⟨e.work, none, e.retries + 1⟩)
  else s.failSlot i o

/-! ## The stamp record store (R119 to R130) -/

/-- A slot's entry for a site. -/
def State.entry (s : State) (i : SlotIx) (site : Nat) : StampEntry :=
  if h : site < 32 then s.stu.entries[i][site] else .unrendered

/-- Set a slot's entry for a site. -/
def State.setEntry (s : State) (i : SlotIx) (site : Nat) (e : StampEntry) : State :=
  if h : site < 32 then { s with stu.entries := s.stu.entries.set i (s.stu.entries[i].set site e) } else s

/-- A slot's 32 entries become UNRENDERED (R119). -/
def State.clearEntries (s : State) (i : SlotIx) : State :=
  { s with stu.entries := s.stu.entries.set i (.replicate 32 .unrendered) }

/-- Render one site at enrolment (R120). -/
def State.renderOne (s : State) (i : SlotIx) (n c : Nat) (site : Nat) (t : Site) : State :=
  match t.kind with
  | .guard _ => s
  | _ =>
    let r := renderSite t n c
    let s1 := s.setEntry i site r.1
    if r.1 = .deferred then s1.raise (.stampDeferred i n site r.2) else s1

/-- Render a slot's stamps for its ordinal and capacity (R120). -/
def State.renderStamps (s : State) (i : SlotIx) (n c : Nat) : State :=
  s.stu.sites.zipIdx.foldl (fun t p => t.renderOne i n c p.2 p.1) (s.clearEntries i)

/-- Every site of a chunk has its entry for the slot in RENDERED or SUPPLIED (R100, R130). -/
def State.chunkReady (s : State) (i : SlotIx) (c : Nat) : Bool :=
  (sitesOf s.stu.sites c).all (fun p => (s.entry i p.1).ready)

/-- The lowest-numbered site of a chunk whose entry is DEFERRED (R130). -/
def State.lowestDeferred (s : State) (i : SlotIx) (c : Nat) : Option Nat :=
  ((sitesOf s.stu.sites c).find? (fun p => s.entry i p.1 == .deferred)).map Prod.fst

/-- The guard sum of a region for a slot: its base sum and the weighted differences of the other sites inside it, when
the base sum is present and all of those are RENDERED or SUPPLIED (R127). -/
def State.guardValue (s : State) (i : SlotIx) (guardSite : Nat) (g : Region) : Option Word32 :=
  let others := (s.stu.sites.zipIdx).filter (fun p => p.2 != guardSite && p.1.inside g)
  if others.all (fun p => (s.entry i p.2).ready) then
    g.baseSum.map (fun b => others.foldl (fun acc p =>
      acc + guardDelta (p.1.offset - g.start) (((s.entry i p.2).bytes?).getD []) (p.1.pristine.getD [])) b)
  else none

/-- The attempt at rendering the GUARD entry of a site (R127). -/
def State.attemptGuard (s : State) (i : SlotIx) (site : Nat) : State :=
  match s.stu.sites[site]? with
  | some t =>
    match t.kind with
    | .guard r =>
      match s.stu.regions[r]? with
      | some g =>
        match s.entry i site, s.guardValue i site g with
        | .unrendered, some v => s.setEntry i site (.rendered (leBytes 4 v.toNat))
        | _, _ => s
      | none => s
    | _ => s
  | none => s

/-- The attempts at the GUARD entries of a chunk (R130). -/
def State.attemptGuards (s : State) (i : SlotIx) (c : Nat) : State :=
  (sitesOf s.stu.sites c).foldl (fun t p => t.attemptGuard i p.1) s

/-- The stall test at the first send of a chunk's last pristine piece (R130). -/
def State.stallTest (s : State) (i : SlotIx) (c : Nat) : State :=
  let s1 := s.attemptGuards i c
  if s1.chunkReady i c then s1
  else match s1.lowestDeferred i c with
    | none => s1
    | some k =>
      (s1.updSlot i (fun sl => { sl with stall := some ⟨k, c, s1.now + 1000 * s1.ses.tune.stampWait⟩ })).raise
        (.stampStalled i ((s1.slot i).ordinal.getD 0) k c)

/-! ## Enrolment (R7, R8) -/

/-- The spans and rostered mark of a slot at enrolment (R8). -/
def Session.enrolSpans (x : Session) : Span × Option Span × Bool :=
  match x.join, x.pass with
  | .live, .streaming =>
    if x.nextChunk = 0 then (⟨0, x.imageLength⟩, none, true)
    else (⟨x.nextChunk, x.imageLength⟩, some ⟨0, x.nextChunk⟩, true)
  | _, _ => (⟨0, x.imageLength⟩, none, false)

/-- The slot record at enrolment, before the move to WAITING (R7, R8, R167). -/
def Slot.enrolled (sl : Slot) (x : Session) : Slot :=
  let p := x.enrolSpans
  { sl with
    ordinal := some x.nextOrdinal
    span := some p.1
    deferred := p.2.1
    rostered := p.2.2
    ackPoint := some p.1.lo
    issueCursor := some p.1.lo
    ahead := []
    piecesSent := 0
    throttledDepth := if sl.throttled then some 1 else none
    pinCount := 0, clearCount := 0, laggard := false }

/-- The enrolment of a READY slot in RUNNING (R7), or its refusal when ordinals are exhausted. -/
def State.enrol (s : State) (i : SlotIx) : State :=
  let x := s.ses
  if x.nextOrdinal < Config.ordinals then
    ((((s.updSession (fun y => { y with nextOrdinal := y.nextOrdinal + 1 })).renderStamps i x.nextOrdinal
      ((s.slot i).capacity.getD 0)).updSlot i (fun sl => sl.enrolled x))).moveSlot i .waiting
  else if x.exhausted then s
  else (s.updSession (fun y => { y with exhausted := true })).raise (.ordinalsExhausted i)

/-- Entry into READY (R77): enrolment is due at once in RUNNING. -/
def State.enterReady (s : State) (i : SlotIx) : State :=
  let s1 := (s.updSlot i (fun sl => { sl with qual := none })).moveSlot i .ready
  if s1.running then s1.enrol i else s1

/-- The probe index of the qualification record in phase SIZE: one of 0 to K - 1, which one being a free value (log
37). -/
def State.sizeProbe (s : State) (i : SlotIx) : Nat := Config.sizeProbe i.val s.now % s.ses.probeCount

/-- Entry into SIZING (R68). The probe index of the record is open until the probes begin (log 37). -/
def State.enterSizing (s : State) (i : SlotIx) : State :=
  (s.updSlot i (fun sl =>
    { sl with qual := some ⟨.size, s.sizeProbe i, 0⟩, inFlight := [], capacity := none })).moveSlot i .sizing

/-- A rostered slot goes LIVE (R10, R161). -/
def State.goLive (s : State) (i : SlotIx) : State :=
  (s.updSlot i (fun sl =>
    { sl with
      ackPoint := sl.span.map Span.lo
      issueCursor := sl.span.map Span.lo
      ahead := [], piecesSent := 0, rostered := false, laggard := false })).moveSlot i .live

/-! ## Acknowledgement (R103) and the end of a span (R13, R14) -/

/-- The ack point after it has passed `p`: on over every chunk of the ahead set, ascending, that follows without a
gap. -/
def advance (p : Nat) (ahead : List Nat) : Nat := ahead.foldl (fun q a => if a = q then q + 1 else q) p

/-- A chunk joins the acknowledged-ahead set, kept ascending. -/
def addAhead (c : Nat) : List Nat → List Nat
  | [] => [c]
  | a :: as => if c < a then c :: a :: as else if c = a then a :: as else a :: addAhead c as

/-- The ack point and acknowledged-ahead set after a slot acknowledges a chunk (R103). -/
def Slot.acknowledged (sl : Slot) (c : Nat) : Slot :=
  if sl.ackPoint = some c then
    let p := advance (c + 1) sl.ahead
    { sl with ackPoint := some p, ahead := sl.ahead.filter (fun a => decide (p ≤ a)) }
  else { sl with ahead := addAhead c sl.ahead }

/-- A LIVE slot's current span is used up (R13, R14). -/
def State.spanUsed (s : State) (i : SlotIx) : State :=
  match (s.slot i).deferred with
  | some d =>
    (s.updSlot i (fun sl =>
      { sl with
        span := some d, deferred := none, rostered := false, ackPoint := some d.lo, issueCursor := some d.lo,
        ahead := [], piecesSent := 0, pinCount := 0, clearCount := 0 })).moveSlot i .waiting
  | none =>
    if s.ses.verify = .trailing then (s.updSlot i (fun sl => { sl with verifyCursor := some 0 })).moveSlot i .verifying
    else (s.updSlot i (fun sl => sl.withOutcome ⟨.passed, none, none, none⟩)).moveSlot i .done

/-- A LIVE slot acknowledges a chunk (R103): its ack point and ahead set, the chunk's pending count, and the slot's next
service when its span is used up. Retirement and pass end follow in the closing of the event (log 10). -/
def State.acknowledge (s : State) (i : SlotIx) (c : Nat) : State :=
  let s1 := s.updSlot i (fun sl => sl.acknowledged c)
  let s2 := { s1 with win.records := lowerOwed (fun d => d == c) s1.win.records }
  let sl := s2.slot i
  if sl.ackPoint = sl.span.map Span.hi then s2.spanUsed i else s2

/-! ## Snapshots (R201) -/

/-- Take a snapshot: every live counter copied, the time, the sequence number, and SNAPSHOT-TAKEN. -/
def State.takeSnapshot (s : State) : State :=
  let n := s.ncu.bank.number + 1
  ({ s with ncu.bank := ⟨n, BitVec.ofNat 32 s.now, s.ncu.counters, s.slots.map Slot.counters⟩ }).raise
    (.snapshotTaken n)

/-! ## Socket link loss (R90) -/

/-- A link record at the loss of its link: its tags FREE and the record at its reset values; the PING timer runs on
(R90, R88). -/
def Link.lost (l : Link) : Link :=
  { l with
    up := false, missed := 0, tags := .replicate 256 .free, lapsed := 0, lastTag := 255, lastSocket := 15, path := none }

/-- The slots of a lost link go EMPTY, in ascending slot number. -/
def State.emptyLink (s : State) (k : LinkIx) : State :=
  (List.finRange 16).foldl (fun t j => t.emptySlot (slotAt k j) .linkLost) s

/-- The lamps of a lost link show OFF. -/
def State.lampsOff (s : State) (k : LinkIx) : State :=
  (List.finRange 16).foldl (fun t j => t.updSlot (slotAt k j) (fun sl => { sl with lamp := ⟨.off, none⟩ })) s

/-- The record of a lost link is reset, and its transfers are withdrawn. -/
def State.resetLink (s : State) (k : LinkIx) : State :=
  { s.updLink k Link.lost with win.waiting := withdraw k s.win.waiting }

/-- The loss of a socket link (R90): its slots EMPTY, its record reset, its lamps OFF, and LINK-LOST raised. -/
def State.loseLink (s : State) (k : LinkIx) (cause : LossCause) : State :=
  (((s.emptyLink k).resetLink k).lampsOff k).retireFlow.raise (.linkLost k cause)

end Sys2Proof.Machine
end

