-- ==== Sys2Proof/Machine/Upstream.lean ====
section
/-! DEFINITION. Resets (R23, R180, R183), the image link (R45, R46) and the upstream lane (R177, R179). -/

namespace Sys2Proof.Machine

/-! ## Resets -/

/-- POWER_ON_RESET (R23): every block at its reset value. Reset clears no frame's contents (R24). That the stamp scratch
keeps its bytes is a DESIGN CHOICE (log 39): R129 says only that they are not read before the next build. -/
def execPowerOnReset (s : State) : Host.Outcome State Fault Refusal :=
  .next { State.reset with
    pending := s.pending, win.frames := s.win.frames, stu.scratch := s.stu.scratch }

/-- BUFFER_INIT_COMPLETE (R180, R40): every digest entry ABSENT, and the NOT-READY period ends. -/
def execBufferInitComplete (s : State) : Host.Outcome State Fault Refusal :=
  .next (if s.req.initialising then { s with req.initialising := false, win.digest := [] } else s)

/-- The state an ENGINE RESET leaves (R183): every block at its reset value, but the image link as it is, the frame on
the lane still being sent (R194), the contents of the frames (R24) and the cause. That the stamp scratch keeps its bytes
is a DESIGN CHOICE (log 39). -/
def State.afterEngineReset (s : State) : State :=
  { State.reset with
    pending := s.pending
    intake.linkUp := s.intake.linkUp
    win.frames := s.win.frames
    stu.scratch := s.stu.scratch
    req.lane := s.req.lane.map (fun l => { l with queued := false })
    req.cause := .engineReset }

/-- ENGINE_RESET_TAKES_EFFECT (R183): once the reply outbox and the request queue are empty. One FLOW frame is placed
when the link can carry it (R60); while it is DOWN the frame of R45 reports instead (log 16). -/
def execEngineResetTakesEffect (s : State) : Host.Outcome State Fault Refusal :=
  .next (
    if s.req.resetWaiting = true ∧ s.req.outbox = [] ∧ s.req.queue = [] then
      let t := s.afterEngineReset
      if t.intake.linkUp then t.sendFlow else t
    else s)

/-! ## The image link -/

/-- IMAGE_LINK_ESTABLISHED (R45): the link is UP, the flow state follows R57, and one FLOW frame reports it. -/
def execImageLinkEstablished (s : State) : Host.Outcome State Fault Refusal :=
  .next (
    if s.intake.linkUp then s
    else
      let s1 := { s with intake.linkUp := true }
      ({ s1 with intake.flow := s1.flowNext }).sendFlow)

/-- Intake abandons the assembly in progress: WIN removes the ASSEMBLING record (R29). -/
def State.abandonAssembly (s : State) : State :=
  { s with
    intake.assembly := none
    win.records := s.win.records.filter (fun r => r.resident.isSome) }

/-- IMAGE_LINK_LOST (R46, R179): DOWN, any assembly abandoned, flow PAUSED, the FLOW outbox emptied and the lane
stopped; a REPLY or NOTICE cut off stands at the front of its source still. -/
def execImageLinkLost (s : State) : Host.Outcome State Fault Refusal :=
  .next (
    if s.intake.linkUp then
      let s1 := if s.intake.assembly.isSome then s.abandonAssembly else s
      { s1 with intake.linkUp := false, intake.flow := .paused, req.flowOut := [], req.lane := none }
    else s)

/-! ## The upstream lane -/

/-- The lane begins to send a frame (R177). -/
def State.laneSend (s : State) (f : UpFrame) : State := { s with req.lane := some ⟨f, f.bytes, true⟩ }

/-- UPSTREAM_GRANT (R177): the oldest FLOW frame, else the reply outbox and the notice queue in turn. -/
def execUpstreamGrant (s : State) : Host.Outcome State Fault Refusal :=
  .next (
    if s.intake.linkUp = true ∧ s.req.lane = none then
      match s.req.flowOut, s.req.outbox, s.ncu.notices with
      | f :: _, _, _ => s.laneSend (.flow f)
      | [], r :: _, [] => { s.laneSend (.reply r) with req.replyServed := true }
      | [], [], e :: _ => { s.laneSend (.notice e) with req.replyServed := false }
      | [], r :: _, e :: _ =>
        if s.req.replyServed then { s.laneSend (.notice e) with req.replyServed := false }
        else { s.laneSend (.reply r) with req.replyServed := true }
      | [], [], [] => s
    else s)

/-- UPSTREAM_FRAME_SENT (R177, R194): the frame leaves its source and the lane is idle. -/
def execUpstreamFrameSent (s : State) : Host.Outcome State Fault Refusal :=
  .next (match s.req.lane with
    | none => s
    | some l =>
      let s1 := { s with req.lane := none }
      if l.queued then
        match l.frame with
        | .flow _ => { s1 with req.flowOut := s1.req.flowOut.tail }
        | .reply _ => { s1 with req.outbox := s1.req.outbox.tail }
        | .notice _ => { s1 with ncu.notices := s1.ncu.notices.tail }
      else s1)

end Sys2Proof.Machine
end

