-- ==== Sys2Proof/Machine/Intake.lean ====
section
/-! DEFINITION. INT: the classification of a segment (R48), the assembly (R49 to R51) and chunk completion (R53 to R56)
with its digest check, captures, mismatch (R54, R17, R107) and going LIVE. -/

namespace Sys2Proof.Machine

/-! ## The assembly (R49 to R51) -/

/-- The bytes of a segment reach its frame, through a FILL transfer of the port (R49, R50, R43, log 5). -/
def State.fill (s : State) (frame index : Nat) (bytes : List Byte) : State :=
  { s with
    win.frames := s.win.frames.write (frameAddr frame (Config.segmentBytes * index)) bytes
    win.waiting := s.win.waiting ++ [.fill] }

/-- Segment 0 of chunk H opens an assembly in the lowest-numbered free frame (R24, R28, R49). -/
def State.openAssembly (s : State) (c : Nat) (bytes : List Byte) : State :=
  let f := lowestFree s.win.records
  let s1 : State := { s with
    win.records := s.win.records ++ [⟨c, f, none⟩]
    intake.assembly := some ⟨c, 1, f, crcRun crcStart bytes⟩ }
  (s1.fill f 0 bytes).evalFlow

/-- The expected segment is appended (R50). -/
def State.appendSegment (s : State) (a : Assembly) (bytes : List Byte) : State :=
  ({ s with intake.assembly := some { a with nextSegment := a.nextSegment + 1, crc := crcRun a.crc bytes } }).fill
    a.frame a.nextSegment bytes

/-- A segment of chunk H with an unexpected index (R51): counted as SEQUENCE, an open assembly abandoned. -/
def State.sequenceDiscard (s : State) : State :=
  let s1 := s.count ctrSequence
  if s1.intake.assembly.isSome then s1.abandonAssembly.evalFlow else s1

/-! ## Mismatch (R54, R17, R107) -/

/-- The waiting entries of an enrolled slot leave its list when the session faults (R107), and its rostered mark is
cleared (R17). -/
def Slot.faulted (sl : Slot) : Slot :=
  if sl.state.enrolled then
    let kept := sl.inFlight.filter (fun e => e.tag.isSome)
    { sl.givePlaces (sl.inFlight.length - kept.length) with inFlight := kept, rostered := false }
  else { sl with rostered := false }

/-- A command granted to an enrolled slot and not yet sent is stopped when the session faults (R18, R97, log 13), and
gives up the depth place it held without an entry (R99). -/
def State.stopGranted (s : State) (i : SlotIx) : State :=
  if (s.slot i).state.enrolled then (s.updSlot i (fun sl => sl.givePlaces (s.grantPlace i))).stopRead i else s

/-- The granted and unsent commands of every enrolled slot are stopped. -/
def State.stopEnrolled (s : State) : State := s.forSlots (fun i t => t.stopGranted i)

/-- A digest mismatch (R54): the assembly discarded, IMAGE-MISMATCH raised, the session FAULTED (R17), flow, HELD. -/
def State.mismatch (s : State) (c : Nat) (recorded received : Word32) : State :=
  let s1 := s.abandonAssembly.raise (.imageMismatch c recorded received s.ses.passNumber)
  let s2 := s1.updSession (fun x => { x with phase := .faulted, faultChunk := some c, pass := .noPass })
  let s3 := s2.stopEnrolled
  (({ s3 with slots := s3.slots.map Slot.faulted }).evalFlow).testHeld

/-! ## Captures (R55) -/

/-- A site of the completed chunk takes its pristine bytes, if it has none. -/
def Site.capture (t : Site) (c : Nat) (m : Memory) (frame : Nat) : Site :=
  if t.chunk = c ∧ t.pristine = none then { t with pristine := some (m.read (frameAddr frame t.offset) t.width) } else t

/-- A region of the completed chunk takes its base sum, if it has none (R126). -/
def Region.capture (g : Region) (sites : List Site) (number c : Nat) (m : Memory) (frame : Nat) : Region :=
  if g.chunk = c ∧ g.baseSum = none then
    { g with baseSum := some (guardSum (guardSkip sites number g) 0 (m.read (frameAddr frame g.start) g.length)) }
  else g

/-- The STAMP transfers a capture takes: one for each site that lacks its pristine bytes, and one for each 4,096 bytes
of a region that lacks its base sum. That R55's capture asks for so many is a DESIGN CHOICE (log 32): R43 bounds one
transfer at 4,096 bytes, and no rule numbers those of a capture. -/
def captureTransfers (sites : List Site) (regions : List Region) (c : Nat) : List Transfer :=
  (sites.filter (fun t => t.chunk == c && t.pristine.isNone)).map (fun _ => .capture) ++
  (regions.filter (fun g => g.chunk == c && g.baseSum.isNone)).flatMap
    (fun g => List.replicate ((g.length + 4095) / 4096) .capture)

/-- STU captures what it needs of the completed chunk (R55). -/
def State.captureChunk (s : State) (c frame : Nat) : State :=
  { s with
    stu.sites := s.stu.sites.map (fun t => t.capture c s.win.frames frame)
    stu.regions := s.stu.regions.zipIdx.map (fun p => p.1.capture s.stu.sites p.2 c s.win.frames frame)
    win.waiting := s.win.waiting ++ captureTransfers s.stu.sites s.stu.regions c }

/-! ## Completion (R53, R56) -/

/-- The LIVE slots whose current span contains a chunk (R31). -/
def State.liveOn (s : State) (c : Nat) : Nat :=
  (s.slots.toList.filter (fun sl =>
    sl.state == .live && sl.span.any (fun sp => decide (sp.lo ≤ c) && decide (c < sp.hi)))).length

/-- The ASSEMBLING record becomes RESIDENT (R31, R36). -/
def makeResident (x : Resident) (rs : List ChunkRecord) : List ChunkRecord :=
  rs.map (fun r => if r.resident.isNone then { r with resident := some x } else r)

/-- Set the pending count of a chunk (R31). -/
def setOwed (c n : Nat) (rs : List ChunkRecord) : List ChunkRecord :=
  rs.map (fun r => if r.chunk = c then { r with resident := r.resident.map (fun x => { x with owed := n }) } else r)

/-- The slots rostered on a chunk go LIVE (R10, R56 step 2). -/
def State.rosterLive (s : State) (c : Nat) : State :=
  s.forSlots (fun i t =>
    if (t.slot i).state = .waiting ∧ (t.slot i).rostered = true ∧ (t.slot i).span.map Span.lo = some c then t.goLive i
    else t)

/-- H rises by 1, and the pass goes DRAINING when H reaches L (R11, R56 step 4). -/
def Session.advanced (x : Session) : Session :=
  { x with
    nextChunk := x.nextChunk + 1
    pass := if x.nextChunk + 1 = x.imageLength then .draining else x.pass }

/-- The seven steps of R56. -/
def State.finishChunk (s : State) (c : Nat) (v : Word32) : State :=
  let mark := s.stu.sites.any (fun t => t.chunk == c)
  let s1 := ({ s with win.records := makeResident ⟨v, 0, mark⟩ s.win.records }).rosterLive c
  let s2 : State := { s1 with win.records := setOwed c (s1.liveOn c) s1.win.records }
  let s3 := { s2.updSession Session.advanced with intake.assembly := none }
  ((s3.count ctrChunks).retire).evalFlow

/-- Chunk completion (R53 to R56): the digest check, through one DIGEST transfer and a second to write a new entry. -/
def State.complete (s : State) (c frame : Nat) (v : Word32) : State :=
  match digestEntry s.win.digest c with
  | some d =>
    let s1 : State := { s with win.waiting := s.win.waiting ++ [.digest] }
    if d = v then (s1.captureChunk c frame).finishChunk c v else s1.mismatch c d v
  | none =>
    let s1 : State := { s with win.digest := digestPut s.win.digest c v, win.waiting := s.win.waiting ++ [.digest, .digest] }
    (s1.captureChunk c frame).finishChunk c v

/-- A segment of chunk H (R49 to R51). -/
def State.segmentOfH (s : State) (c index : Nat) (bytes : List Byte) : State :=
  match s.intake.assembly with
  | none =>
    if index ≠ 0 then s.sequenceDiscard
    else if s.free.getD 0 = 0 then s.count ctrOverrun
    else s.openAssembly c bytes
  | some a =>
    if index ≠ a.nextSegment ∨ 15 < index then s.sequenceDiscard
    else
      let s1 := s.appendSegment a bytes
      if index = 15 then s1.complete c a.frame (~~~ crcRun a.crc bytes) else s1

/-- SEGMENT (R48): a SEGMENT frame of 4,096 image bytes, classified. A body of another length is a malformed frame
(R171); no segment arrives while the link is DOWN (R52, log 1). -/
def execSegment (chunk : Word32) (index : Byte) (bytes : List Byte) (s : State) : Host.Outcome State Fault Refusal :=
  let c := chunk.toNat
  .next (
    if s.intake.linkUp = false then s
    else if bytes.length ≠ Config.segmentBytes then s.count ctrBadFrames
    else if s.running = false ∨ s.streaming = false then s.count ctrNoPass
    else if c < s.ses.nextChunk then s.count ctrDuplicate
    else if s.ses.nextChunk < c then s.count ctrOutOfOrder
    else s.segmentOfH c index.toNat bytes)

end Sys2Proof.Machine
end

