-- ==== Sys2Proof/Machine/Lag.lean ====
section
/-! DEFINITION. The pace tick with its laggards (R154 to R161), the decay tick (R166) and the stall deadline (R131). -/

namespace Sys2Proof.Machine

/-! ## The pace tick -/

/-- A tick is evaluated (R155). -/
def State.paceEvaluated (s : State) : Bool :=
  s.running && s.wsc.hold == .run && s.ses.pass != .noPass

/-- A LIVE slot pins the window, given free frames and T (R156). -/
def Slot.pins (sl : Slot) (free tail : Nat) : Bool := free == 0 && sl.ackPoint == some tail

/-- The counts and the laggard flag of a slot after an evaluated tick, before any policy (R156, R161). -/
def Slot.paced (sl : Slot) (free tail clearAt : Nat) : Slot :=
  if sl.state = .live then
    if sl.pins free tail then { sl with pinCount := min 255 (sl.pinCount + 1), clearCount := 0 }
    else
      let n := min 255 (sl.clearCount + 1)
      { sl with pinCount := 0, clearCount := n, laggard := sl.laggard && decide (n < clearAt) }
  else sl

/-- A slot is declared at this tick: it pins, and its pin count has just risen to N (R157). A run already declared under
WAIT is declared again when it rises to an N that SESSION TUNE has raised meanwhile: a DESIGN CHOICE between R157's
"just risen to N" and its "once for that run" (log 33). -/
def Slot.declared (sl : Slot) (free tail declareAt : Nat) : Bool :=
  sl.state == .live && sl.pins free tail && decide (sl.pinCount < 255) && sl.pinCount + 1 == declareAt

/-- A laggard is declared: flag, notice, policy (R157 to R160). -/
def State.declareLaggard (s : State) (i : SlotIx) : State :=
  let p := s.ses.laggard
  let s1 := s.updSlot i (fun sl => { sl with laggard := true })
  let sl := s1.slot i
  let s2 := s1.raise (.laggard i (sl.ordinal.getD 0) (sl.ackPoint.getD 0) sl.pinCount p)
  match p with
  | .wait => s2
  | .detach => s2.detachSlot i
  | .fail => s2.failSlot i ⟨.laggard, sl.ackPoint, none, none⟩

/-- An evaluated pace tick: every LIVE slot counted first, then each declared slot in ascending slot number (R156,
R157, log 11). -/
def State.paceEvaluate (s : State) : State :=
  let free := s.free.getD 0
  let tail := s.tail.getD 0
  let t := s.ses.tune
  let declared := (List.finRange 192).filter (fun i => (s.slot i).declared free tail t.declareCount)
  let s1 : State := { s with slots := s.slots.map (fun (sl : Slot) => sl.paced free tail t.clearCount) }
  (declared.foldl (fun (u : State) i => u.declareLaggard i) s1).close

/-- PACE_TICK (R154 to R161): the timer runs on from the interval in force; the tick is evaluated when R155 holds. -/
def execPaceTick (s : State) : Host.Outcome State Fault Refusal :=
  .next (match s.wsc.paceAt with
    | none => s
    | some d =>
      let s1 := s.reach d
      let s2 := { s1 with wsc.paceAt := some (s1.now + s1.ses.tune.paceInterval) }
      if s2.paceEvaluated then s2.paceEvaluate else s2)

/-! ## The decay tick -/

/-- One slot at a decay tick, given the release level and Rmin (R166). -/
def Slot.decayed (sl : Slot) (release rmin : Nat) : Slot :=
  let score := sl.trouble - 1
  if sl.throttled then
    let n := min 255 (sl.residency + 1)
    if score ≤ release ∧ rmin ≤ n then
      { sl with trouble := score, throttled := false, residency := 0, throttledDepth := none }
    else { sl with trouble := score, residency := n }
  else { sl with trouble := score }

/-- DECAY_TICK (R166). -/
def execDecayTick (s : State) : Host.Outcome State Fault Refusal :=
  .next (match s.wsc.decayAt with
    | none => s
    | some d =>
      let s1 := s.reach d
      let t := s1.ses.tune
      { s1 with
        wsc.decayAt := some (s1.now + 1000 * t.decayInterval)
        slots := s1.slots.map (fun (sl : Slot) => sl.decayed (t.throttle - 8) t.residencyMin) })

/-! ## The stall deadline -/

/-- STALL_DEADLINE (R131): in RUNNING the slot goes to FAILED with STAMP-TIMEOUT; in FAULTED nothing is done. -/
def execStallDeadline (i : SlotIx) (s : State) : Host.Outcome State Fault Refusal :=
  .next (match (s.slot i).stall with
    | none => s
    | some st =>
      let s1 := s.reach st.deadline
      if s1.running then (s1.failSlot i ⟨.stampTimeout, some st.chunk, none, none⟩).close else s1)

end Sys2Proof.Machine
end

