-- ==== Sys2Proof/Machine/Requests.lean ====
section
/-! DEFINITION. REQ: the arrival of requests (R172), the taking of a request (R173), and the requests REQ, SLT and NCU
answer by themselves: IDENTIFY, ENGINE RESET, SLOT STATUS, SESSION STATUS, CLEAR MARKS, SNAPSHOT, READ SNAPSHOT, SET
NOTICE MASK; the automatic snapshot; bad and malformed frames. -/

namespace Sys2Proof.Machine

/-! ## Taking a request (R173) -/

/-- Every request except IDENTIFY is answered NOT-READY: the NOT-READY period runs or an ENGINE RESET waits (R173). -/
def State.notReady (s : State) : Bool := s.req.initialising || s.req.resetWaiting

/-- The request a command of kind `want` takes now: the head of the queue, when its code names `want` (none: no request)
and the outbox holds fewer than 4 frames (R173). -/
def State.takes (s : State) (want : Option ReqKind) : Option (Request × List Request) :=
  match s.req.queue with
  | [] => none
  | r :: rest =>
    if s.req.outbox.length < Config.outboxTake ∧ ReqKind.ofCode r.code = want then some (r, rest) else none

/-- REQ takes the request at the head of the queue: it leaves the queue, R173's steps 1 to 4 answer it, or its owner
does. The command does nothing when no such request can be taken (log 1). -/
def State.takeRequest (s : State) (want : Option ReqKind) (owner : Request → State → State) : State :=
  match s.takes want with
  | none => s
  | some (r, rest) =>
    let s1 := { s with req.queue := rest }
    if s.notReady = true ∧ want ≠ some .identify then s1.answer r .notReady 0 []
    else match want with
      | none => s1.answer r .unknown 0 []
      | some k =>
        if k.takenIn s.phase = false then s1.answer r .refusedState 0 []
        else if k.lengthOk r.params = false then s1.answer r .refusedRange 0 []
        else owner r s1

/-! ## Frames and queued requests -/

/-- BAD_FRAME (R47): counted as a bad frame and discarded. -/
def execBadFrame (s : State) : Host.Outcome State Fault Refusal :=
  .next (if s.intake.linkUp then s.count ctrBadFrames else s)

/-- MALFORMED_FRAME (R171): a frame that is not handed on is counted as a bad frame and discarded. -/
def execMalformedFrame (kind : Byte) (bodyLength : BitVec 16) (s : State) : Host.Outcome State Fault Refusal :=
  .next (if s.intake.linkUp && !downstreamAccepted kind bodyLength then s.count ctrBadFrames else s)

/-- REQUEST_FRAME (R172): queued, answered REFUSED-BUSY, or discarded as a bad frame. -/
def execRequestFrame (tag : ReqTag) (code : Byte) (params : List Byte) (s : State) :
    Host.Outcome State Fault Refusal :=
  let r : Request := ⟨tag, code, params⟩
  .next (
    if s.intake.linkUp = false then s
    else if s.req.queue.length < Config.requestQueue then { s with req.queue := s.req.queue ++ [r] }
    else if s.req.outbox.length < Config.outboxBusy then s.answer r .refusedBusy 0 []
    else s.count ctrBadFrames)

/-- UNKNOWN_REQUEST (R173 step 2). -/
def execUnknownRequest (s : State) : Host.Outcome State Fault Refusal :=
  .next (s.takeRequest none (fun _ t => t))

/-! ## IDENTIFY and ENGINE RESET -/

/-- The reply data of IDENTIFY (R181, R188). -/
def State.identity (s : State) : List Byte :=
  leBytes 2 0x0101 ++ leBytes 2 0x00C0 ++ leBytes 1 1 ++ leBytes 1 (if s.req.initialising then 0 else 1) ++
  leBytes 1 s.req.cause.code ++ leBytes 4 s.now ++ leBytes 1 192 ++ leBytes 1 12 ++ leBytes 2 4096 ++
  leBytes 1 32 ++ leBytes 1 4 ++ leBytes 1 8 ++ leBytes 1 32

/-- IDENTIFY (R181). -/
def execIdentify (s : State) : Host.Outcome State Fault Refusal :=
  .next (s.takeRequest (some .identify) (fun r t => t.accept r .ok t.identity))

/-- ENGINE RESET (R182): the pending HOLD reply settled, its own reply built, the reset waiting. That the hold state
stays as it is until the reset takes effect, so that HELD can still be reached, is a DESIGN CHOICE (log 35). -/
def execEngineReset (s : State) : Host.Outcome State Fault Refusal :=
  .next (s.takeRequest (some .engineReset) (fun r t =>
    { (t.settleHold .ok .run).accept r .ok [] with req.resetWaiting := true }))

/-! ## Status requests -/

/-- A slot count of SESSION STATUS (R22). -/
def State.countIn (s : State) (st : SlotState) : Nat := (s.slots.toList.filter (fun sl => sl.state == st)).length

/-- The reply data of SESSION STATUS (R22, R188). -/
def State.sessionReport (s : State) : List Byte :=
  let inSession (f : Session → List Byte) (n : Nat) : List Byte :=
    match s.session with
    | some x => f x
    | none => List.replicate n 0
  leBytes 1 (phaseCode s.phase) ++ inSession paramBlock 34 ++
  inSession (fun x => leBytes 4 x.nextOrdinal ++ leBytes 1 x.exhausted.toNat) 5 ++
  leOption 4 (s.session.bind Session.faultChunk) ++
  inSession (fun x => leBytes 2 x.passNumber ++ leBytes 1 x.pass.code ++ leBytes 4 x.startChunk ++
    leBytes 4 x.nextChunk) 11 ++
  leOption 4 s.tail ++ leBytes 2 s.win.records.length ++ leOption 2 s.free ++
  leBytes 1 s.wsc.hold.code ++ leBytes 1 s.intake.flow.code ++ leBytes 1 s.intake.linkUp.toNat ++
  slotStates.flatMap (fun st => leBytes 1 (s.countIn st)) ++
  leBytes 2 s.ncu.seen.toNat ++ leBytes 1 s.ncu.noticesLost.toNat

/-- SESSION STATUS (R22). -/
def execSessionStatus (s : State) : Host.Outcome State Fault Refusal :=
  .next (s.takeRequest (some .sessionStatus) (fun r t => t.accept r .ok t.sessionReport))

/-- A span in 4 + 4 bytes, 0 when absent. -/
def spanBytes (sp : Option Span) : List Byte :=
  leBytes 4 ((sp.map Span.lo).getD 0) ++ leBytes 4 ((sp.map Span.hi).getD 0)

/-- A detail of the outcome record: 0 without a record, all ones without the detail (R188). -/
def outcomeDetail (n : Nat) (o : Option Outcome) (f : Outcome → Option Nat) : List Byte :=
  match o with
  | none => leBytes n 0
  | some r => leOption n (f r)

/-- A SLOT STATUS entry, 68 bytes (R84, R188). -/
def slotEntry (i : SlotIx) (sl : Slot) (now : Nat) : List Byte :=
  leBytes 1 i.val ++ leBytes 1 sl.state.code ++
  leBytes 2 (setOf [sl.outcome.isSome, sl.capacity.isSome, sl.ordinal.isSome, sl.span.isSome, sl.deferred.isSome,
    sl.ackPoint.isSome, sl.issueCursor.isSome, sl.verifyCursor.isSome, sl.qual.isSome, sl.settleDeadline.isSome,
    sl.stall.isSome]) ++
  leBytes 1 (outcomeCode (sl.outcome.map Outcome.kind)) ++ outcomeDetail 4 sl.outcome Outcome.chunk ++
  outcomeDetail 1 sl.outcome Outcome.probe ++ outcomeDetail 1 sl.outcome Outcome.other ++
  leBytes 8 (sl.capacity.getD 0) ++ leBytes 2 (sl.ordinal.getD 0) ++ spanBytes sl.span ++ spanBytes sl.deferred ++
  leBytes 4 (sl.ackPoint.getD 0) ++ leBytes 4 (sl.issueCursor.getD 0) ++ leBytes 4 (sl.verifyCursor.getD 0) ++
  leBytes 1 sl.ahead.length ++ leBytes 1 sl.inFlight.length ++
  leBytes 1 ((sl.qual.map (fun q => q.phase.code)).getD 0) ++ leBytes 1 ((sl.qual.map Qualification.probe).getD 0) ++
  leBytes 2 ((sl.settleDeadline.map (fun d => d - now)).getD 0) ++
  leBytes 1 (setOf [sl.rostered, sl.throttled, sl.laggard, sl.changeMark]) ++
  leBytes 1 sl.trouble ++ leBytes 1 sl.residency ++ leBytes 1 sl.pinCount ++ leBytes 1 sl.clearCount ++
  leBytes 1 ((sl.stall.map Stall.site).getD 0) ++ leBytes 4 ((sl.stall.map Stall.chunk).getD 0) ++
  leBytes 2 ((sl.stall.map (fun x => x.deadline - now)).getD 0) ++ leBytes 1 sl.lamp.shown.code

/-- The slots of a range, ascending. -/
def slotRange (first count : Nat) : List SlotIx :=
  (List.finRange 192).filter (fun i => decide (first ≤ i.val) && decide (i.val < first + count))

/-- SLOT STATUS (R84). -/
def execSlotStatus (s : State) : Host.Outcome State Fault Refusal :=
  .next (s.takeRequest (some .slotStatus) (fun r t =>
    let first := field r.params 0 1
    let count := field r.params 1 1
    if count = 0 ∨ 32 < count ∨ 191 < first ∨ 192 < first + count then t.answer r .refusedRange 0 []
    else t.accept r .ok (leBytes 1 count ++
      (slotRange first count).flatMap (fun i => slotEntry i (t.slot i) t.now))))

/-! ## NCU's requests -/

/-- A first slot and a count that R197 or R203 refuses, `most` being the greatest count. -/
def slotsBad (first count most : Nat) : Bool :=
  decide (191 < first) || decide (most < count) || decide (192 < first + count)

/-- The position R197 or R203 names: a value that is out of its own range; the first slot or the count, a free value,
where both are or where only their sum is above 192 (log 8). -/
def slotsDetail (rule first count most : Nat) (ps : List Byte) : Nat :=
  if 191 < first ∧ count ≤ most then 1
  else if first ≤ 191 ∧ most < count then 2
  else namedAmong rule 1 ps [1, 2]

/-- CLEAR MARKS (R197). -/
def execClearMarks (s : State) : Host.Outcome State Fault Refusal :=
  .next (s.takeRequest (some .clearMarks) (fun r t =>
    let first := field r.params 0 1
    let count := field r.params 1 1
    if slotsBad first count 192 = true then t.answer r .refusedRange (slotsDetail 197 first count 192 r.params) []
    else
      let cleared := BitVec.ofNat 10 (field r.params 2 2)
      ({ t with
          slots := t.slots.mapFinIdx (fun i sl _ =>
            if first ≤ i ∧ i < first + count then { sl with changeMark := false } else sl)
          ncu.seen := t.ncu.seen &&& ~~~cleared
          ncu.noticesLost := t.ncu.noticesLost && field r.params 4 1 == 0 }).accept r .ok []))

/-- The auto-snapshot interval a SNAPSHOT asks for (R202). -/
def autoIntervalOf (old v : Nat) : Nat := if v = 255 then old else if 60 < v then 60 else v

/-- SNAPSHOT (R202): the interval, a snapshot, the timer, and the reply with the new sequence number. -/
def execSnapshot (s : State) : Host.Outcome State Fault Refusal :=
  .next (s.takeRequest (some .snapshot) (fun r t =>
    let n := autoIntervalOf t.ncu.autoInterval (field r.params 0 1)
    let t1 := ({ t with ncu.autoInterval := n }).takeSnapshot
    ({ t1 with ncu.autoAt := if n = 0 then none else some (t1.now + 1000 * n) }).accept r .ok
      (leBytes 4 t1.ncu.bank.number.toNat)))

/-- AUTO_SNAPSHOT_EXPIRY (R202): a snapshot is taken and the timer started again. -/
def execAutoSnapshotExpiry (s : State) : Host.Outcome State Fault Refusal :=
  .next (match s.ncu.autoAt with
    | none => s
    | some d =>
      let t := (s.reach d).takeSnapshot
      { t with ncu.autoAt := some (t.now + 1000 * t.ncu.autoInterval) })

/-- A counter block: its counters, 4 bytes each, and their saturated set in `n` bytes (R188). -/
def counterBlock (cs : List Counter) (n : Nat) : List Byte :=
  cs.flatMap (fun c => leBytes 4 c.value.toNat) ++ leBytes n (setOf (cs.map Counter.saturated))

/-- The reply data of READ SNAPSHOT (R203, R188). -/
def Bank.report (b : Bank) (first count : Nat) : List Byte :=
  leBytes 4 b.number.toNat ++ leBytes 4 b.time.toNat ++ counterBlock b.engine.toList 2 ++ leBytes 1 count ++
  (slotRange first count).flatMap (fun i => leBytes 1 i.val ++ counterBlock (b.slots[i]).toList 1)

/-- READ SNAPSHOT (R203). -/
def execReadSnapshot (s : State) : Host.Outcome State Fault Refusal :=
  .next (s.takeRequest (some .readSnapshot) (fun r t =>
    let first := field r.params 0 1
    let count := field r.params 1 1
    if slotsBad first count 32 = true then t.answer r .refusedRange (slotsDetail 203 first count 32 r.params) []
    else t.accept r .ok (t.ncu.bank.report first count)))

/-- SET NOTICE MASK (R195). -/
def execSetNoticeMask (s : State) : Host.Outcome State Fault Refusal :=
  .next (s.takeRequest (some .setNoticeMask) (fun r t =>
    let m := BitVec.ofNat 10 (field r.params 0 2)
    ({ t with ncu.mask := m }).accept r .ok (leBytes 2 m.toNat)))

end Sys2Proof.Machine
end

