-- ==== Sys2Proof/Machine/Slots.lean ====
section
/-! DEFINITION. SLT: presence (R63 to R65), the settle deadline (R66), RELEASE SLOT (R78), and the sizing and probing
rules (R70 to R75) that the answers of the link chapter call. -/

namespace Sys2Proof.Machine

/-! ## Presence and settling -/

/-- An EMPTY slot goes to SETTLING with a settle deadline (R63). -/
def State.startSettling (s : State) (i : SlotIx) : State :=
  (s.updSlot i (fun sl => { sl with settleDeadline := some (s.now + s.settleTime) })).moveSlot i .settling

/-- PRESENCE_INSERTED (R63, R65); discarded on a link that is DOWN (R87). -/
def execPresenceInserted (k : LinkIx) (j : Socket) (s : State) : Host.Outcome State Fault Refusal :=
  let i := slotAt k j
  .next (
    if (s.link k).up = false then s
    else match (s.slot i).state with
      | .empty => s.startSettling i
      | .settling => s.updSlot i (fun sl => { sl with settleDeadline := some (s.now + s.settleTime) })
      | _ => ((s.emptySlot i .removedEarly).startSettling i).close)

/-- PRESENCE_REMOVED (R64); discarded on a link that is DOWN (R87). -/
def execPresenceRemoved (k : LinkIx) (j : Socket) (s : State) : Host.Outcome State Fault Refusal :=
  .next (
    if (s.link k).up = false then s
    else if (s.slot (slotAt k j)).state = .empty then s
    else (s.emptySlot (slotAt k j) .removedEarly).close)

/-- The slot record when a new stick has settled: what the previous stick left is cleared (R66). -/
def Slot.newStick (sl : Slot) : Slot :=
  { sl with
    outcome := none, capacity := none, ordinal := none, span := none, deferred := none
    ackPoint := none, issueCursor := none, verifyCursor := none, stall := none, settleDeadline := none
    ahead := [], rewrites := [], piecesSent := 0
    trouble := 0, residency := 0, pinCount := 0, clearCount := 0
    throttled := false, throttledDepth := none, laggard := false, rostered := false }

/-- SETTLE_DEADLINE (R66, R119): the slot goes to PRESENT in NONE and FAULTED, to SIZING in OPEN and RUNNING. -/
def execSettleDeadline (i : SlotIx) (s : State) : Host.Outcome State Fault Refusal :=
  .next (match (s.slot i).state, (s.slot i).settleDeadline with
    | .settling, some d =>
      let s1 := (((s.reach d).clearEntries i).updSlot i Slot.newStick)
      match s.phase with
      | none | some .faulted => s1.moveSlot i .present
      | some .opened | some .running => s1.enterSizing i
    | _, _ => s)

/-! ## RELEASE SLOT -/

/-- A release that withdraws an enrolled slot (R78). -/
def State.withdrawSlot (s : State) (r : Request) (i : SlotIx) : State :=
  ((s.failSlot i ⟨.withdrawn, none, none, none⟩).accept r .ok []).close

/-- RELEASE_SLOT (R78). -/
def execReleaseSlot (s : State) : Host.Outcome State Fault Refusal :=
  .next (s.takeRequest (some .releaseSlot) (fun r t =>
    let n := field r.params 0 1
    if h : n < 192 then
      let i : SlotIx := ⟨n, h⟩
      match (t.slot i).state with
      | .ready => (t.moveSlot i .present).accept r .ok []
      | .waiting | .verifying => t.withdrawSlot r i
      | .live => if t.wsc.hold = .held then t.withdrawSlot r i else t.answer r .notHeld 0 []
      | _ => t.answer r .refusedState 0 []
    else t.answer r .refusedRange 0 []))

/-! ## Sizing and probing -/

/-- The outcome of a qualification command whose retries are used up (R71, R72). -/
def Work.qualOutcome : Work → Outcome
  | .probeWrite j | .probeRead j => ⟨.probeFailed, none, some j, none⟩
  | _ => ⟨.sizeFailed, none, none, none⟩

/-- The outcome of a qualification command answered PROTECTED (R71). -/
def Work.protectedOutcome : Work → Outcome
  | .probeWrite j => ⟨.writeProtected, none, some j, none⟩
  | _ => ⟨.writeProtected, none, none, none⟩

/-- The retry decision for a qualification command (R71, R72): issued again with retries used one higher, or FAILED. -/
def State.retryQual (s : State) (i : SlotIx) (e : Entry) : State :=
  if e.retries < s.ses.tune.retryLimit then
    s.updSlot i (fun sl => { sl with qual := sl.qual.map (fun q => { q with retries := e.retries + 1 }) })
  else s.failSlot i e.work.qualOutcome

/-- A qualification command answered as a medium error (R71, R192). -/
def State.qualMedium (s : State) (i : SlotIx) (e : Entry) : State :=
  (s.countSlot i ctrMedium).raiseTrouble i 4 (fun t => t.retryQual i e)

/-- A qualification command answered with a status other than OK and GONE; its entry has left the list (R71). -/
def State.qualError (s : State) (i : SlotIx) (e : Entry) (st : Status) : State :=
  match st with
  | .notReady => s.raiseTrouble i 2 (fun t => t.retryQual i e)
  | .protected_ =>
    match e.work with
    | .probeRead _ => s.qualMedium i e
    | w => s.failSlot i w.protectedOutcome
  | _ => s.qualMedium i e

/-- A CAPACITY with status OK and 8 bytes (R70): C recorded, and TOO-SMALL, PROBING or READY. -/
def State.sized (s : State) (i : SlotIx) (c : Nat) : State :=
  let s1 := s.updSlot i (fun sl => { sl with capacity := some c })
  if c < 128 * s.ses.imageLength then s1.failSlot i ⟨.tooSmall, none, none, none⟩
  else if s.ses.qualify = .probe then
    (s1.updSlot i (fun sl => { sl with qual := some ⟨.probeWrite, 0, 0⟩ })).moveSlot i .probing
  else s1.enterReady i

/-- An OK probe WRITE (R74): the next index, or phase PROBE-READ. -/
def State.probeWritten (s : State) (i : SlotIx) (j : Nat) : State :=
  s.updSlot i (fun sl => { sl with
    qual := some (if j + 1 < s.ses.probeCount then ⟨.probeWrite, j + 1, 0⟩ else ⟨.probeRead, 0, 0⟩) })

/-- The content a slot's probe sector must hold (R73). -/
def State.probeContent (s : State) (i : SlotIx) (j : Nat) : List Byte :=
  probeData s.ses.sessionTag i ((s.slot i).capacity.getD 0) s.ses.probeCount j

/-- An OK probe READ of 512 bytes (R75): a match goes on or ends in READY; another probe's pattern is ALIASED; anything
else PROBE-FAILED. -/
def State.probeRead (s : State) (i : SlotIx) (j : Nat) (data : List Byte) : State :=
  if data = s.probeContent i j then
    if j + 1 < s.ses.probeCount then s.updSlot i (fun sl => { sl with qual := some ⟨.probeRead, j + 1, 0⟩ })
    else s.enterReady i
  else match (List.range s.ses.probeCount).find? (fun q => data == s.probeContent i q) with
    | some q => s.failSlot i ⟨.aliased, none, some j, some q⟩
    | none => s.failSlot i ⟨.probeFailed, none, some j, none⟩

end Sys2Proof.Machine
end

