-- ==== Sys2Proof/Machine/Links.lean ====
section
/-! DEFINITION. The socket links and the scheduler: PINGs and PONGs (R88 to R90), the transmit arbiter (R96), issue
(R100, R143, R147), the reading and sending of commands (R97, R129, R43), answers (R93, R102 to R105, R139 to R148),
timeouts (R92, R106, R146). -/

namespace Sys2Proof.Machine

/-! ## Tags (R91) -/

/-- A tag of a link. -/
def Link.tag (l : Link) (t : LinkTag) : TagState := l.tags[t.toNat]'(t.isLt)

/-- Set a tag of a link. -/
def Link.setTag (l : Link) (t : LinkTag) (v : TagState) : Link := { l with tags := l.tags.set t.toNat v t.isLt }

/-- The tag allocated next: the first FREE one upward from the tag after the last allocated, wrapping (R91). -/
def Link.nextTag (l : Link) : Option LinkTag :=
  ((List.range 256).map (fun d => l.lastTag + 1 + BitVec.ofNat 8 d)).find? (fun t => l.tag t == .free)

/-! ## PING and PONG -/

/-- PING_DUE (R88, R89): the count of missed PINGs, the PING waiting to be sent, and the loss of the link at three. -/
def execPingDue (k : LinkIx) (s : State) : Host.Outcome State Fault Refusal :=
  let l := s.link k
  let s1 := (s.reach l.pingAt).updLink k (fun x => { x with pingAt := l.pingAt + Config.pingPeriod })
  .next (
    if l.pingWaiting then s1
    else
      let missed := if l.up && l.pingOpen then l.missed + 1 else l.missed
      let s2 := s1.updLink k (fun x => { x with missed := missed, pingWaiting := true })
      if l.up = true ∧ Config.missedLimit ≤ missed then (s2.loseLink k .ping).close else s2)

/-- Every lamp of a link becomes due with the pattern of its slot's state (R82). -/
def State.dueLamps (s : State) (k : LinkIx) : State :=
  (List.finRange 16).foldl (fun t j =>
    t.updSlot (slotAt k j) (fun sl => { sl with lamp := { sl.lamp with due := some sl.state.lamp } })) s

/-- PONG (R88): it establishes a DOWN link, and answers the PINGs of an UP one. -/
def execPong (k : LinkIx) (s : State) : Host.Outcome State Fault Refusal :=
  let s1 := s.updLink k (fun l => { l with up := true, missed := 0, pingOpen := false })
  .next (if (s.link k).up then s1 else s1.dueLamps k)

/-- BRIDGE_MESSAGE_MALFORMED (R191): discarded, with no effect and no count. -/
def execBridgeMessageMalformed (_k : LinkIx) (_bytes : List Byte) (s : State) : Host.Outcome State Fault Refusal :=
  .next s

/-! ## What a slot sends next -/

/-- A slot's command to issue: what it is, its retries used, and where it comes from. -/
abbrev Send := Work × Nat × Origin

/-- The oldest waiting entry (R100, R147): the first in the list, the one whose command was issued first. That age is
counted from the issue, and not from the moment an entry began waiting, is a DESIGN CHOICE (log 30). -/
def oldestWaiting (es : List Entry) : Option Entry := es.find? (fun e => e.tag.isNone)

/-- The qualification command of a slot (R69, R74, R75). -/
def Qualification.work (q : Qualification) : Work :=
  match q.phase with
  | .size => .size
  | .probeWrite => .probeWrite q.probe
  | .probeRead => .probeRead q.probe

/-- The cursor piece of a LIVE slot, when R100's conditions hold. -/
def State.cursorSend (s : State) (i : SlotIx) : Option Send :=
  let sl := s.slot i
  match sl.issueCursor, sl.ackPoint, sl.span with
  | some c, some a, some sp =>
    let ps := s.pieces c
    let started := decide (0 < sl.piecesSent)
    let stamped := (ps[sl.piecesSent]?).any Piece.stamped
    if s.places i < s.depth i ∧ c < sp.hi ∧ c < s.ses.nextChunk ∧ sl.stall = none ∧ sl.piecesSent < ps.length ∧
        (if started then s.wsc.hold ≠ .held else s.wsc.hold = .run ∧ c < a + s.depth i) ∧
        (stamped = true → s.chunkReady i c = true) then
      some (.piece c sl.piecesSent 0, 0, .first)
    else none
  | _, _, _ => none

/-- The issuable command of a LIVE slot (R100, R143): a waiting entry, else a rewrite piece, else the cursor piece. -/
def State.liveSend (s : State) (i : SlotIx) : Option Send :=
  let sl := s.slot i
  if s.running = false then none
  else match oldestWaiting sl.inFlight with
    | some e => if s.wsc.hold = .held then none else some (e.work, e.retries, .waiting)
    | none => match sl.rewrites with
      | w :: _ =>
        if s.wsc.hold ≠ .held ∧ s.places i < s.depth i then some (.piece w.chunk w.nextPiece w.number, 0, .rewrite)
        else none
      | [] => s.cursorSend i

/-- The issuable command of a VERIFYING slot (R147). -/
def State.verifySend (s : State) (i : SlotIx) : Option Send :=
  let sl := s.slot i
  if s.running = false then none
  else match oldestWaiting sl.inFlight, sl.verifyCursor with
    | some e, _ => if s.wsc.hold = .held then none else some (e.work, e.retries, .waiting)
    | none, some c =>
      if s.wsc.hold = .run ∧ c < s.ses.imageLength ∧ s.places i < s.depth i then some (.verify c 0, 0, .first) else none
    | none, none => none

/-- The issuable command of a slot (R69, R100, R147). -/
def State.nextSend (s : State) (i : SlotIx) : Option Send :=
  let sl := s.slot i
  match sl.state with
  | .sizing | .probing => if sl.inFlight = [] then sl.qual.map (fun q => (q.work, q.retries, .first)) else none
  | .live => s.liveSend i
  | .verifying => s.verifySend i
  | _ => none

/-! ## The transmit arbiter (R96) -/

/-- A slot is eligible on its link's transmit path (R96). -/
def State.eligible (s : State) (i : SlotIx) : Bool :=
  (s.slot i).lamp.due.isSome || ((s.nextSend i).isSome && (s.link (linkOf i)).nextTag.isSome)

/-- The eligible socket reached first after the last granted one. -/
def State.turn (s : State) (k : LinkIx) : Option Socket :=
  ((List.finRange 16).map (fun d => (s.link k).lastSocket + 1 + d)).find? (fun j => s.eligible (slotAt k j))

/-- The frame and sectors a command's bytes come from (R97): an image piece reads buffer memory, nothing else does. -/
def State.sourceOf (s : State) (w : Work) : Option (Nat × Piece) :=
  match w with
  | .piece c p _ =>
    match s.record c, (s.pieces c)[p]? with
    | some r, some x => some (r.frame, x)
    | _, _ => none
  | _ => none

/-- The transfers of 4,096 bytes a run of sectors takes (R43). -/
def Piece.transfers (p : Piece) : Nat := (Config.sectorBytes * p.count + 4095) / Config.segmentBytes

/-- The port transfers a grant takes: a pristine piece is read once; a stamped piece is read into the scratch and from
the scratch toward the link (R129). -/
def Grant.transfers (g : Grant) : Nat :=
  match g.source with
  | none => 0
  | some (_, p) => if p.stamped then 2 * p.transfers else p.transfers

/-- The transfer a grant asks for on a link. -/
def Grant.transfer (g : Grant) (k : LinkIx) : Transfer :=
  if g.source.any (fun x => x.2.stamped) then .stamp k else .drain k

/-- The next transfer of a grant waits on the port, if one is left (R43, log 6). -/
def State.requestTransfer (s : State) (k : LinkIx) (g : Grant) : State :=
  if g.moved < g.transfers then { s with win.waiting := s.win.waiting ++ [g.transfer k] } else s

/-- A slot sends its due lamp pattern (R81). -/
def State.sendLamp (s : State) (i : SlotIx) (p : LampPattern) : State :=
  (s.updSlot i (fun sl => { sl with lamp := ⟨p, none⟩ })).updLink (linkOf i)
    (fun l => { l with sent := some (lampMessage (socketOf i) p) })

/-- The path is held by a slot for its command (R97 step 1). A probe WRITE carries its pattern (R73). -/
def State.grantCommand (s : State) (k : LinkIx) (i : SlotIx) (x : Send) : State :=
  let data := match x.1 with
    | .probeWrite j => s.probeContent i j
    | _ => []
  let g : Grant := ⟨i, x.1, x.2.1, x.2.2, s.sourceOf x.1, 0, data⟩
  (s.updLink k (fun l => { l with path := some g })).requestTransfer k g

/-- TRANSMIT_GRANT (R96): a PING first; on an UP link the slot whose turn it is, its LAMP before its command. PING and
LAMP are sent whole in the grant (log 4). -/
def execTransmitGrant (k : LinkIx) (s : State) : Host.Outcome State Fault Refusal :=
  let l := s.link k
  .next (
    if l.path.isSome then s
    else if l.pingWaiting then
      s.updLink k (fun x => { x with pingWaiting := false, pingOpen := true, sent := some pingMessage })
    else if l.up = false then s
    else match s.turn k with
      | none => s
      | some j =>
        let i := slotAt k j
        let s1 := s.updLink k (fun x => { x with lastSocket := j })
        match (s.slot i).lamp.due with
        | some p => s1.sendLamp i p
        | none => match s.nextSend i with
          | some x => s1.grantCommand k i x
          | none => s1)

/-! ## The buffer-memory port (R43) -/

/-- The ring member of a transfer, none for FILL. -/
def Transfer.ringMember : Transfer → Option (Fin 14)
  | .fill => none
  | .digest => some 0
  | .capture | .stamp _ => some 1
  | .drain k => some ⟨2 + k.val, by omega⟩

/-- The bytes and the place of one transfer of a run of sectors: offset within the run, and length. -/
def Piece.part (p : Piece) (n : Nat) : Nat × Nat :=
  (Config.segmentBytes * n, min Config.segmentBytes (Config.sectorBytes * p.count - Config.segmentBytes * n))

/-- The stamps of a slot written over a scratch area that holds a piece of a chunk (R129). -/
def State.overlay (s : State) (k : LinkIx) (i : SlotIx) (c : Nat) (p : Piece) : Memory :=
  (sitesOf s.stu.sites c).foldl (fun m x =>
    if Config.sectorBytes * p.first ≤ x.2.offset ∧
        x.2.offset + x.2.width ≤ Config.sectorBytes * (p.first + p.count) then
      m.write (scratchAddr k (x.2.offset - Config.sectorBytes * p.first)) (((s.entry i x.1).bytes?).getD [])
    else m) s.stu.scratch

/-- The chunk of a command. -/
def Work.chunk : Work → Nat
  | .piece c _ _ | .verify c _ => c
  | _ => 0

/-- One transfer of a grant is carried out (R43, R97, R129). -/
def State.moveBytes (s : State) (k : LinkIx) : State :=
  match (s.link k).path with
  | none => s
  | some g =>
    match g.source with
    | none => s
    | some (f, p) =>
      let n := p.transfers
      let toScratch := p.stamped && decide (g.moved < n)
      let part := p.part (if p.stamped && decide (n ≤ g.moved) then g.moved - n else g.moved)
      let fromFrame := s.win.frames.read (frameAddr f (Config.sectorBytes * p.first + part.1)) part.2
      let s1 :=
        if toScratch then
          let s0 := { s with stu.scratch := s.stu.scratch.write (scratchAddr k part.1) fromFrame }
          if g.moved + 1 = n then { s0 with stu.scratch := s0.overlay k g.slot g.work.chunk p } else s0
        else s
      let got :=
        if toScratch then []
        else if p.stamped then s.stu.scratch.read (scratchAddr k part.1) part.2 else fromFrame
      let g1 := { g with moved := g.moved + 1, data := g.data ++ got }
      (s1.updLink k (fun l => { l with path := some g1 })).requestTransfer k g1

/-- The ring members in the order they are considered after the one last granted (R43). -/
def ringOrder (last : Fin 14) : List (Fin 14) := (List.finRange 14).map (fun d => last + 1 + d)

/-- BUFFER_TRANSFER_GRANT (R43): FILL first, which leaves the ring position, else the first waiting member of the ring
after the last granted, its transfers in the order they were requested. -/
def execBufferTransferGrant (s : State) : Host.Outcome State Fault Refusal :=
  .next (
    if s.win.waiting.contains .fill then { s with win.waiting := s.win.waiting.erase .fill }
    else match (ringOrder s.win.ring).find? (fun m => s.win.waiting.any (fun t => t.ringMember == some m)) with
      | none => s
      | some m => match s.win.waiting.find? (fun t => t.ringMember == some m) with
        | none => s
        | some t =>
          let s1 : State := { s with win.waiting := s.win.waiting.erase t, win.ring := m }
          match t with
          | .stamp k | .drain k => s1.moveBytes k
          | .fill | .digest | .capture => s1)

/-! ## Sending a command (R97, R101, R130) -/

/-- The message a granted command is sent as (R87, R190). -/
def State.message (s : State) (g : Grant) (tag : LinkTag) : List Byte :=
  let j := socketOf g.slot
  let c := (s.slot g.slot).capacity.getD 0
  match g.work with
  | .size => sizeMessage tag j
  | .probeWrite q => writeMessage tag j (probeSector c s.ses.probeCount q) 1 g.data
  | .probeRead q => readMessage tag j (probeSector c s.ses.probeCount q) 1
  | .piece ch _ _ =>
    match g.source with
    | some (_, p) => writeMessage tag j (128 * ch + p.first) p.count g.data
    | none => writeMessage tag j (128 * ch) 0 g.data
  | .verify ch _ => readMessage tag j (128 * ch) Config.chunkSectors

/-- The waiting entry of a list that a granted command was taken from takes its tag (R97): the waiting entry of the same
work, of which a list never holds two (a piece and a read are waiting once for each rewrite number). An entry that
began waiting since the grant is another's, and goes on waiting. -/
def fillWaiting (w : Work) (tag : LinkTag) : List Entry → List Entry
  | [] => []
  | e :: es =>
    if e.tag = none ∧ e.work = w then { e with tag := some tag } :: es else e :: fillWaiting w tag es

/-- The in-flight list once a command is sent (R97): the entry that was waiting for it filled, or a new entry. -/
def Slot.sentEntry (sl : Slot) (g : Grant) (tag : LinkTag) : Slot :=
  { sl with
    inFlight := match g.origin with
      | .waiting => fillWaiting g.work tag sl.inFlight
      | .first | .rewrite => sl.inFlight ++ [⟨g.work, some tag, g.retries⟩] }

/-- What follows the first send of a cursor piece (R101, R130): the cursor, and the stall test at the chunk's last
pristine piece. -/
def State.sentPiece (s : State) (i : SlotIx) (c p : Nat) : State :=
  let ps := s.pieces c
  let s1 := s.updSlot i (fun sl =>
    if p + 1 = ps.length then { sl with issueCursor := some (c + 1), piecesSent := 0 }
    else { sl with piecesSent := p + 1 })
  if p + 1 = pristineCount ps then s1.stallTest i c else s1

/-- What follows the send of a rewrite piece (R143). -/
def State.sentRewrite (s : State) (i : SlotIx) (c p : Nat) : State :=
  s.updSlot i (fun sl => { sl with
    rewrites := match sl.rewrites with
      | [] => []
      | w :: ws => if p + 1 = (s.pieces c).length then ws else { w with nextPiece := p + 1 } :: ws })

/-- What follows the send of a command on its slot. -/
def State.afterSend (s : State) (g : Grant) : State :=
  match g.origin, g.work with
  | .first, .piece c p _ => s.sentPiece g.slot c p
  | .rewrite, .piece c p _ => s.sentRewrite g.slot c p
  | .waiting, .piece _ _ _ => s.countSlot g.slot ctrRetried
  | .first, .verify c _ => s.updSlot g.slot (fun sl => { sl with verifyCursor := some (c + 1) })
  | _, _ => s

/-- COMMAND_SEND (R97): once the bytes have been read, a tag is allocated, the message is sent, the entry takes the tag
and the path is released. What was granted is sent, even where a hold, a waiting entry or a rewrite record that came
after the grant would now stand before it: a DESIGN CHOICE (log 24). -/
def execCommandSend (k : LinkIx) (s : State) : Host.Outcome State Fault Refusal :=
  let l := s.link k
  .next (match l.path, l.nextTag with
    | some g, some tag =>
      if g.moved < g.transfers then s
      else
        let b : Busy := ⟨g.slot, g.work.kind, s.now + s.ses.tune.commandTimeout⟩
        let s1 := s.updLink k (fun x =>
          { (x.setTag tag (.bound b)) with lastTag := tag, path := none, sent := some (s.message g tag) })
        ((s1.updSlot g.slot (fun sl => sl.sentEntry g tag)).afterSend g).testHeld
    | _, _ => s)

/-! ## Image pieces (R102 to R106) -/

/-- A WRITE entry for a chunk. -/
def Entry.writes (e : Entry) (c : Nat) : Bool :=
  match e.work with
  | .piece d _ _ => d == c
  | _ => false

/-- A chunk is written (R102, R143): past the issue cursor, not in the rewrite queue, no WRITE entry left. -/
def Slot.written (sl : Slot) (c : Nat) : Bool :=
  sl.issueCursor != some c && !sl.rewrites.any (fun w => w.chunk == c) && !sl.inFlight.any (fun e => e.writes c)

/-- An OK answer to an image piece (R102, R140). -/
def State.pieceDone (s : State) (i : SlotIx) (tag : LinkTag) (c n : Nat) : State :=
  let s1 := s.countSlot i ctrWritten
  let dropped := (s1.slot i).dropEntry tag
  if dropped.written c = false then s1.setSlot i (dropped.givePlaces 1)
  else if s.ses.verify = .inline then s1.updSlot i (fun sl => sl.putEntry tag ⟨.verify c n, none, 0⟩)
  else (s1.setSlot i (dropped.givePlaces 1)).acknowledge i c

/-- An answer to an image piece (R102 to R105). -/
def State.pieceAnswer (s : State) (i : SlotIx) (tag : LinkTag) (e : Entry) (c n : Nat) (st : Status) : State :=
  match st with
  | .ok => s.pieceDone i tag c n
  | .notReady => s.raiseTrouble i 2 (fun t => t.retryEntry i tag e ⟨.writeFailed, some c, none, none⟩)
  | .protected_ => s.failSlot i ⟨.writeProtected, some c, none, none⟩
  | .mediumError | .gone =>
    (s.countSlot i ctrMedium).raiseTrouble i 4 (fun t => t.retryEntry i tag e ⟨.writeFailed, some c, none, none⟩)

/-! ## Verify reads (R139 to R148) -/

/-- A run of bytes with `new` at offset `off`. -/
def overwrite (bs : List Byte) (off : Nat) (new : List Byte) : List Byte :=
  bs.take off ++ (new ++ bs.drop (off + new.length))

/-- The chunk's CRC to compare with (R41): its record's for an inline read, its digest entry for a trailing one. -/
def State.referenceCrc (s : State) (i : SlotIx) (c : Nat) : Option Word32 :=
  if (s.slot i).state = .verifying then digestEntry s.win.digest c
  else ((s.record c).bind ChunkRecord.resident).map Resident.crc

/-- The comparison of a read-back of a chunk for a slot (R139): sites, substitution, CRC. -/
def State.compareChunk (s : State) (i : SlotIx) (c : Nat) (data : List Byte) : Bool :=
  let sites := sitesOf s.stu.sites c
  sites.all (fun x => (s.entry i x.1).bytes? == some ((data.drop x.2.offset).take x.2.width)) &&
  s.referenceCrc i c == some (crc (sites.foldl (fun bs x => overwrite bs x.2.offset (x.2.pristine.getD [])) data))

/-- A verify read's entry leaves the list and its place is given up. -/
def State.endRead (s : State) (i : SlotIx) (tag : LinkTag) : State :=
  s.updSlot i (fun sl => (sl.dropEntry tag).givePlaces 1)

/-- An inline mismatch, after its trouble (R142): a rewrite record below the retry limit, else VERIFY-MISMATCH. -/
def State.queueRewrite (s : State) (i : SlotIx) (c n : Nat) : State :=
  if n < s.ses.tune.retryLimit then s.updSlot i (fun sl => { sl with rewrites := sl.rewrites ++ [⟨c, 0, n + 1⟩] })
  else s.failSlot i ⟨.verifyMismatch, some c, none, none⟩

/-- A compared inline read (R141, R142). -/
def State.inlineResult (s : State) (i : SlotIx) (tag : LinkTag) (c n : Nat) (same : Bool) : State :=
  let s1 := s.endRead i tag
  if same then s1.acknowledge i c
  else (s1.countSlot i ctrMismatches).raiseTrouble i 6 (fun t => t.queueRewrite i c n)

/-- A compared trailing read (R148), its digest entry read through one DIGEST transfer. That the transfer is requested
also where the sites already differ (R139 step 1) is a DESIGN CHOICE (log 31). -/
def State.trailingResult (s : State) (i : SlotIx) (tag : LinkTag) (c : Nat) (same : Bool) : State :=
  let s0 := s.endRead i tag
  let s1 : State := { s0 with win.waiting := s0.win.waiting ++ [.digest] }
  if same then
    if (s1.slot i).verifyCursor = some s.ses.imageLength ∧ (s1.slot i).inFlight = [] then
      (s1.updSlot i (fun sl => sl.withOutcome ⟨.passed, none, none, none⟩)).moveSlot i .done
    else s1
  else (s1.countSlot i ctrMismatches).failSlot i ⟨.verifyMismatch, some c, none, none⟩

/-- A verify read taken as a medium error (R145). -/
def State.readMedium (s : State) (i : SlotIx) (tag : LinkTag) (e : Entry) (c : Nat) : State :=
  (s.countSlot i ctrMedium).raiseTrouble i 4 (fun t => t.retryEntry i tag e ⟨.readFailed, some c, none, none⟩)

/-- An answer to a verify read (R139, R141, R142, R145, R148). -/
def State.verifyAnswer (s : State) (i : SlotIx) (tag : LinkTag) (e : Entry) (c n : Nat) (st : Status)
    (data : List Byte) : State :=
  match st with
  | .ok =>
    if data.length = Config.chunkBytes then
      let same := s.compareChunk i c data
      if (s.slot i).state = .verifying then s.trailingResult i tag c same else s.inlineResult i tag c n same
    else s.readMedium i tag e c
  | .notReady => s.raiseTrouble i 2 (fun t => t.retryEntry i tag e ⟨.readFailed, some c, none, none⟩)
  | .mediumError | .protected_ | .gone => s.readMedium i tag e c

/-! ## Answers (R93) -/

/-- A BOUND answer is handed to its owner (R93); in FAULTED an enrolled slot's is taken under R18. -/
def State.boundAnswer (s : State) (i : SlotIx) (tag : LinkTag) (st : Status) (owner : Entry → State → State) : State :=
  if s.faulted = true ∧ (s.slot i).state.enrolled = true then s.updSlot i (fun sl => (sl.dropEntry tag).givePlaces 1)
  else if st = .gone then s.emptySlot i .removedEarly
  else match (s.slot i).entry tag with
    | some e => owner e s
    | none => s

/-- An answer looked up by its tag (R93): late, freed and discarded, or handed to the owner of its command. GONE on an
ABANDONED tag of a slot that is enrolled and holds no outcome, a detached one, records REMOVED-EARLY (log 38). -/
def State.answerTag (s : State) (k : LinkIx) (tag : LinkTag) (kind : CmdKind) (st : Status)
    (owner : SlotIx → Entry → State → State) : State :=
  let l := s.link k
  let freed := s.updLink k (fun x => x.setTag tag .free)
  if l.up = false then s
  else match l.tag tag with
    | .free => s.count ctrLate
    | .lapsed => (freed.updLink k (fun x => { x with lapsed := x.lapsed - 1 })).count ctrLate
    | .bound b =>
      if b.kind ≠ kind then s.count ctrLate else (freed.boundAnswer b.slot tag st (owner b.slot)).close
    | .abandoned b =>
      if b.kind ≠ kind then s.count ctrLate
      else if st = .gone then (freed.emptySlot b.slot .removedEarly).close
      else freed
    | .orphaned b => if b.kind ≠ kind then s.count ctrLate else freed

/-- The owner of a WRITE-ACK: a probe WRITE (R74, R71) or an image piece (R102 to R105). -/
def writeOwner (tag : LinkTag) (st : Status) (i : SlotIx) (e : Entry) (s : State) : State :=
  match e.work with
  | .probeWrite j =>
    let s1 := s.updSlot i (fun sl => sl.dropEntry tag)
    if st = .ok then s1.probeWritten i j else s1.qualError i e st
  | .piece c _ n => s.pieceAnswer i tag e c n st
  | _ => s

/-- WRITE_ACK (R93). -/
def execWriteAck (k : LinkIx) (tag : LinkTag) (status : Byte) (s : State) : Host.Outcome State Fault Refusal :=
  .next (s.answerTag k tag .write (Status.ofCode status) (writeOwner tag (Status.ofCode status)))

/-- The owner of a CAPACITY: sizing (R70, R71). An OK answer whose sector count is not 8 bytes is a medium error
(R192). -/
def capacityOwner (tag : LinkTag) (st : Status) (data : List Byte) (i : SlotIx) (e : Entry) (s : State) : State :=
  let s1 := s.updSlot i (fun sl => sl.dropEntry tag)
  if st = .ok then
    if data.length = 8 then s1.sized i (leValue data) else s1.qualMedium i e
  else s1.qualError i e st

/-- CAPACITY (R70, R93). -/
def execCapacity (k : LinkIx) (tag : LinkTag) (status : Byte) (data : List Byte) (s : State) :
    Host.Outcome State Fault Refusal :=
  .next (s.answerTag k tag .size (Status.ofCode status) (capacityOwner tag (Status.ofCode status) data))

/-- The owner of a READ-DATA: a probe READ (R75, R71, R192) or a verify read. -/
def readOwner (tag : LinkTag) (st : Status) (data : List Byte) (i : SlotIx) (e : Entry) (s : State) : State :=
  match e.work with
  | .probeRead j =>
    let s1 := s.updSlot i (fun sl => sl.dropEntry tag)
    if st = .ok then
      if data.length = Config.sectorBytes then s1.probeRead i j data else s1.qualMedium i e
    else s1.qualError i e st
  | .verify c n => s.verifyAnswer i tag e c n st data
  | _ => s

/-- READ_DATA (R93). -/
def execReadData (k : LinkIx) (tag : LinkTag) (status : Byte) (data : List Byte) (s : State) :
    Host.Outcome State Fault Refusal :=
  .next (s.answerTag k tag .read (Status.ofCode status) (readOwner tag (Status.ofCode status) data))

/-! ## Timeouts (R92) -/

/-- The timeout of a BOUND command (R72, R106, R146); under R18 for an enrolled slot in FAULTED. -/
def State.timeout (s : State) (i : SlotIx) (tag : LinkTag) : State :=
  if s.faulted = true ∧ (s.slot i).state.enrolled = true then s.updSlot i (fun sl => (sl.dropEntry tag).givePlaces 1)
  else match (s.slot i).entry tag with
    | none => s
    | some e =>
      let s1 := s.countSlot i ctrTimeouts
      match e.work with
      | .piece c _ _ => s1.raiseTrouble i 8 (fun t => t.retryEntry i tag e ⟨.writeFailed, some c, none, none⟩)
      | .verify c _ => s1.raiseTrouble i 8 (fun t => t.retryEntry i tag e ⟨.readFailed, some c, none, none⟩)
      | .size | .probeWrite _ | .probeRead _ =>
        (s1.updSlot i (fun sl => sl.dropEntry tag)).raiseTrouble i 8 (fun t => t.retryQual i e)

/-- A busy tag lapses (R92): it becomes LAPSED and is counted. -/
def State.lapse (s : State) (k : LinkIx) (tag : LinkTag) (b : Busy) : State :=
  ((s.reach b.deadline).updLink k (fun l => { (l.setTag tag .lapsed) with lapsed := l.lapsed + 1 })).count ctrLapsed

/-- The loss of a link whose lapsed count has reached 192 (R89), and the close of the event. -/
def State.afterLapse (s : State) (k : LinkIx) : State :=
  if (s.link k).up = true ∧ Config.lapsedLimit ≤ (s.link k).lapsed then (s.loseLink k .lapsedTags).close else s.close

/-- TAG_LAPSE (R92). -/
def execTagLapse (k : LinkIx) (tag : LinkTag) (s : State) : Host.Outcome State Fault Refusal :=
  .next (match (s.link k).tag tag with
    | .free | .lapsed => s
    | .bound b => ((s.lapse k tag b).timeout b.slot tag).afterLapse k
    | .abandoned b | .orphaned b => (s.lapse k tag b).afterLapse k)

end Sys2Proof.Machine
end

