-- ==== Sys2Proof/Machine/Sessions.lean ====
section
/-! DEFINITION. The requests of SES and WSC: OPEN SESSION, START SESSION, PASS START, HOLD, RELEASE HOLD, SESSION TUNE,
CLOSE SESSION. -/

namespace Sys2Proof.Machine

/-! ## OPEN SESSION (R3 to R5) -/

/-- Pause and resume mark against the window size (R3, R113). -/
def marksOk (w p q : Nat) : Bool := decide (p < q) && decide (q ≤ w)

/-- The probe count OPEN SESSION asks for, its "default" replaced by 8 (R3). -/
def openProbeCount (ps : List Byte) : Nat := if member (field ps 34 2) 0 then 8 else field ps 10 1

/-- The position of the first structural value that fails R3, in R3's order. -/
def openFailure (ps : List Byte) : Option Nat :=
  let l := field ps 0 4
  let w := field ps 4 2
  let k := openProbeCount ps
  if l = 0 ∨ Config.maxChunks < l then some 1
  else if w < 32 ∨ 4096 < w then some 2
  else if marksOk w (field ps 6 2) (field ps 8 2) = false then some 3
  else if k < 4 ∨ 16 < k then some 5
  else if JoinPolicy.ofCode (field ps 11 1) = none then some 6
  else if LaggardPolicy.ofCode (field ps 12 1) = none then some 7
  else if VerifyMode.ofCode (field ps 13 1) = none then some 8
  else if QualifyMode.ofCode (field ps 14 1) = none then some 9
  else none

/-- The session record an accepted OPEN SESSION fills (R5 steps 1 to 3). -/
def openRecord (ps : List Byte) : Session where
  phase := .opened
  imageLength := field ps 0 4
  windowSize := field ps 4 2
  pauseMark := field ps 6 2
  resumeMark := field ps 8 2
  probeCount := openProbeCount ps
  join := (JoinPolicy.ofCode (field ps 11 1)).getD .nextPass
  laggard := (LaggardPolicy.ofCode (field ps 12 1)).getD .wait
  verify := (VerifyMode.ofCode (field ps 13 1)).getD .off
  qualify := (QualifyMode.ofCode (field ps 14 1)).getD .sizeOnly
  sessionTag := BitVec.ofNat 32 (field ps 15 4)
  tune := openTunables ps
  nextOrdinal := 0
  exhausted := false
  faultChunk := none
  passNumber := 0
  pass := .noPass
  startChunk := 0
  nextChunk := 0

/-- NCU zeroes every live counter (R200). -/
def State.zeroCounters (s : State) : State :=
  { s with
    ncu.counters := .replicate 10 Counter.zero
    slots := s.slots.map (fun sl => { sl with counters := .replicate 5 Counter.zero }) }

/-- OPEN_SESSION (R3 to R5, R154, R166): refused on its first failing value, or the record filled, the counters zeroed,
the pace and decay timers started, every PRESENT slot sized, and the values in force reported. -/
def execOpenSession (s : State) : Host.Outcome State Fault Refusal :=
  .next (s.takeRequest (some .openSession) (fun r t =>
    match openFailure r.params with
    | some p => t.answer r .refusedRange p []
    | none =>
      let x := openRecord r.params
      let t1 := { t with
        session := some x
        wsc.paceAt := some (t.now + x.tune.paceInterval)
        wsc.decayAt := some (t.now + 1000 * x.tune.decayInterval) }
      let t2 := t1.zeroCounters.forSlots (fun i u => if (u.slot i).state = .present then u.enterSizing i else u)
      t2.accept r .ok (paramBlock x)))

/-! ## START SESSION and PASS START (R6, R9, R10) -/

/-- START_SESSION (R6): RUNNING, every READY slot enrolled in ascending order, the number enrolled reported. -/
def execStartSession (s : State) : Host.Outcome State Fault Refusal :=
  .next (s.takeRequest (some .startSession) (fun r t =>
    let t1 := t.updSession (fun x => { x with phase := .running })
    let t2 := t1.forSlots (fun i u => if (u.slot i).state = .ready then u.enrol i else u)
    t2.accept r .ok (leBytes 1 (t2.ses.nextOrdinal - t1.ses.nextOrdinal))))

/-- A slot that PASS START at `c` rosters (R10). -/
def Slot.rosterable (sl : Slot) (c : Nat) : Bool :=
  sl.state == .waiting && sl.span.any (fun sp => decide (c ≤ sp.lo))

/-- PASS_START (R9, R10). -/
def execPassStart (s : State) : Host.Outcome State Fault Refusal :=
  .next (s.takeRequest (some .passStart) (fun r t =>
    let c := field r.params 0 4
    let x := t.ses
    if x.pass ≠ .noPass then t.answer r .refusedState 0 []
    else if x.imageLength ≤ c then t.answer r .refusedRange 0 []
    else if 65535 ≤ x.passNumber then t.answer r .refusedFull 0 []
    else
      let t1 := t.updSession (fun y =>
        { y with startChunk := c, nextChunk := c, passNumber := y.passNumber + 1, pass := .streaming })
      let t2 := { t1 with slots := t1.slots.map (fun (sl : Slot) => if sl.rosterable c then { sl with rostered := true } else sl) }
      let rostered := (t.slots.toList.filter (fun sl => sl.rosterable c)).length
      (t2.accept r .ok (leBytes 2 (x.passNumber + 1) ++ leBytes 1 rostered ++
        leBytes 1 (t.waitingSlots.length - rostered))).evalFlow))

/-! ## HOLD and RELEASE HOLD (R108 to R111) -/

/-- HOLD (R108, R110). -/
def execHold (s : State) : Host.Outcome State Fault Refusal :=
  .next (s.takeRequest (some .hold) (fun r t =>
    match t.wsc.hold with
    | .run => ({ t with wsc.hold := .holding, wsc.holdReply := some r.tag }).evalFlow.testHeld
    | .holding => t.accept r .ok (leBytes 1 HoldState.holding.code)
    | .held => t.accept r .okHeld (leBytes 1 HoldState.held.code)))

/-- RELEASE_HOLD (R110): the pending HOLD reply first, then RUN and its own reply. -/
def execReleaseHold (s : State) : Host.Outcome State Fault Refusal :=
  .next (s.takeRequest (some .releaseHold) (fun r t =>
    if t.wsc.hold = .run then t.accept r .ok (leBytes 1 HoldState.run.code)
    else
      (({ t.settleHold .ok .run with wsc.hold := .run }).accept r .ok (leBytes 1 HoldState.run.code)).evalFlow))

/-! ## SESSION TUNE (R113) -/

/-- A field of SESSION TUNE's first four: the one given, or the one in force (R113, R174). -/
def given (ps : List Byte) (k : Nat) (v old : Nat) : Nat := if member (field ps 22 2) k then v else old

/-- The position of the first value of SESSION TUNE that R113 refuses. -/
def tuneFailure (ps : List Byte) (x : Session) (records : Nat) : Option Nat :=
  let w := given ps 0 (field ps 0 2) x.windowSize
  if member (field ps 22 2) 0 = true ∧ (w < 32 ∨ 4096 < w ∨ w < records) then some 1
  else if marksOk w (given ps 1 (field ps 2 2) x.pauseMark) (given ps 2 (field ps 4 2) x.resumeMark) = false then some 2
  else if member (field ps 22 2) 3 = true ∧ LaggardPolicy.ofCode (field ps 6 1) = none then some 4
  else none

/-- The session record after an accepted SESSION TUNE (R113). -/
def tuneRecord (ps : List Byte) (x : Session) : Session :=
  { x with
    windowSize := given ps 0 (field ps 0 2) x.windowSize
    pauseMark := given ps 1 (field ps 2 2) x.pauseMark
    resumeMark := given ps 2 (field ps 4 2) x.resumeMark
    laggard := if member (field ps 22 2) 3 then (LaggardPolicy.ofCode (field ps 6 1)).getD x.laggard else x.laggard
    tune := tuneTunables x.tune ps }

/-- SESSION_TUNE (R113). The new D reaches every slot that is not throttled through its depth in force (R99), and the
new window size reaches free frames at once (R37). -/
def execSessionTune (s : State) : Host.Outcome State Fault Refusal :=
  .next (s.takeRequest (some .sessionTune) (fun r t =>
    if t.wsc.hold ≠ .held then t.answer r .notHeld 0 []
    else match tuneFailure r.params t.ses t.win.records.length with
      | some p => t.answer r .refusedRange p []
      | none =>
        let x := tuneRecord r.params t.ses
        ({ t with session := some x }).accept r .ok (paramBlock x)))

/-! ## CLOSE SESSION (R19, R20) -/

/-- What CLOSE SESSION clears in every slot (R19). -/
def Slot.closed (sl : Slot) : Slot :=
  { sl with
    stall := none, rostered := false, laggard := false, pinCount := 0, clearCount := 0
    throttled := false, residency := 0, throttledDepth := none, trouble := 0
    ordinal := none, span := none, deferred := none, ackPoint := none, issueCursor := none, verifyCursor := none
    ahead := [], rewrites := [], piecesSent := 0, qual := none }

/-- CLOSE SESSION settles one slot (R19). -/
def State.closeSlot (s : State) (i : SlotIx) : State :=
  let st := (s.slot i).state
  let s1 := (s.leave i false).updSlot i Slot.closed
  if st.enrolled then
    (s1.updSlot i (fun sl => sl.withOutcome ⟨.incomplete, none, none, none⟩)).moveSlot i .failed
  else if st = .sizing ∨ st = .probing ∨ st = .ready then s1.moveSlot i .present
  else s1

/-- CLOSE SESSION clears the shared state (R20, R39, R40, R154, R166): no retirement and no PASS-ENDED. -/
def State.clearShared (s : State) : State :=
  { s with
    intake.assembly := none
    win.records := [], win.digest := [], win.waiting := []
    stu.sites := [], stu.regions := [], stu.entries := .replicate 192 (.replicate 32 .unrendered)
    wsc.hold := .run, wsc.paceAt := none, wsc.decayAt := none
    session := none }

/-- CLOSE_SESSION (R19, R20, R111): the pending HOLD reply first, every slot settled, the shared state cleared, flow.
That the slots are settled, and their SLOT-CHANGED notices raised, in ascending slot number is a DESIGN CHOICE (log
34). -/
def execCloseSession (s : State) : Host.Outcome State Fault Refusal :=
  .next (s.takeRequest (some .closeSession) (fun r t =>
    ((((t.settleHold .ok .run).forSlots (fun i u => u.closeSlot i)).clearShared).evalFlow).accept r .ok []))

end Sys2Proof.Machine
end

