-- ==== Sys2Proof/Machine/Stamps.lean ====
section
/-! DEFINITION. The requests of STU: LOAD PATCH SITE (R115, R116), LOAD GUARD REGION (R117), CLEAR PATCH TABLE (R118)
and STAMP SUPPLY (R133, R134). -/

namespace Sys2Proof.Machine

/-! ## LOAD PATCH SITE -/

/-- The width range of the kind with a code (section 6.1), none for a code that names no kind (R186). -/
def kindWidths : Nat → Option (Nat × Nat)
  | 0 => some (1, 8)
  | 1 => some (1, 8)
  | 2 => some (1, 20)
  | 3 => some (2, 20)
  | 4 => some (1, 16)
  | 5 => some (1, 8)
  | 6 => some (1, 8)
  | 7 => some (1, 32)
  | 8 => some (4, 4)
  | _ => none

/-- The kind a LOAD PATCH SITE asks for, with the values that apply to it (R115). -/
def kindOf (ps : List Byte) : SiteKind :=
  let mode := (OverflowMode.ofCode (field ps 8 1)).getD .wrap
  let base := field ps 9 8
  let stride := field ps 17 2
  let off := field ps 19 8
  let al := field ps 27 4
  match field ps 7 1 with
  | 0 => .ordinal .le mode base stride
  | 1 => .ordinal .be mode base stride
  | 2 => .ordinal .dec mode base stride
  | 3 => .ordinal .decCheck mode base stride
  | 4 => .ordinal .hex mode base stride
  | 5 => .capacity false mode off al
  | 6 => .capacity true mode off al
  | 7 => .supplied
  | _ => .guard (field ps 31 1)

/-- The site a LOAD PATCH SITE asks for. -/
def siteOf (ps : List Byte) : Site := ⟨field ps 0 4, field ps 4 2, field ps 6 1, kindOf ps, none⟩

/-- Two sites share a byte. -/
def Site.overlaps (t u : Site) : Bool :=
  t.chunk == u.chunk && decide (t.offset < u.offset + u.width) && decide (u.offset < t.offset + t.width)

/-- B is above 2^48 - 1 (R115 check 4). -/
def baseBad (ps : List Byte) : Bool := decide (2 ^ 48 - 1 < field ps 9 8)

/-- The stride is 0; its field holds no value above 65,535 (R115 check 4). -/
def strideBad (ps : List Byte) : Bool := field ps 17 2 == 0

/-- Off is not below 128 L (R115 check 5). -/
def offsetBad (ps : List Byte) (l : Nat) : Bool := decide (128 * l ≤ field ps 19 8)

/-- Al is 0 or above 65,536 (R115 check 5). -/
def alignBad (ps : List Byte) : Bool := field ps 27 4 == 0 || decide (65536 < field ps 27 4)

/-- The first value check of R115 that fails: 1 to 6, as the position it names. Where both values of check 4 or of check
5 fail, R115 does not say which is named: a free value (log 8). -/
def siteValueFailure (ps : List Byte) (l regions : Nat) : Option Nat :=
  let code := field ps 7 1
  let w := field ps 6 1
  match kindWidths code with
  | none => some 4
  | some (lo, hi) =>
    if w < lo ∨ hi < w then some 3
    else if code ≤ 6 ∧ OverflowMode.ofCode (field ps 8 1) = none then some 5
    else if code ≤ 4 ∧ (baseBad ps = true ∨ strideBad ps = true) then
      some (namedAmong 115 4 ps (failing [(6, baseBad ps), (7, strideBad ps)]))
    else if (code = 5 ∨ code = 6) ∧ (offsetBad ps l = true ∨ alignBad ps = true) then
      some (namedAmong 115 5 ps (failing [(8, offsetBad ps l), (9, alignBad ps)]))
    else if code = 8 ∧ regions ≤ field ps 31 1 then some 10
    else none

/-- The first placement check of R116 that fails, by its number. -/
def placementFailure (t : Site) (l : Nat) (sites : List Site) (regions : List Region) : Option Nat :=
  let region : Option Region := match t.kind with
    | .guard r => regions[r]?
    | _ => none
  if l ≤ t.chunk then some 1
  else if Config.chunkBytes < t.offset + t.width then some 2
  else if sites.any t.overlaps = true then some 3
  else if regions.any (fun g => t.touches g && !t.inside g) = true then some 4
  else if region.any (fun g => !t.inside g) = true then some 5
  else match t.kind with
    | .guard r => if (guardSiteOf sites r).isSome then some 6 else none
    | _ => none

/-- The positions of the parameters a placement check turns on (R116, R188): the chunk; offset and width; the three
that place the site's bytes; these and the region number; the region number. -/
def placementParams : Nat → List Nat
  | 1 => [1]
  | 2 => [2, 3]
  | 3 | 4 => [1, 2, 3]
  | 5 => [1, 2, 3, 10]
  | _ => [10]

/-- The position a failed placement check names: one of those it turns on; which of several, R116 leaves open (log 8).
-/
def placementDetail (check : Nat) (ps : List Byte) : Nat := namedAmong 116 check ps (placementParams check)

/-- LOAD_PATCH_SITE (R115, R116). -/
def execLoadPatchSite (s : State) : Host.Outcome State Fault Refusal :=
  .next (s.takeRequest (some .loadPatchSite) (fun r t =>
    let l := t.ses.imageLength
    let site := siteOf r.params
    if 32 ≤ t.stu.sites.length then t.answer r .refusedFull 0 []
    else match siteValueFailure r.params l t.stu.regions.length with
      | some p => t.answer r .refusedRange p []
      | none => match placementFailure site l t.stu.sites t.stu.regions with
        | some c => t.answer r .refusedRange (placementDetail c r.params) []
        | none => ({ t with stu.sites := t.stu.sites ++ [site] }).accept r .ok (leBytes 1 t.stu.sites.length)))

/-! ## LOAD GUARD REGION and CLEAR PATCH TABLE -/

/-- The region a LOAD GUARD REGION asks for. -/
def regionOf (ps : List Byte) : Region := ⟨field ps 0 4, field ps 4 2, field ps 6 4, none⟩

/-- Two regions share a byte. -/
def Region.overlaps (g h : Region) : Bool :=
  g.chunk == h.chunk && decide (g.start < h.start + h.length) && decide (h.start < g.start + g.length)

/-- A check of R117 fails. -/
def regionRefused (g : Region) (l : Nat) (sites : List Site) (regions : List Region) : Bool :=
  decide (l ≤ g.chunk) || decide (g.length < 8) || decide (65536 < g.length) ||
  decide (Config.chunkBytes < g.start + g.length) || regions.any g.overlaps ||
  sites.any (fun t => t.touches g && !t.inside g)

/-- LOAD_GUARD_REGION (R117). -/
def execLoadGuardRegion (s : State) : Host.Outcome State Fault Refusal :=
  .next (s.takeRequest (some .loadGuardRegion) (fun r t =>
    let g := regionOf r.params
    if 4 ≤ t.stu.regions.length then t.answer r .refusedFull 0 []
    else if regionRefused g t.ses.imageLength t.stu.sites t.stu.regions then t.answer r .refusedRange 0 []
    else ({ t with stu.regions := t.stu.regions ++ [g] }).accept r .ok (leBytes 1 t.stu.regions.length)))

/-- CLEAR_PATCH_TABLE (R118). -/
def execClearPatchTable (s : State) : Host.Outcome State Fault Refusal :=
  .next (s.takeRequest (some .clearPatchTable) (fun r t =>
    ({ t with stu.sites := [], stu.regions := [] }).accept r .ok []))

/-! ## STAMP SUPPLY -/

/-- The number of the GUARD site whose region holds a site (R134 step 1). -/
def guardOver (sites : List Site) (regions : List Region) (t : Site) : Option Nat :=
  (regions.findIdx? t.inside).bind (guardSiteOf sites)

/-- The stall of a slot after a supply to a site of chunk `c` (R134 step 2). -/
def State.supplyStall (s : State) (i : SlotIx) (c : Nat) : State :=
  match (s.slot i).stall with
  | none => s
  | some st =>
    if st.chunk ≠ c then s
    else if s.chunkReady i c then s.updSlot i (fun sl => { sl with stall := none })
    else match s.lowestDeferred i c with
      | none => s
      | some k =>
        (s.updSlot i (fun sl => { sl with stall := some { st with site := k } })).raise
          (.stampStalled i ((s.slot i).ordinal.getD 0) k c)

/-- The stall state a STAMP SUPPLY reports, and the stalled site (R134 step 3, log 17). -/
def stallReport (before after : Option Stall) : List Byte :=
  match before, after with
  | _, some st => leBytes 1 2 ++ leBytes 1 st.site
  | some _, none => leBytes 1 1 ++ leBytes 1 0xFF
  | none, none => leBytes 1 0 ++ leBytes 1 0xFF

/-- An accepted STAMP SUPPLY (R134). -/
def State.supply (s : State) (r : Request) (i : SlotIx) (site : Nat) (t : Site) : State :=
  let s1 := s.setEntry i site (.supplied (r.params.drop 5))
  let s2 := match guardOver s1.stu.sites s1.stu.regions t with
    | some g => s1.attemptGuard i g
    | none => s1
  let s3 := s2.supplyStall i t.chunk
  s3.accept r .ok (leBytes 1 i.val ++ leBytes 1 site ++ stallReport (s.slot i).stall (s3.slot i).stall)

/-- STAMP_SUPPLY (R133, R134). -/
def execStampSupply (s : State) : Host.Outcome State Fault Refusal :=
  .next (s.takeRequest (some .stampSupply) (fun r t =>
    let n := field r.params 0 1
    let site := field r.params 1 1
    if h : n < 192 then
      let i : SlotIx := ⟨n, h⟩
      match t.stu.sites[site]? with
      | none => t.answer r .refusedRange 2 []
      | some st =>
        if st.kind matches .guard _ then t.answer r .refusedRange 2 []
        else if field r.params 4 1 ≠ st.width then t.answer r .refusedRange 4 []
        else if (t.slot i).state.enrolled = false ∨ (t.slot i).ordinal ≠ some (field r.params 2 2) ∨
            t.entry i site ≠ .deferred then t.answer r .stale 0 []
        else t.supply r i site st
    else t.answer r .refusedRange 1 []))

end Sys2Proof.Machine
end

