-- ==== Sys2Proof/Machine/Dispatch.lean ====
section
/-! DEFINITION. One arm for each command: its meaning. -/

namespace Sys2Proof.Machine

def exec (i : Instr) (s : State) : Host.Outcome State Fault Refusal :=
  match i with
  | .powerOnReset => Sys2Proof.Machine.execPowerOnReset s
  | .bufferInitComplete => Sys2Proof.Machine.execBufferInitComplete s
  | .imageLinkEstablished => Sys2Proof.Machine.execImageLinkEstablished s
  | .imageLinkLost => Sys2Proof.Machine.execImageLinkLost s
  | .badFrame => Sys2Proof.Machine.execBadFrame s
  | .malformedFrame kd bodyLength => Sys2Proof.Machine.execMalformedFrame kd bodyLength s
  | .segment chunk index bs => Sys2Proof.Machine.execSegment chunk index bs s
  | .requestFrame tag code params => Sys2Proof.Machine.execRequestFrame tag code params s
  | .unknownRequest => Sys2Proof.Machine.execUnknownRequest s
  | .identify => Sys2Proof.Machine.execIdentify s
  | .engineReset => Sys2Proof.Machine.execEngineReset s
  | .engineResetTakesEffect => Sys2Proof.Machine.execEngineResetTakesEffect s
  | .openSession => Sys2Proof.Machine.execOpenSession s
  | .loadPatchSite => Sys2Proof.Machine.execLoadPatchSite s
  | .loadGuardRegion => Sys2Proof.Machine.execLoadGuardRegion s
  | .clearPatchTable => Sys2Proof.Machine.execClearPatchTable s
  | .startSession => Sys2Proof.Machine.execStartSession s
  | .passStart => Sys2Proof.Machine.execPassStart s
  | .hold => Sys2Proof.Machine.execHold s
  | .releaseHold => Sys2Proof.Machine.execReleaseHold s
  | .sessionTune => Sys2Proof.Machine.execSessionTune s
  | .releaseSlot => Sys2Proof.Machine.execReleaseSlot s
  | .stampSupply => Sys2Proof.Machine.execStampSupply s
  | .slotStatus => Sys2Proof.Machine.execSlotStatus s
  | .sessionStatus => Sys2Proof.Machine.execSessionStatus s
  | .clearMarks => Sys2Proof.Machine.execClearMarks s
  | .snapshot => Sys2Proof.Machine.execSnapshot s
  | .readSnapshot => Sys2Proof.Machine.execReadSnapshot s
  | .setNoticeMask => Sys2Proof.Machine.execSetNoticeMask s
  | .closeSession => Sys2Proof.Machine.execCloseSession s
  | .upstreamGrant => Sys2Proof.Machine.execUpstreamGrant s
  | .autoSnapshotExpiry => Sys2Proof.Machine.execAutoSnapshotExpiry s
  | .bufferTransferGrant => Sys2Proof.Machine.execBufferTransferGrant s
  | .presenceInserted link socket => Sys2Proof.Machine.execPresenceInserted link socket s
  | .presenceRemoved link socket => Sys2Proof.Machine.execPresenceRemoved link socket s
  | .settleDeadline slot => Sys2Proof.Machine.execSettleDeadline slot s
  | .pong link => Sys2Proof.Machine.execPong link s
  | .pingDue link => Sys2Proof.Machine.execPingDue link s
  | .bridgeMessageMalformed link bs => Sys2Proof.Machine.execBridgeMessageMalformed link bs s
  | .transmitGrant link => Sys2Proof.Machine.execTransmitGrant link s
  | .commandSend link => Sys2Proof.Machine.execCommandSend link s
  | .writeAck link tag status => Sys2Proof.Machine.execWriteAck link tag status s
  | .capacity link tag status data => Sys2Proof.Machine.execCapacity link tag status data s
  | .readData link tag status data => Sys2Proof.Machine.execReadData link tag status data s
  | .tagLapse link tag => Sys2Proof.Machine.execTagLapse link tag s
  | .stallDeadline slot => Sys2Proof.Machine.execStallDeadline slot s
  | .paceTick => Sys2Proof.Machine.execPaceTick s
  | .decayTick => Sys2Proof.Machine.execDecayTick s
  | .upstreamFrameSent => Sys2Proof.Machine.execUpstreamFrameSent s

end Sys2Proof.Machine
end

