-- ==== Sys2Proof/Machine/Step.lean ====
section
/-! DEFINITION. One step: the command at the front of the queue, or a millisecond of idling (log 2, log 28). -/

namespace Sys2Proof.Machine

/-- The engine with no command waiting: its timebase advances by 1 ms (R181, log 2). -/
def idle (s : State) : Host.Outcome State Fault Refusal := .next { s with now := s.now + 1 }

/-- One step: the command at the front of the queue on the state with the queue's rest. -/
def step (s : State) : Host.Outcome State Fault Refusal :=
  match s.pending with
  | [] => idle s
  | c :: rest => exec c { s with pending := rest }

/-- The state with the command a table word spells put at the front of the queue; unchanged where the word spells none
(log 27). -/
def State.withFetchWord (s : State) (nbits w : Nat) : State :=
  match decodeTableWord nbits w with
  | some c => { s with pending := c :: s.pending }
  | none => s

end Sys2Proof.Machine
end

