-- ==== Sys2Proof/Safety.lean ====
section
/-! DEFINITION. What holds of the machine after every command: the bounds and forms the reference gives its state, each
a property of one state, kept by every step from any state that has it. And the terms the statements are written in: a
request taken by its owner, its REPLY, a tag answered by its command. -/

namespace Sys2Proof.Machine

/-- Buffer memory and the stamp scratch are in the canonical form (log 7). -/
def State.memoryWf (s : State) : Prop := s.win.frames.wf = true ∧ s.stu.scratch.wf = true

/-- The REPLY frames built or still owed to a pending HOLD (R108, R176). -/
def State.replies (s : State) : Nat := s.req.outbox.length + (if s.wsc.holdReply.isSome then 1 else 0)

/-- The queues keep their sizes: 8 requests (R172), 16 REPLY frames with the pending HOLD reply counted (R176), 8 FLOW
frames (R178), 32 notices (R194). -/
structure State.QueuesBounded (s : State) : Prop where
  requests : s.req.queue.length ≤ 8
  replies : s.replies ≤ 16
  flow : s.req.flowOut.length ≤ 8
  notices : s.ncu.notices.length ≤ 32

/-- The counts of a slot record keep the ranges of R61, and a throttled depth in force, at least 1, is held exactly
while the throttled flag is set (R61, R99). -/
structure Slot.InRange (sl : Slot) : Prop where
  trouble : sl.trouble ≤ 63
  residency : sl.residency ≤ 255
  pinCount : sl.pinCount ≤ 255
  clearCount : sl.clearCount ≤ 255
  throttled : sl.throttled = sl.throttledDepth.isSome
  depth : ∀ d, sl.throttledDepth = some d → 1 ≤ d

/-- Every slot record keeps its ranges. -/
def State.slotsInRange (s : State) : Prop := ∀ i, (s.slot i).InRange

/-- The LAPSED tags of a link. -/
def Link.lapsedTags (l : Link) : Nat := l.tags.toList.countP (fun t => t == .lapsed)

/-- The lapsed count of every link is the number of its LAPSED tags (R92, R93, R90). -/
def State.lapsedExact (s : State) : Prop := ∀ k, (s.link k).lapsed = (s.link k).lapsedTags

/-- While the image link is DOWN the flow state is PAUSED, no FLOW frame waits and the lane is idle (R46, R179). -/
def State.downQuiet (s : State) : Prop :=
  s.intake.linkUp = false → s.intake.flow = .paused ∧ s.req.flowOut = [] ∧ s.req.lane = none

/-- In session state NONE nothing of a session is left: no assembly (R44), an empty window (R27), an empty digest table
(R40), empty site and region tables (R114, R117), the scheduler in RUN (R108) and the pace and decay timers stopped
(R154, R166). -/
structure State.NoneEmpty (s : State) : Prop where
  assembly : s.intake.assembly = none
  records : s.win.records = []
  digest : s.win.digest = []
  sites : s.stu.sites = []
  regions : s.stu.regions = []
  hold : s.wsc.hold = .run
  pace : s.wsc.paceAt = none
  decay : s.wsc.decayAt = none

/-- State NONE leaves nothing of a session. -/
def State.noneEmpty (s : State) : Prop := s.session = none → s.NoneEmpty

/-- A HOLD reply is pending in HOLDING alone (R108 to R111). -/
def State.holdReplyInHolding (s : State) : Prop := s.wsc.holdReply.isSome = true → s.wsc.hold = .holding

/-- The window of a session: at most W records, W being at most 4,096 (R24, R27), chunks ascending without a gap, those
RESIDENT ending at H - 1 and an ASSEMBLING one being H (R27), each in a frame of its own (R24). An ASSEMBLING record
stands last, and exactly while the assembly record is present, for the same chunk and frame (R27, R44), in a STREAMING
pass of a RUNNING session (R48), with segment 1 to 15 next (R44). H is at most L, below it while STREAMING and L while
DRAINING (R11). Outside a pass the window is empty, but in FAULTED (R9, R12, R17). -/
structure State.WindowOf (s : State) (x : Session) : Prop where
  size : s.win.records.length ≤ x.windowSize
  pool : x.windowSize ≤ 4096
  chunks : ∃ tail, s.win.records.map ChunkRecord.chunk = List.range' tail s.win.records.length ∧
    tail + s.win.records.length = x.nextChunk + (if s.intake.assembly.isSome then 1 else 0)
  frames : (s.win.records.map ChunkRecord.frame).Nodup
  frame : ∀ r ∈ s.win.records, r.frame < 4096
  resident : s.intake.assembly = none → ∀ r ∈ s.win.records, r.resident ≠ none
  assembling : ∀ a, s.intake.assembly = some a → a.chunk = x.nextChunk ∧ 1 ≤ a.nextSegment ∧ a.nextSegment ≤ 15 ∧
    x.phase = .running ∧ x.pass = .streaming ∧
    ∃ pre, s.win.records = pre ++ [⟨a.chunk, a.frame, none⟩] ∧ ∀ r ∈ pre, r.resident ≠ none
  head : x.nextChunk ≤ x.imageLength
  streaming : x.pass = .streaming → x.nextChunk < x.imageLength
  draining : x.pass = .draining → x.nextChunk = x.imageLength
  idle : x.phase ≠ .faulted → x.pass = .noPass → s.win.records = []

/-- The window list is that of the session; in NONE it is empty and no assembly is open (R27, R44). -/
def State.windowed (s : State) : Prop :=
  (s.session = none → s.win.records = [] ∧ s.intake.assembly = none) ∧ ∀ x, s.session = some x → s.WindowOf x

/-- The ordinals of a session (R7): next ordinal is at most 65,536 and above every ordinal a slot holds, and no two
slots hold the same one; in NONE no slot holds one (R19). -/
def State.ordinalsDistinct (s : State) : Prop :=
  (s.session = none → ∀ i, (s.slot i).ordinal = none) ∧
  ∀ x, s.session = some x → x.nextOrdinal ≤ 65536 ∧ (∀ i n, (s.slot i).ordinal = some n → n < x.nextOrdinal) ∧
    ∀ i j n, (s.slot i).ordinal = some n → (s.slot j).ordinal = some n → i = j

/-! ## Terms of the statements -/

/-- The command that takes a request of a kind from the queue. -/
def ReqKind.command : ReqKind → Instr
  | .identify => .identify
  | .engineReset => .engineReset
  | .openSession => .openSession
  | .loadPatchSite => .loadPatchSite
  | .loadGuardRegion => .loadGuardRegion
  | .clearPatchTable => .clearPatchTable
  | .startSession => .startSession
  | .passStart => .passStart
  | .hold => .hold
  | .releaseHold => .releaseHold
  | .sessionTune => .sessionTune
  | .releaseSlot => .releaseSlot
  | .stampSupply => .stampSupply
  | .slotStatus => .slotStatus
  | .sessionStatus => .sessionStatus
  | .clearMarks => .clearMarks
  | .snapshot => .snapshot
  | .readSnapshot => .readSnapshot
  | .setNoticeMask => .setNoticeMask
  | .closeSession => .closeSession

/-- The head of the request queue is a request of kind `k`, and the outbox has room to take it (R173). -/
structure State.Heads (s : State) (k : ReqKind) (r : Request) (rest : List Request) : Prop where
  queue : s.req.queue = r :: rest
  room : s.req.outbox.length < 4
  code : ReqKind.ofCode r.code = some k

/-- The request at the head of the queue passes steps 1 to 4 of R173, so that taking it hands it to its owner. -/
structure State.Serves (s : State) (k : ReqKind) (r : Request) (rest : List Request) : Prop extends
    State.Heads s k r rest where
  ready : s.notReady = false
  taken : k.takenIn s.phase = true
  length : k.lengthOk r.params = true

/-- The REPLY that refuses a request (R174, R175). -/
def Request.reply (r : Request) (st : ReplyStatus) (detail : Nat) (data : List Byte) : Reply :=
  ⟨r.tag, r.code, st, BitVec.ofNat 8 detail, data⟩

/-- The REPLY of a request taken, its detail being open (R175, log 36). -/
def Request.ok (r : Request) (data : List Byte) : Reply := acceptance r.tag r.code .ok data

/-- The request at the head of the queue is gone and a REPLY stands at the end of the outbox; nothing else differs. -/
def State.replied (s : State) (rest : List Request) (rep : Reply) : State :=
  { s with req.queue := rest, req.outbox := s.req.outbox ++ [rep] }

/-- The REPLY that settles a pending HOLD with OK, reporting RUN (R110, R111). -/
def runReply (tag : ReqTag) : Reply := acceptance tag 0x09 .ok [0]

/-- A tag of an UP link is BOUND to a command of slot `i` and names the entry `e` of its list (R91, R93). -/
structure State.Answers (s : State) (k : LinkIx) (tag : LinkTag) (b : Busy) (e : Entry) : Prop where
  up : (s.link k).up = true
  bound : (s.link k).tag tag = .bound b
  entry : (s.slot b.slot).entry tag = some e
  kind : b.kind = e.work.kind

/-- What a change of some slots (`mine`) and of the commands it stops leaves alone, from `s` to `t`. Another slot's
record stays, but that a pass end clears its rostered mark (R12); the records of other links stay; the session stays
but for the end of its pass; the counters stay but for lost notices. What may differ besides: flow and its frames, the
window's records and waiting transfers, the hold with its pending reply, the notices, the seen flags. Nothing else
does. -/
structure Elsewhere (s t : State) (mine : SlotIx → Prop) : Prop where
  slots : ∀ j, ¬mine j → t.slot j = s.slot j ∨ t.slot j = { s.slot j with rostered := false }
  links : ∀ k, (∀ j, mine j → linkOf j ≠ k) → t.link k = s.link k
  session : t.session = s.session ∨ t.session = s.session.map (fun x => { x with pass := .noPass })
  counters : ∀ n : Fin 10, n ≠ 9 → t.ncu.counters[n] = s.ncu.counters[n]
  rest : t = { s with
    session := t.session, intake.flow := t.intake.flow, slots := t.slots, links := t.links
    win.records := t.win.records, win.waiting := t.win.waiting
    wsc.hold := t.wsc.hold, wsc.holdReply := t.wsc.holdReply
    req.outbox := t.req.outbox, req.flowOut := t.req.flowOut
    ncu.notices := t.ncu.notices, ncu.seen := t.ncu.seen, ncu.noticesLost := t.ncu.noticesLost
    ncu.counters := t.ncu.counters }

/-- The slot record after a rise of trouble by `w` that does not eject (R163, R164, R99), `places` being the depth
places the slot occupies: at or above the throttle threshold the residency is 0, and a slot not yet throttled is
throttled at its places, at least 1. -/
def Slot.risen (sl : Slot) (x : Session) (w places : Nat) : Slot :=
  let score := min 63 (sl.trouble + w)
  if score < x.tune.throttle then { sl with trouble := score }
  else if sl.throttled then { sl with trouble := score, residency := 0 }
  else { sl with trouble := score, throttled := true, residency := 0, throttledDepth := some (max 1 places) }

/-- From `u` to `v` slot `i` has gone to FAILED with outcome `o`, unless it holds one (R79): its commands abandoned and
its list and rewrite queue emptied (R94), the read of a piece stopped with its transfers (R25), its places given up
(R99), the pending it owed while LIVE released (R32), its change raised (R62). Nothing else differs. -/
structure Failed (u v : State) (i : SlotIx) (o : Outcome) : Prop where
  own : v.slot i = { u.slot i with
    state := .failed, outcome := some ((u.slot i).outcome.getD o), qual := none, inFlight := [], rewrites := []
    piecesSent := 0, ahead := [], stall := none, rostered := false
    throttledDepth := (u.slot i).throttledDepth.map (fun d => max 1 (d - u.places i))
    changeMark := true, lamp := (u.slot i).lamp.eval .red }
  others : ∀ j, j ≠ i → v.slot j = u.slot j
  link : v.link (linkOf i) = { u.link (linkOf i) with
    path := (u.link (linkOf i)).path.filter (fun g => g.slot != i)
    tags := (u.link (linkOf i)).tags.map (TagState.abandon i false) }
  links : ∀ k, k ≠ linkOf i → v.link k = u.link k
  records : v.win.records =
    if (u.slot i).state = .live then lowerOwed ((u.slot i).owes (u.head.getD 0)) u.win.records else u.win.records
  waiting : v.win.waiting =
    if (u.link (linkOf i)).grants i then withdraw (linkOf i) u.win.waiting else u.win.waiting
  ncu : v.ncu = (u.raise (.slotChanged i (u.slot i).state .failed (some ((u.slot i).outcome.getD o).kind))).ncu
  rest : v = { u with
    slots := v.slots, links := v.links, win.records := v.win.records, win.waiting := v.win.waiting, ncu := v.ncu }

/-- What follows a rise of trouble by `w` for slot `i` (R163, R164) in a command that answers `out`: at or above the
eject threshold the slot is FAILED with TROUBLE and no retry is made; below it the owning rule's decision, `again`
while fewer retries than the limit are used, else FAILED with `o`. The event closes with retirement and the test for
HELD. -/
structure RetryDecision (u : State) (x : Session) (i : SlotIx) (w retries : Nat) (again : Slot → Slot) (o : Outcome)
    (out : Host.Outcome State Fault Refusal) : Prop where
  ejected : x.tune.eject ≤ min 63 ((u.slot i).trouble + w) →
    ∃ v, out = .next v.close ∧
      Failed (u.setSlot i { u.slot i with trouble := min 63 ((u.slot i).trouble + w) }) v i ⟨.trouble, none, none, none⟩
  retried : min 63 ((u.slot i).trouble + w) < x.tune.eject → retries < x.tune.retryLimit →
    out = .next (u.setSlot i (again ((u.slot i).risen x w (u.places i)))).close
  exhausted : min 63 ((u.slot i).trouble + w) < x.tune.eject → x.tune.retryLimit ≤ retries →
    ∃ v, out = .next v.close ∧ Failed (u.setSlot i ((u.slot i).risen x w (u.places i))) v i o

/-- The records of the window once every LIVE slot of link `k` has released the pending it owes (R32, R90). -/
def State.recordsWithoutLink (s : State) (k : LinkIx) : List ChunkRecord :=
  s.win.records.map (fun r => { r with resident := r.resident.map (fun y => { y with
    owed := y.owed - (List.finRange 192).countP (fun i =>
      linkOf i == k && (s.slot i).state == .live && (s.slot i).owes (s.head.getD 0) r.chunk) }) })

end Sys2Proof.Machine
end

