-- ==== Sys2Proof/WellFormed.lean ====
section
/-! DEFINITION. Which commands can arrive as the row they are written as: each check is a layout rule of the frames
chapter. The machine is total all the same: what it does with a command that fails its check is in its meaning. -/

namespace Sys2Proof

/-- A command is well-formed when it satisfies the layout rule of its row. -/
def Instr.wf : Instr → Bool
  | .malformedFrame kind len => !downstreamAccepted kind len
  | .segment _ _ bytes => bytes.length == Config.segmentBytes
  | .requestFrame _ _ params => decide (params.length + 3 < 2 ^ 16)
  | .bridgeMessageMalformed _ bytes => !bridgeMessageOk bytes
  | .powerOnReset | .bufferInitComplete | .imageLinkEstablished | .imageLinkLost | .badFrame
  | .unknownRequest | .identify | .engineReset | .engineResetTakesEffect | .openSession | .loadPatchSite
  | .loadGuardRegion | .clearPatchTable | .startSession | .passStart | .hold | .releaseHold | .sessionTune
  | .releaseSlot | .stampSupply | .slotStatus | .sessionStatus | .clearMarks | .snapshot | .readSnapshot
  | .setNoticeMask | .closeSession | .upstreamGrant | .autoSnapshotExpiry | .bufferTransferGrant
  | .presenceInserted _ _ | .presenceRemoved _ _ | .settleDeadline _ | .pong _ | .pingDue _
  | .transmitGrant _ | .commandSend _ | .writeAck _ _ _ | .capacity _ _ _ _ | .readData _ _ _ _
  | .tagLapse _ _ | .stallDeadline _ | .paceTick | .decayTick | .upstreamFrameSent => true

end Sys2Proof
end

