-- ==== Sys2Proof/Certificates/Slice0/Obligations.lean ====
section
/-! DEFINITION. The statements about the machine. Each says what its name says; its docstring names the rules of spec/ it
formalises, or that it states a choice of the model's (with the log entry). -/

open Sys2Proof Sys2Proof.Machine

/-! ## Steps -/

/-- The step takes the command at the front of the queue and answers what it does on the state with the queue's rest
(95_what_each_step_holds.md: an event is whole), and every command completes on every state: the spec names no event
that stops the engine. The second clause is the MODEL'S CHOICE (log 2, log 28): with no command waiting, one step is
one millisecond of the timebase and nothing else; and so is it that a command which the state does not allow changes
nothing (log 1). -/
def Obligations.StepsRunTheFrontCommandAndComplete : Prop :=
  (∀ (s : State) (c : Instr) (rest : List Instr), s.pending = c :: rest → step s = exec c { s with pending := rest }) ∧
  (∀ s : State, s.pending = [] → step s = .next { s with now := s.now + 1 }) ∧
  (∀ (c : Instr) (s : State), ∃ t, exec c s = .next t)

/-! ## Reset -/

/-- What power-on reset leaves (R1, R24, R40, R43, R44, R61, R86, R108, R114, R117, R119, R154, R166, R172, R176,
R178, R180, R181, R194 to R202). POWER_ON_RESET puts every block at its reset value and clears no frame and no
scratch (R23, R24); BUFFER_INIT_COMPLETE ends the NOT-READY period with every digest entry ABSENT (R40, R180). That the
scratch keeps its bytes is the model's choice (log 39; R129 says only that they are not read). -/
def Obligations.ResetAndPowerOn : Prop :=
  (let s := State.reset
   s.pending = [] ∧ s.now = 0 ∧ s.session = none ∧ s.intake = ⟨none, .paused, false⟩ ∧
   s.win.records = [] ∧ s.win.digest = [] ∧ s.win.ring = 13 ∧ s.win.waiting = [] ∧
   (∀ i, (s.slot i).state = .empty ∧ (s.slot i).settleDeadline = none ∧ (s.slot i).outcome = none ∧
     (s.slot i).capacity = none ∧ (s.slot i).qual = none ∧ (s.slot i).ordinal = none ∧ (s.slot i).span = none ∧
     (s.slot i).deferred = none ∧ (s.slot i).ackPoint = none ∧ (s.slot i).issueCursor = none ∧
     (s.slot i).ahead = [] ∧ (s.slot i).inFlight = [] ∧ (s.slot i).rewrites = [] ∧ (s.slot i).rostered = false ∧
     (s.slot i).trouble = 0 ∧ (s.slot i).throttled = false ∧ (s.slot i).residency = 0 ∧
     (s.slot i).throttledDepth = none ∧ (s.slot i).pinCount = 0 ∧ (s.slot i).clearCount = 0 ∧
     (s.slot i).laggard = false ∧ (s.slot i).verifyCursor = none ∧ (s.slot i).stall = none ∧
     (s.slot i).lamp = ⟨.off, none⟩ ∧ (s.slot i).changeMark = false ∧
     ∀ n : Fin 5, (s.slot i).counters[n] = ⟨0, false⟩) ∧
   s.wsc = ⟨.run, none, none, none⟩ ∧
   (∀ k, (s.link k).up = false ∧ (s.link k).missed = 0 ∧ (∀ t, (s.link k).tags[(t : LinkTag).toFin] = .free) ∧
     (s.link k).lapsed = 0 ∧ (s.link k).lastTag = 255 ∧ (s.link k).lastSocket = 15 ∧ (s.link k).path = none) ∧
   s.stu.sites = [] ∧ s.stu.regions = [] ∧ (∀ i n, s.entry i n = .unrendered) ∧
   s.req.queue = [] ∧ s.req.outbox = [] ∧ s.req.flowOut = [] ∧ s.req.lane = none ∧ s.req.replyServed = false ∧
   s.req.initialising = true ∧ s.req.resetWaiting = false ∧ s.req.cause = .powerOn ∧
   s.ncu.notices = [] ∧ (∀ n : Fin 10, s.ncu.mask.getLsbD n = true ∧ s.ncu.seen.getLsbD n = false) ∧
   s.ncu.noticesLost = false ∧ (∀ n : Fin 10, s.ncu.counters[n] = ⟨0, false⟩) ∧
   s.ncu.bank.number = 0 ∧ s.ncu.bank.time = 0 ∧ (∀ n : Fin 10, s.ncu.bank.engine[n] = ⟨0, false⟩) ∧
   (∀ (i : Fin 192) (n : Fin 5), s.ncu.bank.slots[i][n] = ⟨0, false⟩) ∧
   s.ncu.autoInterval = 0 ∧ s.ncu.autoAt = none) ∧
  ((∀ s : State, exec .powerOnReset s =
     .next { State.reset with pending := s.pending, win.frames := s.win.frames, stu.scratch := s.stu.scratch }) ∧
   (∀ s : State, s.req.initialising = true →
     exec .bufferInitComplete s = .next { s with req.initialising := false, win.digest := [] }))

/-- ENGINE RESET taken settles a pending HOLD reply first, builds its own and waits (R182); the reset takes effect
once the outbox and the queue are empty, leaves the image link and the frames as they are (R24), names its cause and, on
an UP link, places one FLOW frame reporting PAUSED with H and free frames absent (R60, R183, R194). That the frame on
the lane is finished, and that no FLOW frame is placed on a DOWN link, is the model's reading (log 16, both halves);
that the hold state stays as it was from the taking of the request to the reset (log 35), and that the stamp scratch
keeps its bytes (log 39), are its choices. -/
def Obligations.EngineResetWaitsAndTakesEffect : Prop :=
  (∀ (s : State) (r : Request) (rest : List Request), s.Serves .engineReset r rest → s.wsc.holdReply = none →
    exec .engineReset s = .next { s.replied rest (r.ok []) with req.resetWaiting := true }) ∧
  (∀ (s : State) (r : Request) (rest : List Request) (tag : ReqTag), s.Serves .engineReset r rest →
    s.wsc.holdReply = some tag →
    exec .engineReset s = .next { s with
      req.queue := rest, req.outbox := s.req.outbox ++ [runReply tag, r.ok []], wsc.holdReply := none,
      req.resetWaiting := true }) ∧
  (∀ s : State, s.req.resetWaiting = true → s.req.outbox = [] → s.req.queue = [] →
    exec .engineResetTakesEffect s = .next { State.reset with
      pending := s.pending, intake.linkUp := s.intake.linkUp, win.frames := s.win.frames,
      stu.scratch := s.stu.scratch, req.lane := s.req.lane.map (fun l => { l with queued := false }),
      req.cause := .engineReset,
      req.flowOut := if s.intake.linkUp then [⟨.paused, none, none⟩] else [] })

/-! ## Invariants -/

/-- State.reset has every property of Sys2Proof/Safety.lean. -/
def Obligations.ResetHasEveryInvariant : Prop :=
  State.reset.memoryWf ∧ State.reset.QueuesBounded ∧ State.reset.slotsInRange ∧ State.reset.lapsedExact ∧
  State.reset.downQuiet ∧ State.reset.noneEmpty ∧ State.reset.holdReplyInHolding ∧ State.reset.windowed ∧
  State.reset.ordinalsDistinct

/-- Every step keeps buffer memory and the stamp scratch in the canonical form (log 7), and the queues within their
sizes (R172, R173, R176, R178, R194). -/
def Obligations.EveryStepKeepsMemoryAndQueues : Prop :=
  (∀ s t : State, s.memoryWf → step s = .next t → t.memoryWf) ∧
  (∀ s t : State, s.QueuesBounded → step s = .next t → t.QueuesBounded)

/-- Every step keeps each slot's counts in their ranges, and a throttled depth exactly while throttled (R61, R99), and
each link's lapsed count equal to the number of its LAPSED tags (R90 to R93). -/
def Obligations.EveryStepKeepsSlotAndTagCounts : Prop :=
  (∀ s t : State, s.slotsInRange → step s = .next t → t.slotsInRange) ∧
  (∀ s t : State, s.lapsedExact → step s = .next t → t.lapsedExact)

/-- Every step keeps flow PAUSED, the FLOW outbox empty and the lane idle while the image link is DOWN (R46, R179),
state NONE without anything of a session (R1, R20, R27, R40, R154, R166), and a pending HOLD reply to HOLDING (R108).
Every step keeps the window (R24, R27, R44): at most W records, their chunks ascending without a gap up to H - 1, or
to H with an ASSEMBLING record, which stands last and exactly while the assembly record is present, their frames
distinct; and the ordinals (R7): no two slots hold the same one, and next ordinal is above every one held. -/
def Obligations.EveryStepKeepsLinkAndSessionState : Prop :=
  (∀ s t : State, s.downQuiet → step s = .next t → t.downQuiet) ∧
  (∀ s t : State, s.noneEmpty → step s = .next t → t.noneEmpty) ∧
  (∀ s t : State, s.holdReplyInHolding → step s = .next t → t.holdReplyInHolding) ∧
  (∀ s t : State, s.windowed → step s = .next t → t.windowed) ∧
  (∀ s t : State, s.ordinalsDistinct → step s = .next t → t.ordinalsDistinct)

/-! ## The image link and its frames -/

/-- IMAGE_LINK_ESTABLISHED (R45): on a DOWN link, UP, flow by R57, and one FLOW frame reporting it; on an UP link,
nothing. IMAGE_LINK_LOST (R46, R179): DOWN, the assembly and its record gone, flow PAUSED, the FLOW outbox emptied
and the lane stopped, so that a REPLY or NOTICE cut off stands at the front of its source; on a DOWN link, nothing,
and flow is not evaluated. -/
def Obligations.ImageLinkComesAndGoes : Prop :=
  ((∀ s : State, s.downQuiet → s.intake.linkUp = false →
     let f : FlowState :=
       if s.session.any (fun x => x.pass == .streaming && decide (x.resumeMark ≤ x.windowSize - s.win.records.length)) = true ∧
         s.wsc.hold = .run then .opened else .paused
     exec .imageLinkEstablished s =
       .next { s with intake.linkUp := true, intake.flow := f, req.flowOut := [⟨f, s.head, s.free⟩] }) ∧
   (∀ s : State, s.intake.linkUp = true → exec .imageLinkEstablished s = .next s)) ∧
  ((∀ s : State, s.intake.linkUp = true → exec .imageLinkLost s =
     .next { s with
       intake := ⟨none, .paused, false⟩
       win.records :=
         if s.intake.assembly.isSome then s.win.records.filter (fun r => r.resident.isSome) else s.win.records
       req.flowOut := [], req.lane := none }) ∧
   (∀ s : State, s.intake.linkUp = false → exec .imageLinkLost s = .next s ∧ s.evalFlow = s))

/-- A frame whose check failed (R47), and a frame with a good check that R171 does not hand on, are discarded and
counted as bad frames, engine counter 7; a malformed bridge message changes nothing (R191). R198: an increment raises
a counter by 1; at 4,294,967,295 it leaves it there and sets its saturated flag. -/
def Obligations.BadFramesAreCountedAndSaturate : Prop :=
  ((∀ s : State, s.intake.linkUp = true → exec .badFrame s =
     .next { s with ncu.counters := s.ncu.counters.set 6 s.ncu.counters[6].bump }) ∧
   (∀ (s : State) (kind : Byte) (len : BitVec 16), s.intake.linkUp = true →
     ¬(kind = 0x01#8 ∧ len = 4101#16) → ¬(kind = 0x02#8 ∧ 3 ≤ len.toNat) →
     exec (.malformedFrame kind len) s =
       .next { s with ncu.counters := s.ncu.counters.set 6 s.ncu.counters[6].bump }) ∧
   (∀ (s : State) (k : LinkIx) (bytes : List Byte), exec (.bridgeMessageMalformed k bytes) s = .next s)) ∧
  (∀ c : Counter, (c.value = 4294967295#32 → c.bump = ⟨4294967295#32, true⟩) ∧
     (c.value ≠ 4294967295#32 → c.bump = ⟨c.value + 1, c.saturated⟩ ∧ c.bump.value.toNat = c.value.toNat + 1))

/-- The byte layouts of what arrives (R171, R185, R190, R191). A frame is its kind, its body's length in two bytes and
its body: kind 01 with 4,101 bytes is a SEGMENT, kind 02 with at least 3 a REQUEST, every other frame malformed, and
bytes that are no frame are none. A bridge message is its kind and its fields: 20, 21, 22 with tag, status and what
follows, 23 with a socket to 15 and an event 0 or 1, 24; every other message, and one too short for its fields, is
malformed. What is read is a well-formed command. And the layouts of the three upstream frames (R185). -/
def Obligations.FramesAndMessagesAreRead : Prop :=
  ((∀ (chunk : Word32) (index : Byte) (bytes : List Byte), bytes.length = 4096 →
      downstreamFrame (0x01#8 :: (leBytes 2 4101 ++ (leBytes 4 chunk.toNat ++ index :: bytes))) =
        some (.segment chunk index bytes)) ∧
   (∀ (tag : ReqTag) (code : Byte) (ps : List Byte), ps.length + 3 < 65536 →
      downstreamFrame (0x02#8 :: (leBytes 2 (ps.length + 3) ++ (leBytes 2 tag.toNat ++ code :: ps))) =
        some (.requestFrame tag code ps)) ∧
   (∀ (kind : Byte) (body : List Byte), body.length < 65536 → ¬(kind = 0x01#8 ∧ body.length = 4101) →
      ¬(kind = 0x02#8 ∧ 3 ≤ body.length) →
      downstreamFrame (kind :: (leBytes 2 body.length ++ body)) =
        some (.malformedFrame kind (BitVec.ofNat 16 body.length))) ∧
   (∀ bytes : List Byte, (∀ kind body, body.length < 65536 → bytes ≠ kind :: (leBytes 2 body.length ++ body)) →
      downstreamFrame bytes = none) ∧
   (∀ bytes c, downstreamFrame bytes = some c → c.wf = true)) ∧
  (∀ k : LinkIx,
    (∀ (tag status : Byte) (data : List Byte),
      bridgeMessage k (0x20#8 :: tag :: status :: data) = .writeAck k tag status ∧
      bridgeMessage k (0x21#8 :: tag :: status :: data) = .readData k tag status data ∧
      bridgeMessage k (0x22#8 :: tag :: status :: data) = .capacity k tag status data ∧
      bridgeMessage k (0x24#8 :: data) = .pong k) ∧
    (∀ (j : Socket) (more : List Byte),
      bridgeMessage k (0x23#8 :: BitVec.ofNat 8 j.val :: 0 :: more) = .presenceRemoved k j ∧
      bridgeMessage k (0x23#8 :: BitVec.ofNat 8 j.val :: 1 :: more) = .presenceInserted k j) ∧
    bridgeMessage k [] = .bridgeMessageMalformed k [] ∧
    (∀ (kind : Byte) (fields : List Byte), bridgeMessage k (kind :: fields) = .bridgeMessageMalformed k (kind :: fields) ↔
      kind ∉ [0x20#8, 0x21#8, 0x22#8, 0x23#8, 0x24#8] ∨ (kind ≠ 0x24#8 ∧ fields.length < 2) ∨
      (kind = 0x23#8 ∧ ∃ a b more, fields = a :: b :: more ∧ (15 < a.toNat ∨ 1 < b.toNat))) ∧
    (∀ bytes, (bridgeMessage k bytes).wf = true)) ∧
  ((∀ r : Reply, (UpFrame.reply r).bytes = 0x81#8 :: (leBytes 2 (r.data.length + 5) ++
      (leBytes 2 r.tag.toNat ++ [r.code, BitVec.ofNat 8 r.status.code, r.detail] ++ r.data))) ∧
   (∀ e : Event, (UpFrame.notice e).bytes = 0x82#8 :: (leBytes 2 (e.data.length + 1) ++
      (BitVec.ofNat 8 (e.member.val + 1) :: e.data))) ∧
   (∀ f : FlowFrame, (UpFrame.flow f).bytes = 0x83#8 :: (leBytes 2 7 ++
      (BitVec.ofNat 8 f.flow.code :: (leBytes 4 (f.next.getD 4294967295) ++ leBytes 2 (f.free.getD 65535))))))

/-- R48: a segment outside a STREAMING pass of a RUNNING session is discarded as NO-PASS (engine counter 2), one below
H as DUPLICATE (3), one above H as OUT-OF-ORDER (4); nothing else changes. A later segment of chunk H: the expected
one, 1 to 14, is appended (R50); one with another index, or above 15, is SEQUENCE (engine counter 6), and an assembly
it meets is abandoned with its record (R51). Segment 0 with no assembly open (R28, R49): with a free frame, an
ASSEMBLING record in the lowest-numbered free frame, the assembly record, the bytes at offset 0, and flow evaluated;
with none, OVERRUN (engine counter 5) and nothing else. The bytes are written in the event and FILL then waits for its
turn of the port (log 5). -/
def Obligations.SegmentsAreClassifiedAndAssembled : Prop :=
  (∀ (s : State) (chunk : Word32) (index : Byte) (bytes : List Byte), s.intake.linkUp = true → bytes.length = 4096 →
     ((∀ x, s.session = some x → ¬(x.phase = .running ∧ x.pass = .streaming)) →
       exec (.segment chunk index bytes) s = .next { s with ncu.counters := s.ncu.counters.set 1 s.ncu.counters[1].bump }) ∧
     (∀ x, s.session = some x → x.phase = .running → x.pass = .streaming →
       (chunk.toNat < x.nextChunk → exec (.segment chunk index bytes) s =
         .next { s with ncu.counters := s.ncu.counters.set 2 s.ncu.counters[2].bump }) ∧
       (x.nextChunk < chunk.toNat → exec (.segment chunk index bytes) s =
         .next { s with ncu.counters := s.ncu.counters.set 3 s.ncu.counters[3].bump }))) ∧
  (∀ (s : State) (x : Session) (chunk : Word32) (index : Byte) (bytes : List Byte), s.intake.linkUp = true →
     bytes.length = 4096 → s.session = some x → x.phase = .running → x.pass = .streaming → chunk.toNat = x.nextChunk →
     (∀ a, s.intake.assembly = some a → index.toNat = a.nextSegment → index.toNat < 15 →
       exec (.segment chunk index bytes) s = .next { s with
         win.frames := s.win.frames.write (65536 * a.frame + 4096 * a.nextSegment) bytes
         win.waiting := s.win.waiting ++ [.fill]
         intake.assembly := some { a with nextSegment := a.nextSegment + 1, crc := crcRun a.crc bytes } }) ∧
     (∀ a, s.intake.assembly = some a → index.toNat ≠ a.nextSegment ∨ 15 < index.toNat →
       exec (.segment chunk index bytes) s = .next (State.evalFlow { s with
         ncu.counters := s.ncu.counters.set 5 s.ncu.counters[5].bump
         intake.assembly := none
         win.records := s.win.records.filter (fun r => r.resident.isSome) })) ∧
     (s.intake.assembly = none → index ≠ 0 →
       exec (.segment chunk index bytes) s =
         .next { s with ncu.counters := s.ncu.counters.set 5 s.ncu.counters[5].bump })) ∧
  (∀ (s : State) (x : Session) (chunk : Word32) (bytes : List Byte), s.intake.linkUp = true → bytes.length = 4096 →
    s.session = some x → x.phase = .running → x.pass = .streaming → chunk.toNat = x.nextChunk →
    s.intake.assembly = none →
    (s.win.records.length < x.windowSize →
      exec (.segment chunk 0 bytes) s = .next (State.evalFlow { s with
        win.records := s.win.records ++ [⟨x.nextChunk, lowestFree s.win.records, none⟩]
        win.frames := s.win.frames.write (65536 * lowestFree s.win.records) bytes
        win.waiting := s.win.waiting ++ [.fill]
        intake.assembly := some ⟨x.nextChunk, 1, lowestFree s.win.records, crcRun 0xFFFFFFFF#32 bytes⟩ })) ∧
    (x.windowSize ≤ s.win.records.length →
      exec (.segment chunk 0 bytes) s =
        .next { s with ncu.counters := s.ncu.counters.set 4 s.ncu.counters[4].bump }))

/-- Segment 15 with the digest check passed (R31, R53, R55, R56): the entry PRESENT with the CRC and no other entry
written, the rostered slots
of the chunk LIVE at it, the record RESIDENT with the count of LIVE slots whose span contains it and the
stamped-sector mark, then retirement; H one higher, DRAINING at L or past the pass's end; the sites and regions of the
chunk captured from its frame; one chunk accepted; links, scheduler, requests and every other slot as they were; where H
reaches L and the window is empty the pass ends (R12): NO-PASS, every rostered mark clear and PASS-ENDED with the pass
number, the count of WAITING slots and their lowest from, and without that and a slot going LIVE no event; and last the
flow evaluated on all of it. The port transfers of the event have moved their bytes when it ends (log 5), and a capture
asks for as many as log 32 says; a pass end precedes the flow (log 12). -/
def Obligations.ChunkCompletionRunsInOrder : Prop :=
  ∀ (s : State) (x : Session) (a : Assembly) (pre : List ChunkRecord) (chunk : Word32) (bytes : List Byte),
    s.intake.linkUp = true → bytes.length = 4096 → s.session = some x → x.phase = .running → x.pass = .streaming →
    chunk.toNat = x.nextChunk → s.intake.assembly = some a → a.nextSegment = 15 →
    s.win.records = pre ++ [⟨x.nextChunk, a.frame, none⟩] →
    (∀ r ∈ pre, r.resident.isSome = true ∧ r.chunk ≠ x.nextChunk) →
    (∀ d, digestEntry s.win.digest x.nextChunk = some d → d = ~~~ crcRun a.crc bytes) →
    ∃ t, exec (.segment chunk 15 bytes) s = .next t ∧
      digestEntry t.win.digest x.nextChunk = some (~~~ crcRun a.crc bytes) ∧
      (∀ c, c ≠ x.nextChunk → digestEntry t.win.digest c = digestEntry s.win.digest c) ∧
      t.win.ring = s.win.ring ∧
      t.win.waiting = s.win.waiting ++ .fill :: ((if (digestEntry s.win.digest x.nextChunk).isSome then [.digest]
        else [.digest, .digest]) ++ captureTransfers s.stu.sites s.stu.regions x.nextChunk) ∧
      t = State.evalFlow { t with intake.flow := s.intake.flow, req.flowOut := s.req.flowOut } ∧
      t.intake.linkUp = true ∧
      t.intake.assembly = none ∧
      t.win.frames = s.win.frames.write (65536 * a.frame + 61440) bytes ∧
      t.win.records = retired (pre ++ [⟨x.nextChunk, a.frame, some ⟨~~~ crcRun a.crc bytes, t.liveOn x.nextChunk,
        s.stu.sites.any (fun q => q.chunk == x.nextChunk)⟩⟩]) ∧
      (∃ y, t.session = some y ∧ y.phase = .running ∧ y.nextChunk = x.nextChunk + 1 ∧
        y.pass = (if x.nextChunk + 1 = x.imageLength then
          (if t.win.records = [] then .noPass else .draining) else .streaming)) ∧
      (∀ i, (s.slot i).state = .waiting → (s.slot i).rostered = true →
        (s.slot i).span.map Span.lo = some x.nextChunk →
        (t.slot i).state = .live ∧ (t.slot i).ackPoint = some x.nextChunk ∧
        (t.slot i).issueCursor = some x.nextChunk ∧ (t.slot i).ahead = [] ∧ (t.slot i).rostered = false ∧
        (t.slot i).laggard = false) ∧
      (let joins := fun i => (s.slot i).state = .waiting ∧ (s.slot i).rostered = true ∧
         (s.slot i).span.map Span.lo = some x.nextChunk
       let ends := x.nextChunk + 1 = x.imageLength ∧ t.win.records = []
       let counted := { s with ncu.counters := s.ncu.counters.set 0 s.ncu.counters[0].bump }
       (∀ i, ¬joins i → t.slot i = if ends then { s.slot i with rostered := false } else s.slot i) ∧
       (ends → t.ncu.seen.getLsbD 1 = true) ∧
       ((∀ i, ¬joins i) → (¬ends → t.ncu = counted.ncu) ∧ (ends → t.ncu = (counted.raise (.passEnded x.passNumber
         ((List.finRange 192).countP (fun i => decide ((s.slot i).state = .waiting))) s.lowestFrom)).ncu))) ∧
      t.stu = { s.stu with
        sites := s.stu.sites.map (fun q => q.capture x.nextChunk t.win.frames a.frame)
        regions := s.stu.regions.zipIdx.map
          (fun p => p.1.capture s.stu.sites p.2 x.nextChunk t.win.frames a.frame) } ∧
      t.links = s.links ∧ t.wsc = s.wsc ∧ t.req = { s.req with flowOut := t.req.flowOut } ∧ t.now = s.now ∧
      t.ncu.counters[0] = s.ncu.counters[0].bump ∧
      (∀ n : Fin 10, n ≠ 0 → n ≠ 9 → t.ncu.counters[n] = s.ncu.counters[n])

/-- Segment 15 of a chunk whose digest entry differs (R17, R54, R107): the record and the assembly gone, the digest,
the sites and the regions as they were, IMAGE-MISMATCH seen, the session FAULTED at the chunk with NO-PASS and H
unmoved, no chunk accepted, flow PAUSED with a FLOW frame if it was OPEN, every rostered mark clear, an enrolled slot
left with its sent entries and every place of the others given up, every other slot and every link record as it was but
for the path, given up where it is held for an enrolled slot of the link; in HOLDING, HELD is reached exactly when no
enrolled slot has a sent entry left (R109, R111). That commands granted and not yet sent are stopped (log 13), that
their places are given up with the rest, down to 1 (log 25), and that the hold state stands in the OK-HELD reply
(log 14) are the model's readings, and that the bytes of the segment are in the frame when the event ends is its choice
(log 5). -/
def Obligations.DigestMismatchFaultsSession : Prop :=
  ∀ (s : State) (x : Session) (a : Assembly) (d : Word32) (chunk : Word32) (bytes : List Byte),
    s.intake.linkUp = true → bytes.length = 4096 → s.session = some x → x.phase = .running → x.pass = .streaming →
    chunk.toNat = x.nextChunk → s.intake.assembly = some a → a.nextSegment = 15 →
    digestEntry s.win.digest x.nextChunk = some d → d ≠ ~~~ crcRun a.crc bytes →
    ∃ t, exec (.segment chunk 15 bytes) s = .next t ∧
      t.session = some { x with phase := .faulted, faultChunk := some x.nextChunk, pass := .noPass } ∧
      t.intake.assembly = none ∧ t.intake.flow = .paused ∧
      t.win.records = s.win.records.filter (fun r => r.resident.isSome) ∧ t.win.digest = s.win.digest ∧
      t.stu.sites = s.stu.sites ∧ t.stu.regions = s.stu.regions ∧ t.ncu.seen.getLsbD 6 = true ∧
      (∀ n : Fin 10, n ≠ 9 → t.ncu.counters[n] = s.ncu.counters[n]) ∧
      t.win.frames = s.win.frames.write (65536 * a.frame + 61440) bytes ∧ t.req.queue = s.req.queue ∧ t.now = s.now ∧
      t.req.flowOut = (if s.intake.flow = .opened then
        (if s.req.flowOut.length < 8 then s.req.flowOut else s.req.flowOut.dropLast) ++
          [⟨.paused, some x.nextChunk, some (x.windowSize - t.win.records.length)⟩] else s.req.flowOut) ∧
      (let rest := ∀ i, (s.slot i).state.enrolled = true → ∀ e ∈ (s.slot i).inFlight, e.tag = none
       (s.wsc.hold ≠ .holding ∨ ¬rest → t.wsc = s.wsc ∧ t.req.outbox = s.req.outbox) ∧
       (s.wsc.hold = .holding → rest → t.wsc = { s.wsc with hold := .held, holdReply := none } ∧
         t.req.outbox = s.req.outbox ++ (match s.wsc.holdReply with
           | some tag => [acceptance tag 0x09 .okHeld [2]]
           | none => []) ∧ t.ncu.seen.getLsbD 4 = true)) ∧
      (let kept := fun k (g : Grant) => !(linkOf g.slot == k && (s.slot g.slot).state.enrolled)
       ∀ k, t.link k = { s.link k with path := (s.link k).path.filter (kept k) }) ∧
      ∀ i, ((s.slot i).state.enrolled = false → t.slot i = { s.slot i with rostered := false }) ∧
        ((s.slot i).state.enrolled = true → t.slot i = { s.slot i with
          rostered := false, inFlight := (s.slot i).inFlight.filter (fun e => e.tag.isSome)
          throttledDepth := (s.slot i).throttledDepth.map (fun n =>
            max 1 (n - ((s.slot i).inFlight.countP (fun e => e.tag.isNone) + s.grantPlace i))) })

/-- R57 to R59: while the link is UP, flow goes from OPEN to PAUSED at free frames ≤ P, in a hold or without a
STREAMING pass, with or without a session, and from PAUSED to OPEN at free frames ≥ Q in RUN with a STREAMING pass;
each change places one FLOW frame with H and free frames, in the place of the newest when eight wait (R178); in any
other case, and on a DOWN link, where flow is PAUSED, nothing changes. -/
def Obligations.FlowFollowsMarks : Prop :=
  ∀ s : State,
    let room := if s.req.flowOut.length < 8 then s.req.flowOut else s.req.flowOut.dropLast
    (s.intake.linkUp = false → s.evalFlow = s ∧ (s.downQuiet → s.intake.flow = .paused)) ∧
    (s.session = none → s.intake.linkUp = true →
      (s.intake.flow = .opened → s.evalFlow = { s with
        intake.flow := .paused, req.flowOut := room ++ [⟨.paused, none, none⟩] }) ∧
      (s.intake.flow = .paused → s.evalFlow = s)) ∧
    (∀ x, s.session = some x → s.intake.linkUp = true → let free := x.windowSize - s.win.records.length
      (s.intake.flow = .opened →
        (free ≤ x.pauseMark ∨ s.wsc.hold ≠ .run ∨ x.pass ≠ .streaming →
          s.evalFlow = { s with
            intake.flow := .paused, req.flowOut := room ++ [⟨.paused, some x.nextChunk, some free⟩] }) ∧
        (x.pauseMark < free → s.wsc.hold = .run → x.pass = .streaming → s.evalFlow = s)) ∧
      (s.intake.flow = .paused →
        (x.resumeMark ≤ free → s.wsc.hold = .run → x.pass = .streaming →
          s.evalFlow = { s with
            intake.flow := .opened, req.flowOut := room ++ [⟨.opened, some x.nextChunk, some free⟩] }) ∧
        (free < x.resumeMark ∨ s.wsc.hold ≠ .run ∨ x.pass ≠ .streaming → s.evalFlow = s)))

/-- R177: on an UP link with an idle lane the oldest FLOW frame is sent first; else the reply outbox and the notice
queue take turns, the outbox first after a reset; a grant to FLOW moves no turn; on a DOWN link, with a busy lane or
with nothing waiting there is no grant. The previous grant between the two is read as the last grant to either (log 15).
A frame leaves its source when it has been sent: a REPLY and a notice by R176 and R194, a FLOW frame, of which they do
not speak, by the model's reading (log 26). -/
def Obligations.UpstreamLaneTakesTurns : Prop :=
  (∀ s t : State, exec .powerOnReset s = .next t ∨
      (s.req.resetWaiting = true ∧ s.req.outbox = [] ∧ s.req.queue = [] ∧ exec .engineResetTakesEffect s = .next t) →
    t.req.replyServed = false) ∧
  (∀ s : State, s.intake.linkUp = false ∨ s.req.lane.isSome = true ∨
      (s.req.flowOut = [] ∧ s.req.outbox = [] ∧ s.ncu.notices = []) → exec .upstreamGrant s = .next s) ∧
  (∀ s : State, s.intake.linkUp = true → s.req.lane = none →
    (∀ f fs, s.req.flowOut = f :: fs → exec .upstreamGrant s =
      .next { s with req.lane := some ⟨.flow f, (UpFrame.flow f).bytes, true⟩ }) ∧
    (∀ r rs, s.req.flowOut = [] → s.req.outbox = r :: rs → (s.ncu.notices = [] ∨ s.req.replyServed = false) →
      exec .upstreamGrant s = .next { s with
        req.lane := some ⟨.reply r, (UpFrame.reply r).bytes, true⟩, req.replyServed := true }) ∧
    (∀ e es, s.req.flowOut = [] → s.ncu.notices = e :: es → (s.req.outbox = [] ∨ s.req.replyServed = true) →
      exec .upstreamGrant s = .next { s with
        req.lane := some ⟨.notice e, (UpFrame.notice e).bytes, true⟩, req.replyServed := false })) ∧
  (∀ (s : State) (l : LaneFrame), s.req.lane = some l → l.queued = true →
    (∀ f, l.frame = .flow f → exec .upstreamFrameSent s =
      .next { s with req.lane := none, req.flowOut := s.req.flowOut.tail }) ∧
    (∀ r, l.frame = .reply r → exec .upstreamFrameSent s =
      .next { s with req.lane := none, req.outbox := s.req.outbox.tail }) ∧
    (∀ e, l.frame = .notice e → exec .upstreamFrameSent s =
      .next { s with req.lane := none, ncu.notices := s.ncu.notices.tail }))

/-! ## Requests -/

/-- A REQUEST frame (R172): queued while fewer than 8 wait; else answered REFUSED-BUSY while the outbox holds fewer
than 15; else discarded and counted as a bad frame (engine counter 7). Steps 1 to 4 of R173, for every request:
NOT-READY while initialising or while a reset waits, but for IDENTIFY; then UNKNOWN for a code that names no request,
REFUSED-STATE by the table of R2, REFUSED-RANGE for a wrong parameter length (R174); each with no effect but its
REPLY. Then the request of each code, the table of R2 with a row for each request and its cells for NONE, OPEN, RUNNING
and FAULTED, and the parameter length of each (R174, R185, R187, R188). -/
def Obligations.RequestsAreQueuedAndExamined : Prop :=
  (∀ (s : State) (tag : ReqTag) (code : Byte) (ps : List Byte), s.intake.linkUp = true →
     (s.req.queue.length < 8 → exec (.requestFrame tag code ps) s =
       .next { s with req.queue := s.req.queue ++ [⟨tag, code, ps⟩] }) ∧
     (s.req.queue.length = 8 → s.req.outbox.length < 15 → exec (.requestFrame tag code ps) s =
       .next { s with req.outbox := s.req.outbox ++ [⟨tag, code, .refusedBusy, 0, []⟩] }) ∧
     (s.req.queue.length = 8 → 15 ≤ s.req.outbox.length → exec (.requestFrame tag code ps) s =
       .next { s with ncu.counters := s.ncu.counters.set 6 s.ncu.counters[6].bump })) ∧
  ((∀ (s : State) (k : ReqKind) (r : Request) (rest : List Request), s.Heads k r rest →
     (s.notReady = true → k ≠ .identify → exec k.command s = .next (s.replied rest (r.reply .notReady 0 []))) ∧
     (s.notReady = false → k.takenIn s.phase = false →
       exec k.command s = .next (s.replied rest (r.reply .refusedState 0 []))) ∧
     (s.notReady = false → k.takenIn s.phase = true → k.lengthOk r.params = false →
       exec k.command s = .next (s.replied rest (r.reply .refusedRange 0 [])))) ∧
   (∀ (s : State) (r : Request) (rest : List Request), s.req.queue = r :: rest → s.req.outbox.length < 4 →
     ReqKind.ofCode r.code = none →
     exec .unknownRequest s =
       .next (s.replied rest (r.reply (if s.notReady then .notReady else .unknown) 0 [])))) ∧
  ((List.range' 1 20).map (fun n => ReqKind.ofCode (BitVec.ofNat 8 n)) =
     [.identify, .engineReset, .openSession, .loadPatchSite, .loadGuardRegion, .clearPatchTable, .startSession,
      .passStart, .hold, .releaseHold, .sessionTune, .releaseSlot, .stampSupply, .slotStatus, .sessionStatus,
      .clearMarks, .snapshot, .readSnapshot, .setNoticeMask, .closeSession].map some ∧
   (∀ code : Byte, ReqKind.ofCode code = none ↔ code = 0 ∨ 20 < code.toNat)) ∧
  (∀ k row, (k, row) ∈ [(ReqKind.identify, [true, true, true, true]), (.engineReset, [true, true, true, true]),
      (.sessionStatus, [true, true, true, true]), (.slotStatus, [true, true, true, true]),
      (.snapshot, [true, true, true, true]), (.readSnapshot, [true, true, true, true]),
      (.clearMarks, [true, true, true, false]), (.setNoticeMask, [true, true, true, false]),
      (.openSession, [true, false, false, false]), (.loadPatchSite, [false, true, false, false]),
      (.loadGuardRegion, [false, true, false, false]), (.clearPatchTable, [false, true, false, false]),
      (.startSession, [false, true, false, false]), (.passStart, [false, false, true, false]),
      (.hold, [false, false, true, false]), (.releaseHold, [false, false, true, false]),
      (.sessionTune, [false, false, true, false]), (.stampSupply, [false, false, true, false]),
      (.releaseSlot, [false, true, true, false]), (.closeSession, [false, true, true, true])] →
    [none, some SessionPhase.opened, some .running, some .faulted].map k.takenIn = row) ∧
  (∀ (k : ReqKind) (n : Nat) (ps : List Byte), (k, n) ∈ [(ReqKind.identify, 0), (.engineReset, 0), (.openSession, 36),
      (.loadPatchSite, 32), (.loadGuardRegion, 10), (.clearPatchTable, 0), (.startSession, 0), (.passStart, 4),
      (.hold, 0), (.releaseHold, 0), (.sessionTune, 26), (.releaseSlot, 1), (.slotStatus, 2), (.sessionStatus, 0),
      (.clearMarks, 5), (.snapshot, 1), (.readSnapshot, 2), (.setNoticeMask, 2), (.closeSession, 0)] →
    (k.lengthOk ps = true ↔ ps.length = n)) ∧
  (∀ ps : List Byte, ReqKind.stampSupply.lengthOk ps = true ↔ 5 ≤ ps.length ∧ ps.length = 5 + field ps 4 1)

/-- IDENTIFY, SESSION STATUS, SLOT STATUS and READ SNAPSHOT answer OK with their report and change no state (R22, R84,
R181, R203). What the reports carry, field by field at their offsets (R188): IDENTIFY's 19 bytes, the 80 of SESSION
STATUS with and without a session, the 68 of a SLOT STATUS entry, the bank and the 22 of a slot's block in READ
SNAPSHOT, each range in ascending slot number; absent values as R184 and R188 write them, and the codes of R186. READ
SNAPSHOT names the value out of its range, and one of the two, which one being open (log 8), where both are or only
their sum is. The detail 0 of a refusal that names no parameter is the model's reading (log 9), and so is the 0 of
exhaustion reported in NONE, which R188 does not list among the zero fields (log 23); the detail of an OK is open (log
36). -/
def Obligations.ReportsChangeNoState : Prop :=
  (∀ (s : State) (r : Request) (rest : List Request), s.Heads .identify r rest → r.params = [] →
    exec .identify s = .next (s.replied rest (r.ok s.identity))) ∧
  (∀ (s : State) (r : Request) (rest : List Request), s.Serves .sessionStatus r rest →
    exec .sessionStatus s = .next (s.replied rest (r.ok s.sessionReport))) ∧
  (∀ (s : State) (r : Request) (rest : List Request), s.Serves .slotStatus r rest →
    let first := field r.params 0 1
    let count := field r.params 1 1
    (count = 0 ∨ 32 < count ∨ 191 < first ∨ 192 < first + count →
      exec .slotStatus s = .next (s.replied rest (r.reply .refusedRange 0 []))) ∧
    (count ≠ 0 → count ≤ 32 → first + count ≤ 192 →
      ∃ data : List Byte, exec .slotStatus s = .next (s.replied rest (r.ok data)) ∧ data.length = 1 + 68 * count ∧
        field data 0 1 = count ∧ ∀ (n : Nat) (i : SlotIx), n < count → i.val = first + n →
          (data.drop (1 + 68 * n)).take 68 = slotEntry i (s.slot i) s.now)) ∧
  (∀ (s : State) (r : Request) (rest : List Request), s.Serves .readSnapshot r rest →
    let first := field r.params 0 1
    let count := field r.params 1 1
    (count ≤ 32 → first ≤ 191 → first + count ≤ 192 →
      exec .readSnapshot s = .next (s.replied rest (r.ok (s.ncu.bank.report first count)))) ∧
    (191 < first → count ≤ 32 → exec .readSnapshot s = .next (s.replied rest (r.reply .refusedRange 1 []))) ∧
    (first ≤ 191 → 32 < count → exec .readSnapshot s = .next (s.replied rest (r.reply .refusedRange 2 []))) ∧
    ((191 < first ∧ 32 < count) ∨ (first ≤ 191 ∧ count ≤ 32 ∧ 192 < first + count) →
      ∃ p, (p = 1 ∨ p = 2) ∧ exec .readSnapshot s = .next (s.replied rest (r.reply .refusedRange p [])))) ∧
  (∀ s : State, let d := s.identity
    d.length = 19 ∧ field d 0 2 = 0x0101 ∧ field d 2 2 = 0x00C0 ∧ field d 4 1 = 1 ∧
    field d 5 1 = (if s.req.initialising then 0 else 1) ∧ field d 6 1 = s.req.cause.code ∧ field d 7 4 = s.now % 2 ^ 32 ∧
    field d 11 1 = 192 ∧ field d 12 1 = 12 ∧ field d 13 2 = 4096 ∧ field d 15 1 = 32 ∧ field d 16 1 = 4 ∧
    field d 17 1 = 8 ∧ field d 18 1 = 32) ∧
  (∀ s : State, let d := s.sessionReport
    d.length = 80 ∧ field d 0 1 = phaseCode s.phase ∧ field d 59 2 = s.win.records.length % 2 ^ 16 ∧
    field d 63 1 = s.wsc.hold.code ∧ field d 64 1 = s.intake.flow.code ∧ field d 65 1 = s.intake.linkUp.toNat ∧
    (∀ st : SlotState, field d (66 + st.code) 1 =
      (List.finRange 192).countP (fun i => decide ((s.slot i).state = st))) ∧
    field d 77 2 = s.ncu.seen.toNat ∧ field d 79 1 = s.ncu.noticesLost.toNat ∧
    (s.session = none → field d 1 34 = 0 ∧ field d 35 5 = 0 ∧ field d 40 4 = 4294967295 ∧ field d 44 11 = 0 ∧
      field d 55 4 = 4294967295 ∧ field d 61 2 = 65535) ∧
    (∀ x, s.session = some x →
      (field d 1 4 = x.imageLength % 2 ^ 32 ∧ field d 5 2 = x.windowSize % 2 ^ 16 ∧ field d 7 2 = x.pauseMark % 2 ^ 16 ∧
       field d 9 2 = x.resumeMark % 2 ^ 16 ∧ field d 11 1 = x.probeCount % 256 ∧ field d 12 1 = x.join.code ∧
       field d 13 1 = x.laggard.code ∧ field d 14 1 = x.verify.code ∧ field d 15 1 = x.qualify.code ∧
       field d 16 4 = x.sessionTag.toNat ∧ field d 20 1 = x.tune.depth % 256 ∧
       field d 21 2 = x.tune.commandTimeout % 2 ^ 16 ∧ field d 23 1 = x.tune.retryLimit % 256 ∧
       field d 24 2 = x.tune.settleTime % 2 ^ 16 ∧ field d 26 2 = x.tune.paceInterval % 2 ^ 16 ∧
       field d 28 1 = x.tune.declareCount % 256 ∧ field d 29 1 = x.tune.clearCount % 256 ∧
       field d 30 1 = x.tune.decayInterval % 256 ∧ field d 31 1 = x.tune.throttle % 256 ∧
       field d 32 1 = x.tune.eject % 256 ∧ field d 33 1 = x.tune.residencyMin % 256 ∧
       field d 34 1 = x.tune.stampWait % 256) ∧
      field d 35 4 = x.nextOrdinal % 2 ^ 32 ∧ field d 39 1 = x.exhausted.toNat ∧
      field d 40 4 = x.faultChunk.getD 4294967295 % 2 ^ 32 ∧ field d 44 2 = x.passNumber % 2 ^ 16 ∧
      field d 46 1 = x.pass.code ∧ field d 47 4 = x.startChunk % 2 ^ 32 ∧ field d 51 4 = x.nextChunk % 2 ^ 32 ∧
      field d 55 4 = ((s.win.records.head?).map ChunkRecord.chunk).getD x.nextChunk % 2 ^ 32 ∧
      field d 61 2 = (x.windowSize - s.win.records.length) % 2 ^ 16)) ∧
  (∀ (i : SlotIx) (sl : Slot) (now : Nat), let d := slotEntry i sl now
    let held := [sl.outcome.isSome, sl.capacity.isSome, sl.ordinal.isSome, sl.span.isSome, sl.deferred.isSome,
      sl.ackPoint.isSome, sl.issueCursor.isSome, sl.verifyCursor.isSome, sl.qual.isSome, sl.settleDeadline.isSome,
      sl.stall.isSome]
    let flags := [sl.rostered, sl.throttled, sl.laggard, sl.changeMark]
    d.length = 68 ∧ field d 0 1 = i.val ∧ field d 1 1 = sl.state.code ∧
    (∀ m, (field d 2 2).testBit m = held.getD m false) ∧
    field d 4 1 = (sl.outcome.map (fun o => o.kind.code)).getD 0 ∧
    field d 5 4 = (sl.outcome.map (fun o => o.chunk.getD 4294967295)).getD 0 % 2 ^ 32 ∧
    field d 9 1 = (sl.outcome.map (fun o => o.probe.getD 255)).getD 0 % 256 ∧
    field d 10 1 = (sl.outcome.map (fun o => o.other.getD 255)).getD 0 % 256 ∧
    field d 11 8 = sl.capacity.getD 0 % 2 ^ 64 ∧ field d 19 2 = sl.ordinal.getD 0 % 2 ^ 16 ∧
    field d 21 4 = (sl.span.map Span.lo).getD 0 % 2 ^ 32 ∧ field d 25 4 = (sl.span.map Span.hi).getD 0 % 2 ^ 32 ∧
    field d 29 4 = (sl.deferred.map Span.lo).getD 0 % 2 ^ 32 ∧
    field d 33 4 = (sl.deferred.map Span.hi).getD 0 % 2 ^ 32 ∧ field d 37 4 = sl.ackPoint.getD 0 % 2 ^ 32 ∧
    field d 41 4 = sl.issueCursor.getD 0 % 2 ^ 32 ∧ field d 45 4 = sl.verifyCursor.getD 0 % 2 ^ 32 ∧
    field d 49 1 = sl.ahead.length % 256 ∧ field d 50 1 = sl.inFlight.length % 256 ∧
    field d 51 1 = (sl.qual.map (fun q => q.phase.code)).getD 0 ∧
    field d 52 1 = (sl.qual.map Qualification.probe).getD 0 % 256 ∧
    field d 53 2 = (sl.settleDeadline.map (fun t => t - now)).getD 0 % 2 ^ 16 ∧
    (∀ m, (field d 55 1).testBit m = flags.getD m false) ∧ field d 56 1 = sl.trouble % 256 ∧
    field d 57 1 = sl.residency % 256 ∧ field d 58 1 = sl.pinCount % 256 ∧ field d 59 1 = sl.clearCount % 256 ∧
    field d 60 1 = (sl.stall.map Stall.site).getD 0 % 256 ∧ field d 61 4 = (sl.stall.map Stall.chunk).getD 0 % 2 ^ 32 ∧
    field d 65 2 = (sl.stall.map (fun t => t.deadline - now)).getD 0 % 2 ^ 16 ∧ field d 67 1 = sl.lamp.shown.code) ∧
  (∀ (b : Bank) (first count : Nat), first + count ≤ 192 → let d := b.report first count
    d.length = 51 + 22 * count ∧ field d 0 4 = b.number.toNat ∧ field d 4 4 = b.time.toNat ∧
    (∀ n : Fin 10, field d (8 + 4 * n.val) 4 = b.engine[n].value.toNat ∧
      (field d 48 2).testBit n.val = b.engine[n].saturated) ∧ field d 50 1 = count ∧
    ∀ (n : Nat) (i : SlotIx), n < count → i.val = first + n → field d (51 + 22 * n) 1 = i.val ∧
      ∀ m : Fin 5, field d (51 + 22 * n + 1 + 4 * m.val) 4 = b.slots[i][m].value.toNat ∧
        (field d (51 + 22 * n + 21) 1).testBit m.val = b.slots[i][m].saturated) ∧
  ([SlotState.empty, .settling, .present, .sizing, .probing, .ready, .waiting, .live, .verifying, .done,
      .failed].map SlotState.code = List.range 11 ∧
    [OutcomeKind.passed, .tooSmall, .aliased, .probeFailed, .writeProtected, .sizeFailed, .writeFailed, .readFailed,
      .verifyMismatch, .trouble, .laggard, .stampTimeout, .removedEarly, .linkLost, .withdrawn,
      .incomplete].map OutcomeKind.code = List.range' 1 16 ∧
    [none, some SessionPhase.opened, some .running, some .faulted].map phaseCode = List.range 4 ∧
    [PassState.noPass, .streaming, .draining].map PassState.code = List.range 3 ∧
    [HoldState.run, .holding, .held].map HoldState.code = List.range 3 ∧
    [FlowState.paused, .opened].map FlowState.code = List.range 2 ∧
    [QualPhase.size, .probeWrite, .probeRead].map QualPhase.code = List.range 3 ∧
    [LampPattern.off, .amberSteady, .amberBlink, .green, .red].map LampPattern.code = List.range 5 ∧
    [JoinPolicy.nextPass, .live].map JoinPolicy.code = List.range 2 ∧
    [LaggardPolicy.wait, .detach, .fail].map LaggardPolicy.code = List.range 3 ∧
    [VerifyMode.off, .inline, .trailing].map VerifyMode.code = List.range 3 ∧
    [QualifyMode.sizeOnly, .probe].map QualifyMode.code = List.range 2 ∧
    [ResetCause.powerOn, .engineReset].map ResetCause.code = List.range 2)

/-- OPEN SESSION (R3, R5, R154, R166, R200): the first structural value that fails is named in REFUSED-RANGE and
nothing else changes; else the record filled and OPEN, the live counters zeroed before the sizing, the timers
started, every PRESENT slot in SIZING with phase SIZE, every other slot as it was but for its counters, and the
values reported. The probe index in phase SIZE is open but for its range (log 37). -/
def Obligations.OpenSessionFillsTheRecord : Prop :=
  ∀ (s : State) (r : Request) (rest : List Request), s.Serves .openSession r rest →
    (∀ p, openFailure r.params = some p →
      exec .openSession s = .next (s.replied rest (r.reply .refusedRange p []))) ∧
    (openFailure r.params = none → ∃ t, exec .openSession s = .next t ∧
      t.session = some (openRecord r.params) ∧
      t.req = { s.req with
        queue := rest, outbox := s.req.outbox ++ [r.ok (paramBlock (openRecord r.params))] } ∧
      t.wsc = { s.wsc with
        paceAt := some (s.now + (openTunables r.params).paceInterval)
        decayAt := some (s.now + 1000 * (openTunables r.params).decayInterval) } ∧
      (∀ n : Fin 10, n ≠ 9 → t.ncu.counters[n] = ⟨0, false⟩) ∧ t.ncu.bank = s.ncu.bank ∧ t.ncu.mask = s.ncu.mask ∧
      t.intake = s.intake ∧ t.win = s.win ∧ t.links = s.links ∧ t.stu = s.stu ∧ t.now = s.now ∧
      ∀ i, ((s.slot i).state = .present → ∃ j, j < (openRecord r.params).probeCount ∧ t.slot i = { s.slot i with
          state := .sizing, qual := some ⟨.size, j, 0⟩, inFlight := [], capacity := none, changeMark := true
          lamp := (s.slot i).lamp.eval .amberSteady, counters := .replicate 5 ⟨0, false⟩ }) ∧
        ((s.slot i).state ≠ .present → t.slot i = { s.slot i with counters := .replicate 5 ⟨0, false⟩ }))

/-- R3: OPEN SESSION checks L, W, P with Q, K, join policy, laggard policy, verify mode and qualify mode in this order
and names the first that fails, by its position (R187; P's for P with Q, R174); it is accepted exactly when every
value is in range, and the record then holds the values given (R5). R4, R187: a tunable value takes its default where
its member of the default set is present, members 1 to 12 being the twelve in order, and is brought into its range
otherwise; the throttle threshold is lowered to the eject threshold; none is refused. -/
def Obligations.OpenSessionValuesAreChecked : Prop :=
  ∀ ps : List Byte,
    let dflt := fun m => (field ps 34 2).testBit m
    let k := if dflt 0 then 8 else field ps 10 1
    let okL := 1 ≤ field ps 0 4 ∧ field ps 0 4 ≤ 1048576
    let okW := 32 ≤ field ps 4 2 ∧ field ps 4 2 ≤ 4096
    let okPQ := field ps 6 2 < field ps 8 2 ∧ field ps 8 2 ≤ field ps 4 2
    let okK := 4 ≤ k ∧ k ≤ 16
    let okJoin := field ps 11 1 ≤ 1
    let okLaggard := field ps 12 1 ≤ 2
    let okVerify := field ps 13 1 ≤ 2
    let okQualify := field ps 14 1 ≤ 1
    let f := openFailure ps
    ((f = some 1 ↔ ¬okL) ∧ (f = some 2 ↔ okL ∧ ¬okW) ∧ (f = some 3 ↔ okL ∧ okW ∧ ¬okPQ) ∧
     (f = some 5 ↔ okL ∧ okW ∧ okPQ ∧ ¬okK) ∧ (f = some 6 ↔ okL ∧ okW ∧ okPQ ∧ okK ∧ ¬okJoin) ∧
     (f = some 7 ↔ okL ∧ okW ∧ okPQ ∧ okK ∧ okJoin ∧ ¬okLaggard) ∧
     (f = some 8 ↔ okL ∧ okW ∧ okPQ ∧ okK ∧ okJoin ∧ okLaggard ∧ ¬okVerify) ∧
     (f = some 9 ↔ okL ∧ okW ∧ okPQ ∧ okK ∧ okJoin ∧ okLaggard ∧ okVerify ∧ ¬okQualify) ∧
     (f = none ↔ okL ∧ okW ∧ okPQ ∧ okK ∧ okJoin ∧ okLaggard ∧ okVerify ∧ okQualify)) ∧
    (f = none → let x := openRecord ps
      x.phase = .opened ∧ x.imageLength = field ps 0 4 ∧ x.windowSize = field ps 4 2 ∧ x.pauseMark = field ps 6 2 ∧
      x.resumeMark = field ps 8 2 ∧ x.probeCount = k ∧ x.join.code = field ps 11 1 ∧ x.laggard.code = field ps 12 1 ∧
      x.verify.code = field ps 13 1 ∧ x.qualify.code = field ps 14 1 ∧
      x.sessionTag = BitVec.ofNat 32 (field ps 15 4) ∧ x.tune = openTunables ps ∧ x.nextOrdinal = 0 ∧
      x.exhausted = false ∧ x.faultChunk = none ∧ x.passNumber = 0 ∧ x.pass = .noPass ∧ x.startChunk = 0 ∧
      x.nextChunk = 0) ∧
    (let t := openTunables ps
     let value := fun m d lo hi v => if dflt m then d else max lo (min hi v)
     let eject := value 10 48 1 63 (field ps 31 1)
     t.depth = value 1 2 1 4 (field ps 19 1) ∧ t.commandTimeout = value 2 2000 10 10000 (field ps 20 2) ∧
     t.retryLimit = value 3 3 0 7 (field ps 22 1) ∧ t.settleTime = value 4 500 100 2500 (field ps 23 2) ∧
     t.paceInterval = value 5 250 50 1000 (field ps 25 2) ∧ t.declareCount = value 6 8 1 255 (field ps 27 1) ∧
     t.clearCount = value 7 4 1 255 (field ps 28 1) ∧ t.decayInterval = value 8 5 1 60 (field ps 29 1) ∧
     t.throttle = min (value 9 24 1 63 (field ps 30 1)) eject ∧ t.eject = eject ∧
     t.residencyMin = value 11 3 1 255 (field ps 32 1) ∧ t.stampWait = value 12 15 1 60 (field ps 33 1) ∧
     1 ≤ t.depth ∧ t.depth ≤ 4 ∧ 10 ≤ t.commandTimeout ∧ t.commandTimeout ≤ 10000 ∧ t.retryLimit ≤ 7 ∧
     100 ≤ t.settleTime ∧ t.settleTime ≤ 2500 ∧ 50 ≤ t.paceInterval ∧ t.paceInterval ≤ 1000 ∧
     1 ≤ t.declareCount ∧ t.declareCount ≤ 255 ∧ 1 ≤ t.clearCount ∧ t.clearCount ≤ 255 ∧
     1 ≤ t.decayInterval ∧ t.decayInterval ≤ 60 ∧ 1 ≤ t.throttle ∧ t.throttle ≤ t.eject ∧ t.eject ≤ 63 ∧
     1 ≤ t.residencyMin ∧ t.residencyMin ≤ 255 ∧ 1 ≤ t.stampWait ∧ t.stampWait ≤ 60)

/-- LOAD PATCH SITE (R115, R116): REFUSED-FULL at 32 sites, REFUSED-RANGE naming the value that fails or, for a
placement check, a parameter the check turns on (which of several, the reference leaves open: log 8), else the site
appended with no pristine bytes and its number answered. Placement keeps the table sound (R116): a site that passes
lies in a chunk of the image, within its chunk, shares no byte with a loaded site and straddles no loaded region. -/
def Obligations.PatchSitesAreLoadedInOrder : Prop :=
  (∀ (s : State) (x : Session) (r : Request) (rest : List Request), s.Serves .loadPatchSite r rest → s.session = some x →
     (32 ≤ s.stu.sites.length → exec .loadPatchSite s = .next (s.replied rest (r.reply .refusedFull 0 []))) ∧
     (∀ p, s.stu.sites.length < 32 → siteValueFailure r.params x.imageLength s.stu.regions.length = some p →
       exec .loadPatchSite s = .next (s.replied rest (r.reply .refusedRange p []))) ∧
     (s.stu.sites.length < 32 → siteValueFailure r.params x.imageLength s.stu.regions.length = none →
       x.imageLength ≤ field r.params 0 4 →
       exec .loadPatchSite s = .next (s.replied rest (r.reply .refusedRange 1 []))) ∧
     (∀ n, s.stu.sites.length < 32 → siteValueFailure r.params x.imageLength s.stu.regions.length = none →
       placementFailure (siteOf r.params) x.imageLength s.stu.sites s.stu.regions = some n →
       ∃ p, exec .loadPatchSite s = .next (s.replied rest (r.reply .refusedRange p [])) ∧ (n = 1 → p = 1) ∧
         (n = 2 → p = 2 ∨ p = 3) ∧ (n = 3 ∨ n = 4 → p = 1 ∨ p = 2 ∨ p = 3) ∧
         (n = 5 → p = 1 ∨ p = 2 ∨ p = 3 ∨ p = 10) ∧ (n = 6 → p = 10)) ∧
     (s.stu.sites.length < 32 → siteValueFailure r.params x.imageLength s.stu.regions.length = none →
       placementFailure (siteOf r.params) x.imageLength s.stu.sites s.stu.regions = none →
       (siteOf r.params).pristine = none ∧
       exec .loadPatchSite s = .next { s.replied rest (r.ok (leBytes 1 s.stu.sites.length)) with
         stu.sites := s.stu.sites ++ [siteOf r.params] })) ∧
  (∀ (t : Site) (l : Nat) (sites : List Site) (regions : List Region), placementFailure t l sites regions = none →
     t.chunk < l ∧ t.offset + t.width ≤ 65536 ∧
     (∀ u ∈ sites, u.chunk = t.chunk → ∀ b, t.offset ≤ b → b < t.offset + t.width →
       ¬(u.offset ≤ b ∧ b < u.offset + u.width)) ∧
     (∀ g ∈ regions, g.chunk = t.chunk →
       (∀ b, t.offset ≤ b → b < t.offset + t.width → g.start ≤ b ∧ b < g.start + g.length) ∨
       (∀ b, t.offset ≤ b → b < t.offset + t.width → ¬(g.start ≤ b ∧ b < g.start + g.length))))

/-- The checks of LOAD PATCH SITE in their order (R115, R116). Values: the kind code, the width for the kind, the
overflow mode of a computed kind, B and stride, Off and Al, the region number of a GUARD; the first that fails is
named (which of B and stride, or of Off and Al, where both fail, the reference leaves open: log 8), and the site holds
the values that apply to its kind. Placement, for sites and regions that hold a byte: the chunk, the end of the chunk,
the bytes of loaded sites, a region cut, the region of a GUARD, its having a GUARD already; each exactly when those
before it hold. -/
def Obligations.SiteChecksAreOrdered : Prop :=
  (∀ (ps : List Byte) (l regions : Nat),
     let code := field ps 7 1
     let w := field ps 6 1
     let lo := if code = 3 then 2 else if code = 8 then 4 else 1
     let hi := [8, 8, 20, 20, 16, 8, 8, 32, 4].getD code 0
     let mode := field ps 8 1
     let b := field ps 9 8
     let d := field ps 17 2
     let off := field ps 19 8
     let al := field ps 27 4
     let f := siteValueFailure ps l regions
     let t := siteOf ps
     (8 < code → f = some 4) ∧
     (code ≤ 8 → w < lo ∨ hi < w → f = some 3) ∧
     (code ≤ 6 → lo ≤ w → w ≤ hi → 2 < mode → f = some 5) ∧
     (code ≤ 8 → lo ≤ w → w ≤ hi → (code ≤ 6 → mode ≤ 2) →
       (code ≤ 4 → (2 ^ 48 ≤ b → 0 < d → f = some 6) ∧ (b < 2 ^ 48 → d = 0 → f = some 7) ∧
         (2 ^ 48 ≤ b → d = 0 → f = some 6 ∨ f = some 7) ∧ (b < 2 ^ 48 → 0 < d → f = none)) ∧
       (code = 5 ∨ code = 6 →
         (128 * l ≤ off → 0 < al → al ≤ 65536 → f = some 8) ∧
         (off < 128 * l → al = 0 ∨ 65536 < al → f = some 9) ∧
         (128 * l ≤ off → al = 0 ∨ 65536 < al → f = some 8 ∨ f = some 9) ∧
         (off < 128 * l → 0 < al → al ≤ 65536 → f = none)) ∧
       (code = 7 → f = none) ∧
       (code = 8 → (regions ≤ field ps 31 1 → f = some 10) ∧ (field ps 31 1 < regions → f = none))) ∧
     t.chunk = field ps 0 4 ∧ t.offset = field ps 4 2 ∧ t.width = w ∧
     (code ≤ 4 → mode ≤ 2 → t.kind = .ordinal ([.le, .be, .dec, .decCheck, .hex].getD code .le)
       ([.wrap, .clamp, .defer].getD mode .wrap) b d) ∧
     (code = 5 ∨ code = 6 → mode ≤ 2 →
       t.kind = .capacity (code == 6) ([.wrap, .clamp, .defer].getD mode .wrap) off al) ∧
     (code = 7 → t.kind = .supplied) ∧ (code = 8 → t.kind = .guard (field ps 31 1))) ∧
  (∀ (t : Site) (l : Nat) (sites : List Site) (regions : List Region), 1 ≤ t.width → (∀ u ∈ sites, 1 ≤ u.width) →
     (∀ g ∈ regions, 1 ≤ g.length) →
     let has := fun (start length b : Nat) => start ≤ b ∧ b < start + length
     let ok1 := t.chunk < l
     let ok2 := t.offset + t.width ≤ 65536
     let ok3 := ∀ u ∈ sites, u.chunk = t.chunk → ∀ b, has t.offset t.width b → ¬has u.offset u.width b
     let ok4 := ∀ g ∈ regions, g.chunk = t.chunk → (∀ b, has t.offset t.width b → has g.start g.length b) ∨
       (∀ b, has t.offset t.width b → ¬has g.start g.length b)
     let ok5 := ∀ n g, t.kind = .guard n → regions[n]? = some g →
       g.chunk = t.chunk ∧ ∀ b, has t.offset t.width b → has g.start g.length b
     let ok6 := ∀ n, t.kind = .guard n → ∀ u ∈ sites, u.kind ≠ .guard n
     let f := placementFailure t l sites regions
     (f = some 1 ↔ ¬ok1) ∧ (f = some 2 ↔ ok1 ∧ ¬ok2) ∧ (f = some 3 ↔ ok1 ∧ ok2 ∧ ¬ok3) ∧
     (f = some 4 ↔ ok1 ∧ ok2 ∧ ok3 ∧ ¬ok4) ∧ (f = some 5 ↔ ok1 ∧ ok2 ∧ ok3 ∧ ok4 ∧ ¬ok5) ∧
     (f = some 6 ↔ ok1 ∧ ok2 ∧ ok3 ∧ ok4 ∧ ok5 ∧ ¬ok6) ∧ (f = none ↔ ok1 ∧ ok2 ∧ ok3 ∧ ok4 ∧ ok5 ∧ ok6))

/-- LOAD GUARD REGION (R117): REFUSED-FULL at 4 regions, REFUSED-RANGE where a check fails, else the region appended
with no base sum and its number answered. The checks, for sites and regions that hold a byte: a chunk of the image, a
length of 8 to 65,536, inside its chunk, no byte of a loaded region, no loaded site partly inside. CLEAR PATCH TABLE
(R118) empties both tables. The detail 0 of a refusal that names no parameter is the model's reading (log 9). -/
def Obligations.GuardRegionsAndClearing : Prop :=
  (∀ (s : State) (x : Session) (r : Request) (rest : List Request), s.Serves .loadGuardRegion r rest →
    s.session = some x →
    (4 ≤ s.stu.regions.length → exec .loadGuardRegion s = .next (s.replied rest (r.reply .refusedFull 0 []))) ∧
    (s.stu.regions.length < 4 → regionRefused (regionOf r.params) x.imageLength s.stu.sites s.stu.regions = true →
      exec .loadGuardRegion s = .next (s.replied rest (r.reply .refusedRange 0 []))) ∧
    (s.stu.regions.length < 4 → regionRefused (regionOf r.params) x.imageLength s.stu.sites s.stu.regions = false →
      (regionOf r.params).baseSum = none ∧
      exec .loadGuardRegion s = .next { s.replied rest (r.ok (leBytes 1 s.stu.regions.length)) with
        stu.regions := s.stu.regions ++ [regionOf r.params] })) ∧
  (∀ (s : State) (r : Request) (rest : List Request), s.Serves .clearPatchTable r rest →
    exec .clearPatchTable s = .next { s.replied rest (r.ok []) with stu.sites := [], stu.regions := [] }) ∧
  (∀ ps : List Byte, regionOf ps = ⟨field ps 0 4, field ps 4 2, field ps 6 4, none⟩) ∧
  (∀ (g : Region) (l : Nat) (sites : List Site) (regions : List Region), (∀ t ∈ sites, 1 ≤ t.width) →
    (∀ h ∈ regions, 1 ≤ h.length) →
    let has := fun (start length b : Nat) => start ≤ b ∧ b < start + length
    (regionRefused g l sites regions = true ↔
      l ≤ g.chunk ∨ g.length < 8 ∨ 65536 < g.length ∨ 65536 < g.start + g.length ∨
      (∃ h ∈ regions, h.chunk = g.chunk ∧ ∃ b, has g.start g.length b ∧ has h.start h.length b) ∨
      (∃ t ∈ sites, t.chunk = g.chunk ∧ (∃ b, has t.offset t.width b ∧ has g.start g.length b) ∧
        ∃ b, has t.offset t.width b ∧ ¬has g.start g.length b)))

/-- START SESSION (R6 to R8): RUNNING, every READY slot WAITING with ordinals given in ascending slot number, the
whole image as its span, unrostered; every other slot as it was; the number enrolled answered. R8: the spans and the
rostered mark at enrolment, for every join policy and pass state. -/
def Obligations.StartSessionEnrolsReadySlots : Prop :=
  (∀ (s : State) (x : Session) (r : Request) (rest : List Request), s.Serves .startSession r rest → s.session = some x →
     x.nextOrdinal = 0 → x.pass = .noPass →
     let ready := (List.finRange 192).filter (fun i => (s.slot i).state == .ready)
     ∃ t, exec .startSession s = .next t ∧
       t.session = some { x with phase := .running, nextOrdinal := ready.length } ∧
       t.req = { s.req with queue := rest, outbox := s.req.outbox ++ [r.ok (leBytes 1 ready.length)] } ∧
       t.intake = s.intake ∧ t.win = s.win ∧ t.wsc = s.wsc ∧ t.links = s.links ∧ t.stu.sites = s.stu.sites ∧
       t.stu.regions = s.stu.regions ∧ t.stu.scratch = s.stu.scratch ∧ t.now = s.now ∧
       ∀ i, ((s.slot i).state ≠ .ready → t.slot i = s.slot i) ∧
         ((s.slot i).state = .ready → t.slot i = { s.slot i with
           state := .waiting, ordinal := some (ready.countP (fun j => decide (j < i)))
           span := some ⟨0, x.imageLength⟩, deferred := none, rostered := false, ackPoint := some 0, issueCursor := some 0
           ahead := [], piecesSent := 0, throttledDepth := if (s.slot i).throttled then some 1 else none
           pinCount := 0, clearCount := 0, laggard := false, changeMark := true
           lamp := (s.slot i).lamp.eval .amberBlink })) ∧
  (∀ x : Session,
     (x.join = .nextPass → x.enrolSpans = (⟨0, x.imageLength⟩, none, false)) ∧
     (x.join = .live → x.pass = .noPass → x.enrolSpans = (⟨0, x.imageLength⟩, none, false)) ∧
     (x.join = .live → x.pass = .streaming → x.nextChunk = 0 → x.enrolSpans = (⟨0, x.imageLength⟩, none, true)) ∧
     (x.join = .live → x.pass = .streaming → x.nextChunk ≠ 0 →
       x.enrolSpans = (⟨x.nextChunk, x.imageLength⟩, some ⟨0, x.nextChunk⟩, true)) ∧
     (x.join = .live → x.pass = .draining → x.enrolSpans = (⟨0, x.imageLength⟩, none, false)))

/-- Entry into READY (R77) and enrolment (R7, R8, R119, R120): outside RUNNING the slot stays READY; in RUNNING it is
enrolled at once. With 65,536 ordinals given it stays READY and the first such refusal raises ORDINALS-EXHAUSTED, none
after it. Else the slot takes the next ordinal and the session's is one higher, its spans and mark are R8's, its
trouble, throttle state and outcome stay, and its 32 entries are UNRENDERED but for those of the loaded sites other than
GUARD, which are rendered for the ordinal and the capacity measured; one STAMP-DEFERRED for each DEFERRED one, in site
order, stands before the SLOT-CHANGED to WAITING. No other slot changes. -/
def Obligations.EnrolmentGivesOrdinalAndStamps : Prop :=
  ∀ (s : State) (i : SlotIx) (x : Session), s.session = some x →
    let ready := (s.updSlot i (fun sl => { sl with qual := none })).moveSlot i .ready
    let n := x.nextOrdinal
    let c := (s.slot i).capacity.getD 0
    let t := s.enrol i
    (x.phase ≠ .running → s.enterReady i = ready) ∧
    (x.phase = .running → s.enterReady i = ready.enrol i) ∧
    (65536 ≤ n → x.exhausted = true → t = s) ∧
    (65536 ≤ n → x.exhausted = false →
      t = State.raise { s with session := some { x with exhausted := true } } (.ordinalsExhausted i)) ∧
    (n < 65536 →
      t = { s with session := some { x with nextOrdinal := n + 1 }, slots := t.slots, stu := t.stu, ncu := t.ncu } ∧
      t.slot i = { s.slot i with
        state := .waiting, ordinal := some n, span := some x.enrolSpans.1, deferred := x.enrolSpans.2.1
        rostered := x.enrolSpans.2.2, ackPoint := some x.enrolSpans.1.lo, issueCursor := some x.enrolSpans.1.lo
        ahead := [], piecesSent := 0, throttledDepth := if (s.slot i).throttled then some 1 else none
        pinCount := 0, clearCount := 0, laggard := false, changeMark := true
        lamp := (s.slot i).lamp.eval .amberBlink } ∧
      (∀ j, j ≠ i → t.slot j = s.slot j ∧ ∀ m, t.entry j m = s.entry j m) ∧
      t.stu = { s.stu with entries := t.stu.entries } ∧
      (∀ m, s.stu.sites[m]? = none → t.entry i m = .unrendered) ∧
      (∀ m q, m < 32 → s.stu.sites[m]? = some q →
        ((∃ g, q.kind = .guard g) → t.entry i m = .unrendered) ∧
        ((∀ g, q.kind ≠ .guard g) → t.entry i m = (renderSite q n c).1)) ∧
      (∀ m : Fin 10, m ≠ 9 → t.ncu.counters[m] = s.ncu.counters[m]) ∧
      (let deferred := s.stu.sites.zipIdx.filterMap (fun p =>
         if p.1.kind.mode.isSome || p.1.kind == .supplied then
           (if (renderSite p.1 n c).1 = .deferred then some (Event.stampDeferred i n p.2 (renderSite p.1 n c).2) else none)
         else none)
       s.ncu.mask = BitVec.allOnes 10 → s.ncu.notices.length + deferred.length < 32 →
         t.ncu.notices = s.ncu.notices ++ deferred ++
           [.slotChanged i (s.slot i).state .waiting ((s.slot i).outcome.map Outcome.kind)]))

/-- PASS START (R9, R10): REFUSED-STATE in a pass, REFUSED-RANGE at L and above, REFUSED-FULL at pass 65,535; else
STREAMING from S with the next pass number, the WAITING slots whose span begins at S or above rostered and no other
record changed, then flow. The detail 0 of a refusal that names no parameter is the model's reading (log 9). -/
def Obligations.PassStartRostersSlots : Prop :=
  ∀ (s : State) (x : Session) (r : Request) (rest : List Request), s.Serves .passStart r rest → s.session = some x →
    let c := field r.params 0 4
    let taken := s.slots.toList.countP (fun sl => sl.rosterable c)
    (x.pass ≠ .noPass → exec .passStart s = .next (s.replied rest (r.reply .refusedState 0 []))) ∧
    (x.pass = .noPass → x.imageLength ≤ c →
      exec .passStart s = .next (s.replied rest (r.reply .refusedRange 0 []))) ∧
    (x.pass = .noPass → c < x.imageLength → x.passNumber = 65535 →
      exec .passStart s = .next (s.replied rest (r.reply .refusedFull 0 []))) ∧
    (x.pass = .noPass → c < x.imageLength → x.passNumber < 65535 →
      exec .passStart s = .next (State.evalFlow { s.replied rest (r.ok (leBytes 2 (x.passNumber + 1) ++
          leBytes 1 taken ++ leBytes 1 (s.slots.toList.countP (fun sl => sl.state == .waiting) - taken))) with
        session := some { x with
          startChunk := c, nextChunk := c, passNumber := x.passNumber + 1, pass := .streaming }
        slots := s.slots.map (fun (sl : Slot) =>
          if sl.state = .waiting ∧ sl.span.any (fun sp => decide (c ≤ sp.lo)) = true then { sl with rostered := true } else sl) }))

/-- HOLD (R108, R110): in RUN the hold state is HOLDING with the request's tag pending, flow is evaluated and then the
test for HELD; in HOLDING it answers OK reporting HOLDING, in HELD OK-HELD, and changes nothing. RELEASE HOLD (R110):
in RUN it answers OK reporting RUN and changes nothing; else the pending HOLD reply goes first, then RUN, its own
reply and flow. R109, R111, R144: in HOLDING, in a RUNNING or FAULTED session, HELD is reached exactly when every
enrolled slot has an empty list, no command granted and, while RUNNING, no rewrite queued and no partly issued chunk
but one at which it is stalled; then the pending reply is OK-HELD and the HELD event is raised; otherwise nothing
changes. The hold state in an OK-HELD reply and the moment of the test are the model's reading (logs 12, 14). -/
def Obligations.HoldReachesHeldAndIsReleased : Prop :=
  ((∀ (s : State) (r : Request) (rest : List Request), s.Serves .hold r rest →
     (s.wsc.hold = .run → exec .hold s = .next ((State.evalFlow { s with
       req.queue := rest, wsc.hold := .holding, wsc.holdReply := some r.tag }).testHeld)) ∧
     (s.wsc.hold = .holding → exec .hold s = .next (s.replied rest (r.ok [1]))) ∧
     (s.wsc.hold = .held → exec .hold s = .next (s.replied rest (acceptance r.tag r.code .okHeld [2])))) ∧
   (∀ (s : State) (r : Request) (rest : List Request), s.Serves .releaseHold r rest →
     (s.wsc.hold = .run → exec .releaseHold s = .next (s.replied rest (r.ok [0]))) ∧
     (∀ tag, s.wsc.hold ≠ .run → s.wsc.holdReply = some tag → exec .releaseHold s = .next (State.evalFlow { s with
       req.queue := rest, req.outbox := s.req.outbox ++ [runReply tag, r.ok [0]]
       wsc.hold := .run, wsc.holdReply := none })) ∧
     (s.wsc.hold ≠ .run → s.wsc.holdReply = none → exec .releaseHold s =
       .next (State.evalFlow { s.replied rest (r.ok [0]) with wsc.hold := .run })))) ∧
  (∀ (s : State) (x : Session), s.session = some x → x.phase ≠ .opened →
     let rest := ∀ i, (s.slot i).state.enrolled = true → (s.slot i).inFlight = [] ∧
       (∀ g, (s.link (linkOf i)).path = some g → g.slot ≠ i) ∧
       (x.phase = .running → (s.slot i).rewrites = [] ∧
         ((s.slot i).piecesSent = 0 ∨ ∃ st, (s.slot i).stall = some st ∧ (s.slot i).issueCursor = some st.chunk))
     (s.wsc.hold ≠ .holding → s.testHeld = s) ∧ (¬rest → s.testHeld = s) ∧
     (s.wsc.hold = .holding → rest → s.wsc.holdReply = none →
       s.testHeld = State.raise { s with wsc.hold := .held } .held) ∧
     (∀ tag, s.wsc.hold = .holding → rest → s.wsc.holdReply = some tag →
       s.testHeld = State.raise { s with
         wsc.hold := .held, wsc.holdReply := none
         req.outbox := s.req.outbox ++ [acceptance tag 0x09 .okHeld [2]] } .held))

/-- SESSION TUNE (R113, R174): NOT-HELD outside HELD; REFUSED-RANGE naming the first value that fails; else the
values enter the record together, D reaches every enrolled slot that is not throttled (R99) and the values in force
are answered. The checks are W, when given, P with Q as given or in force (named by P), the laggard policy, when given,
in this order. A field in neither set keeps its value; a tunable value in the default set takes its default, one in the
given set is brought into its range. -/
def Obligations.SessionTuneRequiresHeld : Prop :=
  (∀ (s : State) (x : Session) (r : Request) (rest : List Request), s.Serves .sessionTune r rest → s.session = some x →
    (s.wsc.hold ≠ .held → exec .sessionTune s = .next (s.replied rest (r.reply .notHeld 0 []))) ∧
    (∀ p, s.wsc.hold = .held → tuneFailure r.params x s.win.records.length = some p →
      exec .sessionTune s = .next (s.replied rest (r.reply .refusedRange p []))) ∧
    (s.wsc.hold = .held → tuneFailure r.params x s.win.records.length = none →
      let y := tuneRecord r.params x
      let t := { s.replied rest (r.ok (paramBlock y)) with session := some y }
      exec .sessionTune s = .next t ∧ y.pauseMark < y.resumeMark ∧ y.resumeMark ≤ y.windowSize ∧
      (s.win.records.length ≤ x.windowSize → s.win.records.length ≤ y.windowSize) ∧
      y.tune.throttle ≤ y.tune.eject ∧
      ∀ i, (s.slot i).state.enrolled = true → (s.slot i).throttled = false → t.depth i = y.tune.depth)) ∧
  (∀ (ps : List Byte) (x : Session) (records : Nat),
    let given := fun m => (field ps 22 2).testBit m
    let w := if given 0 then field ps 0 2 else x.windowSize
    let p := if given 1 then field ps 2 2 else x.pauseMark
    let q := if given 2 then field ps 4 2 else x.resumeMark
    let okW := given 0 = true → 32 ≤ w ∧ w ≤ 4096 ∧ records ≤ w
    let okPQ := p < q ∧ q ≤ w
    let okLaggard := given 3 = true → field ps 6 1 ≤ 2
    let f := tuneFailure ps x records
    let y := tuneRecord ps x
    let value := fun m d lo hi v old =>
      if (field ps 24 2).testBit m then d else if given (m + 4) then max lo (min hi v) else old
    let eject := value 9 48 1 63 (field ps 19 1) x.tune.eject
    (f = some 1 ↔ ¬okW) ∧ (f = some 2 ↔ okW ∧ ¬okPQ) ∧ (f = some 4 ↔ okW ∧ okPQ ∧ ¬okLaggard) ∧
    (f = none ↔ okW ∧ okPQ ∧ okLaggard) ∧
    y = { x with windowSize := w, pauseMark := p, resumeMark := q, laggard := y.laggard, tune := y.tune } ∧
    (given 3 = true → field ps 6 1 ≤ 2 → y.laggard.code = field ps 6 1) ∧
    (given 3 = false → y.laggard = x.laggard) ∧
    y.tune = {
      depth := value 0 2 1 4 (field ps 7 1) x.tune.depth
      commandTimeout := value 1 2000 10 10000 (field ps 8 2) x.tune.commandTimeout
      retryLimit := value 2 3 0 7 (field ps 10 1) x.tune.retryLimit
      settleTime := value 3 500 100 2500 (field ps 11 2) x.tune.settleTime
      paceInterval := value 4 250 50 1000 (field ps 13 2) x.tune.paceInterval
      declareCount := value 5 8 1 255 (field ps 15 1) x.tune.declareCount
      clearCount := value 6 4 1 255 (field ps 16 1) x.tune.clearCount
      decayInterval := value 7 5 1 60 (field ps 17 1) x.tune.decayInterval
      throttle := min (value 8 24 1 63 (field ps 18 1) x.tune.throttle) eject
      eject := eject
      residencyMin := value 10 3 1 255 (field ps 20 1) x.tune.residencyMin
      stampWait := value 11 15 1 60 (field ps 21 1) x.tune.stampWait })

/-- RELEASE SLOT (R78): by the slot's state. The detail 0 of a refusal that names no parameter and the end of the
event in the order of log 12 are the model's reading (log 9). -/
def Obligations.ReleaseSlotFollowsTheTable : Prop :=
  ∀ (s : State) (r : Request) (rest : List Request) (i : SlotIx), s.Serves .releaseSlot r rest →
    (191 < field r.params 0 1 → exec .releaseSlot s = .next (s.replied rest (r.reply .refusedRange 0 []))) ∧
    (field r.params 0 1 = i.val →
      ((s.slot i).state = .ready → exec .releaseSlot s = .next (
        (State.moveSlot { s with req.queue := rest } i .present).accept r .ok [])) ∧
      ((s.slot i).state = .waiting ∨ (s.slot i).state = .verifying ∨
          ((s.slot i).state = .live ∧ s.wsc.hold = .held) →
        ∃ t, exec .releaseSlot s = .next t ∧ (t.slot i).state = .failed ∧
          (t.slot i).outcome = some (((s.slot i).outcome).getD ⟨.withdrawn, none, none, none⟩) ∧
          (t.slot i).inFlight = [] ∧ (t.slot i).rewrites = [] ∧ (t.slot i).stall = none ∧
          (t.slot i).rostered = false ∧ (t.slot i).ordinal = (s.slot i).ordinal ∧ (t.slot i).span = (s.slot i).span ∧
          r.ok [] ∈ t.req.outbox ∧
          (∀ tag, (t.link (linkOf i)).tag tag = ((s.link (linkOf i)).tag tag).abandon i false) ∧
          Elsewhere { s with req.queue := rest } t (· = i) ∧
          ((s.slot i).state = .live → t.win.records =
            retired (lowerOwed ((s.slot i).owes (s.head.getD 0)) s.win.records)) ∧
          ((s.slot i).state ≠ .live → t.win.records = retired s.win.records)) ∧
      ((s.slot i).state = .live → s.wsc.hold ≠ .held →
        exec .releaseSlot s = .next (s.replied rest (r.reply .notHeld 0 []))) ∧
      ((s.slot i).state ∈ [.empty, .settling, .present, .sizing, .probing, .done, .failed] →
        exec .releaseSlot s = .next (s.replied rest (r.reply .refusedState 0 []))))

/-- STAMP SUPPLY (R133, R134): the checks in order, then, for every accepted supply, the entry SUPPLIED with the bytes
as sent, the GUARD entry attempted next where the site lies in a region with a GUARD site (step 1), the stall dealt with
(step 2), and OK with the slot, the site and the stall state after it (step 3, R188). Without a GUARD site over it and
without a stall record the entry and the reply are all. The stall (step 2): a stall record at the site's chunk is lifted
when every entry of the chunk is ready, else it moves to the lowest site still DEFERRED, with its deadline, and
STAMP-STALLED is raised; without one nothing is done. The 4 that names the byte count and a stall at another chunk left
alone are the model's reading (logs 9, 17). -/
def Obligations.StampSupplyChecksAndSupplies : Prop :=
  (∀ (s : State) (r : Request) (rest : List Request), s.Serves .stampSupply r rest →
     (191 < field r.params 0 1 → exec .stampSupply s = .next (s.replied rest (r.reply .refusedRange 1 []))) ∧
     ∀ (i : SlotIx) (n : Nat), field r.params 0 1 = i.val → field r.params 1 1 = n →
       (s.stu.sites[n]? = none → exec .stampSupply s = .next (s.replied rest (r.reply .refusedRange 2 []))) ∧
       ∀ t, s.stu.sites[n]? = some t →
         ((∃ g, t.kind = .guard g) → exec .stampSupply s = .next (s.replied rest (r.reply .refusedRange 2 []))) ∧
         ((∀ g, t.kind ≠ .guard g) →
           (field r.params 4 1 ≠ t.width →
             exec .stampSupply s = .next (s.replied rest (r.reply .refusedRange 4 []))) ∧
           (field r.params 4 1 = t.width →
             ((s.slot i).state.enrolled = false ∨ (s.slot i).ordinal ≠ some (field r.params 2 2) ∨
                 s.entry i n ≠ .deferred →
               exec .stampSupply s = .next (s.replied rest (r.reply .stale 0 []))) ∧
             ((s.slot i).state.enrolled = true → (s.slot i).ordinal = some (field r.params 2 2) →
               s.entry i n = .deferred → (∀ g ∈ s.stu.regions, t.inside g = false) → (s.slot i).stall = none →
               ∃ u, exec .stampSupply s = .next u ∧ u.entry i n = .supplied (r.params.drop 5) ∧
                 (∀ j m, (j ≠ i ∨ m ≠ n) → u.entry j m = s.entry j m) ∧
                 u = { s.replied rest (r.ok [BitVec.ofNat 8 i.val, BitVec.ofNat 8 n, 0, 0xFF]) with
                   stu := u.stu } ∧
                 u.stu = { s.stu with entries := u.stu.entries }) ∧
             ((s.slot i).state.enrolled = true → (s.slot i).ordinal = some (field r.params 2 2) →
               s.entry i n = .deferred →
               (∀ (q : Nat) (g : Region), s.stu.regions[q]? = some g → t.inside g = true →
                 (∀ q' g', q' < q → s.stu.regions[q']? = some g' → t.inside g' = false) →
                 ∀ v ∈ s.stu.sites, v.kind ≠ .guard q) →
               let u := (State.setEntry { s with req.queue := rest } i n (.supplied (r.params.drop 5))).supplyStall i
                 t.chunk
               exec .stampSupply s = .next (u.accept r .ok ([BitVec.ofNat 8 i.val, BitVec.ofNat 8 n] ++
                 stallReport (s.slot i).stall (u.slot i).stall))) ∧
             (∀ q g m v, (s.slot i).state.enrolled = true → (s.slot i).ordinal = some (field r.params 2 2) →
               s.entry i n = .deferred → s.stu.regions[q]? = some g → t.inside g = true →
               (∀ q' g', q' < q → s.stu.regions[q']? = some g' → t.inside g' = false) →
               s.stu.sites[m]? = some v → v.kind = .guard q →
               (∀ m' v', m' < m → s.stu.sites[m']? = some v' → v'.kind ≠ .guard q) →
               let u := ((State.setEntry { s with req.queue := rest } i n (.supplied (r.params.drop 5))).attemptGuard i
                 m).supplyStall i t.chunk
               exec .stampSupply s = .next (u.accept r .ok ([BitVec.ofNat 8 i.val, BitVec.ofNat 8 n] ++
                 stallReport (s.slot i).stall (u.slot i).stall)))))) ∧
  (stallReport none none = [0, 0xFF] ∧ (∀ a, stallReport (some a) none = [1, 0xFF]) ∧
     ∀ b st, stallReport b (some st) = [2, BitVec.ofNat 8 st.site]) ∧
  (∀ (s : State) (i : SlotIx) (c : Nat), (s.slot i).stall = none → s.supplyStall i c = s) ∧
  (∀ (s : State) (i : SlotIx) (c : Nat) (st : Stall), (s.slot i).stall = some st →
     (st.chunk ≠ c → s.supplyStall i c = s) ∧
     (st.chunk = c → s.chunkReady i c = true →
       s.supplyStall i c = s.updSlot i (fun sl => { sl with stall := none })) ∧
     (∀ n, st.chunk = c → s.chunkReady i c = false → s.lowestDeferred i c = some n →
       s.supplyStall i c = (s.updSlot i (fun sl => { sl with stall := some ⟨n, c, st.deadline⟩ })).raise
         (.stampStalled i ((s.slot i).ordinal.getD 0) n c)))

/-- CLEAR MARKS (R197): the change marks of the slots named, the seen flags whose members are present and, on a byte
that is not 0, NOTICES-LOST; nothing else. A first slot above 191, a count above 192 or a sum above 192 is refused,
naming the value that is out of its range, and one of the two, which one being open (log 8), where both are or only
the sum is. SET NOTICE MASK (R195): each kind's enable from its member, members 10 to 15 ignored, the set in force
answered. R193, R194, R196: an event sets its seen flag whatever the mask; an enabled kind joins the notice queue, or,
with 32 waiting, is dropped with NOTICES-LOST set and engine counter 10 raised; a disabled kind does nothing more. -/
def Obligations.EventsMarksAndMask : Prop :=
  ((∀ (s : State) (r : Request) (rest : List Request), s.Serves .clearMarks r rest →
     (191 < field r.params 0 1 → field r.params 1 1 ≤ 192 →
       exec .clearMarks s = .next (s.replied rest (r.reply .refusedRange 1 []))) ∧
     ((191 < field r.params 0 1 ∧ 192 < field r.params 1 1) ∨ (field r.params 0 1 ≤ 191 ∧ field r.params 1 1 ≤ 192 ∧
         192 < field r.params 0 1 + field r.params 1 1) →
       ∃ p, (p = 1 ∨ p = 2) ∧ exec .clearMarks s = .next (s.replied rest (r.reply .refusedRange p []))) ∧
     (field r.params 0 1 ≤ 191 → 192 < field r.params 1 1 →
       exec .clearMarks s = .next (s.replied rest (r.reply .refusedRange 2 []))) ∧
     (field r.params 0 1 ≤ 191 → field r.params 0 1 + field r.params 1 1 ≤ 192 →
       ∃ t, exec .clearMarks s = .next t ∧
         t = { s.replied rest (r.ok []) with slots := t.slots, ncu := t.ncu } ∧
         t.ncu = { s.ncu with seen := t.ncu.seen, noticesLost := t.ncu.noticesLost } ∧
         (∀ i : SlotIx, t.slot i = { s.slot i with
           changeMark := (s.slot i).changeMark && !decide
             (field r.params 0 1 ≤ i.val ∧ i.val < field r.params 0 1 + field r.params 1 1) }) ∧
         (∀ n : Fin 10, t.ncu.seen.getLsbD n = (s.ncu.seen.getLsbD n && !(field r.params 2 2).testBit n)) ∧
         t.ncu.noticesLost = (s.ncu.noticesLost && field r.params 4 1 == 0))) ∧
   (∀ (s : State) (r : Request) (rest : List Request), s.Serves .setNoticeMask r rest →
     ∃ m : BitVec 10, (∀ n : Fin 10, m.getLsbD n = (field r.params 0 2).testBit n) ∧
       exec .setNoticeMask s = .next { s.replied rest (r.ok (leBytes 2 m.toNat)) with ncu.mask := m })) ∧
  (∀ (s : State) (e : Event), let seen := s.ncu.seen ||| (1#10 <<< e.member.val)
     (s.ncu.mask.getLsbD e.member.val = false → s.raise e = { s with ncu.seen := seen }) ∧
     (s.ncu.mask.getLsbD e.member.val = true → s.ncu.notices.length < 32 →
       s.raise e = { s with ncu.seen := seen, ncu.notices := s.ncu.notices ++ [e] }) ∧
     (s.ncu.mask.getLsbD e.member.val = true → s.ncu.notices.length = 32 →
       s.raise e = { s with
         ncu.seen := seen, ncu.noticesLost := true, ncu.counters := s.ncu.counters.set 9 s.ncu.counters[9].bump }) ∧
     (s.raise e).ncu.seen.getLsbD e.member.val = true)

/-- SNAPSHOT and the automatic snapshot (R201, R202): the bank takes every live counter as it stood, the time and the
next sequence number, SNAPSHOT-TAKEN is raised, and the timer runs one interval on, or is stopped at interval 0. That
an expiry moves the timebase to its deadline is the model's choice (log 2). -/
def Obligations.SnapshotsCopyEveryCounter : Prop :=
  (∀ (s : State) (r : Request) (rest : List Request), s.Serves .snapshot r rest →
    let v := field r.params 0 1
    let n := if v = 255 then s.ncu.autoInterval else if 60 < v then 60 else v
    ∃ t, exec .snapshot s = .next t ∧
      t.ncu.bank = ⟨s.ncu.bank.number + 1, BitVec.ofNat 32 s.now, s.ncu.counters, s.slots.map Slot.counters⟩ ∧
      t.ncu.autoInterval = n ∧ t.ncu.autoAt = (if n = 0 then none else some (s.now + 1000 * n)) ∧
      t.ncu.seen.getLsbD 9 = true ∧
      t = { s.replied rest (r.ok (leBytes 4 (s.ncu.bank.number + 1).toNat)) with ncu := t.ncu }) ∧
  (∀ (s : State) (d : Nat), s.ncu.autoAt = some d →
    ∃ t, exec .autoSnapshotExpiry s = .next t ∧
      t.ncu.bank = ⟨s.ncu.bank.number + 1, BitVec.ofNat 32 (max s.now d), s.ncu.counters, s.slots.map Slot.counters⟩ ∧
      t.ncu.autoAt = some (max s.now d + 1000 * s.ncu.autoInterval) ∧ t.ncu.autoInterval = s.ncu.autoInterval ∧
      t.ncu.seen.getLsbD 9 = true ∧ t = { s with now := max s.now d, ncu := t.ncu })

/-- CLOSE SESSION (R19, R20, R39, R111): every slot settled by its state, what the session gave it cleared, the shared
state cleared, its commands abandoned on their links, a path held for a slot given up, flow PAUSED with a FLOW frame
if it was OPEN on an UP link, a pending HOLD reply before its own. That every waiting port transfer is withdrawn is
the model's reading (log 20). -/
def Obligations.CloseSessionSettlesAndClears : Prop :=
  ∀ (s : State) (r : Request) (rest : List Request), s.Serves .closeSession r rest →
    ∃ t, exec .closeSession s = .next t ∧ t.session = none ∧ t.NoneEmpty ∧ t.win.waiting = [] ∧
      t.wsc.holdReply = none ∧ t.req.queue = rest ∧
      t.req.outbox = s.req.outbox ++ (match s.wsc.holdReply with
        | some tag => [runReply tag]
        | none => []) ++ [r.ok []] ∧
      t.win.frames = s.win.frames ∧ t.stu.scratch = s.stu.scratch ∧ (∀ i n, t.entry i n = .unrendered) ∧
      t.ncu.mask = s.ncu.mask ∧ t.ncu.bank = s.ncu.bank ∧
      (∀ n : Fin 10, n ≠ 9 → t.ncu.counters[n] = s.ncu.counters[n]) ∧ t.now = s.now ∧
      (∀ k, t.link k = { s.link k with
        tags := (t.link k).tags, path := (s.link k).path.filter (fun g => linkOf g.slot != k) }) ∧
      (∀ k tag, (∀ b, (s.link k).tag tag = .bound b → linkOf b.slot = k → (t.link k).tag tag = .abandoned b) ∧
        ((∀ b, (s.link k).tag tag = .bound b → linkOf b.slot ≠ k) → (t.link k).tag tag = (s.link k).tag tag)) ∧
      t.intake = ⟨none, if s.intake.linkUp then .paused else s.intake.flow, s.intake.linkUp⟩ ∧
      t.req.flowOut = (if s.intake.linkUp = true ∧ s.intake.flow = .opened then
        (if s.req.flowOut.length < 8 then s.req.flowOut else s.req.flowOut.dropLast) ++ [⟨.paused, none, none⟩]
        else s.req.flowOut) ∧
      ∀ i, (t.slot i).state =
          (if (s.slot i).state.enrolled then .failed
          else if (s.slot i).state ∈ [.sizing, .probing, .ready] then .present else (s.slot i).state) ∧
        (t.slot i).outcome =
          (if (s.slot i).state.enrolled then some ((s.slot i).outcome.getD ⟨.incomplete, none, none, none⟩)
          else (s.slot i).outcome) ∧
        (t.slot i).inFlight = [] ∧ (t.slot i).rewrites = [] ∧ (t.slot i).ahead = [] ∧ (t.slot i).stall = none ∧
        (t.slot i).rostered = false ∧ (t.slot i).laggard = false ∧ (t.slot i).pinCount = 0 ∧
        (t.slot i).clearCount = 0 ∧ (t.slot i).throttled = false ∧ (t.slot i).residency = 0 ∧
        (t.slot i).trouble = 0 ∧ (t.slot i).ordinal = none ∧ (t.slot i).span = none ∧
        (t.slot i).deferred = none ∧ (t.slot i).ackPoint = none ∧ (t.slot i).issueCursor = none ∧
        (t.slot i).verifyCursor = none ∧ (t.slot i).qual = none ∧ (t.slot i).capacity = (s.slot i).capacity ∧
        (t.slot i).settleDeadline = (s.slot i).settleDeadline ∧ (t.slot i).counters = (s.slot i).counters

/-! ## Slots -/

/-- PRESENCE on an UP link: INSERTED takes EMPTY to SETTLING with a settle deadline and restarts the timer of SETTLING
without a slot change, each by the session's settle time or, without a session, 500 ms (R63); REMOVED takes any other
state to EMPTY, an enrolled slot with REMOVED-EARLY unless it holds an outcome, its commands abandoned and its owed
pending released, and is ignored in EMPTY (R64). On a DOWN link both are discarded (R87). -/
def Obligations.PresenceMovesSlots : Prop :=
  (∀ s : State, (s.session = none → s.settleTime = 500) ∧ ∀ x, s.session = some x → s.settleTime = x.tune.settleTime) ∧
  ∀ (s : State) (k : LinkIx) (j : Socket), let i := slotAt k j
    ((s.link k).up = false → exec (.presenceInserted k j) s = .next s ∧ exec (.presenceRemoved k j) s = .next s) ∧
    ((s.link k).up = true →
      ((s.slot i).state = .empty → exec (.presenceInserted k j) s = .next (State.moveSlot
        (s.updSlot i (fun sl => { sl with settleDeadline := some (s.now + s.settleTime) })) i .settling) ∧
        exec (.presenceRemoved k j) s = .next s) ∧
      ((s.slot i).state = .settling → exec (.presenceInserted k j) s = .next
        (s.updSlot i (fun sl => { sl with settleDeadline := some (s.now + s.settleTime) }))) ∧
      ((s.slot i).state ≠ .empty → ∃ t, exec (.presenceRemoved k j) s = .next t ∧
        (t.slot i).state = .empty ∧ (t.slot i).settleDeadline = none ∧ (t.slot i).qual = none ∧
        (t.slot i).inFlight = [] ∧ (t.slot i).rewrites = [] ∧ (t.slot i).stall = none ∧
        (t.slot i).rostered = false ∧ (t.slot i).trouble = (s.slot i).trouble ∧
        (t.slot i).ordinal = (s.slot i).ordinal ∧ (t.slot i).capacity = (s.slot i).capacity ∧
        (t.slot i).span = (s.slot i).span ∧ (t.slot i).deferred = (s.slot i).deferred ∧
        (t.slot i).ackPoint = (s.slot i).ackPoint ∧ (t.slot i).verifyCursor = (s.slot i).verifyCursor ∧
        (t.slot i).throttled = (s.slot i).throttled ∧
        (∀ tag, (t.link k).tag tag = ((s.link k).tag tag).abandon i true) ∧
        (t.slot i).outcome = (if (s.slot i).state.enrolled then
          some ((s.slot i).outcome.getD ⟨.removedEarly, none, none, none⟩) else (s.slot i).outcome) ∧
        (t.slot i).changeMark = true ∧ Elsewhere s t (· = i) ∧
        t.win.records = retired (if (s.slot i).state = .live then
          lowerOwed ((s.slot i).owes (s.head.getD 0)) s.win.records else s.win.records)) ∧
      ((s.slot i).state ≠ .empty → (s.slot i).state ≠ .settling → ∃ t, exec (.presenceInserted k j) s = .next t ∧
        (t.slot i).state = .settling ∧ (t.slot i).settleDeadline = some (s.now + s.settleTime) ∧
        (t.slot i).outcome = (if (s.slot i).state.enrolled then
          some ((s.slot i).outcome.getD ⟨.removedEarly, none, none, none⟩) else (s.slot i).outcome) ∧
        Elsewhere s t (· = i) ∧
        t.win.records = retired (if (s.slot i).state = .live then
          lowerOwed ((s.slot i).owes (s.head.getD 0)) s.win.records else s.win.records)))

/-- SETTLE_DEADLINE (R66, R68, R119): what the previous stick left is cleared, the slot's stamp entries are
UNRENDERED, and the slot goes to PRESENT in NONE and FAULTED, to SIZING with phase SIZE in OPEN and RUNNING; the
change mark is set and the per-slot counters stay (R199). The probe index in phase SIZE is open but for its range (log
37). That an expiry moves the timebase to its deadline is the
model's choice (log 2). -/
def Obligations.SettleDeadlineSeatsANewStick : Prop :=
  ∀ (s : State) (i : SlotIx) (d : Nat), (s.slot i).state = .settling → (s.slot i).settleDeadline = some d →
    ∃ t, exec (.settleDeadline i) s = .next t ∧ t.now = max s.now d ∧
      (t.slot i).state = (if s.phase = none ∨ s.phase = some .faulted then .present else .sizing) ∧
      (∀ x, s.session = some x → x.phase ≠ .faulted → (t.slot i).inFlight = [] ∧
        ∃ j, (t.slot i).qual = some ⟨.size, j, 0⟩ ∧ (0 < x.probeCount → j < x.probeCount)) ∧
      (t.slot i).outcome = none ∧ (t.slot i).capacity = none ∧ (t.slot i).ordinal = none ∧ (t.slot i).span = none ∧
      (t.slot i).deferred = none ∧ (t.slot i).ackPoint = none ∧ (t.slot i).issueCursor = none ∧
      (t.slot i).verifyCursor = none ∧ (t.slot i).stall = none ∧ (t.slot i).settleDeadline = none ∧
      (t.slot i).ahead = [] ∧ (t.slot i).trouble = 0 ∧ (t.slot i).residency = 0 ∧ (t.slot i).pinCount = 0 ∧
      (t.slot i).clearCount = 0 ∧ (t.slot i).throttled = false ∧ (t.slot i).laggard = false ∧
      (t.slot i).rostered = false ∧ (t.slot i).changeMark = true ∧ (t.slot i).counters = (s.slot i).counters ∧
      (∀ n, t.entry i n = .unrendered) ∧ (∀ j n, j ≠ i → t.entry j n = s.entry j n) ∧
      (∀ j, j ≠ i → t.slot j = s.slot j) ∧
      t = { s with now := t.now, slots := t.slots, stu := t.stu, ncu := t.ncu } ∧
      t.stu = { s.stu with entries := t.stu.entries }

/-- R32: a LIVE slot that leaves lowers by one the count of every chunk from its ack point to below min(to, H) that
is not in its acknowledged-ahead set, and of no other; a slot in another state lowers none. R34: retirement removes from
the tail every RESIDENT record with count 0 and stops at the first other record; what stays is the rest of the list, in
its order. R12: where that empties the window of a DRAINING pass the pass ends: NO-PASS, every rostered mark clear and
PASS-ENDED with the pass number, the count of WAITING slots and their lowest from, or none; otherwise the records alone
change. R58, R109: when records went the flow is evaluated, and an event closes with the test for HELD. The order is the
model's reading (log 12). -/
def Obligations.PendingIsReleasedAndRetired : Prop :=
  (∀ (s : State) (i : SlotIx) (x : Session) (a : Nat) (sp : Span), s.session = some x →
    (s.slot i).ackPoint = some a → (s.slot i).span = some sp →
    ((s.slot i).state = .live → (s.releaseOwed i).win.records = s.win.records.map (fun r => { r with
      resident := r.resident.map (fun y =>
        if a ≤ r.chunk ∧ r.chunk < min sp.hi x.nextChunk ∧ r.chunk ∉ (s.slot i).ahead then
          { y with owed := y.owed - 1 } else y) })) ∧
    ((s.slot i).state ≠ .live → s.releaseOwed i = s)) ∧
  (∀ rs : List ChunkRecord, ∃ gone, rs = gone ++ retired rs ∧
    (∀ r ∈ gone, ∃ y, r.resident = some y ∧ y.owed = 0) ∧
    (∀ r rest, retired rs = r :: rest → ∀ y, r.resident = some y → y.owed ≠ 0)) ∧
  (∀ (s : State) (x : Session), s.session = some x →
    let kept := retired s.win.records
    let ends := x.pass = .draining ∧ kept = [] ∧ s.win.records ≠ []
    (¬ends → s.retire = { s with win.records := kept }) ∧
    (ends → s.retire = State.raise { s with
        win.records := [], session := some { x with pass := .noPass }
        slots := s.slots.map (fun (sl : Slot) => { sl with rostered := false }) }
      (.passEnded x.passNumber ((List.finRange 192).countP (fun i => decide ((s.slot i).state = .waiting)))
        s.lowestFrom))) ∧
  (∀ s : State,
    (s.lowestFrom = none ↔ ∀ i, (s.slot i).state = .waiting → (s.slot i).span = none) ∧
    (∀ n, s.lowestFrom = some n ↔ (∃ i sp, (s.slot i).state = .waiting ∧ (s.slot i).span = some sp ∧ sp.lo = n) ∧
      ∀ i sp, (s.slot i).state = .waiting → (s.slot i).span = some sp → n ≤ sp.lo)) ∧
  (∀ s : State,
    (retired s.win.records ≠ s.win.records → s.close = s.retire.evalFlow.testHeld) ∧
    (retired s.win.records = s.win.records → s.close = s.testHeld))

/-- R163, R164: a rise adds the weight up to 63; at or above the eject threshold the slot is FAILED with TROUBLE and
no retry is made; else at or above the throttle threshold it is throttled with residency 0; then the retry decision.
DECAY_TICK (R166): the timer runs on by the interval in force; every slot's score falls by one; a throttled slot's
residency rises, up to 255, and at or below the release level with residency at least Rmin its flag is cleared;
nothing else changes. That an expiry moves the timebase to its deadline is the model's choice (log 2). -/
def Obligations.TroubleRisesAndDecays : Prop :=
  (∀ (s : State) (x : Session) (i : SlotIx) (w : Nat) (go : State → State), s.session = some x →
     let score := min 63 ((s.slot i).trouble + w)
     (x.tune.eject ≤ score → ∃ t, s.raiseTrouble i w go = t ∧ (t.slot i).state = .failed ∧
       (t.slot i).trouble = score ∧
       (t.slot i).outcome = some ((s.slot i).outcome.getD ⟨.trouble, none, none, none⟩) ∧ Elsewhere s t (· = i)) ∧
     (score < x.tune.eject → x.tune.throttle ≤ score → (s.slot i).throttled = false →
       s.raiseTrouble i w go = go (s.updSlot i (fun sl => { sl with
         trouble := score, throttled := true, residency := 0, throttledDepth := some (max 1 (s.places i)) }))) ∧
     (score < x.tune.eject → x.tune.throttle ≤ score → (s.slot i).throttled = true →
       s.raiseTrouble i w go = go (s.updSlot i (fun sl => { sl with trouble := score, residency := 0 }))) ∧
     (score < x.tune.eject → score < x.tune.throttle →
       s.raiseTrouble i w go = go (s.updSlot i (fun sl => { sl with trouble := score })))) ∧
  (∀ (s : State) (x : Session) (d : Nat), s.session = some x → s.wsc.decayAt = some d →
     ∃ t, exec .decayTick s = .next t ∧
       t = { s with now := max s.now d, wsc.decayAt := some (max s.now d + 1000 * x.tune.decayInterval),
                    slots := t.slots } ∧
       ∀ i, let sl := s.slot i
         (sl.throttled = false → t.slot i = { sl with trouble := sl.trouble - 1 }) ∧
         (sl.throttled = true →
           (sl.trouble - 1 ≤ x.tune.throttle - 8 ∧ x.tune.residencyMin ≤ min 255 (sl.residency + 1) →
             t.slot i = { sl with
               trouble := sl.trouble - 1, throttled := false, residency := 0, throttledDepth := none }) ∧
           (x.tune.throttle - 8 < sl.trouble - 1 ∨ min 255 (sl.residency + 1) < x.tune.residencyMin →
             t.slot i = { sl with trouble := sl.trouble - 1, residency := min 255 (sl.residency + 1) })))

/-- PACE_TICK (R154 to R161): the timer runs on; outside RUNNING, RUN and a pass nothing else changes. At an evaluated
tick every LIVE slot is counted by whether it pins, before any policy; a slot whose pin count has just risen to N is
declared, and no other: its flag is set, LAGGARD is raised and the policy acts. Under WAIT nothing more, and the
notices stand in ascending slot number; under DETACH the slot is WAITING with the unacknowledged rest of its span,
unrostered, its counts 0 and its flag kept; under FAIL it is FAILED with LAGGARD and its ack point. Elsewhere the tick
leaves everything as it was. The slots that leave LIVE have released the pending they owe (R32) and their record of
pieces sent (R204), and the event closes with retirement and a pass end. That an expiry moves the timebase to its
deadline is the model's choice (log 2), LAGGARD before its policy its reading (log 11), and a run declared again at an N
raised meanwhile its choice (log 33). -/
def Obligations.PaceTickCountsAndPoliciesAct : Prop :=
  ∀ (s : State) (x : Session) (d : Nat), s.session = some x → s.wsc.paceAt = some d →
    let free := x.windowSize - s.win.records.length
    let tail := ((s.win.records.head?).map ChunkRecord.chunk).getD x.nextChunk
    let u := { s with now := max s.now d, wsc.paceAt := some (max s.now d + x.tune.paceInterval) }
    let pins := fun (sl : Slot) => sl.state = .live ∧ free = 0 ∧ sl.ackPoint = some tail
    let paced := fun (sl : Slot) =>
      if pins sl then { sl with pinCount := min 255 (sl.pinCount + 1), clearCount := 0 }
      else if sl.state = .live then { sl with
        pinCount := 0, clearCount := min 255 (sl.clearCount + 1)
        laggard := sl.laggard && decide (min 255 (sl.clearCount + 1) < x.tune.clearCount) }
      else sl
    let declared := fun i => pins (s.slot i) ∧ (s.slot i).pinCount + 1 = x.tune.declareCount ∧ (s.slot i).pinCount < 255
    (¬(x.phase = .running ∧ s.wsc.hold = .run ∧ x.pass ≠ .noPass) → exec .paceTick s = .next u) ∧
    (x.phase = .running → s.wsc.hold = .run → x.pass ≠ .noPass → ∃ t, exec .paceTick s = .next t ∧
      Elsewhere { u with slots := s.slots.map paced } t declared ∧
      ((∀ i, ¬declared i) → t = State.close { u with slots := s.slots.map paced }) ∧
      (∀ i, declared i → t.ncu.seen.getLsbD 5 = true ∧ (t.slot i).laggard = true) ∧
      (x.laggard = .wait → ∃ v : State, t = v.close ∧ v = { u with slots := v.slots, ncu := v.ncu } ∧
        (∀ i, v.slot i = if declared i then { paced (s.slot i) with laggard := true } else paced (s.slot i)) ∧
        (let raised := ((List.finRange 192).filter (fun i => decide (declared i))).map (fun i =>
           Event.laggard i ((s.slot i).ordinal.getD 0) tail x.tune.declareCount .wait)
         s.ncu.mask = BitVec.allOnes 10 → s.ncu.notices.length + raised.length ≤ 32 →
           v.ncu.notices = s.ncu.notices ++ raised)) ∧
      (x.laggard ≠ .wait → t.win.records = retired (s.win.records.map (fun r => { r with
        resident := r.resident.map (fun y => { y with owed := y.owed - (List.finRange 192).countP (fun i =>
          decide (declared i) && (s.slot i).owes x.nextChunk r.chunk) }) }))) ∧
      (∀ i sp, declared i → x.laggard = .detach → (s.slot i).span = some sp → let v := t.slot i
        v.state = .waiting ∧ v.span = some ⟨tail, sp.hi⟩ ∧ v.deferred = (s.slot i).deferred ∧ v.ackPoint = some tail ∧
        v.issueCursor = some tail ∧ v.ahead = [] ∧ v.inFlight = [] ∧ v.rewrites = [] ∧ v.piecesSent = 0 ∧
        v.stall = none ∧ v.rostered = false ∧ v.pinCount = 0 ∧ v.clearCount = 0 ∧ v.outcome = (s.slot i).outcome) ∧
      (∀ i, declared i → x.laggard = .fail → let v := t.slot i
        v.state = .failed ∧ v.outcome = some ((s.slot i).outcome.getD ⟨.laggard, some tail, none, none⟩) ∧
        v.ackPoint = some tail ∧ v.span = (s.slot i).span ∧ v.inFlight = [] ∧ v.rewrites = [] ∧ v.piecesSent = 0 ∧
        v.stall = none ∧ v.rostered = false ∧ v.pinCount = x.tune.declareCount))

/-- STALL_DEADLINE (R131): in RUNNING the slot goes to FAILED with STAMP-TIMEOUT at the stall's chunk, its stall
record and its commands gone and its owed pending released; in FAULTED only the time has passed. That an expiry moves
the timebase to its deadline is the model's choice (log 2). -/
def Obligations.StallDeadlineFailsTheSlot : Prop :=
  ∀ (s : State) (x : Session) (i : SlotIx) (st : Stall), s.session = some x → (s.slot i).stall = some st →
    (x.phase = .running → ∃ t, exec (.stallDeadline i) s = .next t ∧ (t.slot i).state = .failed ∧
      (t.slot i).outcome = some ((s.slot i).outcome.getD ⟨.stampTimeout, some st.chunk, none, none⟩) ∧
      (t.slot i).stall = none ∧ (t.slot i).inFlight = [] ∧ (t.slot i).trouble = (s.slot i).trouble ∧
      Elsewhere { s with now := max s.now st.deadline } t (· = i) ∧
      t.win.records = retired (if (s.slot i).state = .live then
        lowerOwed ((s.slot i).owes x.nextChunk) s.win.records else s.win.records)) ∧
    (x.phase = .faulted → exec (.stallDeadline i) s = .next { s with now := max s.now st.deadline })

/-! ## Socket links -/

/-- PONG (R88, R82): on an UP link the missed-ping count is 0; on a DOWN link it is UP as well, and each of its
sixteen lamps is due with the pattern of its slot's state. PING_DUE (R88, R89): no second PING beside a waiting one and
no miss counted then; else a PING waits, with one miss counted on an UP link whose last PING has no PONG; at the third
the link is lost: DOWN, its tags FREE, its record reset, its slots EMPTY, the pending its LIVE slots owe released and
one retirement after it, and then LINK-LOST raised with cause PING (R83, R90). R81: the lamp pattern of each of the
eleven slot states; a pattern becomes due exactly when it differs from the one shown; every slot change evaluates the
lamp, sets the change mark and raises SLOT-CHANGED with the outcome held (R62). That an expiry moves the timebase to its
deadline (log 2) and that the period runs from the due time (log 3) are the model's. -/
def Obligations.PingsEstablishAndLoseTheLink : Prop :=
  (∀ (s : State) (k : LinkIx), ∃ t, exec (.pong k) s = .next t ∧
    t.link k = { s.link k with up := true, missed := 0, pingOpen := false } ∧
    (∀ k', k' ≠ k → t.link k' = s.link k') ∧ t = { s with links := t.links, slots := t.slots } ∧
    ((s.link k).up = true → t.slots = s.slots) ∧
    ((s.link k).up = false → ∀ i, t.slot i = (if linkOf i = k then
      { s.slot i with lamp := { (s.slot i).lamp with due := some (s.slot i).state.lamp } } else s.slot i))) ∧
  (∀ (s : State) (k : LinkIx), let l := s.link k
    let u : State := { s with now := max s.now l.pingAt }
    (l.pingWaiting = true → exec (.pingDue k) s = .next (u.setLink k { l with pingAt := l.pingAt + 100 })) ∧
    (l.pingWaiting = false → (l.up = false ∨ l.pingOpen = false) → l.missed < 3 →
      exec (.pingDue k) s = .next (u.setLink k { l with pingAt := l.pingAt + 100, pingWaiting := true })) ∧
    (l.pingWaiting = false → l.up = true → l.pingOpen = true → l.missed < 2 →
      exec (.pingDue k) s = .next (u.setLink k
        { l with pingAt := l.pingAt + 100, pingWaiting := true, missed := l.missed + 1 })) ∧
    (l.pingWaiting = false → l.up = true → l.pingOpen = true → l.missed = 2 →
      ∃ t, exec (.pingDue k) s = .next t ∧ t.link k = { l with
          pingAt := l.pingAt + 100, pingWaiting := true, up := false, missed := 0, tags := .replicate 256 .free
          lapsed := 0, lastTag := 255, lastSocket := 15, path := none } ∧
        (∀ i, linkOf i = k → (t.slot i).state = .empty ∧ (t.slot i).lamp = ⟨.off, none⟩ ∧
          ((s.slot i).state.enrolled = true →
            (t.slot i).outcome = some ((s.slot i).outcome.getD ⟨.linkLost, none, none, none⟩))) ∧
        Elsewhere u t (fun i => linkOf i = k) ∧ t.ncu.seen.getLsbD 7 = true ∧
        t.win.records = retired (s.recordsWithoutLink k) ∧
        ∃ v : State, t = (v.raise (.linkLost k .ping)).close ∧ v.win.records = retired (s.recordsWithoutLink k) ∧
          Elsewhere u v (fun i => linkOf i = k))) ∧
  (SlotState.lamp .empty = .off ∧ SlotState.lamp .settling = .amberSteady ∧ SlotState.lamp .present = .amberSteady ∧
    SlotState.lamp .sizing = .amberSteady ∧ SlotState.lamp .probing = .amberSteady ∧
    SlotState.lamp .ready = .amberSteady ∧ SlotState.lamp .waiting = .amberBlink ∧ SlotState.lamp .live = .amberBlink ∧
    SlotState.lamp .verifying = .amberBlink ∧ SlotState.lamp .done = .green ∧ SlotState.lamp .failed = .red) ∧
  (∀ (l : Lamp) (p : LampPattern),
    (p = l.shown → l.eval p = ⟨l.shown, none⟩) ∧ (p ≠ l.shown → l.eval p = ⟨l.shown, some p⟩)) ∧
  (∀ (s : State) (i : SlotIx) (new : SlotState), s.moveSlot i new = State.raise
    (s.setSlot i { s.slot i with state := new, changeMark := true, lamp := (s.slot i).lamp.eval new.lamp })
    (.slotChanged i (s.slot i).state new ((s.slot i).outcome.map Outcome.kind)))

/-- Which command a slot has to issue. R96: a slot is eligible with a due lamp pattern, or with a command while its link
has a FREE tag. R69: a qualifying slot, the command its qualification record names, with an empty list. R100, R147: an
enrolled slot, in RUNNING alone, its oldest waiting entry in RUN and HOLDING; without one, R143: a LIVE slot with a
rewrite queue, the next piece of its oldest record in RUN and HOLDING with a place free; R100: without either, the next
piece at the issue cursor under the six conditions; R147: a VERIFYING slot, the read at the verify cursor below L in RUN
with a place free. R99: the places occupied and the depth in force. The oldest is the first of the list, the model's
choice (log 30). -/
def Obligations.IssuableCommandsFollowTheRules : Prop :=
  ∀ (s : State) (i : SlotIx), let sl := s.slot i
    (s.eligible i = true ↔
      sl.lamp.due ≠ none ∨ (s.nextSend i ≠ none ∧ ∃ t : LinkTag, (s.link (linkOf i)).tag t = .free)) ∧
    ((∃ g, (s.link (linkOf i)).path = some g ∧ g.slot = i ∧ g.origin ≠ .waiting) → s.places i = sl.inFlight.length + 1) ∧
    ((∀ g, (s.link (linkOf i)).path = some g → g.slot ≠ i ∨ g.origin = .waiting) → s.places i = sl.inFlight.length) ∧
    (sl.state.enrolled = false → s.depth i = 1) ∧
    (∀ x, s.session = some x → sl.state.enrolled = true → sl.throttled = false → s.depth i = x.tune.depth) ∧
    (∀ d, sl.state.enrolled = true → sl.throttled = true → sl.throttledDepth = some d → s.depth i = d) ∧
    (∀ q, sl.state = .sizing ∨ sl.state = .probing → sl.qual = some q →
      (sl.inFlight ≠ [] → s.nextSend i = none) ∧
      (sl.inFlight = [] → q.phase = .size → s.nextSend i = some (.size, q.retries, .first)) ∧
      (sl.inFlight = [] → q.phase = .probeWrite → s.nextSend i = some (.probeWrite q.probe, q.retries, .first)) ∧
      (sl.inFlight = [] → q.phase = .probeRead → s.nextSend i = some (.probeRead q.probe, q.retries, .first))) ∧
    (sl.state ∉ [.sizing, .probing, .live, .verifying] → s.nextSend i = none) ∧
    (sl.state = .live ∨ sl.state = .verifying → s.phase ≠ some .running → s.nextSend i = none) ∧
    (∀ pre e post, sl.state = .live ∨ sl.state = .verifying → s.phase = some .running →
      sl.inFlight = pre ++ e :: post → (∀ d ∈ pre, d.tag ≠ none) → e.tag = none →
      s.nextSend i = if s.wsc.hold = .held then none else some (e.work, e.retries, .waiting)) ∧
    (∀ w ws, sl.state = .live → s.phase = some .running → (∀ e ∈ sl.inFlight, e.tag ≠ none) → sl.rewrites = w :: ws →
      s.nextSend i = if s.wsc.hold ≠ .held ∧ s.places i < s.depth i then
        some (.piece w.chunk w.nextPiece w.number, 0, .rewrite) else none) ∧
    (∀ x c a sp, s.session = some x → sl.state = .live → x.phase = .running → (∀ e ∈ sl.inFlight, e.tag ≠ none) →
      sl.rewrites = [] → sl.issueCursor = some c → sl.ackPoint = some a → sl.span = some sp →
      let ps := s.pieces c
      let ok := s.places i < s.depth i ∧ c < sp.hi ∧ c < x.nextChunk ∧ sl.stall = none ∧
        (sl.piecesSent = 0 → s.wsc.hold = .run ∧ c < a + s.depth i) ∧ (sl.piecesSent ≠ 0 → s.wsc.hold ≠ .held) ∧
        ∃ p, ps[sl.piecesSent]? = some p ∧ (p.stamped = true →
          ∀ n t, s.stu.sites[n]? = some t → t.chunk = c → (s.entry i n).bytes? ≠ none)
      (ok → s.nextSend i = some (.piece c sl.piecesSent 0, 0, .first)) ∧ (¬ok → s.nextSend i = none)) ∧
    (∀ x c, s.session = some x → sl.state = .verifying → x.phase = .running → (∀ e ∈ sl.inFlight, e.tag ≠ none) →
      sl.verifyCursor = some c →
      s.nextSend i = if s.wsc.hold = .run ∧ c < x.imageLength ∧ s.places i < s.depth i then some (.verify c 0, 0, .first)
        else none)

/-- TRANSMIT_GRANT (R96, R97, R81): a busy path is granted nothing; a waiting PING goes first and moves no turn; on a
DOWN link nothing else goes; else the eligible socket reached first after the last granted one is granted, sending its
LAMP if one is due and taking the path for its command otherwise, an image piece with its record's frame and its run
of sectors, a probe WRITE with the probe's pattern (R73); with no socket eligible nothing is granted. That PING and
LAMP are sent whole within the grant is the model's choice (log 4), and the transfers of a piece waiting one at a time
its reading (log 6). -/
def Obligations.TransmitPathIsGrantedInTurn : Prop :=
  ∀ (s : State) (k : LinkIx), let l := s.link k
    (l.path.isSome = true → exec (.transmitGrant k) s = .next s) ∧
    (l.path = none → l.pingWaiting = true → exec (.transmitGrant k) s = .next
      (s.setLink k { l with pingWaiting := false, pingOpen := true, sent := some [0x14#8] })) ∧
    (l.path = none → l.pingWaiting = false → l.up = false → exec (.transmitGrant k) s = .next s) ∧
    (l.path = none → l.pingWaiting = false → (∀ j, s.eligible (slotAt k j) = false) →
      exec (.transmitGrant k) s = .next s) ∧
    (∀ (n : Fin 16) (j : Socket), l.path = none → l.pingWaiting = false → l.up = true → j = l.lastSocket + 1 + n →
      s.eligible (slotAt k j) = true → (∀ m : Fin 16, m < n → s.eligible (slotAt k (l.lastSocket + 1 + m)) = false) →
      (∀ p, (s.slot (slotAt k j)).lamp.due = some p → exec (.transmitGrant k) s = .next
        ((s.setSlot (slotAt k j) { s.slot (slotAt k j) with lamp := ⟨p, none⟩ }).setLink k
          { l with lastSocket := j, sent := some [0x13#8, BitVec.ofNat 8 j.val, BitVec.ofNat 8 p.code] })) ∧
      (∀ x : Send, (s.slot (slotAt k j)).lamp.due = none → s.nextSend (slotAt k j) = some x →
        ∃ t g, exec (.transmitGrant k) s = .next t ∧ t.link k = { l with lastSocket := j, path := some g } ∧
          g.slot = slotAt k j ∧ g.work = x.1 ∧ g.retries = x.2.1 ∧ g.origin = x.2.2 ∧ g.moved = 0 ∧
          (∀ c p m r q, x.1 = .piece c p m → s.record c = some r → (s.pieces c)[p]? = some q →
            g.source = some (r.frame, q) ∧ g.data = [] ∧
            g.transfers = (if q.stamped then 2 else 1) * ((512 * q.count + 4095) / 4096) ∧
            g.transfer k = if q.stamped then .stamp k else .drain k) ∧
          (x.1.kind ≠ .write → g.source = none ∧ g.data = []) ∧
          (∀ q y cap, x.1 = .probeWrite q → s.session = some y → (s.slot (slotAt k j)).capacity = some cap →
            g.source = none ∧ g.data = (List.replicate 32 (leBytes 4 y.sessionTag.toNat ++
              leBytes 2 (slotAt k j).val ++ leBytes 2 q ++ leBytes 4 (q * (cap - 1) / (y.probeCount - 1)) ++
              leBytes 4 (~~~y.sessionTag).toNat)).flatten) ∧
          (g.source = none → g.transfers = 0) ∧
          (∀ k', k' ≠ k → t.link k' = s.link k') ∧ t = { s with links := t.links, win := t.win } ∧
          t.win = { s.win with waiting := t.win.waiting } ∧
          t.win.waiting = s.win.waiting ++ (if 0 < g.transfers then [g.transfer k] else [])))

/-- BUFFER_TRANSFER_GRANT (R43): FILL before the rest, leaving the ring position; else the first ring member after the
last granted that has a transfer waiting, its oldest transfer; a DRAIN moves the next 4,096 bytes or less of its piece
from the frame toward its link. That FILL, DIGEST and capture transfers moved their bytes in their event is the
model's choice (log 5), and the transfers of a piece waiting one at a time its reading (log 6). -/
def Obligations.BufferPortIsGrantedInTurn : Prop :=
  (∀ s : State, .fill ∈ s.win.waiting →
    exec .bufferTransferGrant s = .next { s with win.waiting := s.win.waiting.erase .fill }) ∧
  (∀ (s : State) (n m : Fin 14) (t : Transfer), .fill ∉ s.win.waiting → m = s.win.ring + 1 + n →
    (∀ d : Fin 14, d < n → ∀ u ∈ s.win.waiting, u.ringMember ≠ some (s.win.ring + 1 + d)) →
    s.win.waiting.find? (fun u => u.ringMember == some m) = some t →
    (t = .digest ∨ t = .capture → exec .bufferTransferGrant s =
      .next { s with win.waiting := s.win.waiting.erase t, win.ring := m }) ∧
    (∀ k g f p, t = .drain k → (s.link k).path = some g → g.source = some (f, p) → p.stamped = false →
      exec .bufferTransferGrant s = .next
        (let step := s.win.frames.read (65536 * f + 512 * p.first + 4096 * g.moved)
          (min 4096 (512 * p.count - 4096 * g.moved))
        let g' := { g with moved := g.moved + 1, data := g.data ++ step }
        { s with
          win.ring := m
          win.waiting := s.win.waiting.erase t ++ (if g'.moved < g'.transfers then [.drain k] else [])
          links := s.links.set k { s.link k with path := some g' } })))

/-- The build of a stamped piece of chunk c in the link's scratch area, area k at 32,768 k (R129). While the piece is
copied, a STAMP transfer puts the next 4,096 bytes or less of it from the frame into the area and moves nothing to the
link; with the last of them each site of the chunk within the piece has its bytes replaced by the slot's entry, at its
place; then the transfers read the area toward the link. Buffer memory stays. That the stamps are written with the
last copying transfer, and the transfers wait one at a time, is the model's (logs 5, 6). -/
def Obligations.StampedPiecesAreBuiltInScratch : Prop :=
  ∀ (s : State) (n : Fin 14) (k : LinkIx) (g : Grant) (f : Nat) (p : Piece), s.memoryWf → .fill ∉ s.win.waiting →
    1 = s.win.ring + 1 + n →
    (∀ d : Fin 14, d < n → ∀ u ∈ s.win.waiting, u.ringMember ≠ some (s.win.ring + 1 + d)) →
    s.win.waiting.find? (fun u => u.ringMember == some 1) = some (.stamp k) →
    (s.link k).path = some g → g.source = some (f, p) → p.stamped = true →
    let c := g.work.chunk
    let total := (512 * p.count + 4095) / 4096
    let start := 4096 * (if g.moved < total then g.moved else g.moved - total)
    let len := min 4096 (512 * p.count - start)
    let placed := fun (t : Site) => t.chunk = c ∧ 512 * p.first ≤ t.offset ∧
        t.offset + t.width ≤ 512 * (p.first + p.count)
    ∃ t, exec .bufferTransferGrant s = .next t ∧
      t = { s with win.ring := 1, win.waiting := t.win.waiting, links := t.links, stu.scratch := t.stu.scratch } ∧
      t.win.waiting = s.win.waiting.erase (.stamp k) ++ (if g.moved + 1 < 2 * total then [.stamp k] else []) ∧
      t.links = s.links.set k { s.link k with path := some { g with
        moved := g.moved + 1
        data := g.data ++ (if g.moved < total then [] else s.stu.scratch.read (32768 * k.val + start) len) } } ∧
      (total ≤ g.moved → t.stu.scratch = s.stu.scratch) ∧
      (g.moved < total →
        (∀ a : Nat, (g.moved + 1 < total ∨ ∀ (m : Nat) (q : Site), s.stu.sites[m]? = some q → placed q →
            ¬(32768 * k.val + q.offset ≤ a + 512 * p.first ∧ a + 512 * p.first < 32768 * k.val + q.offset + q.width)) →
          (∀ (m : Nat) (q : Site) bs, s.stu.sites[m]? = some q → placed q → (s.entry g.slot m).bytes? = some bs →
              bs.length ≤ q.width) →
          t.stu.scratch.byte a = if 32768 * k.val + start ≤ a ∧ a < 32768 * k.val + start + len then
            s.win.frames.byte (65536 * f + 512 * p.first + (a - 32768 * k.val)) else s.stu.scratch.byte a) ∧
        (g.moved + 1 = total → ∀ (m : Nat) (q : Site) (bs : List Byte) (d : Nat), s.stu.sites[m]? = some q → placed q →
          (s.entry g.slot m).bytes? = some bs → bs.length = q.width → d < q.width →
          (∀ (m' : Nat) (q' : Site) bs', m' ≠ m → s.stu.sites[m']? = some q' → placed q' →
              (s.entry g.slot m').bytes? = some bs' →
            bs'.length ≤ q'.width ∧ (q'.offset + q'.width ≤ q.offset ∨ q.offset + q.width ≤ q'.offset)) →
          t.stu.scratch.byte (32768 * k.val + (q.offset - 512 * p.first) + d) = bs.getD d 0))

/-- COMMAND_SEND (R91, R97, R99, R101, R143, R147, R190): once the bytes are read, a tag is allocated and BOUND with
the slot, the kind and the deadline, the message goes out, the entry takes the tag and the path is idle; before that,
or without a FREE tag or a grant, nothing. A first send adds an entry and moves the issue cursor's record, a verify
read's the verify cursor; a rewrite piece adds one and moves its record on; a reissue fills the entry that was waiting
for it and a piece of an image counts as retried. The test for a stall (R130) is stated by itself; with no site in the
chunk it does nothing. R91: the tag allocated next is FREE, the first FREE one upward from the tag after the last
allocated, wrapping; there is none exactly when no tag of the link is FREE. The event ends with the
test for HELD (R109, log 12). That what was granted is sent whatever has
come since is the model's choice (log 24). -/
def Obligations.CommandsAreSentWithATag : Prop :=
  (∀ (s : State) (k : LinkIx), (s.link k).path = none ∨ (s.link k).nextTag = none ∨
     (∃ g, (s.link k).path = some g ∧ g.moved < g.transfers) → exec (.commandSend k) s = .next s) ∧
  (∀ (s : State) (x : Session) (k : LinkIx) (g : Grant) (tag : LinkTag), s.session = some x →
     (s.link k).path = some g → (s.link k).nextTag = some tag → g.transfers ≤ g.moved →
     let sl := s.slot g.slot
     let sent := fun (kind : CmdKind) (code : Byte) (fields : List Byte) =>
       s.setLink k { (s.link k).setTag tag (.bound ⟨g.slot, kind, s.now + x.tune.commandTimeout⟩) with
         lastTag := tag, path := none, sent := some (code :: tag :: BitVec.ofNat 8 (socketOf g.slot).val :: fields) }
     let added := sl.inFlight ++ [⟨g.work, some tag, g.retries⟩]
     let sector := fun j => j * (sl.capacity.getD 0 - 1) / (x.probeCount - 1)
     (g.work = .size → g.origin = .first →
       exec (.commandSend k) s =
       .next ((sent .size 0x12#8 []).setSlot g.slot { sl with inFlight := added }).testHeld) ∧
     (∀ j, g.work = .probeWrite j → g.origin = .first → exec (.commandSend k) s = .next
       ((sent .write 0x10#8 (leBytes 8 (sector j) ++ 1#8 :: g.data)).setSlot g.slot { sl with inFlight := added }).testHeld) ∧
     (∀ j, g.work = .probeRead j → g.origin = .first → exec (.commandSend k) s = .next
       ((sent .read 0x11#8 (leBytes 8 (sector j) ++ [1#8])).setSlot g.slot { sl with inFlight := added }).testHeld) ∧
     (∀ c n, g.work = .verify c n →
       (g.origin = .first → exec (.commandSend k) s = .next
         ((sent .read 0x11#8 (leBytes 8 (128 * c) ++ [128#8])).setSlot g.slot
           { sl with inFlight := added, verifyCursor := some (c + 1) }).testHeld) ∧
       (∀ pre e post, g.origin = .waiting → sl.inFlight = pre ++ e :: post → e.tag = none → e.work = g.work →
         (∀ d ∈ pre, d.tag ≠ none ∨ d.work ≠ g.work) → exec (.commandSend k) s = .next
         ((sent .read 0x11#8 (leBytes 8 (128 * c) ++ [128#8])).setSlot g.slot
           { sl with inFlight := pre ++ { e with tag := some tag } :: post }).testHeld)) ∧
     (∀ c p n f q, g.work = .piece c p n → g.source = some (f, q) →
       let u := sent .write 0x10#8 (leBytes 8 (128 * c + q.first) ++ BitVec.ofNat 8 q.count :: g.data)
       let last := p + 1 = (s.pieces c).length
       (g.origin = .first → p + 1 ≠ pristineCount (s.pieces c) ∨ (∀ t ∈ s.stu.sites, t.chunk ≠ c) →
         exec (.commandSend k) s = .next (u.setSlot g.slot
           (if last then { sl with inFlight := added, issueCursor := some (c + 1), piecesSent := 0 }
           else { sl with inFlight := added, piecesSent := p + 1 })).testHeld) ∧
       (∀ w ws, g.origin = .rewrite → sl.rewrites = w :: ws → exec (.commandSend k) s = .next (u.setSlot g.slot
         { sl with inFlight := added, rewrites := if last then ws else { w with nextPiece := p + 1 } :: ws }).testHeld) ∧
       (∀ pre e post, g.origin = .waiting → sl.inFlight = pre ++ e :: post → e.tag = none → e.work = g.work →
         (∀ d ∈ pre, d.tag ≠ none ∨ d.work ≠ g.work) → exec (.commandSend k) s = .next (u.setSlot g.slot
           { sl with
             inFlight := pre ++ { e with tag := some tag } :: post
             counters := sl.counters.set 1 sl.counters[1].bump }).testHeld))) ∧
  (∀ l : Link,
     (∀ t, l.nextTag = some t → l.tag t = .free ∧
       ∀ d : LinkTag, d < t - (l.lastTag + 1) → l.tag (l.lastTag + 1 + d) ≠ .free) ∧
     (l.nextTag = none ↔ ∀ t, l.tag t ≠ .free))

/-- R130, R127: the first send of a chunk's last pristine piece attempts the chunk's GUARD entries and then tests its
entries, before the test for HELD (R109, log 12): with every one RENDERED or SUPPLIED nothing more; else the slot's
stall record names the lowest site DEFERRED, the chunk and the deadline, one stamp wait on, and STAMP-STALLED is
raised. The attempts change no entry but the GUARD entries of the chunk, each as its own attempt would. A rewrite
piece and a reissue make no test. -/
def Obligations.StallsBeginAtTheLastPristinePiece : Prop :=
  (∀ (s : State) (x : Session) (k : LinkIx) (g : Grant) (tag : LinkTag) (c p n f : Nat) (q : Piece), s.session = some x →
     (s.link k).path = some g → (s.link k).nextTag = some tag → g.transfers ≤ g.moved →
     g.work = .piece c p n → g.origin = .first → g.source = some (f, q) → p + 1 = pristineCount (s.pieces c) →
     p + 1 < (s.pieces c).length →
     let sl := s.slot g.slot
     exec (.commandSend k) s = .next (State.stallTest
       ((s.setLink k { (s.link k).setTag tag (.bound ⟨g.slot, .write, s.now + x.tune.commandTimeout⟩) with
         lastTag := tag, path := none
         sent := some (0x10#8 :: tag :: BitVec.ofNat 8 (socketOf g.slot).val ::
           (leBytes 8 (128 * c + q.first) ++ BitVec.ofNat 8 q.count :: g.data)) }).setSlot g.slot
         { sl with inFlight := sl.inFlight ++ [⟨g.work, some tag, g.retries⟩], piecesSent := p + 1 }) g.slot c).testHeld) ∧
  (∀ (s : State) (i : SlotIx) (c : Nat), let u := s.attemptGuards i c
     (u.chunkReady i c = true → s.stallTest i c = u) ∧
     (∀ n, u.chunkReady i c = false → u.lowestDeferred i c = some n → s.stallTest i c =
       (u.setSlot i { s.slot i with stall := some ⟨n, c, s.now + 1000 * s.ses.tune.stampWait⟩ }).raise
         (.stampStalled i ((s.slot i).ordinal.getD 0) n c)) ∧
     (s.chunkReady i c = true ↔
       ∀ n t, s.stu.sites[n]? = some t → t.chunk = c → (s.entry i n).bytes? ≠ none) ∧
     (∀ n, s.lowestDeferred i c = some n ↔
       (∃ t, s.stu.sites[n]? = some t ∧ t.chunk = c) ∧ s.entry i n = .deferred ∧
       ∀ m t, m < n → s.stu.sites[m]? = some t → t.chunk = c → s.entry i m ≠ .deferred) ∧
     u = { s with stu := { s.stu with entries := u.stu.entries } } ∧
     (∀ j m, j ≠ i → u.entry j m = s.entry j m) ∧
     (∀ m, (∀ t r, s.stu.sites[m]? = some t → t.chunk = c → t.kind ≠ .guard r) → u.entry i m = s.entry i m) ∧
     (∀ m t r, s.stu.sites[m]? = some t → t.chunk = c → t.kind = .guard r →
       (∀ g m' t' r', s.stu.regions[r]? = some g → s.stu.sites[m']? = some t' → t'.kind = .guard r' → m' ≠ m →
         t'.inside g = false) → u.entry i m = (s.attemptGuard i m).entry i m))

/-- R93, R87: an answer on a DOWN link changes nothing; on a FREE tag it is a late reply; on a LAPSED tag it frees
the tag and is late; on a busy tag of another kind it is late and leaves the tag; on an ABANDONED tag, but for GONE,
and on an ORPHANED tag it frees the tag and does no more. -/
def Obligations.LateAnswersAreDiscarded : Prop :=
  ∀ (s : State) (k : LinkIx) (tag : LinkTag) (status : Byte) (data : List Byte) (c : Instr) (kind : CmdKind),
    (c = .writeAck k tag status ∧ kind = .write) ∨ (c = .capacity k tag status data ∧ kind = .size) ∨
      (c = .readData k tag status data ∧ kind = .read) →
    let late := s.ncu.counters.set 7 s.ncu.counters[7].bump
    let freed := (s.link k).setTag tag .free
    ((s.link k).up = false → exec c s = .next s) ∧
    ((s.link k).up = true →
      ((s.link k).tag tag = .free → exec c s = .next { s with ncu.counters := late }) ∧
      ((s.link k).tag tag = .lapsed → exec c s = .next
        { s.setLink k { freed with lapsed := (s.link k).lapsed - 1 } with ncu.counters := late }) ∧
      (∀ b, (s.link k).tag tag = .bound b ∨ (s.link k).tag tag = .abandoned b ∨ (s.link k).tag tag = .orphaned b →
        b.kind ≠ kind → exec c s = .next { s with ncu.counters := late }) ∧
      (∀ b, (s.link k).tag tag = .abandoned b → b.kind = kind → status ≠ 4 →
        exec c s = .next (s.setLink k freed)) ∧
      (∀ b, (s.link k).tag tag = .orphaned b → b.kind = kind → exec c s = .next (s.setLink k freed)))

/-- R64, R93: a BOUND answer with status GONE takes its slot to EMPTY, with REMOVED-EARLY for an enrolled slot, but
for an enrolled slot in FAULTED, where R18 alone acts, whatever the answer's status: the tag is freed, the entry
leaves the list and gives up its place, nothing is counted and no trouble added, and the event closes with the test
for HELD. GONE on an ABANDONED tag frees it and takes the slot to EMPTY with the outcome it holds kept (R93); that a
detached slot, which holds none, takes REMOVED-EARLY as its state gives (R159) is the model's reading (log 38). The
pending that a LIVE slot owed is released, with one retirement (R32, R34). -/
def Obligations.GoneEmptiesTheSlot : Prop :=
  (∀ (s : State) (x : Session) (k : LinkIx) (tag : LinkTag) (b : Busy) (e : Entry) (status : Byte) (data : List Byte)
    (c : Instr), s.Answers k tag b e → s.session = some x → (s.slot b.slot).state ≠ .empty →
    (c = .writeAck k tag status ∧ b.kind = .write) ∨ (c = .capacity k tag status data ∧ b.kind = .size) ∨
      (c = .readData k tag status data ∧ b.kind = .read) →
    (x.phase = .faulted → (s.slot b.slot).state.enrolled = true → exec c s = .next
      ((s.setLink k ((s.link k).setTag tag .free)).setSlot b.slot
        (((s.slot b.slot).dropEntry tag).givePlaces 1)).close) ∧
    (status = 4 → x.phase ≠ .faulted ∨ (s.slot b.slot).state.enrolled = false → ∃ t, exec c s = .next t ∧
      (t.slot b.slot).state = .empty ∧
      (t.slot b.slot).inFlight = [] ∧ (t.link k).tag tag = .free ∧
      (t.slot b.slot).outcome = (if (s.slot b.slot).state.enrolled then
        some ((s.slot b.slot).outcome.getD ⟨.removedEarly, none, none, none⟩) else (s.slot b.slot).outcome) ∧
      t.win.records = retired (if (s.slot b.slot).state = .live then
        lowerOwed ((s.slot b.slot).owes x.nextChunk) s.win.records else s.win.records) ∧
      Elsewhere (s.setLink k ((s.link k).setTag tag .free)) t (· = b.slot))) ∧
  (∀ (s : State) (k : LinkIx) (tag : LinkTag) (b : Busy) (data : List Byte) (c : Instr), (s.link k).up = true →
    (s.link k).tag tag = .abandoned b → (s.slot b.slot).state ≠ .empty →
    (c = .writeAck k tag 4 ∧ b.kind = .write) ∨ (c = .capacity k tag 4 data ∧ b.kind = .size) ∨
      (c = .readData k tag 4 data ∧ b.kind = .read) →
    ∃ t, exec c s = .next t ∧ (t.slot b.slot).state = .empty ∧ (t.slot b.slot).inFlight = [] ∧
      (t.link k).tag tag = .free ∧ (t.slot b.slot).outcome = (if (s.slot b.slot).state.enrolled then
        some ((s.slot b.slot).outcome.getD ⟨.removedEarly, none, none, none⟩) else (s.slot b.slot).outcome) ∧
      (t.slot b.slot).changeMark = true ∧
      t.win.records = retired (if (s.slot b.slot).state = .live then
        lowerOwed ((s.slot b.slot).owes (s.head.getD 0)) s.win.records else s.win.records) ∧
      Elsewhere (s.setLink k ((s.link k).setTag tag .free)) t (· = b.slot))

/-- WRITE_ACK OK for a piece (R102, R140): the tag FREE, a piece written counted for the slot. While the chunk is not
yet written the entry leaves the list and gives up its place. Once it is, under INLINE a waiting READ takes the
entry's place; under OFF and TRAILING the chunk is acknowledged. Each closes with retirement, a pass end, flow and the
test for HELD (log 12). -/
def Obligations.PieceAcknowledgedOk : Prop :=
  ∀ (s : State) (x : Session) (k : LinkIx) (tag : LinkTag) (b : Busy) (e : Entry) (c p n : Nat),
    s.Answers k tag b e → s.session = some x → x.phase = .running → e.work = .piece c p n →
    let sl := s.slot b.slot
    let u := s.setLink k ((s.link k).setTag tag .free)
    let counted := sl.counters.set 0 sl.counters[0].bump
    ((sl.dropEntry tag).written c = false → exec (.writeAck k tag 0) s = .next (u.setSlot b.slot
      { (sl.dropEntry tag).givePlaces 1 with counters := counted }).close) ∧
    ((sl.dropEntry tag).written c = true → x.verify = .inline → exec (.writeAck k tag 0) s = .next (u.setSlot b.slot
      { sl.putEntry tag ⟨.verify c n, none, 0⟩ with counters := counted }).close) ∧
    ((sl.dropEntry tag).written c = true → x.verify ≠ .inline → exec (.writeAck k tag 0) s = .next
      (((u.setSlot b.slot { (sl.dropEntry tag).givePlaces 1 with counters := counted }).acknowledge b.slot c).close))

/-- R103, R13, R14: acknowledgement of a chunk, at the ack point or above it, lowers the chunk's count by one, and
moves the ack point and the acknowledged-ahead set as below; nothing else of the slot changes while the ack point is
not at the span's end. There the span is used up, also where the ack point has passed over the set: the slot goes on
to the deferred span in WAITING, with no piece of its first chunk sent (R204), else to VERIFYING at chunk 0 under
TRAILING, else to DONE with PASSED. R103: acknowledging the chunk at the ack point moves it to the first chunk above
that is not in the acknowledged-ahead set, kept ascending above the ack point, and leaves in the set what lies above;
acknowledging a higher chunk adds it to the set. That the span goes on within the acknowledgement, before a pass end,
is the model's reading (log 10). -/
def Obligations.AcknowledgementAdvancesTheSpan : Prop :=
  (∀ (s : State) (x : Session) (i : SlotIx) (c : Nat) (sp : Span), s.session = some x → (s.slot i).state = .live →
     (s.slot i).span = some sp →
     (s.acknowledge i c).win.records = lowerOwed (fun d => d == c) s.win.records ∧
     let sl := (s.slot i).acknowledged c
     let v := (s.acknowledge i c).slot i
     sl = { s.slot i with ackPoint := sl.ackPoint, ahead := sl.ahead } ∧
     (∀ j, j ≠ i → (s.acknowledge i c).slot j = s.slot j) ∧
     (sl.ackPoint ≠ some sp.hi →
       s.acknowledge i c = { s.setSlot i sl with win.records := lowerOwed (fun d => d == c) s.win.records }) ∧
     (∀ d, sl.ackPoint = some sp.hi → (s.slot i).deferred = some d → v.state = .waiting ∧ v.span = some d ∧
       v.deferred = none ∧ v.ackPoint = some d.lo ∧ v.issueCursor = some d.lo ∧ v.rostered = false ∧ v.ahead = [] ∧
       v.piecesSent = 0 ∧ v.pinCount = 0 ∧ v.clearCount = 0) ∧
     (sl.ackPoint = some sp.hi → (s.slot i).deferred = none → x.verify = .trailing →
       v.state = .verifying ∧ v.verifyCursor = some 0 ∧ v.span = some sp ∧ v.ackPoint = some sp.hi) ∧
     (sl.ackPoint = some sp.hi → (s.slot i).deferred = none → x.verify ≠ .trailing →
       v.state = .done ∧ v.outcome = some ((s.slot i).outcome.getD ⟨.passed, none, none, none⟩) ∧ v.span = some sp)) ∧
  (∀ (sl : Slot) (a c : Nat), sl.ackPoint = some a → sl.ahead.Pairwise (· < ·) → (∀ d ∈ sl.ahead, a < d) →
     (c = a → ∃ p, (sl.acknowledged c).ackPoint = some p ∧ a < p ∧ (∀ d, a < d → d < p → d ∈ sl.ahead) ∧
       p ∉ sl.ahead ∧ ∀ d, d ∈ (sl.acknowledged c).ahead ↔ d ∈ sl.ahead ∧ p < d) ∧
     (a < c → (sl.acknowledged c).ackPoint = some a ∧ (sl.acknowledged c).ahead.Pairwise (· < ·) ∧
       ∀ d, d ∈ (sl.acknowledged c).ahead ↔ d = c ∨ d ∈ sl.ahead))

/-- WRITE_ACK of an image piece with an error (R104, R105, R163 to R165, R191): MEDIUM-ERROR, or a code above 4,
counts a medium error and raises trouble by 4, NOT-READY raises it by 2; at the eject threshold the slot is FAILED
with TROUBLE, at the throttle threshold it is throttled, and below the first the entry waits in its place with retries
one higher or, at the limit, the slot is FAILED with WRITE-FAILED; PROTECTED is FAILED with WRITE-PROTECTED. READ_DATA
of a verify read with an error (R145): MEDIUM-ERROR, PROTECTED, a code above 4 and OK with a length other than 65,536
count a medium error and raise trouble by 4, NOT-READY by 2; at the limit the slot is FAILED with READ-FAILED and the
chunk. That the number of retries rises when the entry becomes waiting is the model's reading (log 21). -/
def Obligations.PieceErrorsAreRetried : Prop :=
  (∀ (s : State) (x : Session) (k : LinkIx) (tag : LinkTag) (b : Busy) (e : Entry) (c p n : Nat) (status : Byte),
    s.Answers k tag b e → s.session = some x → x.phase = .running → e.work = .piece c p n →
    let sl := s.slot b.slot
    let u := s.setLink k ((s.link k).setTag tag .free)
    let counted := u.setSlot b.slot { sl with counters := sl.counters.set 3 sl.counters[3].bump }
    let decides := fun (v : State) (w : Nat) => RetryDecision v x b.slot w e.retries
      (fun y => y.putEntry tag ⟨e.work, none, e.retries + 1⟩) ⟨.writeFailed, some c, none, none⟩
      (exec (.writeAck k tag status) s)
    (status = 1 ∨ 4 < status.toNat → decides counted 4) ∧ (status = 2 → decides u 2) ∧
    (status = 3 → ∃ v, exec (.writeAck k tag status) s = .next v.close ∧
      Failed u v b.slot ⟨.writeProtected, some c, none, none⟩)) ∧
  (∀ (s : State) (x : Session) (k : LinkIx) (tag : LinkTag) (b : Busy) (e : Entry) (c n : Nat) (status : Byte)
    (data : List Byte), s.Answers k tag b e → s.session = some x → x.phase = .running → e.work = .verify c n →
    let sl := s.slot b.slot
    let u := s.setLink k ((s.link k).setTag tag .free)
    let counted := u.setSlot b.slot { sl with counters := sl.counters.set 3 sl.counters[3].bump }
    let decides := fun (v : State) (w : Nat) => RetryDecision v x b.slot w e.retries
      (fun y => y.putEntry tag ⟨e.work, none, e.retries + 1⟩) ⟨.readFailed, some c, none, none⟩
      (exec (.readData k tag status data) s)
    (status = 1 ∨ status = 3 ∨ 4 < status.toNat ∨ (status = 0 ∧ data.length ≠ 65536) → decides counted 4) ∧
    (status = 2 → decides u 2))

/-- CAPACITY (R70, R71, R192): an OK answer of 8 bytes records the capacity; below 128 sectors a chunk the slot is
FAILED with TOO-SMALL; under PROBE it is PROBING with PROBE-WRITE 0; under SIZE-ONLY it enters READY with the capacity
measured (R77: in RUNNING it is enrolled at once). An OK answer of another length is a medium error: trouble 4 higher,
ejected or throttled by R164, and issued again below the retry limit or FAILED with SIZE-FAILED at it. That the number
of retries rises when the command is due again is the model's reading (log 21). -/
def Obligations.CapacityDecidesSizing : Prop :=
  ∀ (s : State) (x : Session) (k : LinkIx) (tag : LinkTag) (b : Busy) (e : Entry) (q : Qualification) (data : List Byte),
    s.Answers k tag b e → s.session = some x → e.work = .size →
    (s.slot b.slot).state = .sizing → (s.slot b.slot).qual = some q →
    let sl := s.slot b.slot
    let u := s.setLink k ((s.link k).setTag tag .free)
    (data.length = 8 → leValue data < 128 * x.imageLength →
      ∃ v, exec (.capacity k tag 0 data) s = .next v.close ∧
        Failed (u.setSlot b.slot { sl.dropEntry tag with capacity := some (leValue data) }) v b.slot
          ⟨.tooSmall, none, none, none⟩) ∧
    (data.length = 8 → 128 * x.imageLength ≤ leValue data → x.qualify = .probe →
      exec (.capacity k tag 0 data) s = .next ((u.setSlot b.slot { sl.dropEntry tag with
        capacity := some (leValue data), qual := some ⟨.probeWrite, 0, 0⟩ }).moveSlot b.slot .probing).close) ∧
    (data.length = 8 → 128 * x.imageLength ≤ leValue data → x.qualify = .sizeOnly →
      exec (.capacity k tag 0 data) s = .next ((u.setSlot b.slot { sl.dropEntry tag with
        capacity := some (leValue data) }).enterReady b.slot).close) ∧
    (data.length ≠ 8 → RetryDecision (u.setSlot b.slot { sl.dropEntry tag with
        counters := sl.counters.set 3 sl.counters[3].bump }) x b.slot 4 e.retries
      (fun y => { y with qual := some { q with retries := e.retries + 1 } }) ⟨.sizeFailed, none, none, none⟩
      (exec (.capacity k tag 0 data) s))

/-- The answers and timeouts of qualification commands (R71, R72, R74, R192). An OK probe WRITE goes on to the next
index, or at the last to phase PROBE-READ. MEDIUM-ERROR, a code above 4, PROTECTED to a probe READ and OK with the
wrong length count a medium error and raise trouble by 4, NOT-READY raises it by 2, a timeout by 8 with one timeout
counted; at the eject threshold the slot is FAILED with TROUBLE, at the throttle threshold it is throttled (R164); below
the first the command is issued again with retries one higher below the limit, and at the limit the slot is FAILED with
SIZE-FAILED or, naming the probe, PROBE-FAILED. PROTECTED to a SIZE or a probe WRITE is FAILED with WRITE-PROTECTED.
That the number of retries rises when the command is due again is the model's reading (log 21), and that an expiry moves
the timebase to its deadline its choice (log 2). -/
def Obligations.QualificationAnswersAndTimeouts : Prop :=
  ∀ (s : State) (x : Session) (k : LinkIx) (tag : LinkTag) (b : Busy) (e : Entry) (q : Qualification) (j : Nat)
    (status : Byte) (data : List Byte) (c : Instr), s.Answers k tag b e → s.session = some x →
    (s.slot b.slot).state = .sizing ∨ (s.slot b.slot).state = .probing → (s.slot b.slot).qual = some q →
    (c = .capacity k tag status data ∧ e.work = .size) ∨ (c = .writeAck k tag status ∧ e.work = .probeWrite j) ∨
      (c = .readData k tag status data ∧ e.work = .probeRead j) →
    let sl := s.slot b.slot
    let u := s.setLink k ((s.link k).setTag tag .free)
    let late := { s.setLink k { (s.link k).setTag tag .lapsed with lapsed := (s.link k).lapsed + 1 } with
      now := max s.now b.deadline, ncu.counters := s.ncu.counters.set 8 s.ncu.counters[8].bump }
    let probe := if e.work = .size then none else some j
    let medium := status = 1 ∨ 4 < status.toNat ∨ (status = 3 ∧ e.work = .probeRead j) ∨
      (status = 0 ∧ ((e.work = .size ∧ data.length ≠ 8) ∨ (e.work = .probeRead j ∧ data.length ≠ 512)))
    let decides := fun (v : State) (cs : Vector Counter 5) (w : Nat) (c : Instr) =>
      RetryDecision (v.setSlot b.slot { sl.dropEntry tag with counters := cs }) x b.slot w e.retries
        (fun y => { y with qual := some { q with retries := e.retries + 1 } })
        ⟨if e.work = .size then .sizeFailed else .probeFailed, none, probe, none⟩ (exec c s)
    (e.work = .probeWrite j → status = 0 → exec c s = .next (u.setSlot b.slot { sl.dropEntry tag with
      qual := some (if j + 1 < x.probeCount then ⟨.probeWrite, j + 1, 0⟩ else ⟨.probeRead, 0, 0⟩) }).close) ∧
    (medium → decides u (sl.counters.set 3 sl.counters[3].bump) 4 c) ∧
    (status = 2 → decides u sl.counters 2 c) ∧
    (status = 3 → e.work ≠ .probeRead j → ∃ v, exec c s = .next v.close ∧
      Failed (u.setSlot b.slot (sl.dropEntry tag)) v b.slot ⟨.writeProtected, none, probe, none⟩) ∧
    ((s.link k).lapsed + 1 < 192 → decides late (sl.counters.set 2 sl.counters[2].bump) 8 (.tagLapse k tag))

/-- READ_DATA for a probe (R73, R75): a sector that equals the probe's content goes on to the next probe or, at the
last, to READY (R77: in RUNNING it is enrolled at once); one that equals another probe's is ALIASED; any other is
PROBE-FAILED. -/
def Obligations.ProbeReadsDecide : Prop :=
  ∀ (s : State) (x : Session) (k : LinkIx) (tag : LinkTag) (b : Busy) (e : Entry) (j cap : Nat) (data : List Byte),
    s.Answers k tag b e → s.session = some x → e.work = .probeRead j →
    (s.slot b.slot).state = .probing → (s.slot b.slot).capacity = some cap → data.length = 512 →
    let sl := s.slot b.slot
    let u := s.setLink k ((s.link k).setTag tag .free)
    let content := fun n => probeData x.sessionTag b.slot cap x.probeCount n
    let fails := fun (o : Outcome) => ∃ v, exec (.readData k tag 0 data) s = .next v.close ∧
      Failed (u.setSlot b.slot (sl.dropEntry tag)) v b.slot o
    (data = content j → j + 1 < x.probeCount → exec (.readData k tag 0 data) s = .next (u.setSlot b.slot
      { sl.dropEntry tag with qual := some ⟨.probeRead, j + 1, 0⟩ }).close) ∧
    (data = content j → j + 1 = x.probeCount → exec (.readData k tag 0 data) s = .next ((u.setSlot b.slot
      (sl.dropEntry tag)).enterReady b.slot).close) ∧
    (∀ n, data ≠ content j → n < x.probeCount → data = content n → (∀ m, m < n → data ≠ content m) →
      fails ⟨.aliased, none, some j, some n⟩) ∧
    (data ≠ content j → (∀ m, m < x.probeCount → data ≠ content m) → fails ⟨.probeFailed, none, some j, none⟩)

/-- READ_DATA for a verify read (R139, R141, R142, R148): an inline match acknowledges the chunk; an inline mismatch is
counted and raises trouble by 6, with the ejection and throttling of R164, and below the retry limit queues a rewrite
one higher, at it fails the slot with VERIFY-MISMATCH; a trailing mismatch is counted and fails it at once; the last
trailing match ends in DONE with PASSED, another only leaves the list. Each closes with retirement, a pass end, flow
and the test for HELD (R144, log 12). That a rewrite number above the limit, after a tune, fails the slot as one at it
does is the model's reading (log 22). What a comparison with an absent operand answers is the model's choice (log 18),
and that every compared trailing read asks for one DIGEST transfer (log 31). -/
def Obligations.VerifyReadsCompare : Prop :=
  ∀ (s : State) (x : Session) (k : LinkIx) (tag : LinkTag) (b : Busy) (e : Entry) (c n : Nat) (data : List Byte),
    s.Answers k tag b e → s.session = some x → x.phase = .running → e.work = .verify c n → data.length = 65536 →
    let sl := s.slot b.slot
    let gone := (sl.dropEntry tag).givePlaces 1
    let u := s.setLink k ((s.link k).setTag tag .free)
    let read : State := { u with win.waiting := s.win.waiting ++ [Transfer.digest] }
    let mismatched := { gone with counters := sl.counters.set 4 sl.counters[4].bump }
    let out := exec (.readData k tag 0 data) s
    (sl.state = .live → s.compareChunk b.slot c data = true →
      out = .next ((u.setSlot b.slot gone).acknowledge b.slot c).close) ∧
    (sl.state = .live → s.compareChunk b.slot c data = false →
      RetryDecision (u.setSlot b.slot mismatched) x b.slot 6 n
        (fun y => { y with rewrites := y.rewrites ++ [⟨c, 0, n + 1⟩] }) ⟨.verifyMismatch, some c, none, none⟩ out) ∧
    (sl.state = .verifying → s.compareChunk b.slot c data = false →
      ∃ v, out = .next v.close ∧
        Failed (read.setSlot b.slot mismatched) v b.slot ⟨.verifyMismatch, some c, none, none⟩) ∧
    (sl.state = .verifying → s.compareChunk b.slot c data = true →
      (sl.verifyCursor = some x.imageLength → gone.inFlight = [] →
        out = .next ((read.setSlot b.slot { gone with
          outcome := some (sl.outcome.getD ⟨.passed, none, none, none⟩) }).moveSlot b.slot .done).close) ∧
      (sl.verifyCursor ≠ some x.imageLength ∨ gone.inFlight ≠ [] → out = .next (read.setSlot b.slot gone).close))

/-- R139: a read-back matches exactly when its bytes at every site of the chunk are the slot's stamp and the bytes with
each site's pristine bytes put back have the chunk's CRC, whatever the number of sites. R41: that CRC is the resident
record's for a slot that is not VERIFYING, and the digest entry for one that is. That an absent stamp entry is a
mismatch, and that a chunk without a resident record gives no CRC, is the model's choice (log 18). -/
def Obligations.ComparisonChecksSitesAndCrc : Prop :=
  ∀ (s : State) (i : SlotIx) (c : Nat) (data : List Byte),
    (∀ n t, s.stu.sites[n]? = some t → t.chunk = c →
      (s.entry i n).bytes? ≠ some ((data.drop t.offset).take t.width) → s.compareChunk i c data = false) ∧
    ((∀ t ∈ s.stu.sites, t.chunk ≠ c) →
      (s.compareChunk i c data = true ↔ s.referenceCrc i c = some (crc data))) ∧
    (∀ image : List Byte, image.length = data.length →
      (∀ n t, s.stu.sites[n]? = some t → t.chunk = c → t.offset + t.width ≤ data.length ∧
        (s.entry i n).bytes? = some ((data.drop t.offset).take t.width) ∧
        t.pristine = some ((image.drop t.offset).take t.width)) →
      (∀ b, (∀ t ∈ s.stu.sites, t.chunk = c → ¬(t.offset ≤ b ∧ b < t.offset + t.width)) → image[b]? = data[b]?) →
      (s.compareChunk i c data = true ↔ s.referenceCrc i c = some (crc image))) ∧
    ((s.slot i).state = .verifying → s.referenceCrc i c = digestEntry s.win.digest c) ∧
    ((s.slot i).state ≠ .verifying →
      (∀ r y, s.record c = some r → r.resident = some y → s.referenceCrc i c = some y.crc) ∧
      ((∀ r y, s.record c = some r → r.resident ≠ some y) → s.referenceCrc i c = none))

/-- TAG_LAPSE (R92, R106, R146, R89): a busy tag is LAPSED, the link's lapsed count and engine counter 9 are one
higher; for an ABANDONED or ORPHANED tag nothing more, in NONE as well; for a BOUND image piece or verify read one
timeout is counted for the slot and trouble is 8 higher, with the ejection and throttling of R164, and below the retry
limit the entry waits in its place with retries one higher, at it the slot is FAILED with WRITE-FAILED or READ-FAILED
and the chunk; in FAULTED the entry leaves the list. Each closes with retirement, a pass end, flow and the test for
HELD. At a count of 192 an UP link is lost: its slots EMPTY, the pending its LIVE slots owe released and one
retirement after it, and then LINK-LOST raised with cause LAPSED-TAGS (R83, R90). That an expiry moves the timebase to
its deadline is the model's choice (log 2), and the retries rising at once its reading (log 21). -/
def Obligations.TagLapseTimesOut : Prop :=
  ∀ (s : State) (k : LinkIx) (tag : LinkTag) (b : Busy),
    let sl := s.slot b.slot
    let l := s.link k
    let u := { s.setLink k { l.setTag tag .lapsed with lapsed := l.lapsed + 1 } with
      now := max s.now b.deadline, ncu.counters := s.ncu.counters.set 8 s.ncu.counters[8].bump }
    (l.lapsed + 1 < 192 → l.tag tag = .abandoned b ∨ l.tag tag = .orphaned b →
      exec (.tagLapse k tag) s = .next u.close) ∧
    (∀ x e c, s.session = some x → l.lapsed + 1 < 192 → l.tag tag = .bound b → x.phase = .running →
      sl.entry tag = some e →
      (∃ p n, e.work = .piece c p n) ∨ (∃ n, e.work = .verify c n) →
      RetryDecision (u.setSlot b.slot { sl with counters := sl.counters.set 2 sl.counters[2].bump }) x b.slot 8 e.retries
        (fun y => y.putEntry tag ⟨e.work, none, e.retries + 1⟩)
        ⟨if e.work.kind = .write then .writeFailed else .readFailed, some c, none, none⟩ (exec (.tagLapse k tag) s)) ∧
    (∀ x, s.session = some x → l.lapsed + 1 < 192 → l.tag tag = .bound b → x.phase = .faulted →
      sl.state.enrolled = true →
      exec (.tagLapse k tag) s = .next (u.setSlot b.slot ((sl.dropEntry tag).givePlaces 1)).close) ∧
    (l.up = true → 192 ≤ l.lapsed + 1 → l.tag tag = .bound b ∨ l.tag tag = .abandoned b ∨ l.tag tag = .orphaned b →
      ∃ t, exec (.tagLapse k tag) s = .next t ∧
        t.link k = { l with
          up := false, missed := 0, tags := .replicate 256 .free, lapsed := 0, lastTag := 255, lastSocket := 15
          path := none } ∧
        (∀ i, linkOf i = k → (t.slot i).state = .empty ∧ (t.slot i).lamp = ⟨.off, none⟩) ∧
        (∀ i, linkOf i = k → (s.slot i).state.enrolled = true → l.tag tag ≠ .bound b →
          (t.slot i).outcome = some ((s.slot i).outcome.getD ⟨.linkLost, none, none, none⟩)) ∧
        t.ncu.seen.getLsbD 7 = true ∧
        Elsewhere u t (fun i => linkOf i = k ∨ (l.tag tag = .bound b ∧ i = b.slot)) ∧
        (l.tag tag ≠ .bound b ∨ linkOf b.slot = k →
          t.win.records = retired (s.recordsWithoutLink k) ∧
          ∃ v : State, t = (v.raise (.linkLost k .lapsedTags)).close ∧
            v.win.records = retired (s.recordsWithoutLink k) ∧ Elsewhere u v (fun i => linkOf i = k)))

/-! ## Arithmetic -/

/-- R98: with the stamped-sector mark clear a chunk is one pristine piece of its 128 sectors. With it set the pieces
cover each sector once; a piece is stamped when every sector of it holds a byte of a site of the chunk and pristine when
none does; a piece is as long as its kind allows; the pristine pieces come first, each kind in ascending order. -/
def Obligations.PiecesCoverTheChunk : Prop :=
  ∀ (sites : List Site) (c : Nat),
    piecesOf sites c false = [⟨false, 0, 128⟩] ∧
    (∀ n, sectorStamped sites c n = true ↔ ∃ t ∈ sites, t.chunk = c ∧ ∃ b, t.offset ≤ b ∧ b < t.offset + t.width ∧
      512 * n ≤ b ∧ b < 512 * (n + 1)) ∧
    ((piecesOf sites c true).map Piece.count).sum = 128 ∧
    (∀ n, n < 128 → ∃ p ∈ piecesOf sites c true, p.first ≤ n ∧ n < p.first + p.count ∧
      p.stamped = sectorStamped sites c n) ∧
    (∀ p ∈ piecesOf sites c true, 0 < p.count ∧ p.first + p.count ≤ 128 ∧
      (∀ n, p.first ≤ n → n < p.first + p.count → sectorStamped sites c n = p.stamped) ∧
      (0 < p.first → sectorStamped sites c (p.first - 1) ≠ p.stamped) ∧
      (p.first + p.count < 128 → sectorStamped sites c (p.first + p.count) ≠ p.stamped)) ∧
    (∃ a b, piecesOf sites c true = a ++ b ∧ (∀ p ∈ a, p.stamped = false) ∧ (∀ p ∈ b, p.stamped = true) ∧
      a.Pairwise (fun p q => p.first < q.first) ∧ b.Pairwise (fun p q => p.first < q.first) ∧
      a.length = pristineCount (piecesOf sites c true))

/-- R119 to R125. The value: B + n Δ, or the room from Off rounded down to units of Al. The limit: 256, 10 or 16 to
the width, for ORD-DEC-CHECK 10 to one less. A RENDERED stamp has exactly its site's width; below the limit the value
itself is encoded, at or above it WRAP encodes the remainder, CLAMP the limit less 1, and DEFER renders nothing and
reports the value; a SUPPLIED site is DEFERRED. The encoding, byte i counted from the least significant: the value's
bytes, its decimal or its hexadecimal digits in ASCII, and for ORD-DEC-CHECK the digits above a check digit over them,
of weights 3, 1, 3, 1 from the right. -/
def Obligations.StampsAreRenderedToWidth : Prop :=
  (∀ (t : Site) (n c : Nat) (m : OverflowMode), t.kind.mode = some m → 1 ≤ t.width →
    let v := siteValue t.kind n c
    let limit := siteLimit t.kind t.width
    (∀ bs, (renderSite t n c).1 = .rendered bs → bs.length = t.width) ∧
    (v < limit → renderSite t n c = (.rendered (encodeValue t.kind t.width v), none)) ∧
    (limit ≤ v → m = .wrap → renderSite t n c = (.rendered (encodeValue t.kind t.width (v % limit)), none)) ∧
    (limit ≤ v → m = .clamp → renderSite t n c = (.rendered (encodeValue t.kind t.width (limit - 1)), none)) ∧
    (limit ≤ v → m = .defer → renderSite t n c = (.deferred, some v))) ∧
  (∀ (t : Site) (n c : Nat), t.kind = .supplied → renderSite t n c = (.deferred, none)) ∧
  (∀ (m : OverflowMode) (b d n c w v i : Nat),
    (∀ f, siteValue (.ordinal f m b d) n c = b + n * d) ∧
    (∀ f off al, off ≤ c → 0 < al → let y := siteValue (.capacity f m off al) n c
      y ≤ c - off ∧ c - off < y + al ∧ al ∣ y) ∧
    siteLimit (.ordinal .le m b d) w = 256 ^ w ∧ siteLimit (.ordinal .be m b d) w = 256 ^ w ∧
    siteLimit (.ordinal .dec m b d) w = 10 ^ w ∧ siteLimit (.ordinal .decCheck m b d) (w + 1) = 10 ^ w ∧
    siteLimit (.ordinal .hex m b d) w = 16 ^ w ∧ (∀ f off al, siteLimit (.capacity f m off al) w = 256 ^ w) ∧
    (i < w →
      (encodeValue (.ordinal .le m b d) w v)[i]? = some (BitVec.ofNat 8 (v / 256 ^ i)) ∧
      (encodeValue (.ordinal .be m b d) w v)[w - 1 - i]? = some (BitVec.ofNat 8 (v / 256 ^ i)) ∧
      (∀ off al, (encodeValue (.capacity false m off al) w v)[i]? = some (BitVec.ofNat 8 (v / 256 ^ i)) ∧
        (encodeValue (.capacity true m off al) w v)[w - 1 - i]? = some (BitVec.ofNat 8 (v / 256 ^ i))) ∧
      (encodeValue (.ordinal .dec m b d) w v)[w - 1 - i]? = some (BitVec.ofNat 8 (48 + v / 10 ^ i % 10)) ∧
      (let h := v / 16 ^ i % 16
       (encodeValue (.ordinal .hex m b d) w v)[w - 1 - i]? = some (BitVec.ofNat 8 (if h < 10 then 48 + h else 55 + h))) ∧
      (encodeValue (.ordinal .decCheck m b d) (w + 1) v)[w - 1 - i]? = some (BitVec.ofNat 8 (48 + v / 10 ^ i % 10))) ∧
    (let sum := ((List.range w).map (fun j => (if j % 2 = 0 then 3 else 1) * (v / 10 ^ j % 10))).sum
     (encodeValue (.ordinal .decCheck m b d) (w + 1) v)[w]? = some (BitVec.ofNat 8 (48 + (10 - sum % 10) % 10))))

/-- R126: a guard sum is the sum of each byte outside the GUARD field times its position modulo 255 plus 1, modulo 2
to the 32. R127: writing a stamp over the pristine bytes of a region, outside its GUARD field, changes its guard sum
by exactly what the stamp's differences add, each times its position's weight. The attempt at a GUARD entry:
UNRENDERED, with the base sum present and every other site inside the region RENDERED or SUPPLIED, it becomes RENDERED
with the base sum plus what those sites add, in four bytes little-endian; else it stays, and so does everything else.
-/
def Obligations.GuardSumFollowsStamps : Prop :=
  (∀ (skip : Nat → Bool) (bs : List Byte), guardSum skip 0 bs = BitVec.ofNat 32
    (((List.range bs.length).map (fun i => if skip i then 0 else (bs.getD i 0).toNat * (i % 255 + 1))).sum)) ∧
  (∀ (sites : List Site) (r : Nat) (g : Region) (i : Nat), guardSkip sites r g i = true ↔
    ∃ t ∈ sites, t.kind = .guard r ∧ t.offset ≤ g.start + i ∧ g.start + i < t.offset + t.width) ∧
  (∀ (skip : Nat → Bool) (pre old new post : List Byte), old.length = new.length →
    (∀ i, pre.length ≤ i → i < pre.length + old.length → skip i = false) →
    guardSum skip 0 (pre ++ new ++ post) =
      guardSum skip 0 (pre ++ old ++ post) + guardDelta pre.length new old) ∧
  (∀ (i : Nat) (new old : List Byte), old.length = new.length → guardDelta i new old = BitVec.ofInt 32
    (((List.range new.length).map (fun j =>
      (((new.getD j 0).toNat : Int) - ((old.getD j 0).toNat : Int)) * ((i + j) % 255 + 1 : Nat))).sum)) ∧
  (∀ (s : State) (i : SlotIx) (m r : Nat) (t : Site) (g : Region), m < 32 → s.stu.sites[m]? = some t →
    t.kind = .guard r → s.stu.regions[r]? = some g →
    let others := s.stu.sites.zipIdx.filter (fun p => p.2 != m && p.1.inside g)
    let ready := s.entry i m = .unrendered ∧ g.baseSum ≠ none ∧
      ∀ n q, s.stu.sites[n]? = some q → n ≠ m → q.inside g = true → (s.entry i n).bytes? ≠ none
    (¬ready → s.attemptGuard i m = s) ∧
    (∀ base, ready → g.baseSum = some base →
      s.attemptGuard i m = s.setEntry i m (.rendered (leBytes 4 (base + (others.map (fun p =>
        guardDelta (p.1.offset - g.start) (((s.entry i p.2).bytes?).getD []) (p.1.pristine.getD []))).foldr
          (· + ·) 0).toNat)) ∧
      (s.attemptGuard i m).entry i m = .rendered (leBytes 4 (base + (others.map (fun p =>
        guardDelta (p.1.offset - g.start) (((s.entry i p.2).bytes?).getD []) (p.1.pristine.getD []))).foldr
          (· + ·) 0).toNat)))

/-- R42: the CRC of a message is the inverse of the register that starts at all ones and, for each byte in order, takes
the byte into its low eight bits and shifts right eight times, with EDB88320 hex after a shift that puts out a 1; of no
bytes it is 0, of "123456789" CBF43926 hex; in the IMAGE-MISMATCH notice, the one frame that carries CRCs, it is
written little-endian. R50, R53: carried from segment to segment it is the CRC of the whole. -/
def Obligations.CrcIsCarriedAcrossSegments : Prop :=
  (∀ m : List Byte, crc m = ~~~ m.foldl (fun r b => (fun v : Word32 =>
     if v.getLsbD 0 then (v >>> 1) ^^^ 0xEDB88320#32 else v >>> 1)^[8] (r ^^^ b.setWidth 32)) 0xFFFFFFFF#32) ∧
  crc [] = 0 ∧ crc [0x31, 0x32, 0x33, 0x34, 0x35, 0x36, 0x37, 0x38, 0x39] = 0xCBF43926#32 ∧
  (∀ a b : List Byte, crc (a ++ b) = ~~~ crcRun (crcRun 0xFFFFFFFF#32 a) b) ∧
  (∀ (c n : Nat) (a b : Word32), (Event.imageMismatch c a b n).data = leBytes 4 c ++ leBytes 4 a.toNat ++
     leBytes 4 b.toNat ++ leBytes 2 n) ∧
  (∀ v : Word32, leBytes 4 v.toNat = [v.setWidth 8, (v >>> 8).setWidth 8, (v >>> 16).setWidth 8, (v >>> 24).setWidth 8])
end

