-- ==== Sys2Proof/Laws/State.lean ====
section
/-! SUPPORT. What each record update of the model leaves: one lemma per field per update. -/

namespace Sys2Proof.Machine

/-! ### setSlot -/

@[simp] theorem State.setSlot_pending (s : State) (i : SlotIx) (v : Slot) : (s.setSlot i v).pending = s.pending := rfl
@[simp] theorem State.setSlot_now (s : State) (i : SlotIx) (v : Slot) : (s.setSlot i v).now = s.now := rfl
@[simp] theorem State.setSlot_session (s : State) (i : SlotIx) (v : Slot) : (s.setSlot i v).session = s.session := rfl
@[simp] theorem State.setSlot_intake (s : State) (i : SlotIx) (v : Slot) : (s.setSlot i v).intake = s.intake := rfl
@[simp] theorem State.setSlot_win (s : State) (i : SlotIx) (v : Slot) : (s.setSlot i v).win = s.win := rfl
@[simp] theorem State.setSlot_wsc (s : State) (i : SlotIx) (v : Slot) : (s.setSlot i v).wsc = s.wsc := rfl
@[simp] theorem State.setSlot_links (s : State) (i : SlotIx) (v : Slot) : (s.setSlot i v).links = s.links := rfl
@[simp] theorem State.setSlot_stu (s : State) (i : SlotIx) (v : Slot) : (s.setSlot i v).stu = s.stu := rfl
@[simp] theorem State.setSlot_req (s : State) (i : SlotIx) (v : Slot) : (s.setSlot i v).req = s.req := rfl
@[simp] theorem State.setSlot_ncu (s : State) (i : SlotIx) (v : Slot) : (s.setSlot i v).ncu = s.ncu := rfl
@[simp] theorem State.setSlot_self (s : State) (i : SlotIx) (v : Slot) : (s.setSlot i v).slot i = v := by simp [State.slot, State.setSlot]
@[simp] theorem State.setSlot_link (s : State) (i : SlotIx) (v : Slot) : (s.setSlot i v).link = s.link := rfl
@[simp] theorem State.setSlot_slot_ne (s : State) {i j : SlotIx} (v : Slot) (h : i ≠ j) :
    (s.setSlot i v).slot j = s.slot j := by
  have : (i : Nat) ≠ j := fun e => h (Fin.ext e)
  simp [State.slot, State.setSlot, Vector.getElem_set_ne, this]
theorem State.setSlot_slot (s : State) (i j : SlotIx) (v : Slot) :
    (s.setSlot i v).slot j = if i = j then v else s.slot j := by
  split
  · next h => subst h; simp
  · next h => simp [h]

/-! ### updSlot -/

@[simp] theorem State.updSlot_pending (s : State) (i : SlotIx) (f : Slot → Slot) : (s.updSlot i f).pending = s.pending := rfl
@[simp] theorem State.updSlot_now (s : State) (i : SlotIx) (f : Slot → Slot) : (s.updSlot i f).now = s.now := rfl
@[simp] theorem State.updSlot_session (s : State) (i : SlotIx) (f : Slot → Slot) : (s.updSlot i f).session = s.session := rfl
@[simp] theorem State.updSlot_intake (s : State) (i : SlotIx) (f : Slot → Slot) : (s.updSlot i f).intake = s.intake := rfl
@[simp] theorem State.updSlot_win (s : State) (i : SlotIx) (f : Slot → Slot) : (s.updSlot i f).win = s.win := rfl
@[simp] theorem State.updSlot_wsc (s : State) (i : SlotIx) (f : Slot → Slot) : (s.updSlot i f).wsc = s.wsc := rfl
@[simp] theorem State.updSlot_links (s : State) (i : SlotIx) (f : Slot → Slot) : (s.updSlot i f).links = s.links := rfl
@[simp] theorem State.updSlot_stu (s : State) (i : SlotIx) (f : Slot → Slot) : (s.updSlot i f).stu = s.stu := rfl
@[simp] theorem State.updSlot_req (s : State) (i : SlotIx) (f : Slot → Slot) : (s.updSlot i f).req = s.req := rfl
@[simp] theorem State.updSlot_ncu (s : State) (i : SlotIx) (f : Slot → Slot) : (s.updSlot i f).ncu = s.ncu := rfl
@[simp] theorem State.updSlot_self (s : State) (i : SlotIx) (f : Slot → Slot) : (s.updSlot i f).slot i = f (s.slot i) := by simp [State.updSlot]
@[simp] theorem State.updSlot_link (s : State) (i : SlotIx) (f : Slot → Slot) : (s.updSlot i f).link = s.link := rfl
@[simp] theorem State.updSlot_slot_ne (s : State) {i j : SlotIx} (f : Slot → Slot) (h : i ≠ j) :
    (s.updSlot i f).slot j = s.slot j := by simp [State.updSlot, h]
theorem State.updSlot_slot (s : State) (i j : SlotIx) (f : Slot → Slot) :
    (s.updSlot i f).slot j = if i = j then f (s.slot j) else s.slot j := by
  split
  · next h => subst h; simp
  · next h => simp [h]

/-! ### setLink -/

@[simp] theorem State.setLink_pending (s : State) (k : LinkIx) (v : Link) : (s.setLink k v).pending = s.pending := rfl
@[simp] theorem State.setLink_now (s : State) (k : LinkIx) (v : Link) : (s.setLink k v).now = s.now := rfl
@[simp] theorem State.setLink_session (s : State) (k : LinkIx) (v : Link) : (s.setLink k v).session = s.session := rfl
@[simp] theorem State.setLink_intake (s : State) (k : LinkIx) (v : Link) : (s.setLink k v).intake = s.intake := rfl
@[simp] theorem State.setLink_win (s : State) (k : LinkIx) (v : Link) : (s.setLink k v).win = s.win := rfl
@[simp] theorem State.setLink_slots (s : State) (k : LinkIx) (v : Link) : (s.setLink k v).slots = s.slots := rfl
@[simp] theorem State.setLink_wsc (s : State) (k : LinkIx) (v : Link) : (s.setLink k v).wsc = s.wsc := rfl
@[simp] theorem State.setLink_stu (s : State) (k : LinkIx) (v : Link) : (s.setLink k v).stu = s.stu := rfl
@[simp] theorem State.setLink_req (s : State) (k : LinkIx) (v : Link) : (s.setLink k v).req = s.req := rfl
@[simp] theorem State.setLink_ncu (s : State) (k : LinkIx) (v : Link) : (s.setLink k v).ncu = s.ncu := rfl
@[simp] theorem State.setLink_self (s : State) (k : LinkIx) (v : Link) : (s.setLink k v).link k = v := by simp [State.link, State.setLink]
@[simp] theorem State.setLink_slot (s : State) (k : LinkIx) (v : Link) : (s.setLink k v).slot = s.slot := rfl
@[simp] theorem State.setLink_link_ne (s : State) {k l : LinkIx} (v : Link) (h : k ≠ l) :
    (s.setLink k v).link l = s.link l := by
  have : (k : Nat) ≠ l := fun e => h (Fin.ext e)
  simp [State.link, State.setLink, Vector.getElem_set_ne, this]

/-! ### updLink -/

@[simp] theorem State.updLink_pending (s : State) (k : LinkIx) (f : Link → Link) : (s.updLink k f).pending = s.pending := rfl
@[simp] theorem State.updLink_now (s : State) (k : LinkIx) (f : Link → Link) : (s.updLink k f).now = s.now := rfl
@[simp] theorem State.updLink_session (s : State) (k : LinkIx) (f : Link → Link) : (s.updLink k f).session = s.session := rfl
@[simp] theorem State.updLink_intake (s : State) (k : LinkIx) (f : Link → Link) : (s.updLink k f).intake = s.intake := rfl
@[simp] theorem State.updLink_win (s : State) (k : LinkIx) (f : Link → Link) : (s.updLink k f).win = s.win := rfl
@[simp] theorem State.updLink_slots (s : State) (k : LinkIx) (f : Link → Link) : (s.updLink k f).slots = s.slots := rfl
@[simp] theorem State.updLink_wsc (s : State) (k : LinkIx) (f : Link → Link) : (s.updLink k f).wsc = s.wsc := rfl
@[simp] theorem State.updLink_stu (s : State) (k : LinkIx) (f : Link → Link) : (s.updLink k f).stu = s.stu := rfl
@[simp] theorem State.updLink_req (s : State) (k : LinkIx) (f : Link → Link) : (s.updLink k f).req = s.req := rfl
@[simp] theorem State.updLink_ncu (s : State) (k : LinkIx) (f : Link → Link) : (s.updLink k f).ncu = s.ncu := rfl
@[simp] theorem State.updLink_self (s : State) (k : LinkIx) (f : Link → Link) : (s.updLink k f).link k = f (s.link k) := by simp [State.updLink]
@[simp] theorem State.updLink_slot (s : State) (k : LinkIx) (f : Link → Link) : (s.updLink k f).slot = s.slot := rfl
@[simp] theorem State.updLink_link_ne (s : State) {k l : LinkIx} (f : Link → Link) (h : k ≠ l) :
    (s.updLink k f).link l = s.link l := by simp [State.updLink, h]
theorem State.updLink_link (s : State) (k l : LinkIx) (f : Link → Link) :
    (s.updLink k f).link l = if k = l then f (s.link l) else s.link l := by
  split
  · next h => subst h; simp
  · next h => simp [h]

/-! ### updSession -/

@[simp] theorem State.updSession_pending (s : State) (f : Session → Session) : (s.updSession f).pending = s.pending := rfl
@[simp] theorem State.updSession_now (s : State) (f : Session → Session) : (s.updSession f).now = s.now := rfl
@[simp] theorem State.updSession_intake (s : State) (f : Session → Session) : (s.updSession f).intake = s.intake := rfl
@[simp] theorem State.updSession_win (s : State) (f : Session → Session) : (s.updSession f).win = s.win := rfl
@[simp] theorem State.updSession_slots (s : State) (f : Session → Session) : (s.updSession f).slots = s.slots := rfl
@[simp] theorem State.updSession_wsc (s : State) (f : Session → Session) : (s.updSession f).wsc = s.wsc := rfl
@[simp] theorem State.updSession_links (s : State) (f : Session → Session) : (s.updSession f).links = s.links := rfl
@[simp] theorem State.updSession_stu (s : State) (f : Session → Session) : (s.updSession f).stu = s.stu := rfl
@[simp] theorem State.updSession_req (s : State) (f : Session → Session) : (s.updSession f).req = s.req := rfl
@[simp] theorem State.updSession_ncu (s : State) (f : Session → Session) : (s.updSession f).ncu = s.ncu := rfl
@[simp] theorem State.updSession_session (s : State) (f : Session → Session) : (s.updSession f).session = s.session.map f := rfl
@[simp] theorem State.updSession_slot (s : State) (f : Session → Session) : (s.updSession f).slot = s.slot := rfl
@[simp] theorem State.updSession_link (s : State) (f : Session → Session) : (s.updSession f).link = s.link := rfl

/-! ### reach -/

@[simp] theorem State.reach_pending (s : State) (d : Nat) : (s.reach d).pending = s.pending := rfl
@[simp] theorem State.reach_session (s : State) (d : Nat) : (s.reach d).session = s.session := rfl
@[simp] theorem State.reach_intake (s : State) (d : Nat) : (s.reach d).intake = s.intake := rfl
@[simp] theorem State.reach_win (s : State) (d : Nat) : (s.reach d).win = s.win := rfl
@[simp] theorem State.reach_slots (s : State) (d : Nat) : (s.reach d).slots = s.slots := rfl
@[simp] theorem State.reach_wsc (s : State) (d : Nat) : (s.reach d).wsc = s.wsc := rfl
@[simp] theorem State.reach_links (s : State) (d : Nat) : (s.reach d).links = s.links := rfl
@[simp] theorem State.reach_stu (s : State) (d : Nat) : (s.reach d).stu = s.stu := rfl
@[simp] theorem State.reach_req (s : State) (d : Nat) : (s.reach d).req = s.req := rfl
@[simp] theorem State.reach_ncu (s : State) (d : Nat) : (s.reach d).ncu = s.ncu := rfl
@[simp] theorem State.reach_now (s : State) (d : Nat) : (s.reach d).now = max s.now d := rfl
@[simp] theorem State.reach_slot (s : State) (d : Nat) : (s.reach d).slot = s.slot := rfl
@[simp] theorem State.reach_link (s : State) (d : Nat) : (s.reach d).link = s.link := rfl

/-! ### pushReply -/

@[simp] theorem State.pushReply_pending (s : State) (r : Reply) : (s.pushReply r).pending = s.pending := rfl
@[simp] theorem State.pushReply_now (s : State) (r : Reply) : (s.pushReply r).now = s.now := rfl
@[simp] theorem State.pushReply_session (s : State) (r : Reply) : (s.pushReply r).session = s.session := rfl
@[simp] theorem State.pushReply_intake (s : State) (r : Reply) : (s.pushReply r).intake = s.intake := rfl
@[simp] theorem State.pushReply_win (s : State) (r : Reply) : (s.pushReply r).win = s.win := rfl
@[simp] theorem State.pushReply_slots (s : State) (r : Reply) : (s.pushReply r).slots = s.slots := rfl
@[simp] theorem State.pushReply_wsc (s : State) (r : Reply) : (s.pushReply r).wsc = s.wsc := rfl
@[simp] theorem State.pushReply_links (s : State) (r : Reply) : (s.pushReply r).links = s.links := rfl
@[simp] theorem State.pushReply_stu (s : State) (r : Reply) : (s.pushReply r).stu = s.stu := rfl
@[simp] theorem State.pushReply_ncu (s : State) (r : Reply) : (s.pushReply r).ncu = s.ncu := rfl
@[simp] theorem State.pushReply_req_queue (s : State) (r : Reply) : (s.pushReply r).req.queue = s.req.queue := rfl
@[simp] theorem State.pushReply_req_flowOut (s : State) (r : Reply) : (s.pushReply r).req.flowOut = s.req.flowOut := rfl
@[simp] theorem State.pushReply_req_lane (s : State) (r : Reply) : (s.pushReply r).req.lane = s.req.lane := rfl
@[simp] theorem State.pushReply_req_replyServed (s : State) (r : Reply) : (s.pushReply r).req.replyServed = s.req.replyServed := rfl
@[simp] theorem State.pushReply_req_initialising (s : State) (r : Reply) : (s.pushReply r).req.initialising = s.req.initialising := rfl
@[simp] theorem State.pushReply_req_resetWaiting (s : State) (r : Reply) : (s.pushReply r).req.resetWaiting = s.req.resetWaiting := rfl
@[simp] theorem State.pushReply_req_cause (s : State) (r : Reply) : (s.pushReply r).req.cause = s.req.cause := rfl
@[simp] theorem State.pushReply_outbox (s : State) (r : Reply) : (s.pushReply r).req.outbox = s.req.outbox ++ [r] := rfl
@[simp] theorem State.pushReply_slot (s : State) (r : Reply) : (s.pushReply r).slot = s.slot := rfl
@[simp] theorem State.pushReply_link (s : State) (r : Reply) : (s.pushReply r).link = s.link := rfl

/-! ### answer -/

@[simp] theorem State.answer_pending (s : State) (r : Request) (st : ReplyStatus) (d : Nat) (data : List Byte) : (s.answer r st d data).pending = s.pending := rfl
@[simp] theorem State.answer_now (s : State) (r : Request) (st : ReplyStatus) (d : Nat) (data : List Byte) : (s.answer r st d data).now = s.now := rfl
@[simp] theorem State.answer_session (s : State) (r : Request) (st : ReplyStatus) (d : Nat) (data : List Byte) : (s.answer r st d data).session = s.session := rfl
@[simp] theorem State.answer_intake (s : State) (r : Request) (st : ReplyStatus) (d : Nat) (data : List Byte) : (s.answer r st d data).intake = s.intake := rfl
@[simp] theorem State.answer_win (s : State) (r : Request) (st : ReplyStatus) (d : Nat) (data : List Byte) : (s.answer r st d data).win = s.win := rfl
@[simp] theorem State.answer_slots (s : State) (r : Request) (st : ReplyStatus) (d : Nat) (data : List Byte) : (s.answer r st d data).slots = s.slots := rfl
@[simp] theorem State.answer_wsc (s : State) (r : Request) (st : ReplyStatus) (d : Nat) (data : List Byte) : (s.answer r st d data).wsc = s.wsc := rfl
@[simp] theorem State.answer_links (s : State) (r : Request) (st : ReplyStatus) (d : Nat) (data : List Byte) : (s.answer r st d data).links = s.links := rfl
@[simp] theorem State.answer_stu (s : State) (r : Request) (st : ReplyStatus) (d : Nat) (data : List Byte) : (s.answer r st d data).stu = s.stu := rfl
@[simp] theorem State.answer_ncu (s : State) (r : Request) (st : ReplyStatus) (d : Nat) (data : List Byte) : (s.answer r st d data).ncu = s.ncu := rfl
@[simp] theorem State.answer_req_queue (s : State) (r : Request) (st : ReplyStatus) (d : Nat) (data : List Byte) : (s.answer r st d data).req.queue = s.req.queue := rfl
@[simp] theorem State.answer_req_flowOut (s : State) (r : Request) (st : ReplyStatus) (d : Nat) (data : List Byte) : (s.answer r st d data).req.flowOut = s.req.flowOut := rfl
@[simp] theorem State.answer_req_lane (s : State) (r : Request) (st : ReplyStatus) (d : Nat) (data : List Byte) : (s.answer r st d data).req.lane = s.req.lane := rfl
@[simp] theorem State.answer_req_replyServed (s : State) (r : Request) (st : ReplyStatus) (d : Nat) (data : List Byte) : (s.answer r st d data).req.replyServed = s.req.replyServed := rfl
@[simp] theorem State.answer_req_initialising (s : State) (r : Request) (st : ReplyStatus) (d : Nat) (data : List Byte) : (s.answer r st d data).req.initialising = s.req.initialising := rfl
@[simp] theorem State.answer_req_resetWaiting (s : State) (r : Request) (st : ReplyStatus) (d : Nat) (data : List Byte) : (s.answer r st d data).req.resetWaiting = s.req.resetWaiting := rfl
@[simp] theorem State.answer_req_cause (s : State) (r : Request) (st : ReplyStatus) (d : Nat) (data : List Byte) : (s.answer r st d data).req.cause = s.req.cause := rfl
@[simp] theorem State.answer_outbox (s : State) (r : Request) (st : ReplyStatus) (d : Nat) (data : List Byte) : (s.answer r st d data).req.outbox = s.req.outbox ++ [⟨r.tag, r.code, st, BitVec.ofNat 8 d, data⟩] := rfl
@[simp] theorem State.answer_slot (s : State) (r : Request) (st : ReplyStatus) (d : Nat) (data : List Byte) : (s.answer r st d data).slot = s.slot := rfl
@[simp] theorem State.answer_link (s : State) (r : Request) (st : ReplyStatus) (d : Nat) (data : List Byte) : (s.answer r st d data).link = s.link := rfl
@[simp] theorem State.accept_pending (s : State) (r : Request) (st : ReplyStatus) (data : List Byte) : (s.accept r st data).pending = s.pending := rfl
@[simp] theorem State.accept_now (s : State) (r : Request) (st : ReplyStatus) (data : List Byte) : (s.accept r st data).now = s.now := rfl
@[simp] theorem State.accept_session (s : State) (r : Request) (st : ReplyStatus) (data : List Byte) : (s.accept r st data).session = s.session := rfl
@[simp] theorem State.accept_intake (s : State) (r : Request) (st : ReplyStatus) (data : List Byte) : (s.accept r st data).intake = s.intake := rfl
@[simp] theorem State.accept_win (s : State) (r : Request) (st : ReplyStatus) (data : List Byte) : (s.accept r st data).win = s.win := rfl
@[simp] theorem State.accept_slots (s : State) (r : Request) (st : ReplyStatus) (data : List Byte) : (s.accept r st data).slots = s.slots := rfl
@[simp] theorem State.accept_wsc (s : State) (r : Request) (st : ReplyStatus) (data : List Byte) : (s.accept r st data).wsc = s.wsc := rfl
@[simp] theorem State.accept_links (s : State) (r : Request) (st : ReplyStatus) (data : List Byte) : (s.accept r st data).links = s.links := rfl
@[simp] theorem State.accept_stu (s : State) (r : Request) (st : ReplyStatus) (data : List Byte) : (s.accept r st data).stu = s.stu := rfl
@[simp] theorem State.accept_ncu (s : State) (r : Request) (st : ReplyStatus) (data : List Byte) : (s.accept r st data).ncu = s.ncu := rfl
@[simp] theorem State.accept_req_queue (s : State) (r : Request) (st : ReplyStatus) (data : List Byte) : (s.accept r st data).req.queue = s.req.queue := rfl
@[simp] theorem State.accept_req_flowOut (s : State) (r : Request) (st : ReplyStatus) (data : List Byte) : (s.accept r st data).req.flowOut = s.req.flowOut := rfl
@[simp] theorem State.accept_req_lane (s : State) (r : Request) (st : ReplyStatus) (data : List Byte) : (s.accept r st data).req.lane = s.req.lane := rfl
@[simp] theorem State.accept_req_replyServed (s : State) (r : Request) (st : ReplyStatus) (data : List Byte) : (s.accept r st data).req.replyServed = s.req.replyServed := rfl
@[simp] theorem State.accept_req_initialising (s : State) (r : Request) (st : ReplyStatus) (data : List Byte) : (s.accept r st data).req.initialising = s.req.initialising := rfl
@[simp] theorem State.accept_req_resetWaiting (s : State) (r : Request) (st : ReplyStatus) (data : List Byte) : (s.accept r st data).req.resetWaiting = s.req.resetWaiting := rfl
@[simp] theorem State.accept_req_cause (s : State) (r : Request) (st : ReplyStatus) (data : List Byte) : (s.accept r st data).req.cause = s.req.cause := rfl
@[simp] theorem State.accept_outbox (s : State) (r : Request) (st : ReplyStatus) (data : List Byte) : (s.accept r st data).req.outbox = s.req.outbox ++ [acceptance r.tag r.code st data] := rfl
@[simp] theorem State.accept_slot (s : State) (r : Request) (st : ReplyStatus) (data : List Byte) : (s.accept r st data).slot = s.slot := rfl
@[simp] theorem State.accept_link (s : State) (r : Request) (st : ReplyStatus) (data : List Byte) : (s.accept r st data).link = s.link := rfl

/-! ### sendFlow -/

@[simp] theorem State.sendFlow_pending (s : State)  : (s.sendFlow).pending = s.pending := rfl
@[simp] theorem State.sendFlow_now (s : State)  : (s.sendFlow).now = s.now := rfl
@[simp] theorem State.sendFlow_session (s : State)  : (s.sendFlow).session = s.session := rfl
@[simp] theorem State.sendFlow_intake (s : State)  : (s.sendFlow).intake = s.intake := rfl
@[simp] theorem State.sendFlow_win (s : State)  : (s.sendFlow).win = s.win := rfl
@[simp] theorem State.sendFlow_slots (s : State)  : (s.sendFlow).slots = s.slots := rfl
@[simp] theorem State.sendFlow_wsc (s : State)  : (s.sendFlow).wsc = s.wsc := rfl
@[simp] theorem State.sendFlow_links (s : State)  : (s.sendFlow).links = s.links := rfl
@[simp] theorem State.sendFlow_stu (s : State)  : (s.sendFlow).stu = s.stu := rfl
@[simp] theorem State.sendFlow_ncu (s : State)  : (s.sendFlow).ncu = s.ncu := rfl
@[simp] theorem State.sendFlow_req_queue (s : State)  : (s.sendFlow).req.queue = s.req.queue := rfl
@[simp] theorem State.sendFlow_req_outbox (s : State)  : (s.sendFlow).req.outbox = s.req.outbox := rfl
@[simp] theorem State.sendFlow_req_lane (s : State)  : (s.sendFlow).req.lane = s.req.lane := rfl
@[simp] theorem State.sendFlow_req_replyServed (s : State)  : (s.sendFlow).req.replyServed = s.req.replyServed := rfl
@[simp] theorem State.sendFlow_req_initialising (s : State)  : (s.sendFlow).req.initialising = s.req.initialising := rfl
@[simp] theorem State.sendFlow_req_resetWaiting (s : State)  : (s.sendFlow).req.resetWaiting = s.req.resetWaiting := rfl
@[simp] theorem State.sendFlow_req_cause (s : State)  : (s.sendFlow).req.cause = s.req.cause := rfl
@[simp] theorem State.sendFlow_slot (s : State)  : s.sendFlow.slot = s.slot := rfl
@[simp] theorem State.sendFlow_link (s : State)  : s.sendFlow.link = s.link := rfl

/-! ### count -/

@[simp] theorem State.count_pending (s : State) (k : Fin 10) : (s.count k).pending = s.pending := rfl
@[simp] theorem State.count_now (s : State) (k : Fin 10) : (s.count k).now = s.now := rfl
@[simp] theorem State.count_session (s : State) (k : Fin 10) : (s.count k).session = s.session := rfl
@[simp] theorem State.count_intake (s : State) (k : Fin 10) : (s.count k).intake = s.intake := rfl
@[simp] theorem State.count_win (s : State) (k : Fin 10) : (s.count k).win = s.win := rfl
@[simp] theorem State.count_slots (s : State) (k : Fin 10) : (s.count k).slots = s.slots := rfl
@[simp] theorem State.count_wsc (s : State) (k : Fin 10) : (s.count k).wsc = s.wsc := rfl
@[simp] theorem State.count_links (s : State) (k : Fin 10) : (s.count k).links = s.links := rfl
@[simp] theorem State.count_stu (s : State) (k : Fin 10) : (s.count k).stu = s.stu := rfl
@[simp] theorem State.count_req (s : State) (k : Fin 10) : (s.count k).req = s.req := rfl
@[simp] theorem State.count_ncu_notices (s : State) (k : Fin 10) : (s.count k).ncu.notices = s.ncu.notices := rfl
@[simp] theorem State.count_ncu_mask (s : State) (k : Fin 10) : (s.count k).ncu.mask = s.ncu.mask := rfl
@[simp] theorem State.count_ncu_seen (s : State) (k : Fin 10) : (s.count k).ncu.seen = s.ncu.seen := rfl
@[simp] theorem State.count_ncu_noticesLost (s : State) (k : Fin 10) : (s.count k).ncu.noticesLost = s.ncu.noticesLost := rfl
@[simp] theorem State.count_ncu_bank (s : State) (k : Fin 10) : (s.count k).ncu.bank = s.ncu.bank := rfl
@[simp] theorem State.count_ncu_autoInterval (s : State) (k : Fin 10) : (s.count k).ncu.autoInterval = s.ncu.autoInterval := rfl
@[simp] theorem State.count_ncu_autoAt (s : State) (k : Fin 10) : (s.count k).ncu.autoAt = s.ncu.autoAt := rfl
@[simp] theorem State.count_counters (s : State) (k : Fin 10) : (s.count k).ncu.counters = s.ncu.counters.set k s.ncu.counters[k].bump := rfl
@[simp] theorem State.count_slot (s : State) (k : Fin 10) : (s.count k).slot = s.slot := rfl
@[simp] theorem State.count_link (s : State) (k : Fin 10) : (s.count k).link = s.link := rfl

/-! ### clearEntries -/

@[simp] theorem State.clearEntries_pending (s : State) (i : SlotIx) : (s.clearEntries i).pending = s.pending := rfl
@[simp] theorem State.clearEntries_now (s : State) (i : SlotIx) : (s.clearEntries i).now = s.now := rfl
@[simp] theorem State.clearEntries_session (s : State) (i : SlotIx) : (s.clearEntries i).session = s.session := rfl
@[simp] theorem State.clearEntries_intake (s : State) (i : SlotIx) : (s.clearEntries i).intake = s.intake := rfl
@[simp] theorem State.clearEntries_win (s : State) (i : SlotIx) : (s.clearEntries i).win = s.win := rfl
@[simp] theorem State.clearEntries_slots (s : State) (i : SlotIx) : (s.clearEntries i).slots = s.slots := rfl
@[simp] theorem State.clearEntries_wsc (s : State) (i : SlotIx) : (s.clearEntries i).wsc = s.wsc := rfl
@[simp] theorem State.clearEntries_links (s : State) (i : SlotIx) : (s.clearEntries i).links = s.links := rfl
@[simp] theorem State.clearEntries_req (s : State) (i : SlotIx) : (s.clearEntries i).req = s.req := rfl
@[simp] theorem State.clearEntries_ncu (s : State) (i : SlotIx) : (s.clearEntries i).ncu = s.ncu := rfl
@[simp] theorem State.clearEntries_stu_sites (s : State) (i : SlotIx) : (s.clearEntries i).stu.sites = s.stu.sites := rfl
@[simp] theorem State.clearEntries_stu_regions (s : State) (i : SlotIx) : (s.clearEntries i).stu.regions = s.stu.regions := rfl
@[simp] theorem State.clearEntries_stu_scratch (s : State) (i : SlotIx) : (s.clearEntries i).stu.scratch = s.stu.scratch := rfl
@[simp] theorem State.clearEntries_slot (s : State) (i : SlotIx) : (s.clearEntries i).slot = s.slot := rfl
@[simp] theorem State.clearEntries_link (s : State) (i : SlotIx) : (s.clearEntries i).link = s.link := rfl

/-! ### clearRoster -/

@[simp] theorem State.clearRoster_pending (s : State)  : (s.clearRoster).pending = s.pending := rfl
@[simp] theorem State.clearRoster_now (s : State)  : (s.clearRoster).now = s.now := rfl
@[simp] theorem State.clearRoster_session (s : State)  : (s.clearRoster).session = s.session := rfl
@[simp] theorem State.clearRoster_intake (s : State)  : (s.clearRoster).intake = s.intake := rfl
@[simp] theorem State.clearRoster_win (s : State)  : (s.clearRoster).win = s.win := rfl
@[simp] theorem State.clearRoster_wsc (s : State)  : (s.clearRoster).wsc = s.wsc := rfl
@[simp] theorem State.clearRoster_links (s : State)  : (s.clearRoster).links = s.links := rfl
@[simp] theorem State.clearRoster_stu (s : State)  : (s.clearRoster).stu = s.stu := rfl
@[simp] theorem State.clearRoster_req (s : State)  : (s.clearRoster).req = s.req := rfl
@[simp] theorem State.clearRoster_ncu (s : State)  : (s.clearRoster).ncu = s.ncu := rfl

end Sys2Proof.Machine
end

