-- ==== Sys2Proof/Laws/Ops.lean ====
section
/-! SUPPORT. Once for each shared operation, what it leaves in every part of the state: events and slot changes, replies
and flow, retirement, the abandonment of commands, the ways a slot leaves a state, the loss of a link, and whose turn it is. A statement about a command cites
these and unfolds no operation. -/

namespace Sys2Proof.Machine

/-! ## The session in force -/

@[simp] theorem State.setSlot_ses (s : State) (i : SlotIx) (v : Slot) : (s.setSlot i v).ses = s.ses := rfl
@[simp] theorem State.updSlot_ses (s : State) (i : SlotIx) (f : Slot → Slot) : (s.updSlot i f).ses = s.ses := rfl
@[simp] theorem State.setLink_ses (s : State) (k : LinkIx) (v : Link) : (s.setLink k v).ses = s.ses := rfl
@[simp] theorem State.updLink_ses (s : State) (k : LinkIx) (f : Link → Link) : (s.updLink k f).ses = s.ses := rfl
theorem State.ses_eq {s : State} {x : Session} (h : s.session = some x) : s.ses = x := by simp [State.ses, h]
@[simp] theorem State.setSlot_setSlot (s : State) (i : SlotIx) (v w : Slot) :
    (s.setSlot i v).setSlot i w = s.setSlot i w := by simp [State.setSlot]

/-! ## Events -/

/-- An event changes NCU alone: its seen flag, the notice queue, NOTICES-LOST and engine counter 10 (R193, R194). -/
theorem State.raise_spec (s : State) (e : Event) :
    s.raise e = { s with
      ncu.seen := s.ncu.seen ||| e.bit
      ncu.notices :=
        if s.ncu.mask.getLsbD e.member.val = true ∧ s.ncu.notices.length < 32 then s.ncu.notices ++ [e] else s.ncu.notices
      ncu.noticesLost :=
        if s.ncu.mask.getLsbD e.member.val = true ∧ ¬s.ncu.notices.length < 32 then true else s.ncu.noticesLost
      ncu.counters :=
        if s.ncu.mask.getLsbD e.member.val = true ∧ ¬s.ncu.notices.length < 32 then
          s.ncu.counters.set 9 s.ncu.counters[9].bump
        else s.ncu.counters } := by
  unfold State.raise State.appendNotice
  dsimp only [Config.noticeQueue]
  by_cases hm : s.ncu.mask.getLsbD e.member.val = true
  · by_cases hn : s.ncu.notices.length < 32
    · simp only [hm, hn, if_true, if_false, true_and, not_true]
    · simp only [hm, hn, if_true, if_false, true_and, not_false_iff]
      rfl
  · simp only [hm, false_and, if_false, Bool.false_eq_true]

@[simp] theorem State.raise_pending (s : State) (e : Event) : (s.raise e).pending = s.pending := by rw [State.raise_spec]
@[simp] theorem State.raise_now (s : State) (e : Event) : (s.raise e).now = s.now := by rw [State.raise_spec]
@[simp] theorem State.raise_session (s : State) (e : Event) : (s.raise e).session = s.session := by rw [State.raise_spec]
@[simp] theorem State.raise_intake (s : State) (e : Event) : (s.raise e).intake = s.intake := by rw [State.raise_spec]
@[simp] theorem State.raise_win (s : State) (e : Event) : (s.raise e).win = s.win := by rw [State.raise_spec]
@[simp] theorem State.raise_slots (s : State) (e : Event) : (s.raise e).slots = s.slots := by rw [State.raise_spec]
@[simp] theorem State.raise_wsc (s : State) (e : Event) : (s.raise e).wsc = s.wsc := by rw [State.raise_spec]
@[simp] theorem State.raise_links (s : State) (e : Event) : (s.raise e).links = s.links := by rw [State.raise_spec]
@[simp] theorem State.raise_stu (s : State) (e : Event) : (s.raise e).stu = s.stu := by rw [State.raise_spec]
@[simp] theorem State.raise_req (s : State) (e : Event) : (s.raise e).req = s.req := by rw [State.raise_spec]
@[simp] theorem State.raise_slot (s : State) (e : Event) (i : SlotIx) : (s.raise e).slot i = s.slot i := by
  rw [State.raise_spec]; rfl
@[simp] theorem State.raise_link (s : State) (e : Event) (k : LinkIx) : (s.raise e).link k = s.link k := by
  rw [State.raise_spec]; rfl
@[simp] theorem State.raise_entry (s : State) (e : Event) (i : SlotIx) (n : Nat) : (s.raise e).entry i n = s.entry i n := by
  rw [State.raise_spec]; rfl
@[simp] theorem State.raise_mask (s : State) (e : Event) : (s.raise e).ncu.mask = s.ncu.mask := by rw [State.raise_spec]
@[simp] theorem State.raise_bank (s : State) (e : Event) : (s.raise e).ncu.bank = s.ncu.bank := by rw [State.raise_spec]
@[simp] theorem State.raise_autoInterval (s : State) (e : Event) :
    (s.raise e).ncu.autoInterval = s.ncu.autoInterval := by rw [State.raise_spec]
@[simp] theorem State.raise_autoAt (s : State) (e : Event) : (s.raise e).ncu.autoAt = s.ncu.autoAt := by
  rw [State.raise_spec]
@[simp] theorem State.raise_seen (s : State) (e : Event) : (s.raise e).ncu.seen = s.ncu.seen ||| e.bit := by
  rw [State.raise_spec]
theorem State.raise_counters (s : State) (e : Event) (n : Fin 10) (h : n ≠ 9) :
    (s.raise e).ncu.counters[n] = s.ncu.counters[n] := by
  rw [State.raise_spec]
  have : (9 : Nat) ≠ n.val := fun e => h (Fin.ext e.symm)
  by_cases hc : s.ncu.mask.getLsbD e.member.val = true ∧ ¬s.ncu.notices.length < 32
  · simp [hc, Vector.getElem_set_ne, this]
  · simp only [if_neg hc]

/-- The bit of an event's kind is the one bit of its member. -/
theorem Event.bit_getLsbD (e : Event) (n : Fin 10) : e.bit.getLsbD n.val = decide (n = e.member) := by
  have h : ∀ m n : Fin 10, (1#10 <<< m.val).getLsbD n.val = decide (n = m) := by decide
  exact h e.member n

/-! ## Slot changes -/

/-- The record a slot change leaves (R62, R81). -/
def Slot.moved (sl : Slot) (new : SlotState) : Slot :=
  { sl with state := new, changeMark := true, lamp := sl.lamp.eval new.lamp }

/-- A slot change writes the slot record and raises SLOT-CHANGED (R62). -/
theorem State.moveSlot_spec (s : State) (i : SlotIx) (new : SlotState) :
    s.moveSlot i new = (s.setSlot i ((s.slot i).moved new)).raise
      (.slotChanged i (s.slot i).state new ((s.slot i).outcome.map Outcome.kind)) := rfl

@[simp] theorem State.moveSlot_pending (s : State) (i : SlotIx) (n : SlotState) : (s.moveSlot i n).pending = s.pending := by
  simp [State.moveSlot]
@[simp] theorem State.moveSlot_now (s : State) (i : SlotIx) (n : SlotState) : (s.moveSlot i n).now = s.now := by
  simp [State.moveSlot]
@[simp] theorem State.moveSlot_session (s : State) (i : SlotIx) (n : SlotState) : (s.moveSlot i n).session = s.session := by
  simp [State.moveSlot]
@[simp] theorem State.moveSlot_intake (s : State) (i : SlotIx) (n : SlotState) : (s.moveSlot i n).intake = s.intake := by
  simp [State.moveSlot]
@[simp] theorem State.moveSlot_win (s : State) (i : SlotIx) (n : SlotState) : (s.moveSlot i n).win = s.win := by
  simp [State.moveSlot]
@[simp] theorem State.moveSlot_wsc (s : State) (i : SlotIx) (n : SlotState) : (s.moveSlot i n).wsc = s.wsc := by
  simp [State.moveSlot]
@[simp] theorem State.moveSlot_links (s : State) (i : SlotIx) (n : SlotState) : (s.moveSlot i n).links = s.links := by
  simp [State.moveSlot]
@[simp] theorem State.moveSlot_stu (s : State) (i : SlotIx) (n : SlotState) : (s.moveSlot i n).stu = s.stu := by
  simp [State.moveSlot]
@[simp] theorem State.moveSlot_req (s : State) (i : SlotIx) (n : SlotState) : (s.moveSlot i n).req = s.req := by
  simp [State.moveSlot]
@[simp] theorem State.moveSlot_link (s : State) (i : SlotIx) (n : SlotState) (k : LinkIx) :
    (s.moveSlot i n).link k = s.link k := by simp [State.moveSlot]
@[simp] theorem State.moveSlot_entry (s : State) (i j : SlotIx) (n : SlotState) (m : Nat) :
    (s.moveSlot i n).entry j m = s.entry j m := by
  unfold State.moveSlot; rw [State.raise_entry]; rfl
@[simp] theorem State.moveSlot_self (s : State) (i : SlotIx) (n : SlotState) :
    (s.moveSlot i n).slot i = (s.slot i).moved n := by
  rw [State.moveSlot_spec]; simp
@[simp] theorem State.moveSlot_ne (s : State) {i j : SlotIx} (n : SlotState) (h : i ≠ j) :
    (s.moveSlot i n).slot j = s.slot j := by
  rw [State.moveSlot_spec]; simp [h]
theorem State.moveSlot_slot (s : State) (i j : SlotIx) (n : SlotState) :
    (s.moveSlot i n).slot j = if i = j then (s.slot j).moved n else s.slot j := by
  split
  · next h => subst h; simp
  · next h => simp [h]
@[simp] theorem State.moveSlot_mask (s : State) (i : SlotIx) (n : SlotState) : (s.moveSlot i n).ncu.mask = s.ncu.mask := by
  simp [State.moveSlot]
@[simp] theorem State.moveSlot_bank (s : State) (i : SlotIx) (n : SlotState) : (s.moveSlot i n).ncu.bank = s.ncu.bank := by
  simp [State.moveSlot]
@[simp] theorem State.moveSlot_autoInterval (s : State) (i : SlotIx) (n : SlotState) :
    (s.moveSlot i n).ncu.autoInterval = s.ncu.autoInterval := by simp [State.moveSlot]
@[simp] theorem State.moveSlot_autoAt (s : State) (i : SlotIx) (n : SlotState) :
    (s.moveSlot i n).ncu.autoAt = s.ncu.autoAt := by simp [State.moveSlot]
theorem State.moveSlot_counters (s : State) (i : SlotIx) (n : SlotState) (m : Fin 10) (h : m ≠ 9) :
    (s.moveSlot i n).ncu.counters[m] = s.ncu.counters[m] := by
  unfold State.moveSlot; rw [State.raise_counters _ _ _ h]; rfl

/-! ## Flow, retirement, HELD -/

/-- Intake's evaluation writes the flow state and the FLOW outbox alone (R57 to R59). -/
theorem State.evalFlow_spec (s : State) : s.evalFlow =
    { s with intake.flow := s.evalFlow.intake.flow, req.flowOut := s.evalFlow.req.flowOut } := by
  unfold State.evalFlow
  split <;> rfl

@[simp] theorem State.evalFlow_session (s : State) : s.evalFlow.session = s.session := by rw [State.evalFlow_spec]
@[simp] theorem State.evalFlow_slots (s : State) : s.evalFlow.slots = s.slots := by rw [State.evalFlow_spec]
@[simp] theorem State.evalFlow_slot (s : State) (i : SlotIx) : s.evalFlow.slot i = s.slot i := by
  rw [State.evalFlow_spec]; rfl
@[simp] theorem State.evalFlow_link (s : State) (k : LinkIx) : s.evalFlow.link k = s.link k := by
  rw [State.evalFlow_spec]; rfl
@[simp] theorem State.evalFlow_links (s : State) : s.evalFlow.links = s.links := by rw [State.evalFlow_spec]
@[simp] theorem State.evalFlow_win (s : State) : s.evalFlow.win = s.win := by rw [State.evalFlow_spec]
@[simp] theorem State.evalFlow_stu (s : State) : s.evalFlow.stu = s.stu := by rw [State.evalFlow_spec]
@[simp] theorem State.evalFlow_wsc (s : State) : s.evalFlow.wsc = s.wsc := by rw [State.evalFlow_spec]
@[simp] theorem State.evalFlow_ncu (s : State) : s.evalFlow.ncu = s.ncu := by rw [State.evalFlow_spec]
@[simp] theorem State.evalFlow_now (s : State) : s.evalFlow.now = s.now := by rw [State.evalFlow_spec]
@[simp] theorem State.evalFlow_assembly (s : State) : s.evalFlow.intake.assembly = s.intake.assembly := by
  rw [State.evalFlow_spec]
@[simp] theorem State.evalFlow_linkUp (s : State) : s.evalFlow.intake.linkUp = s.intake.linkUp := by
  rw [State.evalFlow_spec]
@[simp] theorem State.evalFlow_queue (s : State) : s.evalFlow.req.queue = s.req.queue := by rw [State.evalFlow_spec]
@[simp] theorem State.evalFlow_outbox (s : State) : s.evalFlow.req.outbox = s.req.outbox := by rw [State.evalFlow_spec]

/-- Settling a pending HOLD takes it away and puts its reply at the end of the outbox. -/
theorem State.settleHold_spec (s : State) (st : ReplyStatus) (h : HoldState) : s.settleHold st h =
    { s with
      wsc.holdReply := none
      req.outbox := s.req.outbox ++ (match s.wsc.holdReply with
        | some tag => [acceptance tag 0x09 st [BitVec.ofNat 8 h.code]]
        | none => []) } := by
  unfold State.settleHold
  cases hh : s.wsc.holdReply with
  | none =>
    have : ({ s.wsc with holdReply := none } : Scheduler) = s.wsc := by rw [← hh]
    simp only [List.append_nil, this]
  | some tag => rfl

/-- A pass end clears the pass and every rostered mark, and raises PASS-ENDED (R12). -/
theorem State.passEnd_slot (s : State) (i : SlotIx) : s.passEnd.slot i = { s.slot i with rostered := false } := by
  simp [State.passEnd, State.clearRoster, State.slot]

@[simp] theorem State.passEnd_win (s : State) : s.passEnd.win = s.win := by simp [State.passEnd]
@[simp] theorem State.passEnd_links (s : State) : s.passEnd.links = s.links := by simp [State.passEnd]
@[simp] theorem State.passEnd_stu (s : State) : s.passEnd.stu = s.stu := by simp [State.passEnd]
@[simp] theorem State.passEnd_req (s : State) : s.passEnd.req = s.req := by simp [State.passEnd]
@[simp] theorem State.passEnd_wsc (s : State) : s.passEnd.wsc = s.wsc := by simp [State.passEnd]
@[simp] theorem State.passEnd_intake (s : State) : s.passEnd.intake = s.intake := by simp [State.passEnd]
@[simp] theorem State.passEnd_now (s : State) : s.passEnd.now = s.now := by simp [State.passEnd]
@[simp] theorem State.passEnd_pending (s : State) : s.passEnd.pending = s.pending := by simp [State.passEnd]
@[simp] theorem State.passEnd_session (s : State) :
    s.passEnd.session = s.session.map (fun x => { x with pass := .noPass }) := by
  simp [State.passEnd]

/-- Retirement leaves the retired list (R34); a pass end with it leaves the rest of each slot record as it was. -/
@[simp] theorem State.retire_records (s : State) : s.retire.win.records = retired s.win.records := by
  unfold State.retire; dsimp only; split <;> simp
theorem State.retire_win (s : State) : s.retire.win = { s.win with records := retired s.win.records } := by
  unfold State.retire; dsimp only; split <;> simp
@[simp] theorem State.retire_links (s : State) : s.retire.links = s.links := by
  unfold State.retire; dsimp only; split <;> simp
@[simp] theorem State.retire_link (s : State) (k : LinkIx) : s.retire.link k = s.link k := by
  simp [State.link]
@[simp] theorem State.retire_stu (s : State) : s.retire.stu = s.stu := by
  unfold State.retire; dsimp only; split <;> simp
@[simp] theorem State.retire_req (s : State) : s.retire.req = s.req := by
  unfold State.retire; dsimp only; split <;> simp
@[simp] theorem State.retire_wsc (s : State) : s.retire.wsc = s.wsc := by
  unfold State.retire; dsimp only; split <;> simp
@[simp] theorem State.retire_intake (s : State) : s.retire.intake = s.intake := by
  unfold State.retire; dsimp only; split <;> simp
@[simp] theorem State.retire_now (s : State) : s.retire.now = s.now := by
  unfold State.retire; dsimp only; split <;> simp
theorem State.retire_slot (s : State) (i : SlotIx) :
    s.retire.slot i = s.slot i ∨ s.retire.slot i = { s.slot i with rostered := false } := by
  unfold State.retire
  dsimp only
  split
  · exact .inr (State.passEnd_slot _ i)
  · exact .inl rfl
theorem State.retire_seen (s : State) (n : Nat) (h : s.ncu.seen.getLsbD n = true) :
    s.retire.ncu.seen.getLsbD n = true := by
  unfold State.retire
  dsimp only
  split
  · simp [State.passEnd, h]
  · exact h
theorem State.retire_counters (s : State) (n : Fin 10) (h : n ≠ 9) :
    s.retire.ncu.counters[n] = s.ncu.counters[n] := by
  unfold State.retire
  dsimp only
  split
  · unfold State.passEnd; rw [State.raise_counters _ _ _ h]; rfl
  · rfl

/-- A list that has been retired is left alone by retirement. -/
theorem retired_retired (rs : List ChunkRecord) : retired (retired rs) = retired rs := by
  induction rs with
  | nil => rfl
  | cons r rs ih =>
    cases h : r.resident with
    | none => simp [retired, h]
    | some x =>
      by_cases hx : x.owed = 0
      · have : retired (r :: rs) = retired rs := by simp [retired, h, hx]
        rw [this, ih]
      · simp [retired, h, hx]

@[simp] theorem State.retireFlow_records (s : State) : s.retireFlow.win.records = retired s.win.records := by
  unfold State.retireFlow; dsimp only; split <;> simp
@[simp] theorem State.retireFlow_links (s : State) : s.retireFlow.links = s.links := by
  unfold State.retireFlow; dsimp only; split <;> simp
@[simp] theorem State.retireFlow_stu (s : State) : s.retireFlow.stu = s.stu := by
  unfold State.retireFlow; dsimp only; split <;> simp
@[simp] theorem State.retireFlow_wsc (s : State) : s.retireFlow.wsc = s.wsc := by
  unfold State.retireFlow; dsimp only; split <;> simp
@[simp] theorem State.retireFlow_now (s : State) : s.retireFlow.now = s.now := by
  unfold State.retireFlow; dsimp only; split <;> simp
@[simp] theorem State.retireFlow_assembly (s : State) : s.retireFlow.intake.assembly = s.intake.assembly := by
  unfold State.retireFlow; dsimp only; split <;> simp
@[simp] theorem State.retireFlow_queue (s : State) : s.retireFlow.req.queue = s.req.queue := by
  unfold State.retireFlow; dsimp only; split <;> simp
@[simp] theorem State.retireFlow_outbox (s : State) : s.retireFlow.req.outbox = s.req.outbox := by
  unfold State.retireFlow; dsimp only; split <;> simp
theorem State.retireFlow_slot (s : State) (i : SlotIx) :
    s.retireFlow.slot i = s.slot i ∨ s.retireFlow.slot i = { s.slot i with rostered := false } := by
  unfold State.retireFlow
  dsimp only
  split
  · exact s.retire_slot i
  · simpa using s.retire_slot i
theorem State.retireFlow_seen (s : State) (n : Nat) (h : s.ncu.seen.getLsbD n = true) :
    s.retireFlow.ncu.seen.getLsbD n = true := by
  unfold State.retireFlow
  dsimp only
  split
  · exact s.retire_seen n h
  · simpa using s.retire_seen n h

/-- The test for HELD writes WSC's hold state and pending reply, the outbox and NCU alone (R109). -/
theorem State.testHeld_spec (s : State) : s.testHeld = { s with
    wsc := s.testHeld.wsc, req.outbox := s.testHeld.req.outbox, ncu := s.testHeld.ncu } := by
  unfold State.testHeld
  split
  · rw [State.raise_spec, State.settleHold_spec]
  · rfl
@[simp] theorem State.testHeld_slots (s : State) : s.testHeld.slots = s.slots := by rw [State.testHeld_spec]
@[simp] theorem State.testHeld_slot (s : State) (i : SlotIx) : s.testHeld.slot i = s.slot i := by
  rw [State.testHeld_spec]; rfl
@[simp] theorem State.testHeld_win (s : State) : s.testHeld.win = s.win := by rw [State.testHeld_spec]
@[simp] theorem State.testHeld_links (s : State) : s.testHeld.links = s.links := by rw [State.testHeld_spec]
@[simp] theorem State.testHeld_link (s : State) (k : LinkIx) : s.testHeld.link k = s.link k := by
  rw [State.testHeld_spec]; rfl
@[simp] theorem State.testHeld_stu (s : State) : s.testHeld.stu = s.stu := by rw [State.testHeld_spec]
@[simp] theorem State.testHeld_session (s : State) : s.testHeld.session = s.session := by rw [State.testHeld_spec]
@[simp] theorem State.testHeld_intake (s : State) : s.testHeld.intake = s.intake := by rw [State.testHeld_spec]
@[simp] theorem State.testHeld_now (s : State) : s.testHeld.now = s.now := by rw [State.testHeld_spec]
@[simp] theorem State.testHeld_queue (s : State) : s.testHeld.req.queue = s.req.queue := by rw [State.testHeld_spec]
theorem State.testHeld_not (s : State) (h : s.wsc.hold ≠ .holding) : s.testHeld = s := by
  simp [State.testHeld, h]
theorem State.testHeld_seen (s : State) (n : Nat) (h : s.ncu.seen.getLsbD n = true) :
    s.testHeld.ncu.seen.getLsbD n = true := by
  unfold State.testHeld
  split
  · rw [State.raise_seen, State.settleHold_spec]; simp [h]
  · exact h
theorem State.testHeld_counters (s : State) (n : Fin 10) (h : n ≠ 9) :
    s.testHeld.ncu.counters[n] = s.ncu.counters[n] := by
  unfold State.testHeld
  split
  · rw [State.raise_counters _ _ _ h, State.settleHold_spec]
  · rfl
theorem State.testHeld_outbox (s : State) {r : Reply} (h : r ∈ s.req.outbox) : r ∈ s.testHeld.req.outbox := by
  unfold State.testHeld
  split
  · rw [State.raise_req, State.settleHold_spec]; simp [h]
  · exact h

/-- An event that leaves nothing to retire, in no hold that is awaited, ends as it is. -/
theorem State.close_closed (s : State) (h : retired s.win.records = s.win.records) (h' : s.wsc.hold ≠ .holding) :
    s.close = s := by
  have hr : s.retire = s := by
    unfold State.retire
    rw [h]
    have : ¬(s.win.records = [] ∧ s.win.records ≠ [] ∧ s.ses.pass = .draining) := fun e => e.2.1 e.1
    simp only [if_neg this]
  have : s.retireFlow = s := by simp [State.retireFlow, hr]
  rw [State.close, this, State.testHeld_not s h']
theorem State.close_slot (s : State) (i : SlotIx) :
    s.close.slot i = s.slot i ∨ s.close.slot i = { s.slot i with rostered := false } := by
  simpa [State.close] using s.retireFlow_slot i
@[simp] theorem State.close_records (s : State) : s.close.win.records = retired s.win.records := by simp [State.close]
@[simp] theorem State.close_links (s : State) : s.close.links = s.links := by simp [State.close]
@[simp] theorem State.close_link (s : State) (k : LinkIx) : s.close.link k = s.link k := by simp [State.link]
@[simp] theorem State.close_stu (s : State) : s.close.stu = s.stu := by simp [State.close]
@[simp] theorem State.close_now (s : State) : s.close.now = s.now := by simp [State.close]
theorem State.close_seen (s : State) (n : Nat) (h : s.ncu.seen.getLsbD n = true) : s.close.ncu.seen.getLsbD n = true :=
  State.testHeld_seen _ n (State.retireFlow_seen _ n h)
theorem State.close_outbox (s : State) {r : Reply} (h : r ∈ s.req.outbox) : r ∈ s.close.req.outbox :=
  State.testHeld_outbox _ (by simpa using h)

/-! ## Abandonment and departure -/

/-- Stopping a read takes the grant away and withdraws its transfers (R25, R97). -/
@[simp] theorem State.stopRead_slots (s : State) (i : SlotIx) : (s.stopRead i).slots = s.slots := by
  unfold State.stopRead; dsimp only; split <;> simp
@[simp] theorem State.stopRead_slot (s : State) (i j : SlotIx) : (s.stopRead i).slot j = s.slot j := by
  simp [State.slot]
@[simp] theorem State.stopRead_records (s : State) (i : SlotIx) : (s.stopRead i).win.records = s.win.records := by
  unfold State.stopRead; dsimp only; split <;> simp
@[simp] theorem State.stopRead_session (s : State) (i : SlotIx) : (s.stopRead i).session = s.session := by
  unfold State.stopRead; dsimp only; split <;> simp
theorem State.stopRead_frame (s : State) (i : SlotIx) : s.stopRead i =
    { s with win.waiting := (s.stopRead i).win.waiting, links := (s.stopRead i).links } := by
  unfold State.stopRead
  dsimp only
  split <;> rfl

/-- Abandonment changes the slot's in-flight list, rewrite queue, pieces sent and throttled depth, the tags and path of
its link, and the waiting transfers (R94, R25, R99). -/
theorem State.abandon_frame (s : State) (i : SlotIx) (e : Bool) : s.abandon i e =
    { s with
      win.waiting := (s.abandon i e).win.waiting, links := (s.abandon i e).links, slots := (s.abandon i e).slots } := by
  unfold State.abandon
  rw [State.stopRead_frame]
  rfl
theorem State.abandon_self (s : State) (i : SlotIx) (e : Bool) : (s.abandon i e).slot i =
    { (s.slot i).givePlaces (s.places i) with inFlight := [], rewrites := [], piecesSent := 0 } := by
  simp [State.abandon]
theorem State.abandon_ne (s : State) {i j : SlotIx} (e : Bool) (h : i ≠ j) : (s.abandon i e).slot j = s.slot j := by
  simp [State.abandon, h]

/-- What a departure leaves in the slot's record (R94, R16, R132, R204). -/
def Slot.left (sl : Slot) (places : Nat) : Slot :=
  { sl.givePlaces places with
    inFlight := [], rewrites := [], piecesSent := 0, stall := none, rostered := false, ahead := [] }

/-- The window records after the departure of a slot (R32). -/
def State.recordsWithout (s : State) (i : SlotIx) : List ChunkRecord :=
  if (s.slot i).state = .live then lowerOwed ((s.slot i).owes (s.head.getD 0)) s.win.records else s.win.records

theorem State.leave_frame (s : State) (i : SlotIx) (e : Bool) : s.leave i e =
    { s with
      win.records := s.recordsWithout i
      win.waiting := (s.leave i e).win.waiting, links := (s.leave i e).links, slots := (s.leave i e).slots } := by
  unfold State.leave State.releaseOwed
  simp only [State.abandon_self]
  rw [State.abandon_frame]
  by_cases h : (s.slot i).state = .live
  · simp [State.recordsWithout, Slot.givePlaces, h, State.updSlot, State.setSlot, State.head]
    rfl
  · simp [State.recordsWithout, Slot.givePlaces, h, State.updSlot, State.setSlot]
theorem State.leave_self (s : State) (i : SlotIx) (e : Bool) : (s.leave i e).slot i = (s.slot i).left (s.places i) := by
  unfold State.leave State.releaseOwed
  simp only [State.abandon_self]
  split
  · simp only [State.updSlot_self]
    rw [show ∀ (t : State) rs, State.slot { t with win.records := rs } i = t.slot i from fun _ _ => rfl]
    rw [State.abandon_self]; rfl
  · rw [State.updSlot_self, State.abandon_self]; rfl
theorem State.leave_ne (s : State) {i j : SlotIx} (e : Bool) (h : i ≠ j) : (s.leave i e).slot j = s.slot j := by
  unfold State.leave State.releaseOwed
  dsimp only
  split
  · rw [State.updSlot_slot_ne _ _ h]
    rw [show ∀ (t : State) rs, State.slot { t with win.records := rs } j = t.slot j from fun _ _ => rfl]
    exact s.abandon_ne e h
  · rw [State.updSlot_slot_ne _ _ h]; exact s.abandon_ne e h

@[simp] theorem State.leave_session (s : State) (i : SlotIx) (e : Bool) : (s.leave i e).session = s.session := by
  rw [State.leave_frame]
@[simp] theorem State.leave_intake (s : State) (i : SlotIx) (e : Bool) : (s.leave i e).intake = s.intake := by
  rw [State.leave_frame]
@[simp] theorem State.leave_req (s : State) (i : SlotIx) (e : Bool) : (s.leave i e).req = s.req := by
  rw [State.leave_frame]
@[simp] theorem State.leave_wsc (s : State) (i : SlotIx) (e : Bool) : (s.leave i e).wsc = s.wsc := by
  rw [State.leave_frame]
@[simp] theorem State.leave_stu (s : State) (i : SlotIx) (e : Bool) : (s.leave i e).stu = s.stu := by
  rw [State.leave_frame]
@[simp] theorem State.leave_ncu (s : State) (i : SlotIx) (e : Bool) : (s.leave i e).ncu = s.ncu := by
  rw [State.leave_frame]
@[simp] theorem State.leave_now (s : State) (i : SlotIx) (e : Bool) : (s.leave i e).now = s.now := by
  rw [State.leave_frame]
@[simp] theorem State.leave_pending (s : State) (i : SlotIx) (e : Bool) : (s.leave i e).pending = s.pending := by
  rw [State.leave_frame]
theorem State.leave_records (s : State) (i : SlotIx) (e : Bool) : (s.leave i e).win.records = s.recordsWithout i := by
  rw [State.leave_frame]

/-- FAILED with an outcome: what the slot's record becomes; every other record stays (R79, R94, R16, R132). -/
theorem State.failSlot_self (s : State) (i : SlotIx) (o : Outcome) : (s.failSlot i o).slot i =
    Slot.moved { ((s.slot i).left (s.places i)).withOutcome o with qual := none } .failed := by
  simp [State.failSlot, State.leave_self]
theorem State.failSlot_ne (s : State) {i j : SlotIx} (o : Outcome) (h : i ≠ j) : (s.failSlot i o).slot j = s.slot j := by
  simp [State.failSlot, h, State.leave_ne]
theorem State.failSlot_records (s : State) (i : SlotIx) (o : Outcome) :
    (s.failSlot i o).win.records = s.recordsWithout i := by
  simp [State.failSlot, State.leave_records]
@[simp] theorem State.failSlot_session (s : State) (i : SlotIx) (o : Outcome) : (s.failSlot i o).session = s.session := by
  simp [State.failSlot]
@[simp] theorem State.failSlot_intake (s : State) (i : SlotIx) (o : Outcome) : (s.failSlot i o).intake = s.intake := by
  simp [State.failSlot]
@[simp] theorem State.failSlot_req (s : State) (i : SlotIx) (o : Outcome) : (s.failSlot i o).req = s.req := by
  simp [State.failSlot]
@[simp] theorem State.failSlot_wsc (s : State) (i : SlotIx) (o : Outcome) : (s.failSlot i o).wsc = s.wsc := by
  simp [State.failSlot]
@[simp] theorem State.failSlot_stu (s : State) (i : SlotIx) (o : Outcome) : (s.failSlot i o).stu = s.stu := by
  simp [State.failSlot]
@[simp] theorem State.failSlot_now (s : State) (i : SlotIx) (o : Outcome) : (s.failSlot i o).now = s.now := by
  simp [State.failSlot]

/-- EMPTY: what the record of a slot that was not EMPTY becomes; every other record stays (R64, R83). -/
theorem State.emptySlot_empty (s : State) (i : SlotIx) (why : OutcomeKind) (h : (s.slot i).state = .empty) :
    s.emptySlot i why = s := by simp [State.emptySlot, h]
theorem State.emptySlot_self (s : State) (i : SlotIx) (why : OutcomeKind) (h : (s.slot i).state ≠ .empty) :
    (s.emptySlot i why).slot i = Slot.moved { (s.slot i).left (s.places i) with
      outcome := if (s.slot i).state.enrolled then some ((s.slot i).outcome.getD ⟨why, none, none, none⟩)
        else (s.slot i).outcome
      settleDeadline := none, qual := none } .empty := by
  simp only [State.emptySlot, if_neg h, State.moveSlot_self, State.updSlot_self, State.leave_self]
  congr 1
  split <;> rfl
theorem State.emptySlot_ne (s : State) {i j : SlotIx} (why : OutcomeKind) (h : i ≠ j) :
    (s.emptySlot i why).slot j = s.slot j := by
  unfold State.emptySlot
  dsimp only
  split
  · rfl
  · simp [h, State.leave_ne]
theorem State.emptySlot_records (s : State) (i : SlotIx) (why : OutcomeKind) :
    (s.emptySlot i why).win.records = s.recordsWithout i := by
  unfold State.emptySlot
  dsimp only
  split
  · next h => simp [State.recordsWithout, h]
  · simp [State.leave_records]
@[simp] theorem State.emptySlot_session (s : State) (i : SlotIx) (w : OutcomeKind) :
    (s.emptySlot i w).session = s.session := by
  unfold State.emptySlot; dsimp only; split <;> simp
@[simp] theorem State.emptySlot_wsc (s : State) (i : SlotIx) (w : OutcomeKind) : (s.emptySlot i w).wsc = s.wsc := by
  unfold State.emptySlot; dsimp only; split <;> simp
@[simp] theorem State.emptySlot_now (s : State) (i : SlotIx) (w : OutcomeKind) : (s.emptySlot i w).now = s.now := by
  unfold State.emptySlot; dsimp only; split <;> simp
@[simp] theorem State.emptySlot_stu (s : State) (i : SlotIx) (w : OutcomeKind) : (s.emptySlot i w).stu = s.stu := by
  unfold State.emptySlot; dsimp only; split <;> simp
@[simp] theorem State.emptySlot_req (s : State) (i : SlotIx) (w : OutcomeKind) : (s.emptySlot i w).req = s.req := by
  unfold State.emptySlot; dsimp only; split <;> simp

/-! ## Over the slots of a link -/

/-- A socket of a link is a slot of that link, and each slot is the socket it stands at (R85). -/
@[simp] theorem linkOf_slotAt (k : LinkIx) (j : Socket) : linkOf (slotAt k j) = k := by
  apply Fin.ext
  simp only [linkOf, slotAt]
  omega
@[simp] theorem socketOf_slotAt (k : LinkIx) (j : Socket) : socketOf (slotAt k j) = j := by
  apply Fin.ext
  simp only [socketOf, slotAt]
  omega
theorem slotAt_of_link {i : SlotIx} {k : LinkIx} (h : linkOf i = k) : slotAt k (socketOf i) = i := by
  subst h
  apply Fin.ext
  simp only [slotAt, linkOf, socketOf]
  omega

/-- A change run over the slots of a link, each touching its own record alone, does to each slot of the link what it
does to it by itself, and nothing to the other slots. -/
theorem linkFold_slot (k : LinkIx) (f : SlotIx → State → State)
    (only : ∀ i j s, i ≠ j → (f i s).slot j = s.slot j) (P : SlotIx → Slot → Slot → Prop)
    (self : ∀ i (s : State), P i (s.slot i) ((f i s).slot i)) (s : State) (i : SlotIx) :
    (linkOf i = k → P i (s.slot i) (((List.finRange 16).foldl (fun t j => f (slotAt k j) t) s).slot i)) ∧
    (linkOf i ≠ k → ((List.finRange 16).foldl (fun t j => f (slotAt k j) t) s).slot i = s.slot i) := by
  have inj : ∀ a b, slotAt k a = slotAt k b → a = b := fun a b h => by
    rw [← socketOf_slotAt k a, h, socketOf_slotAt]
  have key : ∀ (l : List Socket) (s : State), l.Nodup →
      ((∀ j ∈ l, slotAt k j ≠ i) → (l.foldl (fun t j => f (slotAt k j) t) s).slot i = s.slot i) ∧
      ((∃ j ∈ l, slotAt k j = i) → P i (s.slot i) ((l.foldl (fun t j => f (slotAt k j) t) s).slot i)) := by
    intro l
    induction l with
    | nil => exact fun s _ => ⟨fun _ => rfl, fun ⟨j, h, _⟩ => by simp at h⟩
    | cons a l ih =>
      intro s nd
      have nd' := List.nodup_cons.mp nd
      have rest := ih (f (slotAt k a) s) nd'.2
      refine ⟨fun h => ?_, fun ⟨j, h, hj⟩ => ?_⟩
      · rw [List.foldl_cons, rest.1 (fun j hj => h j (List.mem_cons_of_mem _ hj)),
          only _ _ _ (h a (List.mem_cons_self ..))]
      · rw [List.foldl_cons]
        rcases List.mem_cons.mp h with h | h
        · subst h
          rw [rest.1 (fun j' hj' e => nd'.1 (by rw [inj j j' (hj.trans e.symm)]; exact hj')), hj]
          exact self i s
        · have := rest.2 ⟨j, h, hj⟩
          rwa [only _ _ _ (fun e => nd'.1 (by rw [inj a j (e.trans hj.symm)]; exact h))] at this
  refine ⟨fun h => (key _ s (List.nodup_finRange 16)).2 ⟨socketOf i, List.mem_finRange _, slotAt_of_link h⟩,
    fun h => (key _ s (List.nodup_finRange 16)).1 (fun j _ e => h ?_)⟩
  rw [← e, linkOf_slotAt]

/-! ## The links -/

/-- Stopping a read, and with it every departure of a slot, changes the path and the tags of its link alone. -/
theorem State.stopRead_link (s : State) (i : SlotIx) (k : LinkIx) :
    ∃ p, (s.stopRead i).link k = { s.link k with path := p } := by
  unfold State.stopRead
  dsimp only
  split
  · by_cases h : linkOf i = k
    · subst h
      exact ⟨none, State.updLink_self s (linkOf i) (fun l => { l with path := none })⟩
    · exact ⟨(s.link k).path, State.updLink_link_ne s (fun l => { l with path := none }) h⟩
  · exact ⟨(s.link k).path, rfl⟩
theorem State.leave_link (s : State) (i : SlotIx) (e : Bool) (k : LinkIx) :
    ∃ p tags, (s.leave i e).link k = { s.link k with path := p, tags := tags } := by
  obtain ⟨p, hp⟩ := s.stopRead_link i k
  have hr : ∀ t : State, (t.releaseOwed i).link k = t.link k := fun t => by
    unfold State.releaseOwed
    dsimp only
    split <;> rfl
  unfold State.leave
  rw [State.updSlot_link, hr]
  unfold State.abandon
  dsimp only
  by_cases h : linkOf i = k
  · subst h
    rw [State.updLink_self, State.updSlot_link, hp]
    exact ⟨p, _, rfl⟩
  · rw [State.updLink_link_ne _ _ h, State.updSlot_link, hp]
    exact ⟨p, _, rfl⟩

/-- The tags of the slot's link after a departure: each as R94 abandons it. -/
theorem State.leave_tag (s : State) (i : SlotIx) (e : Bool) (tag : LinkTag) :
    ((s.leave i e).link (linkOf i)).tag tag = ((s.link (linkOf i)).tag tag).abandon i e := by
  have hr : ∀ t : State, (t.releaseOwed i).link (linkOf i) = t.link (linkOf i) := fun t => by
    unfold State.releaseOwed
    dsimp only
    split <;> rfl
  obtain ⟨p, hp⟩ := s.stopRead_link i (linkOf i)
  unfold State.leave
  rw [State.updSlot_link, hr]
  unfold State.abandon
  dsimp only
  rw [State.updLink_self, State.updSlot_link, hp]
  simp [Link.tag]
theorem State.emptySlot_link (s : State) (i : SlotIx) (w : OutcomeKind) (k : LinkIx) :
    ∃ p tags, (s.emptySlot i w).link k = { s.link k with path := p, tags := tags } := by
  unfold State.emptySlot
  dsimp only
  split
  · exact ⟨_, _, rfl⟩
  · rw [State.moveSlot_link, State.updSlot_link]
    exact s.leave_link i true k
theorem State.emptySlot_tag (s : State) (i : SlotIx) (w : OutcomeKind) (h : (s.slot i).state ≠ .empty) (tag : LinkTag) :
    ((s.emptySlot i w).link (linkOf i)).tag tag = ((s.link (linkOf i)).tag tag).abandon i true := by
  simp only [State.emptySlot, if_neg h, State.moveSlot_link, State.updSlot_link]
  exact s.leave_tag i true tag
theorem State.failSlot_tag (s : State) (i : SlotIx) (o : Outcome) (tag : LinkTag) :
    ((s.failSlot i o).link (linkOf i)).tag tag = ((s.link (linkOf i)).tag tag).abandon i false := by
  simp only [State.failSlot, State.moveSlot_link, State.updSlot_link]
  exact s.leave_tag i false tag
theorem State.emptyLink_link (s : State) (k k' : LinkIx) :
    ∃ p tags, (s.emptyLink k).link k' = { s.link k' with path := p, tags := tags } := by
  have : ∀ (l : List Socket) (t : State), ∃ p tags,
      (l.foldl (fun t j => t.emptySlot (slotAt k j) .linkLost) t).link k' =
        { t.link k' with path := p, tags := tags } := by
    intro l
    induction l with
    | nil => exact fun t => ⟨_, _, rfl⟩
    | cons a l ih =>
      intro t
      obtain ⟨p, tg, h⟩ := ih (t.emptySlot (slotAt k a) .linkLost)
      obtain ⟨_, _, h'⟩ := t.emptySlot_link (slotAt k a) .linkLost k'
      exact ⟨p, tg, by rw [List.foldl_cons, h, h']⟩
  exact this _ s
theorem State.emptyLink_slot (s : State) (k : LinkIx) (i : SlotIx) :
    (linkOf i = k → ((s.emptyLink k).slot i).state = .empty ∧ ((s.slot i).state.enrolled = true →
      ((s.emptyLink k).slot i).outcome = some ((s.slot i).outcome.getD ⟨.linkLost, none, none, none⟩))) ∧
    (linkOf i ≠ k → (s.emptyLink k).slot i = s.slot i) :=
  linkFold_slot k (fun i t => t.emptySlot i .linkLost) (fun _ _ s h => State.emptySlot_ne s _ h)
    (fun _ a b => b.state = .empty ∧
      (a.state.enrolled = true → b.outcome = some (a.outcome.getD ⟨.linkLost, none, none, none⟩)))
    (fun i s => by
      by_cases h : (s.slot i).state = .empty
      · rw [State.emptySlot_empty _ _ _ h]
        exact ⟨h, by rw [h]; exact fun e => by cases e⟩
      · rw [State.emptySlot_self _ _ _ h]
        exact ⟨rfl, fun e => by simp [Slot.moved, e]⟩) s i
@[simp] theorem State.resetLink_slot (s : State) (k : LinkIx) (i : SlotIx) : (s.resetLink k).slot i = s.slot i := rfl
theorem State.resetLink_self (s : State) (k : LinkIx) : (s.resetLink k).link k = (s.link k).lost := by
  rw [← State.updLink_self s k Link.lost]
  rfl
theorem State.lampsOff_slot (s : State) (k : LinkIx) (i : SlotIx) :
    (linkOf i = k → (s.lampsOff k).slot i = { s.slot i with lamp := ⟨.off, none⟩ }) ∧
    (linkOf i ≠ k → (s.lampsOff k).slot i = s.slot i) :=
  linkFold_slot k (fun i t => t.updSlot i (fun sl => { sl with lamp := ⟨.off, none⟩ })) (fun _ _ _ h => by simp [h])
    (fun _ a b => b = { a with lamp := ⟨.off, none⟩ }) (fun _ _ => by simp) s i
@[simp] theorem State.lampsOff_link (s : State) (k k' : LinkIx) : (s.lampsOff k).link k' = s.link k' := by
  have : ∀ (l : List Socket) (t : State), (l.foldl (fun t j =>
      t.updSlot (slotAt k j) (fun sl => { sl with lamp := ⟨.off, none⟩ })) t).link k' = t.link k' := by
    intro l
    induction l with
    | nil => exact fun _ => rfl
    | cons a l ih => intro t; rw [List.foldl_cons, ih, State.updSlot_link]
  exact this _ s
@[simp] theorem State.retireFlow_link (s : State) (k : LinkIx) : s.retireFlow.link k = s.link k := by simp [State.link]

/-- The loss of a link (R90): its record, its slots and the slots of the other links, and LINK-LOST seen. -/
theorem State.loseLink_link (s : State) (k : LinkIx) (c : LossCause) : (s.loseLink k c).link k = (s.link k).lost := by
  unfold State.loseLink
  rw [State.raise_link, State.retireFlow_link, State.lampsOff_link, State.resetLink_self]
  obtain ⟨p, tg, h⟩ := s.emptyLink_link k k
  rw [h]
  rfl
theorem State.loseLink_slot (s : State) (k : LinkIx) (c : LossCause) (i : SlotIx) :
    (linkOf i = k → ((s.loseLink k c).slot i).state = .empty ∧ ((s.loseLink k c).slot i).lamp = ⟨.off, none⟩ ∧
      ((s.slot i).state.enrolled = true →
        ((s.loseLink k c).slot i).outcome = some ((s.slot i).outcome.getD ⟨.linkLost, none, none, none⟩))) ∧
    (linkOf i ≠ k → ((s.loseLink k c).slot i).state = (s.slot i).state) := by
  unfold State.loseLink
  rw [State.raise_slot]
  have hr : ∀ t : State, t.retireFlow.slot i = { t.slot i with rostered := (t.retireFlow.slot i).rostered } := fun t => by
    rcases t.retireFlow_slot i with h | h <;> rw [h]
  have h1 := ((s.emptyLink k).resetLink k).lampsOff_slot k i
  have h2 := s.emptyLink_slot k i
  rw [State.resetLink_slot] at h1
  rw [hr]
  generalize (s.emptyLink k).slot i = v at h1 h2
  generalize (((s.emptyLink k).resetLink k).lampsOff k).retireFlow.slot i = u
  refine ⟨fun h => ?_, fun h => by rw [h1.2 h, h2.2 h]⟩
  rw [h1.1 h]
  exact ⟨(h2.1 h).1, rfl, (h2.1 h).2⟩
theorem State.loseLink_seen (s : State) (k : LinkIx) (c : LossCause) : (s.loseLink k c).ncu.seen.getLsbD 7 = true := by
  unfold State.loseLink
  rw [State.raise_seen, BitVec.getLsbD_or]
  have := Event.bit_getLsbD (.linkLost k c) 7
  have h : (Event.linkLost k c).bit.getLsbD 7 = true := by simpa [Event.member] using this
  rw [h, Bool.or_true]

/-! ## The transmit path and the port -/

/-- The socket whose turn it is (R96): the first eligible one after the last granted. -/
theorem State.turn_eq (s : State) (k : LinkIx) (n : Fin 16) (j : Socket) (hj : j = (s.link k).lastSocket + 1 + n)
    (he : s.eligible (slotAt k j) = true)
    (hn : ∀ m : Fin 16, m < n → s.eligible (slotAt k ((s.link k).lastSocket + 1 + m)) = false) :
    s.turn k = some j := by
  unfold State.turn
  rw [List.find?_map]
  have : (List.finRange 16).find? ((fun j => s.eligible (slotAt k j)) ∘ fun d => (s.link k).lastSocket + 1 + d) =
      some n := by
    rw [List.find?_eq_some_iff_getElem]
    refine ⟨by simp [← hj, he], n.val, by simp, by simp, fun m hm => ?_⟩
    have := hn ⟨m, by omega⟩ hm
    simp
    exact this
  rw [this]
  simp [hj]

/-- The next transfer of a grant joins the waiting ones while one is left (R43). -/
theorem State.requestTransfer_spec (s : State) (k : LinkIx) (g : Grant) : s.requestTransfer k g = { s with
    win.waiting := s.win.waiting ++ (if g.moved < g.transfers then [g.transfer k] else []) } := by
  unfold State.requestTransfer
  split <;> simp

/-- Two changes of one link record are one. -/
theorem State.updLink_updLink (s : State) (k : LinkIx) (f g : Link → Link) :
    (s.updLink k f).updLink k g = s.setLink k (g (f (s.link k))) := by
  simp [State.updLink, State.setLink, State.link]

/-- The member of the ring granted next (R43): the first after the last granted that has a transfer waiting. -/
theorem ringOrder_find (last n m : Fin 14) (p : Fin 14 → Bool) (hm : m = last + 1 + n) (hp : p m = true)
    (hn : ∀ d : Fin 14, d < n → p (last + 1 + d) = false) : (ringOrder last).find? p = some m := by
  unfold ringOrder
  rw [List.find?_map]
  have : (List.finRange 14).find? (p ∘ fun d => last + 1 + d) = some n := by
    rw [List.find?_eq_some_iff_getElem]
    refine ⟨by simpa [← hm] using hp, n.val, by simp, by simp, fun d hd => ?_⟩
    have := hn ⟨d, by omega⟩ hd
    simpa using this
  rw [this]
  simp [hm]

end Sys2Proof.Machine
end

