-- ==== Sys2Proof/Laws/Commands.lean ====
section
/-! SUPPORT. Once for each way a command reaches its meaning, what it comes to: a request that its owner takes, an answer
that its command's owner takes, a granted command stopped, a rise of trouble, a slot failed at the end of an event, the
sites of a chunk, the parameter a refusal names, the bytes that arrive, the entry of a command sent. -/

namespace Sys2Proof.Machine

/-! ## Requests -/

/-- A request that passes R173 leaves the queue and is handed to its owner. -/
theorem State.takeRequest_serves {s : State} {k : ReqKind} {r : Request} {rest : List Request} (h : s.Serves k r rest)
    (owner : Request → State → State) : s.takeRequest (some k) owner = owner r { s with req.queue := rest } := by
  have h1 := h.queue
  have h2 := h.room
  have h3 := h.code
  have h4 := h.ready
  have h5 := h.taken
  have h6 := h.length
  simp [State.takeRequest, State.takes, h1, h2, h3, h4, h5, h6, Config.outboxTake]

/-! ## The end of an event -/

/-- The closing of an event changes a slot's rostered mark alone, and only to clear it (R12). -/
theorem State.close_slot_eq (s : State) (i : SlotIx) :
    s.close.slot i = { s.slot i with rostered := (s.close.slot i).rostered } ∧
    ((s.slot i).rostered = false → (s.close.slot i).rostered = false) := by
  rcases s.close_slot i with h | h <;> rw [h] <;> simp

/-- A slot failed by the event that closes: what its record then holds (R79, R94). -/
theorem State.failSlot_close (s : State) (i : SlotIx) (o : Outcome) :
    ∃ r, (s.failSlot i o).close.slot i =
      { Slot.moved { ((s.slot i).left (s.places i)).withOutcome o with qual := none } .failed with rostered := r } :=
  ⟨_, by rw [(State.close_slot_eq _ i).1, State.failSlot_self]⟩

/-! ## Answers -/

theorem Link.setTag_tag (l : Link) (t : LinkTag) (v : TagState) : (l.setTag t v).tag t = v := by
  simp [Link.setTag, Link.tag]

/-- An answer to a BOUND command frees its tag and is handed on (R93). -/
theorem State.answerTag_bound {s : State} {k : LinkIx} {tag : LinkTag} {b : Busy} {e : Entry} (h : s.Answers k tag b e)
    (st : Status) (owner : SlotIx → Entry → State → State) :
    s.answerTag k tag e.work.kind st owner =
      ((s.setLink k ((s.link k).setTag tag .free)).boundAnswer b.slot tag st (owner b.slot)).close := by
  unfold State.answerTag
  simp [h.up, h.bound, h.kind, State.updLink]

/-- Outside FAULTED a BOUND answer other than GONE goes to the owner of its command (R93). -/
theorem State.boundAnswer_owner {s : State} {x : Session} (hs : s.session = some x) (hp : x.phase ≠ .faulted)
    {i : SlotIx} {tag : LinkTag} {e : Entry} (he : (s.slot i).entry tag = some e) {st : Status} (hst : st ≠ .gone)
    (owner : Entry → State → State) : s.boundAnswer i tag st owner = owner e s := by
  have : s.faulted = false := by
    cases h : x.phase
    · simp [State.faulted, State.phase, hs, h]
    · simp [State.faulted, State.phase, hs, h]
    · exact absurd h hp
  unfold State.boundAnswer
  simp [this, hst, he]

/-! ## A fault's stop of what was granted -/

/-- The path of a link after stopping a slot's read: idle where it was held for that slot. -/
theorem State.stopRead_path (s : State) (i : SlotIx) (k : LinkIx) : (s.stopRead i).link k =
    { s.link k with path := (s.link k).path.filter (fun g => !(linkOf i == k && g.slot == i)) } := by
  by_cases hk : linkOf i = k
  · subst hk
    unfold State.stopRead
    dsimp only
    cases hp : (s.link (linkOf i)).path with
    | none =>
      simp only [Link.grants, hp, Option.any_none, Bool.false_eq_true, if_false, Option.filter_none]
      rw [← hp]
    | some g =>
      by_cases hg : g.slot = i
      · simp only [Link.grants, hp, Option.any_some, hg, beq_self_eq_true, if_true]
        refine (State.updLink_self s (linkOf i) (fun l => { l with path := none })).trans ?_
        simp [Option.filter, hg]
      · simp only [Link.grants, hp, Option.any_some, beq_eq_false_iff_ne.mpr hg, Bool.false_eq_true, if_false,
          Bool.and_false, Bool.not_false, Option.filter_some, if_true]
        rw [← hp]
  · have all : ∀ o : Option Grant, o.filter (fun _ => true) = o := fun o => by cases o <;> rfl
    simp only [beq_eq_false_iff_ne.mpr hk, Bool.false_and, Bool.not_false, all]
    unfold State.stopRead
    dsimp only
    split
    · exact State.updLink_link_ne s (fun l => { l with path := none }) hk
    · rfl

/-- What stopping a granted command leaves of a slot's record: a depth place less for one held without an entry (R99).
-/
theorem State.stopGranted_slot (s : State) (i j : SlotIx) : (s.stopGranted i).slot j =
    if i = j ∧ (s.slot i).state.enrolled = true then (s.slot j).givePlaces (s.grantPlace i) else s.slot j := by
  unfold State.stopGranted
  by_cases h : (s.slot i).state.enrolled = true
  · rw [if_pos h, State.stopRead_slot]
    by_cases hij : i = j
    · subst hij
      rw [if_pos ⟨rfl, h⟩, State.updSlot_self]
    · rw [if_neg (fun e => hij e.1), State.updSlot_slot_ne _ _ hij]
  · rw [if_neg h, if_neg (fun e => h e.2)]

/-- The path of a link after stopping an enrolled slot's granted command. -/
theorem State.stopGranted_path (s : State) (i : SlotIx) (k : LinkIx) : (s.stopGranted i).link k =
    if (s.slot i).state.enrolled = true then (s.stopRead i).link k else s.link k := by
  unfold State.stopGranted
  split
  · rw [State.stopRead_path, State.stopRead_path]; rfl
  · rfl

/-- Stopping a granted command changes the waiting transfers, the links and the slot records alone. -/
theorem State.stopGranted_frame (s : State) (i : SlotIx) : s.stopGranted i =
    { s with
      slots := (s.stopGranted i).slots, links := (s.stopGranted i).links
      win.waiting := (s.stopGranted i).win.waiting } := by
  unfold State.stopGranted
  split
  · rw [State.stopRead_frame]; rfl
  · rfl

/-- Stopping a granted command keeps every slot's state. -/
theorem State.stopGranted_state (s : State) (i j : SlotIx) : ((s.stopGranted i).slot j).state = (s.slot j).state := by
  rw [State.stopGranted_slot]; split <;> rfl

/-- A slot holds a place without an entry after another's command is stopped as it did before. -/
theorem State.stopGranted_grantPlace (s : State) {i j : SlotIx} (h : i ≠ j) :
    (s.stopGranted i).grantPlace j = s.grantPlace j := by
  unfold State.grantPlace
  rw [State.stopGranted_path]
  split
  · rw [State.stopRead_path]
    cases hp : (s.link (linkOf j)).path with
    | none => rfl
    | some g =>
      by_cases hg : g.slot = i
      · have hj : g.slot ≠ j := fun e => h (hg ▸ e)
        by_cases hk : linkOf i = linkOf j <;> simp [Option.filter, hg, hk, h]
      · simp [Option.filter, hg]
  · rfl

/-- What a fault stops of a slot (R18, R97, R99): an enrolled one gives up the place it held without an entry. -/
theorem State.stopEnrolled_slot (s : State) (i : SlotIx) : s.stopEnrolled.slot i =
    if (s.slot i).state.enrolled = true then (s.slot i).givePlaces (s.grantPlace i) else s.slot i := by
  have key : ∀ (l : List SlotIx) (t : State), l.Nodup →
      (i ∉ l → (l.foldl (fun t i => t.stopGranted i) t).slot i = t.slot i) ∧
      (i ∈ l → (l.foldl (fun t i => t.stopGranted i) t).slot i =
        if (t.slot i).state.enrolled = true then (t.slot i).givePlaces (t.grantPlace i) else t.slot i) := by
    intro l
    induction l with
    | nil => exact fun t _ => ⟨fun _ => rfl, fun h => absurd h (by simp)⟩
    | cons a l ih =>
      intro t nd
      obtain ⟨na, nd⟩ := List.nodup_cons.mp nd
      obtain ⟨out, inn⟩ := ih (t.stopGranted a) nd
      simp only [List.foldl_cons, List.mem_cons, not_or]
      refine ⟨fun h => ?_, fun h => ?_⟩
      · rw [out h.2, State.stopGranted_slot, if_neg (fun e => h.1 e.1.symm)]
      · by_cases e : i = a
        · subst e
          rw [out na, State.stopGranted_slot]
          simp
        · have ea : a ≠ i := fun q => e q.symm
          have keep : (t.stopGranted a).slot i = t.slot i := by
            rw [State.stopGranted_slot, if_neg (fun q => ea q.1)]
          rw [inn (h.resolve_left e), State.stopGranted_grantPlace t ea, keep]
  exact (key (List.finRange 192) s (List.nodup_finRange 192)).2 (List.mem_finRange i)

/-- What a fault stops on a link (R18, R97): the path is idle where it was held for an enrolled slot of the link. -/
theorem State.stopEnrolled_link (s : State) (k : LinkIx) : s.stopEnrolled.link k = { s.link k with
    path := (s.link k).path.filter (fun g => !(linkOf g.slot == k && (s.slot g.slot).state.enrolled)) } := by
  have key : ∀ (l : List SlotIx) (t : State), (l.foldl (fun t i => t.stopGranted i) t).link k = { t.link k with
      path := (t.link k).path.filter (fun g => !(linkOf g.slot == k && (t.slot g.slot).state.enrolled &&
        decide (g.slot ∈ l))) } := by
    intro l
    induction l with
    | nil =>
      intro t
      have all : ∀ o : Option Grant, o.filter (fun _ => true) = o := fun o => by cases o <;> rfl
      simp [all]
    | cons a l ih =>
      intro t
      rw [List.foldl_cons, ih, State.stopGranted_path]
      simp only [State.stopGranted_state]
      by_cases ha : (t.slot a).state.enrolled = true
      · rw [if_pos ha, State.stopRead_path]
        cases hp : (t.link k).path with
        | none => rfl
        | some g =>
          by_cases hg : g.slot = a
          · by_cases hk : linkOf a = k <;> simp [Option.filter, hg, hk, ha]
          · have : (decide (g.slot ∈ a :: l)) = decide (g.slot ∈ l) := by simp [hg]
            simp [Option.filter, hg]
      · rw [if_neg ha]
        cases hp : (t.link k).path with
        | none => rfl
        | some g =>
          by_cases hg : g.slot = a
          · simp [Option.filter, hg, ha]
          · simp [Option.filter, hg]
  unfold State.stopEnrolled State.forSlots
  rw [key]
  simp

/-- A fault's stop changes the waiting transfers, the links and the slot records alone. -/
theorem State.stopEnrolled_frame (s : State) : s.stopEnrolled = { s with
    slots := s.stopEnrolled.slots, links := s.stopEnrolled.links, win.waiting := s.stopEnrolled.win.waiting } := by
  have key : ∀ (l : List SlotIx) (t : State), ∃ sl li w, l.foldl (fun t i => t.stopGranted i) t =
      { t with slots := sl, links := li, win.waiting := w } := by
    intro l
    induction l with
    | nil => exact fun t => ⟨_, _, _, rfl⟩
    | cons a l ih =>
      intro t
      obtain ⟨sl, li, w, h⟩ := ih (t.stopGranted a)
      rw [List.foldl_cons, h, State.stopGranted_frame]
      exact ⟨_, _, _, rfl⟩
  obtain ⟨sl, li, w, h⟩ := key (List.finRange 192) s
  unfold State.stopEnrolled State.forSlots
  rw [h]

/-! ## Trouble -/

/-- A rise below both thresholds leaves the score and the retry decision (R163). -/
theorem State.raiseTrouble_below {s : State} {x : Session} (hs : s.ses = x) (i : SlotIx) (w : Nat) (go : State → State)
    (he : (s.slot i).trouble + w < x.tune.eject) (ht : (s.slot i).trouble + w < x.tune.throttle)
    (h : (s.slot i).trouble + w ≤ 63) :
    s.raiseTrouble i w go = go (s.setSlot i { s.slot i with trouble := (s.slot i).trouble + w }) := by
  unfold State.raiseTrouble
  simp only [show min 63 ((s.slot i).trouble + w) = (s.slot i).trouble + w by omega, hs]
  rw [if_neg (by omega), if_neg (by omega)]
  rfl

/-- A rise below the eject threshold makes the retry decision on a record whose score has risen (R163, R164). -/
theorem State.raiseTrouble_kept {s : State} {x : Session} (hs : s.ses = x) (i : SlotIx) (w : Nat) (go : State → State)
    (he : (s.slot i).trouble + w < x.tune.eject) (h : (s.slot i).trouble + w ≤ 63) :
    ∃ v, s.raiseTrouble i w go = go (s.setSlot i v) ∧ v.trouble = (s.slot i).trouble + w ∧
      v.outcome = (s.slot i).outcome ∧ v.rewrites = (s.slot i).rewrites := by
  unfold State.raiseTrouble
  simp only [show min 63 ((s.slot i).trouble + w) = (s.slot i).trouble + w by omega, hs]
  rw [if_neg (by omega)]
  split
  · unfold State.throttleSlot
    dsimp only
    unfold State.updSlot
    rw [State.setSlot_setSlot]
    refine ⟨_, rfl, ?_⟩
    simp only [State.setSlot_self]
    split <;> exact ⟨rfl, rfl, rfl⟩
  · exact ⟨_, rfl, rfl, rfl, rfl⟩

/-! ## The sites of a chunk -/

/-- The sites of a chunk are those of the table that name it, with their numbers, each once (R114). -/
theorem mem_sitesOf {sites : List Site} {c n : Nat} {t : Site} :
    (n, t) ∈ sitesOf sites c ↔ sites[n]? = some t ∧ t.chunk = c := by
  unfold sitesOf
  simp only [List.mem_filter, List.mem_map, beq_iff_eq]
  refine ⟨fun ⟨⟨⟨a, m⟩, hm, he⟩, hc⟩ => ?_, fun ⟨h, hc⟩ => ⟨⟨(t, n), List.mem_zipIdx_iff_getElem?.mpr h, rfl⟩, hc⟩⟩
  simp only [Prod.mk.injEq] at he
  obtain ⟨rfl, rfl⟩ := he
  exact ⟨List.mem_zipIdx_iff_getElem?.mp hm, hc⟩
theorem sitesOf_nodup (sites : List Site) (c : Nat) : (sitesOf sites c).Nodup := by
  unfold sitesOf
  apply List.Nodup.filter
  refine List.Nodup.of_map Prod.fst ?_
  rw [List.map_map]
  have : (Prod.fst ∘ fun (p : Site × Nat) => (p.2, p.1)) = Prod.snd := rfl
  rw [this, List.zipIdx_map_snd]
  exact List.nodup_range'
theorem sitesOf_nil {sites : List Site} {c : Nat} (h : ∀ t ∈ sites, t.chunk ≠ c) : sitesOf sites c = [] := by
  rw [List.eq_nil_iff_forall_not_mem]
  rintro ⟨n, t⟩ hm
  obtain ⟨h1, h2⟩ := mem_sitesOf.mp hm
  exact h t (List.mem_of_getElem? h1) h2

/-! ## The parameter a refusal names -/

/-- A failed check names one of the parameters it turns on (R174). -/
theorem namedAmong_mem (rule check : Nat) (params : List Byte) {ps : List Nat} (h : ps ≠ []) :
    namedAmong rule check params ps ∈ ps := by
  have : Config.namedParam rule check params % ps.length < ps.length :=
    Nat.mod_lt _ (List.length_pos_iff.mpr h)
  unfold namedAmong
  rw [List.getD_eq_getElem _ _ this]
  exact List.getElem_mem this

/-- The only parameter a check turns on is the one it names. -/
@[simp] theorem namedAmong_one (rule check : Nat) (params : List Byte) (p : Nat) :
    namedAmong rule check params [p] = p := by simpa using namedAmong_mem rule check params (ps := [p]) (by simp)

/-- Which of first slot and count a refusal of R197 or R203 names. -/
theorem slotsDetail_spec (rule first count most : Nat) (ps : List Byte) :
    (191 < first → count ≤ most → slotsDetail rule first count most ps = 1) ∧
    (first ≤ 191 → most < count → slotsDetail rule first count most ps = 2) ∧
    (slotsDetail rule first count most ps = 1 ∨ slotsDetail rule first count most ps = 2) := by
  unfold slotsDetail
  refine ⟨fun a b => if_pos ⟨a, b⟩, fun a b => ?_, ?_⟩
  · rw [if_neg (by omega), if_pos ⟨a, b⟩]
  · split
    · exact .inl rfl
    · split
      · exact .inr rfl
      · simpa using namedAmong_mem rule 1 ps (ps := [1, 2]) (by simp)
theorem slotsBad_iff (first count most : Nat) :
    slotsBad first count most = true ↔ 191 < first ∨ most < count ∨ 192 < first + count := by
  simp [slotsBad, or_assoc]

/-! ## Bytes that arrive -/

/-- What is read from a downstream frame is a well-formed command (R171, R185). -/
theorem downstreamFrame_wf {bytes : List Byte} {c : Instr} (h : downstreamFrame bytes = some c) : c.wf = true := by
  unfold downstreamFrame at h
  split at h
  · next kind lo hi body =>
    dsimp only at h
    split at h
    · simp at h
    · next hl =>
      have hl : body.length = leValue [lo, hi] := not_not.mp hl
      have hlt : leValue [lo, hi] < 65536 := by simp [leValue]; omega
      split at h
      · next e =>
        obtain rfl := Option.some.inj h
        simp [Instr.wf, Config.segmentBytes, hl, e.2]
      · split at h
        · next e =>
          obtain rfl := Option.some.inj h
          simp only [Instr.wf, List.length_drop, decide_eq_true_eq]
          omega
        · next e1 e2 =>
          obtain rfl := Option.some.inj h
          have t : (BitVec.ofNat 16 (leValue [lo, hi])).toNat = leValue [lo, hi] := by
            rw [BitVec.toNat_ofNat]; exact Nat.mod_eq_of_lt hlt
          have a : BitVec.ofNat 16 (leValue [lo, hi]) = 4101#16 → leValue [lo, hi] = 4101 := fun e => by
            rw [← t, e]; rfl
          simp only [Instr.wf, downstreamAccepted, t, Bool.not_eq_true', Bool.or_eq_false_iff, Bool.and_eq_false_iff,
            beq_eq_false_iff_ne, decide_eq_false_iff_not]
          exact ⟨by_contra fun q => e1 (by push Not at q; exact ⟨q.1, a q.2⟩),
            by_contra fun q => e2 (by push Not at q; exact ⟨q.1, q.2⟩)⟩
  · simp at h

/-- What is read from a bridge message is a well-formed command (R190, R191). -/
theorem bridgeMessage_wf (k : LinkIx) (bytes : List Byte) : (bridgeMessage k bytes).wf = true := by
  unfold bridgeMessage
  split
  · rfl
  · next kind fields =>
    by_cases h24 : kind = 0x24#8
    · simp [h24, Instr.wf]
    · rw [if_neg h24]
      split
      · next a b data =>
        repeat' split
        all_goals first
          | rfl
          | skip
        next h20 h21 h22 h23 =>
          simp only [Instr.wf, bridgeMessageOk, if_neg h24]
          by_cases e : kind = 0x23#8
          · rw [if_pos e]
            simp only [Bool.not_and, Bool.or_eq_true, Bool.not_eq_true', decide_eq_false_iff_not]
            by_contra q
            push Not at q
            exact h23 ⟨e, by omega, q.2⟩
          · simp [e, h20, h21, h22]
      · next hf =>
        have : fields.length < 2 := by
          rcases fields with _ | ⟨a, _ | ⟨b, l⟩⟩
          · simp
          · simp
          · exact absurd rfl (hf a b l)
        simp only [Instr.wf, bridgeMessageOk, if_neg h24]
        rcases fields with _ | ⟨a, _ | ⟨b, l⟩⟩
        · simp
        · simp
        · simp at this

/-! ## The in-flight entry of a command sent -/

/-- The entry that was waiting for a command takes its tag, and no other changes (R97). -/
theorem fillWaiting_spec (w : Work) (tag : LinkTag) {pre : List Entry} {e : Entry} (post : List Entry)
    (before : ∀ d ∈ pre, d.tag ≠ none ∨ d.work ≠ w) (waits : e.tag = none) (is : e.work = w) :
    fillWaiting w tag (pre ++ e :: post) = pre ++ { e with tag := some tag } :: post := by
  induction pre with
  | nil => simp [fillWaiting, waits, is]
  | cons d pre ih =>
    have hd : ¬(d.tag = none ∧ d.work = w) := fun q => (before d (by simp)).elim (· q.1) (· q.2)
    rw [List.cons_append, fillWaiting, if_neg hd, ih (fun x hx => before x (by simp [hx]))]
    rfl

end Sys2Proof.Machine
end

