-- ==== Sys2Proof/Laws/Elsewhere.lean ====
section
/-! SUPPORT. Each operation on one slot leaves everything elsewhere alone: one lemma per operation, and the rule that
joins them. -/

namespace Sys2Proof.Machine

variable {mine : SlotIx → Prop}

theorem Elsewhere.refl (s : State) (mine : SlotIx → Prop) : Elsewhere s s mine :=
  ⟨fun _ _ => .inl rfl, fun _ _ => rfl, .inl rfl, fun _ _ => rfl, rfl⟩

theorem Elsewhere.trans {s t u : State} (h : Elsewhere s t mine) (k : Elsewhere t u mine) : Elsewhere s u mine where
  slots j hj := by
    rcases k.slots j hj with e | e <;> rcases h.slots j hj with f | f <;> rw [e, f] <;> simp
  links l hl := (k.links l hl).trans (h.links l hl)
  session := by
    rcases k.session with e | e <;> rcases h.session with f | f <;> rw [e, f] <;> simp [Function.comp_def]
  counters n hn := (k.counters n hn).trans (h.counters n hn)
  rest := by
    have e := k.rest
    rw [h.rest] at e
    exact e

theorem Elsewhere.raise (s : State) (e : Event) (mine : SlotIx → Prop) : Elsewhere s (s.raise e) mine where
  slots _ _ := .inl (by simp)
  links _ _ := by simp
  session := .inl (by simp)
  counters n hn := State.raise_counters s e n hn
  rest := by rw [State.raise_spec]

theorem Elsewhere.setSlot (s : State) {i : SlotIx} (v : Slot) (h : mine i) : Elsewhere s (s.setSlot i v) mine where
  slots _ hj := .inl (State.setSlot_slot_ne s v (fun e => hj (by rw [← e]; exact h)))
  links _ _ := rfl
  session := .inl rfl
  counters _ _ := rfl
  rest := rfl

theorem Elsewhere.updSlot (s : State) {i : SlotIx} (f : Slot → Slot) (h : mine i) : Elsewhere s (s.updSlot i f) mine :=
  Elsewhere.setSlot s _ h

theorem Elsewhere.updLink (s : State) {i : SlotIx} (f : Link → Link) (h : mine i) :
    Elsewhere s (s.updLink (linkOf i) f) mine where
  slots _ _ := .inl rfl
  links _ hk := State.updLink_link_ne s f (hk i h)
  session := .inl rfl
  counters _ _ := rfl
  rest := rfl

theorem Elsewhere.window (s : State) (rs : List ChunkRecord) (ts : List Transfer) (mine : SlotIx → Prop) :
    Elsewhere s { s with win.records := rs, win.waiting := ts } mine :=
  ⟨fun _ _ => .inl rfl, fun _ _ => rfl, .inl rfl, fun _ _ => rfl, rfl⟩

theorem Elsewhere.moveSlot (s : State) {i : SlotIx} (n : SlotState) (h : mine i) :
    Elsewhere s (s.moveSlot i n) mine :=
  (Elsewhere.setSlot s _ h).trans (Elsewhere.raise _ _ mine)

theorem Elsewhere.answer (s : State) (r : Request) (st : ReplyStatus) (detail : Nat) (data : List Byte)
    (mine : SlotIx → Prop) : Elsewhere s (s.answer r st detail data) mine :=
  ⟨fun _ _ => .inl rfl, fun _ _ => rfl, .inl rfl, fun _ _ => rfl, rfl⟩

theorem Elsewhere.accept (s : State) (r : Request) (st : ReplyStatus) (data : List Byte)
    (mine : SlotIx → Prop) : Elsewhere s (s.accept r st data) mine :=
  ⟨fun _ _ => .inl rfl, fun _ _ => rfl, .inl rfl, fun _ _ => rfl, rfl⟩

/-! ## The end of an event -/

theorem Elsewhere.evalFlow (s : State) (mine : SlotIx → Prop) : Elsewhere s s.evalFlow mine where
  slots _ _ := .inl (by simp)
  links _ _ := by simp
  session := .inl (by simp)
  counters _ _ := by simp
  rest := by rw [State.evalFlow_spec]

theorem Elsewhere.passEnd (s : State) (mine : SlotIx → Prop) : Elsewhere s s.passEnd mine where
  slots j _ := .inr (State.passEnd_slot s j)
  links _ _ := by simp [State.link]
  session := .inr (by simp)
  counters n hn := State.raise_counters _ _ n hn
  rest := by
    unfold State.passEnd
    rw [State.raise_spec]
    rfl

theorem Elsewhere.retireFlow (s : State) (mine : SlotIx → Prop) : Elsewhere s s.retireFlow mine := by
  have retire : Elsewhere s s.retire mine := by
    have e := Elsewhere.window s (retired s.win.records) s.win.waiting mine
    unfold State.retire
    dsimp only
    split
    · exact e.trans (Elsewhere.passEnd _ mine)
    · exact e
  unfold State.retireFlow
  dsimp only
  split
  · exact retire
  · exact retire.trans (Elsewhere.evalFlow _ mine)

theorem Elsewhere.testHeld (s : State) (mine : SlotIx → Prop) : Elsewhere s s.testHeld mine := by
  unfold State.testHeld
  split
  · refine Elsewhere.trans ?_ (Elsewhere.raise _ _ mine)
    rw [State.settleHold_spec]
    exact ⟨fun _ _ => .inl rfl, fun _ _ => rfl, .inl rfl, fun _ _ => rfl, rfl⟩
  · exact Elsewhere.refl s mine

theorem Elsewhere.close (s : State) (mine : SlotIx → Prop) : Elsewhere s s.close mine :=
  (Elsewhere.retireFlow s mine).trans (Elsewhere.testHeld _ mine)

/-! ## Departures -/

theorem Elsewhere.leave (s : State) {i : SlotIx} (e : Bool) (h : mine i) : Elsewhere s (s.leave i e) mine := by
  have stop : Elsewhere s (s.stopRead i) mine := by
    unfold State.stopRead
    dsimp only
    split
    · exact (Elsewhere.updLink s _ h).trans (Elsewhere.window _ _ _ mine)
    · exact Elsewhere.refl s mine
  have abandon : Elsewhere s (s.abandon i e) mine := by
    unfold State.abandon
    exact stop.trans ((Elsewhere.updSlot _ _ h).trans (Elsewhere.updLink _ _ h))
  refine (abandon.trans ?_).trans (Elsewhere.updSlot _ _ h)
  unfold State.releaseOwed
  dsimp only
  split
  · exact Elsewhere.window _ _ _ mine
  · exact Elsewhere.refl _ mine

theorem Elsewhere.failSlot (s : State) {i : SlotIx} (o : Outcome) (h : mine i) : Elsewhere s (s.failSlot i o) mine :=
  ((Elsewhere.leave s false h).trans (Elsewhere.updSlot _ _ h)).trans (Elsewhere.moveSlot _ _ h)

theorem Elsewhere.emptySlot (s : State) {i : SlotIx} (w : OutcomeKind) (h : mine i) :
    Elsewhere s (s.emptySlot i w) mine := by
  unfold State.emptySlot
  dsimp only
  split
  · exact Elsewhere.refl s mine
  · exact ((Elsewhere.leave s true h).trans (Elsewhere.updSlot _ _ h)).trans (Elsewhere.moveSlot _ _ h)

theorem Elsewhere.detachSlot (s : State) {i : SlotIx} (h : mine i) : Elsewhere s (s.detachSlot i) mine :=
  ((Elsewhere.leave s false h).trans (Elsewhere.updSlot _ _ h)).trans (Elsewhere.moveSlot _ _ h)

theorem Elsewhere.raiseTrouble (s : State) {i : SlotIx} (w : Nat) (go : State → State) (h : mine i)
    (hgo : ∀ t : State, Elsewhere t (go t) mine) : Elsewhere s (s.raiseTrouble i w go) mine := by
  unfold State.raiseTrouble
  dsimp only
  split
  · exact (Elsewhere.updSlot s _ h).trans (Elsewhere.failSlot _ _ h)
  · refine Elsewhere.trans ?_ (hgo _)
    split
    · unfold State.throttleSlot
      exact (Elsewhere.updSlot s _ h).trans (Elsewhere.updSlot _ _ h)
    · exact Elsewhere.updSlot s _ h

/-! ## The loss of a link -/

theorem Elsewhere.overLink (s : State) (k : LinkIx) (f : SlotIx → State → State)
    (h : ∀ i (t : State), linkOf i = k → Elsewhere t (f i t) (fun j => linkOf j = k)) :
    Elsewhere s ((List.finRange 16).foldl (fun t j => f (slotAt k j) t) s) (fun j => linkOf j = k) := by
  have : ∀ (l : List Socket) (t : State),
      Elsewhere t (l.foldl (fun t j => f (slotAt k j) t) t) (fun j => linkOf j = k) := by
    intro l
    induction l with
    | nil => exact fun t => Elsewhere.refl t _
    | cons a l ih => exact fun t => (h _ t (linkOf_slotAt k a)).trans (ih _)
  exact this _ s

/-- The loss of a link up to its notice leaves everything outside the link alone. -/
theorem Elsewhere.lossOf (s : State) (k : LinkIx) :
    Elsewhere s (((s.emptyLink k).resetLink k).lampsOff k).retireFlow (fun j => linkOf j = k) := by
  have upd : ∀ (t : State) (f : Link → Link), Elsewhere t (t.updLink k f) (fun j => linkOf j = k) := fun t f => by
    have := Elsewhere.updLink (mine := fun j => linkOf j = k) t (i := slotAt k 0) f (linkOf_slotAt k 0)
    rwa [linkOf_slotAt] at this
  have reset : ∀ t : State, Elsewhere t (t.resetLink k) (fun j => linkOf j = k) := fun t => by
    unfold State.resetLink
    exact (upd t Link.lost).trans (Elsewhere.window _ _ _ _)
  refine Elsewhere.trans ?_ (Elsewhere.retireFlow _ _)
  refine Elsewhere.trans ?_ (Elsewhere.overLink _ k (fun i t => t.updSlot i (fun sl => { sl with lamp := ⟨.off, none⟩ }))
    (fun i t h => Elsewhere.updSlot t _ h))
  exact Elsewhere.trans (Elsewhere.overLink s k (fun i t => t.emptySlot i .linkLost)
    (fun i t h => Elsewhere.emptySlot t _ h)) (reset _)

theorem Elsewhere.loseLink (s : State) (k : LinkIx) (c : LossCause) :
    Elsewhere s (s.loseLink k c) (fun j => linkOf j = k) :=
  (Elsewhere.lossOf s k).trans (Elsewhere.raise _ _ _)

end Sys2Proof.Machine
end

