-- ==== Sys2Proof/Laws/Fields.lean ====
section
/-! SUPPORT. Fields of byte lists (R184): a list written from little-endian fields is read back field by field, by these
lemmas as rewrite rules over a list written `a ++ (b ++ …)`. -/

namespace Sys2Proof.Machine

@[simp] theorem leBytes_length : ∀ n v : Nat, (leBytes n v).length = n
  | 0, _ => rfl
  | n + 1, v => by simp [leBytes, leBytes_length n]

theorem leValue_leBytes : ∀ n v : Nat, leValue (leBytes n v) = v % 256 ^ n
  | 0, v => by simp [leBytes, leValue, Nat.mod_one]
  | n + 1, v => by
    have : 256 ^ (n + 1) = 256 * 256 ^ n := Nat.pow_succ'
    rw [leBytes, leValue, leValue_leBytes n, BitVec.toNat_ofNat, this, Nat.mod_mul]

@[simp] theorem leOption_length (n : Nat) (v : Option Nat) : (leOption n v).length = n := leBytes_length n _
@[simp] theorem spanBytes_length (sp : Option Span) : (spanBytes sp).length = 8 := by simp [spanBytes]
@[simp] theorem outcomeDetail_length (n : Nat) (o : Option Outcome) (f : Outcome → Option Nat) :
    (outcomeDetail n o f).length = n := by
  unfold outcomeDetail
  split <;> simp
@[simp] theorem paramBlock_length (x : Session) : (paramBlock x).length = 34 := by
  unfold paramBlock
  simp only [List.length_append, leBytes_length]

/-- A field past a prefix. -/
theorem field_skip (a b : List Byte) (off n : Nat) (h : a.length ≤ off) :
    field (a ++ b) off n = field b (off - a.length) n := by
  unfold field
  rw [List.drop_append, List.drop_eq_nil_of_le h, List.nil_append]

/-- A field within a prefix. -/
theorem field_within (a b : List Byte) (off n : Nat) (h : off + n ≤ a.length) :
    field (a ++ b) off n = field a off n := by
  unfold field
  rw [List.drop_append_of_le_length (by omega), List.take_append_of_le_length (by simp; omega)]

/-- A field that is a list by itself. -/
theorem field_all (a : List Byte) : field a 0 a.length = leValue a := by
  simp [field]

/-- The first field. -/
theorem field_head (n v : Nat) (b : List Byte) : field (leBytes n v ++ b) 0 n = v % 256 ^ n := by
  rw [field_within _ _ _ _ (by simp)]
  have := field_all (leBytes n v)
  rw [leBytes_length] at this
  rw [this, leValue_leBytes]

/-- The only field. -/
theorem field_last (n v : Nat) : field (leBytes n v) 0 n = v % 256 ^ n := by
  have := field_head n v []
  rwa [List.append_nil] at this

/-- The members of a set written as a number (R184). -/
theorem setOf_testBit : ∀ (bs : List Bool) (m : Nat), (setOf bs).testBit m = bs.getD m false
  | [], m => by simp [setOf]
  | b :: bs, 0 => by cases b <;> simp [setOf, Nat.testBit_zero]
  | b :: bs, m + 1 => by
    rw [setOf, Nat.testBit_add_one]
    have : (b.toNat + 2 * setOf bs) / 2 = setOf bs := by
      cases b with
      | false => simp
      | true => simp; omega
    rw [this, setOf_testBit bs m]
    rfl

theorem setOf_lt : ∀ bs : List Bool, setOf bs < 2 ^ bs.length
  | [] => by simp [setOf]
  | b :: bs => by
    have := setOf_lt bs
    cases b <;> (simp [setOf, Nat.pow_succ]; omega)

/-! ## Runs of entries of one length -/

/-- The `n`th of the entries written one after another. -/
theorem flatMap_entry {α : Type} (f : α → List Byte) (len : Nat) (h : ∀ a, (f a).length = len) :
    ∀ (l : List α) (n : Nat) (a : α), l[n]? = some a → ((l.flatMap f).drop (len * n)).take len = f a
  | [], _, _, e => by simp at e
  | b :: l, 0, a, e => by
    obtain rfl : b = a := by simpa using e
    simp [List.flatMap_cons, h]
  | b :: l, n + 1, a, e => by
    have : len * (n + 1) = (f b).length + len * n := by rw [h, Nat.mul_succ, Nat.add_comm]
    rw [List.flatMap_cons, this, List.drop_length_add_append]
    exact flatMap_entry f len h l n a (by simpa using e)

theorem flatMap_length {α : Type} (f : α → List Byte) (len : Nat) (h : ∀ a, (f a).length = len) (l : List α) :
    (l.flatMap f).length = len * l.length := by
  induction l with
  | nil => simp
  | cons a l ih => rw [List.flatMap_cons, List.length_append, h, ih, List.length_cons, Nat.mul_succ, Nat.add_comm]

/-- The slots of a range that lies in the table, in order (R84, R203). -/
theorem slotRange_vals (first count : Nat) (h : first + count ≤ 192) :
    (slotRange first count).map Fin.val = List.range' first count := by
  have e : (slotRange first count).map Fin.val =
      (List.range 192).filter (fun i => decide (first ≤ i) && decide (i < first + count)) := by
    unfold slotRange
    rw [← List.map_coe_finRange_eq_range, List.filter_map]
    rfl
  have split : List.range 192 = List.range' 0 first ++ (List.range' first count ++
      List.range' (first + count) (192 - (first + count))) := by
    rw [List.range_eq_range', List.range'_append_1]
    have := List.range'_append_1 (s := 0) (m := first) (n := count + (192 - (first + count)))
    rw [Nat.zero_add] at this
    rw [this]
    congr 1
    omega
  rw [e, split, List.filter_append, List.filter_append, List.filter_eq_nil_iff.mpr, List.filter_eq_self.mpr,
    List.filter_eq_nil_iff.mpr, List.nil_append, List.append_nil]
  all_goals
    intro i hi
    simp only [List.mem_range'_1] at hi
    simp
    omega

theorem slotRange_length (first count : Nat) (h : first + count ≤ 192) : (slotRange first count).length = count := by
  have := congrArg List.length (slotRange_vals first count h)
  simpa using this

theorem slotRange_get (first count n : Nat) (i : SlotIx) (h : first + count ≤ 192) (hn : n < count)
    (hi : i.val = first + n) : (slotRange first count)[n]? = some i := by
  have := congrArg (fun l => l[n]?) (slotRange_vals first count h)
  simp only [List.getElem?_map, List.getElem?_range' hn, Nat.one_mul] at this
  cases e : (slotRange first count)[n]? with
  | none => rw [e] at this; cases this
  | some j =>
    rw [e] at this
    simp only [Option.map_some, Option.some.injEq] at this
    congr 1
    exact Fin.ext (by omega)

end Sys2Proof.Machine
end

