-- ==== Sys2Proof/Laws/Keeps.lean ====
section
/-! SUPPORT. Once for each shared operation, what it does to the properties of Sys2Proof/Safety.lean: `Keeps s t` says
that `t` has every one of them that `s` has, and that buffer memory, the scratch and the request queue are unchanged. It
is a preorder, so an operation built from others keeps what they keep. -/

namespace Sys2Proof.Machine

/-- What a shared operation keeps, from the state before it to the state after. -/
structure Keeps (s t : State) : Prop where
  frames : t.win.frames = s.win.frames
  scratch : t.stu.scratch = s.stu.scratch
  queue : t.req.queue = s.req.queue
  pending : t.pending = s.pending
  replies : t.replies ≤ s.replies
  flow : s.req.flowOut.length ≤ 8 → t.req.flowOut.length ≤ 8
  notices : s.ncu.notices.length ≤ 32 → t.ncu.notices.length ≤ 32
  slots : s.slotsInRange → t.slotsInRange
  lapsed : s.lapsedExact → t.lapsedExact
  down : s.downQuiet → t.downQuiet
  empty : s.noneEmpty → t.noneEmpty
  hold : s.holdReplyInHolding → t.holdReplyInHolding

theorem Keeps.refl (s : State) : Keeps s s := ⟨rfl, rfl, rfl, rfl, le_rfl, id, id, id, id, id, id, id⟩

theorem Keeps.trans {s t u : State} (h : Keeps s t) (k : Keeps t u) : Keeps s u :=
  ⟨k.frames.trans h.frames, k.scratch.trans h.scratch, k.queue.trans h.queue, k.pending.trans h.pending,
    k.replies.trans h.replies, k.flow ∘ h.flow, k.notices ∘ h.notices, k.slots ∘ h.slots, k.lapsed ∘ h.lapsed,
    k.down ∘ h.down, k.empty ∘ h.empty, k.hold ∘ h.hold⟩

/-- A choice between two operations keeps what both keep. -/
theorem Keeps.ite {s : State} {p : Prop} [Decidable p] {t u : State} (ht : p → Keeps s t) (hu : ¬p → Keeps s u) :
    Keeps s (if p then t else u) := by
  split
  · next h => exact ht h
  · next h => exact hu h

/-- An operation repeated over a list keeps what one round keeps. -/
theorem Keeps.foldl {α : Type} (f : State → α → State) (hf : ∀ s a, Keeps s (f s a)) :
    ∀ (l : List α) (s : State), Keeps s (l.foldl f s)
  | [], s => Keeps.refl s
  | a :: l, s => (hf s a).trans (Keeps.foldl f hf l (f s a))

theorem Keeps.forSlots (s : State) (f : SlotIx → State → State) (hf : ∀ i s, Keeps s (f i s)) :
    Keeps s (s.forSlots f) := Keeps.foldl _ (fun s i => hf i s) _ s

/-! ## Records -/

theorem Keeps.setSlot (s : State) (i : SlotIx) (v : Slot) (h : (s.slot i).InRange → v.InRange) :
    Keeps s (s.setSlot i v) :=
  { Keeps.refl s with
    slots := fun hs j => by
      by_cases hij : i = j
      · subst hij; simpa using h (hs i)
      · simpa [hij] using hs j
    lapsed := id, down := id, hold := id, replies := le_rfl
    empty := fun h n => ⟨(h n).assembly, (h n).records, (h n).digest, (h n).sites, (h n).regions, (h n).hold,
      (h n).pace, (h n).decay⟩ }

theorem Keeps.updSlot (s : State) (i : SlotIx) (f : Slot → Slot) (h : ∀ sl : Slot, sl.InRange → (f sl).InRange) :
    Keeps s (s.updSlot i f) := Keeps.setSlot s i _ (h _)

/-- Every slot record changed at once. -/
theorem Keeps.mapSlots (s : State) (f : Slot → Slot) (h : ∀ sl : Slot, sl.InRange → (f sl).InRange) :
    Keeps s { s with slots := s.slots.map f } :=
  { Keeps.refl s with
    slots := fun hs j => by
      have : State.slot { s with slots := s.slots.map f } j = f (s.slot j) := by simp [State.slot]
      rw [this]
      exact h _ (hs j)
    lapsed := id, down := id, hold := id, replies := le_rfl
    empty := fun h n => ⟨(h n).assembly, (h n).records, (h n).digest, (h n).sites, (h n).regions, (h n).hold,
      (h n).pace, (h n).decay⟩ }

theorem Keeps.updLink (s : State) (k : LinkIx) (f : Link → Link)
    (h : ∀ l : Link, l.lapsed = l.lapsedTags → (f l).lapsed = (f l).lapsedTags) : Keeps s (s.updLink k f) :=
  { Keeps.refl s with
    slots := id, down := id, hold := id, replies := le_rfl
    lapsed := fun hs j => by
      by_cases hij : k = j
      · subst hij; simpa using h _ (hs k)
      · simpa [hij] using hs j
    empty := fun h n => ⟨(h n).assembly, (h n).records, (h n).digest, (h n).sites, (h n).regions, (h n).hold,
      (h n).pace, (h n).decay⟩ }

theorem Keeps.updSession (s : State) (f : Session → Session) : Keeps s (s.updSession f) :=
  { Keeps.refl s with
    slots := id, down := id, hold := id, replies := le_rfl, lapsed := id
    empty := fun h n => by
      have hn : s.session = none := by simpa using n
      exact ⟨(h hn).assembly, (h hn).records, (h hn).digest, (h hn).sites, (h hn).regions, (h hn).hold,
        (h hn).pace, (h hn).decay⟩ }

theorem Keeps.reach (s : State) (d : Nat) : Keeps s (s.reach d) :=
  { Keeps.refl s with
    slots := id, down := id, hold := id, replies := le_rfl, lapsed := id
    empty := fun h n => ⟨(h n).assembly, (h n).records, (h n).digest, (h n).sites, (h n).regions, (h n).hold,
      (h n).pace, (h n).decay⟩ }

/-- The window's records, ring and waiting transfers changed, records only where there were some. -/
theorem Keeps.window (s : State) (rs : List ChunkRecord) (ring : Fin 14) (ts : List Transfer)
    (h : s.win.records = [] → rs = []) :
    Keeps s { s with win.records := rs, win.ring := ring, win.waiting := ts } :=
  { Keeps.refl s with
    slots := id, down := id, hold := id, replies := le_rfl, lapsed := id
    empty := fun hs n => ⟨(hs n).assembly, h (hs n).records, (hs n).digest, (hs n).sites, (hs n).regions, (hs n).hold,
      (hs n).pace, (hs n).decay⟩ }

theorem Keeps.records (s : State) (rs : List ChunkRecord) (h : s.win.records = [] → rs = []) :
    Keeps s { s with win.records := rs } := Keeps.window s rs s.win.ring s.win.waiting h

theorem Keeps.waiting (s : State) (ts : List Transfer) : Keeps s { s with win.waiting := ts } :=
  Keeps.window s s.win.records s.win.ring ts id

/-- NCU changed, its notice queue no longer than it may be. -/
theorem Keeps.ncu (s : State) (n : Ncu) (h : s.ncu.notices.length ≤ 32 → n.notices.length ≤ 32) :
    Keeps s { s with ncu := n } :=
  { Keeps.refl s with
    slots := id, down := id, hold := id, replies := le_rfl, lapsed := id, notices := h
    empty := fun h n => ⟨(h n).assembly, (h n).records, (h n).digest, (h n).sites, (h n).regions, (h n).hold,
      (h n).pace, (h n).decay⟩ }

/-- The stamp record store changed. -/
theorem Keeps.entries (s : State) (e : Vector (Vector StampEntry 32) 192) : Keeps s { s with stu.entries := e } :=
  { Keeps.refl s with
    slots := id, down := id, hold := id, replies := le_rfl, lapsed := id
    empty := fun h n => ⟨(h n).assembly, (h n).records, (h n).digest, (h n).sites, (h n).regions, (h n).hold,
      (h n).pace, (h n).decay⟩ }

/-! ## Counters, events, slot changes -/

theorem Keeps.count (s : State) (k : Fin 10) : Keeps s (s.count k) := Keeps.ncu s _ id

theorem Slot.InRange.of_eq {sl sl' : Slot} (h : sl.InRange) (h1 : sl'.trouble = sl.trouble)
    (h2 : sl'.residency = sl.residency) (h3 : sl'.pinCount = sl.pinCount) (h4 : sl'.clearCount = sl.clearCount)
    (h5 : sl'.throttled = sl.throttled) (h6 : sl'.throttledDepth = sl.throttledDepth) : sl'.InRange :=
  ⟨h1 ▸ h.trouble, h2 ▸ h.residency, h3 ▸ h.pinCount, h4 ▸ h.clearCount, by rw [h5, h6]; exact h.throttled,
    by rw [h6]; exact h.depth⟩

theorem Keeps.countSlot (s : State) (i : SlotIx) (k : Fin 5) : Keeps s (s.countSlot i k) :=
  Keeps.updSlot s i _ (fun _ h => h.of_eq rfl rfl rfl rfl rfl rfl)

theorem Keeps.appendNotice (s : State) (e : Event) : Keeps s (s.appendNotice e) := by
  unfold State.appendNotice
  refine Keeps.ite (fun h => ?_) (fun _ => ?_)
  · refine Keeps.ncu s _ (fun _ => ?_)
    simp only [Config.noticeQueue] at h
    simp only [List.length_append, List.length_cons, List.length_nil]
    omega
  · exact (Keeps.ncu s { s.ncu with noticesLost := true } id).trans (Keeps.count _ _)

theorem Keeps.raise (s : State) (e : Event) : Keeps s (s.raise e) := by
  unfold State.raise
  have h : Keeps s { s with ncu.seen := s.ncu.seen ||| e.bit } := Keeps.ncu s _ id
  exact Keeps.ite (fun _ => h.trans (Keeps.appendNotice _ e)) (fun _ => h)

theorem Keeps.moveSlot (s : State) (i : SlotIx) (new : SlotState) : Keeps s (s.moveSlot i new) := by
  unfold State.moveSlot
  refine Keeps.trans ?_ (Keeps.raise _ _)
  exact Keeps.setSlot s i _ (fun h => h.of_eq rfl rfl rfl rfl rfl rfl)

/-- What a slot change keeps after an operation. -/
theorem Keeps.thenMove {s t : State} (h : Keeps s t) (i : SlotIx) (new : SlotState) : Keeps s (t.moveSlot i new) :=
  h.trans (Keeps.moveSlot t i new)

/-- What an event raised keeps after an operation. -/
theorem Keeps.thenRaise {s t : State} (h : Keeps s t) (e : Event) : Keeps s (t.raise e) := h.trans (Keeps.raise t e)

/-- What a change of a slot record keeps after an operation. -/
theorem Keeps.thenUpd {s t : State} (h : Keeps s t) (i : SlotIx) (f : Slot → Slot)
    (hf : ∀ sl : Slot, sl.InRange → (f sl).InRange) : Keeps s (t.updSlot i f) := h.trans (Keeps.updSlot t i f hf)

/-! ## Replies and flow -/

theorem Keeps.settleHold (s : State) (st : ReplyStatus) (h : HoldState) : Keeps s (s.settleHold st h) := by
  unfold State.settleHold
  split
  · exact Keeps.refl s
  · next tag ht =>
    exact { Keeps.refl s with
      replies := by simp [State.replies, State.pushReply, ht]
      slots := id, lapsed := id, down := id
      hold := fun _ h => by simp [State.pushReply] at h
      empty := fun h n => ⟨(h n).assembly, (h n).records, (h n).digest, (h n).sites, (h n).regions, (h n).hold,
        (h n).pace, (h n).decay⟩ }

theorem State.sendFlow_length (s : State) (h : s.req.flowOut.length ≤ 8) : s.sendFlow.req.flowOut.length ≤ 8 := by
  unfold State.sendFlow Config.flowOutbox
  by_cases h8 : s.req.flowOut.length < 8
  · simp [h8]
  · simp [h8]; omega

theorem Keeps.evalFlow (s : State) : Keeps s s.evalFlow := by
  unfold State.evalFlow
  refine Keeps.ite (fun h => ?_) (fun _ => Keeps.refl s)
  exact { Keeps.refl s with
    replies := le_rfl, slots := id, lapsed := id, hold := id
    flow := fun hf => State.sendFlow_length _ hf
    down := fun _ hd => by simp [h.1] at hd
    empty := fun h n => ⟨(h n).assembly, (h n).records, (h n).digest, (h n).sites, (h n).regions, (h n).hold,
      (h n).pace, (h n).decay⟩ }

/-! ## Retirement, pass end, HELD -/

theorem retired_nil : retired [] = [] := rfl

theorem lowerOwed_nil (p : Nat → Bool) : lowerOwed p [] = [] := rfl

theorem Keeps.clearRoster (s : State) : Keeps s s.clearRoster :=
  Keeps.mapSlots s _ (fun _ h => h.of_eq rfl rfl rfl rfl rfl rfl)

theorem Keeps.passEnd (s : State) : Keeps s s.passEnd := by
  unfold State.passEnd
  refine Keeps.thenRaise ?_ _
  exact (Keeps.updSession s _).trans (Keeps.clearRoster _)

theorem Keeps.retire (s : State) : Keeps s s.retire := by
  unfold State.retire
  have h : Keeps s { s with win.records := retired s.win.records } :=
    Keeps.records s _ (fun h => by rw [h]; rfl)
  exact Keeps.ite (fun _ => h.trans (Keeps.passEnd _)) (fun _ => h)

theorem Keeps.retireFlow (s : State) : Keeps s s.retireFlow := by
  unfold State.retireFlow
  exact Keeps.ite (fun _ => Keeps.retire s) (fun _ => (Keeps.retire s).trans (Keeps.evalFlow _))

theorem Keeps.testHeld (s : State) : Keeps s s.testHeld := by
  unfold State.testHeld
  refine Keeps.ite (fun h => ?_) (fun _ => Keeps.refl s)
  refine Keeps.trans ?_ (Keeps.raise _ _)
  unfold State.settleHold
  split
  · next ht =>
    have ht' : s.wsc.holdReply = none := ht
    exact { Keeps.refl s with
      replies := le_rfl, slots := id, lapsed := id, down := id
      hold := fun _ hs => by simp [ht'] at hs
      empty := fun hs n => by simp [(hs n).hold] at h }
  · next tag ht =>
    have ht' : s.wsc.holdReply = some tag := ht
    exact { Keeps.refl s with
      replies := by simp [State.replies, State.pushReply, ht']
      slots := id, lapsed := id, down := id
      hold := fun _ hs => by simp [State.pushReply] at hs
      empty := fun hs n => by
        have n' : s.session = none := n
        simp [(hs n').hold] at h }

theorem Keeps.close (s : State) : Keeps s s.close := (Keeps.retireFlow s).trans (Keeps.testHeld _)

/-! ## Abandonment and the ways a slot leaves a state -/

theorem Slot.InRange.givePlaces {sl : Slot} (h : sl.InRange) (n : Nat) : (sl.givePlaces n).InRange :=
  ⟨h.trouble, h.residency, h.pinCount, h.clearCount, by simp [Slot.givePlaces, h.throttled], by
    intro d hd
    simp only [Slot.givePlaces, Option.map_eq_some_iff] at hd
    obtain ⟨_, _, rfl⟩ := hd
    omega⟩

theorem TagState.abandon_lapsed (i : SlotIx) (e : Bool) (t : TagState) :
    (t.abandon i e == .lapsed) = (t == .lapsed) := by
  unfold TagState.abandon
  cases t <;> simp only [] <;> (try split) <;> (try split) <;> rfl

theorem Link.lapsedTags_abandon (l : Link) (i : SlotIx) (e : Bool) :
    Link.lapsedTags { l with tags := l.tags.map (TagState.abandon i e) } = l.lapsedTags := by
  simp only [Link.lapsedTags, Vector.toList_map, List.countP_map]
  congr 1
  funext t
  exact TagState.abandon_lapsed i e t

theorem Keeps.stopRead (s : State) (i : SlotIx) : Keeps s (s.stopRead i) := by
  unfold State.stopRead
  refine Keeps.ite (fun _ => ?_) (fun _ => Keeps.refl s)
  exact (Keeps.updLink s (linkOf i) (fun l => { l with path := none }) (fun _ h => h)).trans
    (Keeps.waiting _ (withdraw (linkOf i) s.win.waiting))

theorem Keeps.abandon (s : State) (i : SlotIx) (e : Bool) : Keeps s (s.abandon i e) := by
  unfold State.abandon
  refine ((Keeps.stopRead s i).trans (Keeps.updSlot _ i _ (fun sl h => ?_))).trans
    (Keeps.updLink _ _ _ (fun l h => ?_))
  · exact (h.givePlaces (s.places i)).of_eq rfl rfl rfl rfl rfl rfl
  · rw [Link.lapsedTags_abandon]; exact h

theorem Keeps.releaseOwed (s : State) (i : SlotIx) : Keeps s (s.releaseOwed i) := by
  unfold State.releaseOwed
  exact Keeps.ite (fun _ => Keeps.records s _ (fun h => by rw [h]; rfl)) (fun _ => Keeps.refl s)

theorem Keeps.leave (s : State) (i : SlotIx) (e : Bool) : Keeps s (s.leave i e) := by
  unfold State.leave
  refine Keeps.thenUpd ?_ i _ (fun _ h => h.of_eq rfl rfl rfl rfl rfl rfl)
  exact (Keeps.abandon s i e).trans (Keeps.releaseOwed _ i)

theorem Keeps.failSlot (s : State) (i : SlotIx) (o : Outcome) : Keeps s (s.failSlot i o) := by
  unfold State.failSlot
  refine Keeps.thenMove ?_ i _
  exact Keeps.thenUpd (Keeps.leave s i false) i _ (fun _ h => h.of_eq rfl rfl rfl rfl rfl rfl)

theorem Keeps.emptySlot (s : State) (i : SlotIx) (why : OutcomeKind) : Keeps s (s.emptySlot i why) := by
  unfold State.emptySlot
  refine Keeps.ite (fun _ => Keeps.refl s) (fun _ => ?_)
  refine Keeps.thenMove ?_ i _
  refine Keeps.thenUpd (Keeps.leave s i true) i _ (fun t h => ?_)
  split <;> exact h.of_eq rfl rfl rfl rfl rfl rfl

theorem Keeps.detachSlot (s : State) (i : SlotIx) : Keeps s (s.detachSlot i) := by
  unfold State.detachSlot
  refine Keeps.thenMove ?_ i _
  refine Keeps.thenUpd (Keeps.leave s i false) i _ (fun t h => ?_)
  exact ⟨h.trouble, h.residency, Nat.zero_le _, Nat.zero_le _, h.throttled, h.depth⟩

/-! ## Trouble -/

theorem Keeps.throttleSlot (s : State) (i : SlotIx) : Keeps s (s.throttleSlot i) := by
  unfold State.throttleSlot
  refine Keeps.updSlot s i _ (fun sl h => ?_)
  split
  · exact ⟨h.trouble, Nat.zero_le _, h.pinCount, h.clearCount, h.throttled, h.depth⟩
  · exact ⟨h.trouble, Nat.zero_le _, h.pinCount, h.clearCount, rfl, by
      intro d hd
      simp only [Option.some.injEq] at hd
      omega⟩

theorem Keeps.raiseTrouble (s : State) (i : SlotIx) (w : Nat) (go : State → State) (hg : ∀ t, Keeps t (go t)) :
    Keeps s (s.raiseTrouble i w go) := by
  unfold State.raiseTrouble
  have h : Keeps s (s.updSlot i (fun sl => { sl with trouble := min 63 ((s.slot i).trouble + w) })) :=
    Keeps.updSlot s i _ (fun sl h => ⟨by simp, h.residency, h.pinCount, h.clearCount, h.throttled, h.depth⟩)
  refine Keeps.ite (fun _ => h.trans (Keeps.failSlot _ i _)) (fun _ => h.trans ?_)
  exact Keeps.trans (Keeps.ite (fun _ => Keeps.throttleSlot _ i) (fun _ => Keeps.refl _)) (hg _)

theorem Keeps.retryEntry (s : State) (i : SlotIx) (tag : LinkTag) (e : Entry) (o : Outcome) :
    Keeps s (s.retryEntry i tag e o) := by
  unfold State.retryEntry
  exact Keeps.ite (fun _ => Keeps.updSlot s i _ (fun _ h => h.of_eq rfl rfl rfl rfl rfl rfl))
    (fun _ => Keeps.failSlot s i o)

/-! ## Stamps and enrolment -/

theorem Keeps.setEntry (s : State) (i : SlotIx) (site : Nat) (e : StampEntry) : Keeps s (s.setEntry i site e) := by
  unfold State.setEntry
  split
  · exact Keeps.entries s _
  · exact Keeps.refl s

theorem Keeps.renderOne (s : State) (i : SlotIx) (n c site : Nat) (t : Site) : Keeps s (s.renderOne i n c site t) := by
  unfold State.renderOne
  split
  · exact Keeps.refl s
  · exact Keeps.ite (fun _ => (Keeps.setEntry s i site _).trans (Keeps.raise _ _)) (fun _ => Keeps.setEntry s i site _)

theorem Keeps.clearEntries (s : State) (i : SlotIx) : Keeps s (s.clearEntries i) := Keeps.entries s _

theorem Keeps.renderStamps (s : State) (i : SlotIx) (n c : Nat) : Keeps s (s.renderStamps i n c) := by
  unfold State.renderStamps
  refine (Keeps.clearEntries s i).trans (Keeps.foldl _ (fun t p => ?_) _ _)
  exact Keeps.renderOne t i n c p.2 p.1

theorem Keeps.attemptGuard (s : State) (i : SlotIx) (site : Nat) : Keeps s (s.attemptGuard i site) := by
  unfold State.attemptGuard
  split
  · split
    · split
      · split
        · exact Keeps.setEntry s i site _
        · exact Keeps.refl s
      · exact Keeps.refl s
    · exact Keeps.refl s
  · exact Keeps.refl s

theorem Keeps.attemptGuards (s : State) (i : SlotIx) (c : Nat) : Keeps s (s.attemptGuards i c) := by
  unfold State.attemptGuards
  refine Keeps.foldl _ (fun t p => ?_) _ s
  exact Keeps.attemptGuard t i p.1

theorem Keeps.stallTest (s : State) (i : SlotIx) (c : Nat) : Keeps s (s.stallTest i c) := by
  unfold State.stallTest
  refine Keeps.ite (fun _ => Keeps.attemptGuards s i c) (fun _ => ?_)
  split
  · exact Keeps.attemptGuards s i c
  · refine Keeps.thenRaise ?_ _
    exact Keeps.thenUpd (Keeps.attemptGuards s i c) i _ (fun _ h => h.of_eq rfl rfl rfl rfl rfl rfl)

theorem Slot.InRange.enrolled {sl : Slot} (h : sl.InRange) (x : Session) : (sl.enrolled x).InRange := by
  refine ⟨h.trouble, h.residency, Nat.zero_le _, Nat.zero_le _, ?_, ?_⟩
  · show sl.throttled = (if sl.throttled then some 1 else none : Option Nat).isSome
    cases sl.throttled <;> rfl
  · show ∀ d, (if sl.throttled then some 1 else none : Option Nat) = some d → 1 ≤ d
    cases sl.throttled <;> simp

theorem Keeps.enrol (s : State) (i : SlotIx) : Keeps s (s.enrol i) := by
  unfold State.enrol
  refine Keeps.ite (fun _ => ?_) (fun _ => Keeps.ite (fun _ => Keeps.refl s) (fun _ => ?_))
  · refine Keeps.thenMove (Keeps.thenUpd ?_ i _ (fun _ h => h.enrolled _)) i _
    exact (Keeps.updSession s _).trans (Keeps.renderStamps _ i _ _)
  · exact Keeps.thenRaise (Keeps.updSession s _) _

theorem Keeps.enterReady (s : State) (i : SlotIx) : Keeps s (s.enterReady i) := by
  unfold State.enterReady
  have h := (Keeps.updSlot s i (fun sl => { sl with qual := none })
    (fun _ h => h.of_eq rfl rfl rfl rfl rfl rfl)).trans (Keeps.moveSlot _ i .ready)
  exact Keeps.ite (fun _ => h.trans (Keeps.enrol _ i)) (fun _ => h)

theorem Keeps.enterSizing (s : State) (i : SlotIx) : Keeps s (s.enterSizing i) := by
  unfold State.enterSizing
  refine Keeps.thenMove ?_ i _
  exact Keeps.updSlot s i _ (fun _ h => h.of_eq rfl rfl rfl rfl rfl rfl)

theorem Keeps.goLive (s : State) (i : SlotIx) : Keeps s (s.goLive i) := by
  unfold State.goLive
  refine Keeps.thenMove ?_ i _
  exact Keeps.updSlot s i _ (fun _ h => h.of_eq rfl rfl rfl rfl rfl rfl)

/-! ## Acknowledgement, snapshots, link loss -/

theorem Slot.InRange.acknowledged {sl : Slot} (h : sl.InRange) (c : Nat) : (sl.acknowledged c).InRange := by
  unfold Slot.acknowledged
  split <;> exact h.of_eq rfl rfl rfl rfl rfl rfl

theorem Keeps.spanUsed (s : State) (i : SlotIx) : Keeps s (s.spanUsed i) := by
  unfold State.spanUsed
  split
  · refine Keeps.thenMove (Keeps.updSlot s i _ (fun sl h => ?_)) i _
    exact ⟨h.trouble, h.residency, Nat.zero_le _, Nat.zero_le _, h.throttled, h.depth⟩
  · refine Keeps.ite (fun _ => ?_) (fun _ => ?_)
    · refine Keeps.thenMove ?_ i _
      exact Keeps.updSlot s i _ (fun _ h => h.of_eq rfl rfl rfl rfl rfl rfl)
    · refine Keeps.thenMove ?_ i _
      exact Keeps.updSlot s i _ (fun _ h => h.of_eq rfl rfl rfl rfl rfl rfl)

theorem Keeps.acknowledge (s : State) (i : SlotIx) (c : Nat) : Keeps s (s.acknowledge i c) := by
  unfold State.acknowledge
  have h := (Keeps.updSlot s i (fun sl => sl.acknowledged c) (fun _ h => h.acknowledged c)).trans
    (Keeps.records _ (lowerOwed (fun d => d == c) (s.updSlot i (fun sl => sl.acknowledged c)).win.records)
      (fun h => by rw [h]; rfl))
  exact Keeps.ite (fun _ => h.trans (Keeps.spanUsed _ i)) (fun _ => h)

theorem Keeps.takeSnapshot (s : State) : Keeps s s.takeSnapshot := by
  unfold State.takeSnapshot
  refine Keeps.thenRaise ?_ _
  exact Keeps.ncu s _ id

theorem Keeps.linkSlots (s : State) (k : LinkIx) (f : State → SlotIx → State) (hf : ∀ t i, Keeps t (f t i)) :
    Keeps s ((List.finRange 16).foldl (fun t j => f t (slotAt k j)) s) := by
  refine Keeps.foldl _ (fun t j => ?_) _ s
  exact hf t (slotAt k j)

theorem Keeps.loseLink (s : State) (k : LinkIx) (cause : LossCause) : Keeps s (s.loseLink k cause) := by
  unfold State.loseLink
  refine Keeps.thenRaise ?_ _
  refine Keeps.trans ?_ (Keeps.retireFlow _)
  refine Keeps.trans ?_ (Keeps.linkSlots _ k (fun t i => t.updSlot i (fun sl => { sl with lamp := ⟨.off, none⟩ })) ?_)
  · refine Keeps.trans ?_ (Keeps.waiting _ _)
    refine Keeps.trans (Keeps.linkSlots s k (fun t i => t.emptySlot i .linkLost)
      (fun t i => Keeps.emptySlot t i .linkLost)) ?_
    refine Keeps.updLink _ k _ (fun l _ => ?_)
    show 0 = (Vector.replicate 256 TagState.free).toList.countP _
    rw [Vector.toList_replicate, List.countP_replicate]
    rfl
  · intro t i
    exact Keeps.updSlot t i _ (fun _ h => h.of_eq rfl rfl rfl rfl rfl rfl)

end Sys2Proof.Machine
end

