-- ==== Sys2Proof/Laws/Leaving.lean ====
section
/-! SUPPORT. What FAILED, the retry decision after a rise of trouble, and the loss of a link leave, each said once. -/

namespace Sys2Proof.Machine

/-! ## FAILED (R79, R94) -/

/-- The departure to a state other than EMPTY, on the links: the path given up, the slot's tags ABANDONED (R94). -/
theorem State.leave_links (s : State) (i : SlotIx) (e : Bool) :
    (s.leave i e).link (linkOf i) = { s.link (linkOf i) with
      path := (s.link (linkOf i)).path.filter (fun g => g.slot != i)
      tags := (s.link (linkOf i)).tags.map (TagState.abandon i e) } ∧
    ∀ k, k ≠ linkOf i → (s.leave i e).link k = s.link k := by
  have hr : ∀ (t : State) k, (t.releaseOwed i).link k = t.link k := fun t k => by
    unfold State.releaseOwed; dsimp only; split <;> rfl
  unfold State.leave
  refine ⟨?_, fun k hk => ?_⟩
  · rw [State.updSlot_link, hr]
    unfold State.abandon
    dsimp only
    rw [State.updLink_self, State.updSlot_link]
    unfold State.stopRead
    dsimp only
    split
    · next h =>
      rw [show ∀ (t : State) w, State.link { t with win.waiting := w } (linkOf i) = t.link (linkOf i) from fun _ _ => rfl,
        State.updLink_self]
      unfold Link.grants at h
      cases hp : (s.link (linkOf i)).path with
      | none => rw [hp] at h; cases h
      | some g => rw [hp] at h; simp at h; simp [Option.filter, h]
    · next h =>
      unfold Link.grants at h
      cases hp : (s.link (linkOf i)).path with
      | none =>
        rw [Option.filter_none, ← hp]
      | some g =>
        rw [hp] at h
        simp at h
        simp only [Option.filter, bne_iff_ne, ne_eq, h, not_false_eq_true, if_true, ← hp]
  · rw [State.updSlot_link, hr]
    unfold State.abandon
    dsimp only
    rw [State.updLink_link_ne _ _ (Ne.symm hk), State.updSlot_link]
    unfold State.stopRead
    dsimp only
    split
    · exact State.updLink_link_ne s (fun l => { l with path := none }) (Ne.symm hk)
    · rfl

/-- The departure, on the waiting transfers: those of the read it stops are withdrawn (R25, R43). -/
theorem State.leave_waiting (s : State) (i : SlotIx) (e : Bool) : (s.leave i e).win.waiting =
    if (s.link (linkOf i)).grants i then withdraw (linkOf i) s.win.waiting else s.win.waiting := by
  have hr : ∀ t : State, (t.releaseOwed i).win.waiting = t.win.waiting := fun t => by
    unfold State.releaseOwed; dsimp only; split <;> rfl
  unfold State.leave State.updSlot State.setSlot
  dsimp only
  rw [hr]
  unfold State.abandon State.stopRead State.updLink State.setLink State.updSlot State.setSlot
  dsimp only
  split <;> rfl

/-- What NCU records of an event depends on its own state alone (R193, R194). -/
theorem State.raise_ncu_congr {s t : State} (e : Event) (h : t.ncu = s.ncu) : (t.raise e).ncu = (s.raise e).ncu := by
  unfold State.raise State.appendNotice State.count
  dsimp only
  rw [h]
  split <;> (try split) <;> rfl

/-- `failSlot` takes a slot to FAILED and does nothing else. -/
theorem State.failSlot_failed (s : State) (i : SlotIx) (o : Outcome) : Failed s (s.failSlot i o) i o where
  own := by rw [State.failSlot_self]; rfl
  others j h := State.failSlot_ne s o (Ne.symm h)
  link := by
    simp only [State.failSlot, State.moveSlot_link, State.updSlot_link]
    exact (s.leave_links i false).1
  links k h := by
    simp only [State.failSlot, State.moveSlot_link, State.updSlot_link]
    exact (s.leave_links i false).2 k h
  records := s.failSlot_records i o
  waiting := by
    simp only [State.failSlot, State.moveSlot_win]
    exact s.leave_waiting i false
  ncu := by
    unfold State.failSlot
    rw [State.moveSlot_spec, State.updSlot_self, State.leave_self]
    exact State.raise_ncu_congr _ (by rw [State.leave_frame]; rfl)
  rest := by
    unfold State.failSlot
    rw [State.moveSlot_spec, State.raise_spec, State.leave_frame]
    rfl

/-! ## The retry decision (R163, R164) -/

/-- `raiseTrouble` with a retry decision `go` that, on a state of the session `x`, retries below the limit and fails the
slot at it. -/
theorem State.raiseTrouble_decision (u : State) (x : Session) (i : SlotIx) (w n : Nat) (go : State → State)
    (again : Slot → Slot) (o : Outcome) (hx : u.ses = x)
    (hgo : ∀ v : State, v.ses = x →
      (n < x.tune.retryLimit → go v = v.updSlot i again) ∧ (x.tune.retryLimit ≤ n → go v = v.failSlot i o)) :
    RetryDecision u x i w n again o (.next (u.raiseTrouble i w go).close) := by
  have below : min 63 ((u.slot i).trouble + w) < x.tune.eject →
      u.raiseTrouble i w go = go (u.setSlot i ((u.slot i).risen x w (u.places i))) := fun h => by
    unfold State.raiseTrouble
    simp only [hx]
    rw [if_neg (by omega)]
    congr 1
    unfold Slot.risen
    dsimp only
    by_cases ht : min 63 ((u.slot i).trouble + w) < x.tune.throttle
    · rw [if_neg (by omega), if_pos ht]; rfl
    · rw [if_pos (by omega), if_neg ht]
      unfold State.throttleSlot State.updSlot
      simp only [State.setSlot_self, State.setSlot_setSlot]
      have hp : (u.setSlot i { u.slot i with trouble := min 63 ((u.slot i).trouble + w) }).places i = u.places i := by
        unfold State.places State.grantPlace
        rw [State.setSlot_self]
        rfl
      rw [hp]
  have hs : ∀ z, (u.setSlot i z).ses = x := fun z => by simpa using hx
  refine ⟨fun h => ⟨_, rfl, ?_⟩, fun h hn => ?_, fun h hn => ⟨_, rfl, ?_⟩⟩
  · have : u.raiseTrouble i w go =
        (u.setSlot i { u.slot i with trouble := min 63 ((u.slot i).trouble + w) }).failSlot i
          ⟨.trouble, none, none, none⟩ := by
      unfold State.raiseTrouble
      simp only [hx]
      rw [if_pos h]
      rfl
    rw [this]
    exact State.failSlot_failed _ _ _
  · rw [below h, ((hgo _ (hs _)).1 hn)]
    unfold State.updSlot
    simp only [State.setSlot_self, State.setSlot_setSlot]
  · rw [below h, ((hgo _ (hs _)).2 hn)]
    exact State.failSlot_failed _ _ _

/-! ## The loss of a link (R90) -/

/-- Lowering as a subtraction of 0 or 1. -/
theorem lowerOwed_map (p : Nat → Bool) (rs : List ChunkRecord) : lowerOwed p rs = rs.map (fun r =>
    { r with resident := r.resident.map (fun y => { y with owed := y.owed - (if p r.chunk then 1 else 0) }) }) := by
  unfold lowerOwed
  congr 1
  funext r
  congr 2
  funext y
  split <;> simp_all

/-- Several slots leave, one after another, in a session that stays: each record loses what the LIVE ones owe it. -/
theorem foldl_recordsWithout {α : Type} (which : α → SlotIx) (f : State → α → State) (x : Option Session)
    (records : ∀ t a, t.session = x → (f t a).win.records = t.recordsWithout (which a))
    (session : ∀ t a, t.session = x → (f t a).session = x)
    (others : ∀ t a j, which a ≠ j → (f t a).slot j = t.slot j) :
    ∀ (l : List α) (t : State), t.session = x → (l.map which).Nodup →
      (l.foldl f t).win.records = t.win.records.map (fun r =>
      { r with resident := r.resident.map (fun y => { y with owed := y.owed - l.countP (fun a =>
        (t.slot (which a)).state == .live && (t.slot (which a)).owes (t.head.getD 0) r.chunk) }) })
  | [], t, _, _ => by simp
  | a :: l, t, hx, nd => by
    obtain ⟨ha, nd⟩ := List.nodup_cons.mp nd
    rw [List.foldl_cons, foldl_recordsWithout which f x records session others l _ (session t a hx) nd, records t a hx]
    have same : ∀ c, ∀ j ∈ l,
        ((f t a).slot (which j)).state == .live && ((f t a).slot (which j)).owes ((f t a).head.getD 0) c ↔
          (t.slot (which j)).state == .live && (t.slot (which j)).owes (t.head.getD 0) c := fun c j hj => by
      have hne : which a ≠ which j := fun e => ha (by rw [e]; exact List.mem_map_of_mem hj)
      rw [others _ _ _ hne]
      unfold State.head
      rw [session t a hx, hx]
    have cnt := fun c => List.countP_congr (same c)
    simp only [cnt]
    unfold State.recordsWithout
    split
    · next h =>
      rw [lowerOwed_map, List.map_map]
      congr 1
      funext r
      simp only [Function.comp, Option.map_map]
      congr 2
      funext y
      simp only [Function.comp]
      congr 1
      rw [List.countP_cons]
      simp only [h, beq_self_eq_true, Bool.true_and]
      omega
    · next h =>
      congr 1
      funext r
      congr 2
      funext y
      rw [List.countP_cons]
      simp [h]

/-- What emptying the slots of a link does to the window's records: each loses what the link's LIVE slots owe it. -/
theorem State.emptyLink_records (s : State) (k : LinkIx) : (s.emptyLink k).win.records = s.recordsWithoutLink k := by
  have inj : ∀ a b : Socket, slotAt k a = slotAt k b → a = b := fun a b h => by
    have := congrArg Fin.val h
    simp only [slotAt] at this
    exact Fin.ext (by omega)
  unfold State.emptyLink
  rw [foldl_recordsWithout (slotAt k) (fun t j => t.emptySlot (slotAt k j) .linkLost) s.session
    (fun t j _ => t.emptySlot_records _ _) (fun t j h => by rw [State.emptySlot_session, h])
    (fun t j i h => State.emptySlot_ne t _ h) _ s rfl ((List.nodup_finRange 16).map (fun a b h => inj a b h))]
  unfold State.recordsWithoutLink
  congr 1
  funext r
  congr 2
  funext y
  congr 2
  have : ∀ p : SlotIx → Bool, (List.finRange 16).countP (fun j => p (slotAt k j)) =
      (List.finRange 192).countP (fun i => linkOf i == k && p i) := fun p => by
    rw [show (fun j => p (slotAt k j)) = p ∘ slotAt k from rfl, ← List.countP_map, List.countP_eq_length_filter,
      List.countP_eq_length_filter]
    apply List.Perm.length_eq
    apply (List.perm_ext_iff_of_nodup _ _).mpr
    · intro i
      simp only [List.mem_filter, List.mem_map, List.mem_finRange, true_and, Bool.and_eq_true, beq_iff_eq]
      constructor
      · rintro ⟨⟨j, rfl⟩, h⟩; exact ⟨linkOf_slotAt k j, h⟩
      · rintro ⟨h, h'⟩; exact ⟨⟨socketOf i, slotAt_of_link h⟩, h'⟩
    · exact ((List.nodup_finRange 16).map (fun a b h => inj a b h)).filter _
    · exact (List.nodup_finRange 192).filter _
  have := this (fun i => (s.slot i).state == .live && (s.slot i).owes (s.head.getD 0) r.chunk)
  rw [this]
  simp only [Bool.and_assoc]

/-- The loss of a link is retirement with its flow after the slots, the record and the lamps, and then LINK-LOST. -/
theorem State.loseLink_lost (s : State) (k : LinkIx) (c : LossCause) :
    ∃ v : State, s.loseLink k c = v.raise (.linkLost k c) ∧ v.win.records = retired (s.recordsWithoutLink k) ∧
      Elsewhere s v (fun i => linkOf i = k) := by
  refine ⟨_, rfl, ?_, ?_⟩
  · have h : (((s.emptyLink k).resetLink k).lampsOff k).win.records = (s.emptyLink k).win.records := by
      unfold State.lampsOff
      generalize (List.finRange 16) = l
      have : ∀ t : State, (l.foldl (fun t j => t.updSlot (slotAt k j) (fun sl => { sl with lamp := ⟨.off, none⟩ })) t).win =
          t.win := by
        induction l with
        | nil => exact fun _ => rfl
        | cons a l ih => intro t; rw [List.foldl_cons, ih]; rfl
      have reset : ∀ t : State, (t.resetLink k).win.records = t.win.records := fun _ => rfl
      rw [this, reset]
    rw [State.retireFlow_records, h]
    exact congrArg retired (State.emptyLink_records s k)
  · exact Elsewhere.lossOf s k

end Sys2Proof.Machine
end

