-- ==== Sys2Proof/Laws/Memory.lean ====
section
/-! SUPPORT. Buffer memory: every operation keeps the canonical form, a byte written is the byte read, and a write leaves
every other byte. -/

namespace Sys2Proof.Machine

theorem Memory.wfFrom_mono {lo lo' : Nat} (h : lo' ≤ lo) :
    ∀ {m : Memory}, Memory.wfFrom lo m = true → Memory.wfFrom lo' m = true
  | [], _ => rfl
  | (a, b) :: m, hm => by
    simp only [Memory.wfFrom, Bool.and_eq_true, decide_eq_true_eq] at hm ⊢
    exact ⟨⟨by omega, hm.1.2⟩, hm.2⟩

theorem Memory.wfFrom_filter (p : Host.Cell → Bool) :
    ∀ {m : Memory} {lo : Nat}, Memory.wfFrom lo m = true → Memory.wfFrom lo (m.filter p) = true
  | [], _, _ => rfl
  | (a, b) :: m, lo, hm => by
    simp only [Memory.wfFrom, Bool.and_eq_true, decide_eq_true_eq] at hm
    by_cases hp : p (a, b) = true
    · simp only [List.filter_cons, hp, if_true, Memory.wfFrom, Bool.and_eq_true, decide_eq_true_eq]
      exact ⟨hm.1, Memory.wfFrom_filter p hm.2⟩
    · simp only [List.filter_cons, hp]
      exact Memory.wfFrom_mono (by omega) (Memory.wfFrom_filter p hm.2)

theorem Memory.wfFrom_filter_ge (hi : Nat) :
    ∀ {m : Memory} {lo : Nat}, Memory.wfFrom lo m = true →
      Memory.wfFrom hi (m.filter (fun c => decide (hi ≤ c.1))) = true
  | [], _, _ => rfl
  | (a, b) :: m, lo, hm => by
    simp only [Memory.wfFrom, Bool.and_eq_true, decide_eq_true_eq] at hm
    by_cases hp : hi ≤ a
    · simp only [List.filter_cons, decide_eq_true_eq, hp, if_true, Memory.wfFrom, Bool.and_eq_true]
      exact ⟨⟨trivial, hm.1.2⟩, Memory.wfFrom_filter _ hm.2⟩
    · simp only [List.filter_cons, decide_eq_true_eq, hp, if_false]
      exact Memory.wfFrom_filter_ge hi hm.2

theorem Memory.wfFrom_append {hi : Nat} {n : Memory} (hn : Memory.wfFrom hi n = true) :
    ∀ {m : Memory} {lo : Nat}, lo ≤ hi → Memory.wfFrom lo m = true → (∀ c ∈ m, c.1 < hi) →
      Memory.wfFrom lo (m ++ n) = true
  | [], _, h, _, _ => Memory.wfFrom_mono h hn
  | (a, b) :: m, lo, h, hm, hc => by
    simp only [List.cons_append, Memory.wfFrom, Bool.and_eq_true, decide_eq_true_eq] at hm ⊢
    have := hc (a, b) (by simp)
    exact ⟨hm.1, Memory.wfFrom_append hn (by simpa using this) hm.2 (fun c hm => hc c (by simp [hm]))⟩

theorem cellsOf_wfFrom : ∀ (bytes : List Byte) (a : Nat), Memory.wfFrom a (cellsOf a bytes) = true
  | [], _ => rfl
  | b :: bs, a => by
    unfold cellsOf
    split
    · exact Memory.wfFrom_mono (by omega) (cellsOf_wfFrom bs (a + 1))
    · next h => simp [Memory.wfFrom, cellsOf_wfFrom bs (a + 1), h]

theorem cellsOf_bounds : ∀ (bytes : List Byte) (a : Nat), ∀ c ∈ cellsOf a bytes, a ≤ c.1 ∧ c.1 < a + bytes.length
  | [], _, c, h => by simp [cellsOf] at h
  | b :: bs, a, c, h => by
    unfold cellsOf at h
    split at h
    · have := cellsOf_bounds bs (a + 1) c h
      simp only [List.length_cons]; omega
    · rcases List.mem_cons.1 h with rfl | h
      · simp
      · have := cellsOf_bounds bs (a + 1) c h
        simp only [List.length_cons]; omega

/-- A write keeps the canonical form. -/
theorem Memory.write_wf {m : Memory} (h : m.wf = true) (a : Nat) (bytes : List Byte) : (m.write a bytes).wf = true := by
  unfold Memory.write Memory.wf at *
  refine Memory.wfFrom_append (hi := a) ?_ (Nat.zero_le a) (Memory.wfFrom_filter _ h) (by simp)
  refine Memory.wfFrom_append (hi := a + bytes.length) (Memory.wfFrom_filter_ge _ h) (by omega)
    (cellsOf_wfFrom bytes a) (fun c hc => (cellsOf_bounds bytes a c hc).2)

/-- No cell is listed in an empty memory. -/
theorem Memory.nil_wf : Memory.wf [] = true := rfl

/-! ## Bytes -/

@[simp] theorem Memory.byte_cons_self (k : Nat) (b : Byte) (m : Memory) : Memory.byte ((k, b) :: m) k = b := by
  simp [Memory.byte]

theorem Memory.byte_cons_ne {k x : Nat} (b : Byte) (m : Memory) (h : k ≠ x) :
    Memory.byte ((k, b) :: m) x = Memory.byte m x := by
  simp [Memory.byte, h]

theorem Memory.byte_append (m n : Memory) (x : Nat) (hm : ∀ c ∈ m, c.1 ≠ x) : Memory.byte (m ++ n) x = Memory.byte n x := by
  have : m.find? (fun c => c.1 == x) = none := by simpa using fun a b h => hm (a, b) h
  simp [Memory.byte, List.find?_append, this]

theorem Memory.byte_append_left (m n : Memory) (x : Nat) (hn : ∀ c ∈ n, c.1 ≠ x) :
    Memory.byte (m ++ n) x = Memory.byte m x := by
  have : n.find? (fun c => c.1 == x) = none := by simpa using fun a b h => hn (a, b) h
  simp [Memory.byte, List.find?_append, this]

theorem Memory.byte_filter (m : Memory) (p : Nat → Bool) (x : Nat) (hx : p x = true) :
    Memory.byte (m.filter (fun c => p c.1)) x = Memory.byte m x := by
  simp only [Memory.byte, List.find?_filter]
  congr 2
  funext c
  by_cases h : c.1 = x
  · simp [h, hx]
  · simp [h]

theorem cellsOf_byte : ∀ (bytes : List Byte) (a i : Nat) (h : i < bytes.length),
    Memory.byte (cellsOf a bytes) (a + i) = bytes[i]
  | [], _, _, h => by simp at h
  | b :: bs, a, 0, _ => by
    unfold cellsOf
    split
    · next h =>
      have : Memory.byte (cellsOf (a + 1) bs) a = Config.unwrittenByte := by
        have : (cellsOf (a + 1) bs).find? (fun c => c.1 == a) = none := by
          simp only [List.find?_eq_none, beq_iff_eq]
          intro c hc
          have := (cellsOf_bounds bs (a + 1) c hc).1
          omega
        simp [Memory.byte, this]
      simpa [h] using this
    · simp [Memory.byte]
  | b :: bs, a, i + 1, h => by
    have ih := cellsOf_byte bs (a + 1) i (by simpa using h)
    have e : a + (i + 1) = a + 1 + i := by omega
    unfold cellsOf
    split
    · simpa [e] using ih
    · rw [Memory.byte_cons_ne _ _ (by omega)]
      simpa [e] using ih

/-- A byte written is the byte read. -/
theorem Memory.byte_write_in (m : Memory) (a : Nat) (bytes : List Byte) (i : Nat) (h : i < bytes.length) :
    (m.write a bytes).byte (a + i) = bytes[i] := by
  unfold Memory.write
  rw [Memory.byte_append _ _ _ (by simp; omega), Memory.byte_append_left _ _ _ (by simp; omega)]
  exact cellsOf_byte bytes a i h

/-- A write leaves every byte outside it. -/
theorem Memory.byte_write_out (m : Memory) (a : Nat) (bytes : List Byte) (x : Nat) (h : x < a ∨ a + bytes.length ≤ x) :
    (m.write a bytes).byte x = m.byte x := by
  unfold Memory.write
  have hc : ∀ c ∈ cellsOf a bytes, c.1 ≠ x := fun c hc => by
    have := cellsOf_bounds bytes a c hc
    omega
  rcases h with h | h
  · rw [Memory.byte_append_left]
    · exact Memory.byte_filter m (fun k => decide (k < a)) x (by simpa using h)
    · intro c hm
      rcases List.mem_append.1 hm with hm | hm
      · exact hc c hm
      · have := (List.mem_filter.1 hm).2
        simp only [decide_eq_true_eq] at this
        omega
  · rw [Memory.byte_append _ _ _ (by simp; omega), Memory.byte_append _ _ _ hc]
    exact Memory.byte_filter m (fun k => decide (a + bytes.length ≤ k)) x (by simpa using h)

theorem readRun_eq : ∀ (n a : Nat) (m : Memory), Memory.wfFrom a m = true →
    readRun a n m = (List.range n).map (fun i => m.byte (a + i))
  | 0, _, _, _ => rfl
  | n + 1, a, [], _ => by
    rw [readRun, readRun_eq n (a + 1) [] rfl, List.range_succ_eq_map]
    simp [Memory.byte, List.map_const', Function.comp_def]
  | n + 1, a, (k, b) :: m, h => by
    simp only [Memory.wfFrom, Bool.and_eq_true, decide_eq_true_eq] at h
    unfold readRun
    split
    · next hk =>
      subst hk
      rw [readRun_eq n (k + 1) m h.2, List.range_succ_eq_map]
      simp only [List.map_cons, List.map_map]
      congr 1
      · simp [Memory.byte]
      · refine List.map_congr_left (fun i _ => ?_)
        have e : k + 1 + i = k + (i + 1) := by omega
        simp only [Function.comp, e, Nat.succ_eq_add_one]
        rw [Memory.byte_cons_ne _ _ (by omega)]
    · next hk =>
      have hlt : a + 1 ≤ k := by omega
      rw [readRun_eq n (a + 1) ((k, b) :: m) (by simp [Memory.wfFrom, h.1.2, h.2, hlt]), List.range_succ_eq_map]
      simp only [List.map_cons, List.map_map]
      congr 1
      · have : ((k, b) :: m).find? (fun c => c.1 == a) = none := by
          simp only [List.find?_eq_none, beq_iff_eq, List.mem_cons]
          rintro c (rfl | hc)
          · simpa using hk
          · intro hca
            have key : ∀ (m : Memory) (lo : Nat), Memory.wfFrom lo m = true → ∀ c ∈ m, lo ≤ c.1 := by
              intro m
              induction m with
              | nil => intro lo _ c hc; simp at hc
              | cons d m ih =>
                obtain ⟨d, e⟩ := d
                intro lo hm c hc
                simp only [Memory.wfFrom, Bool.and_eq_true, decide_eq_true_eq] at hm
                rcases List.mem_cons.1 hc with rfl | hc
                · exact hm.1.1
                · have := ih (d + 1) hm.2 c hc
                  omega
            have := key m (k + 1) h.2 c hc
            omega
        simp [Memory.byte, this]
      · refine List.map_congr_left (fun i _ => ?_)
        have e : a + 1 + i = a + (i + 1) := by omega
        simp [e]

theorem Memory.dropWhile_wfFrom (a : Nat) : ∀ {m : Memory} {lo : Nat}, Memory.wfFrom lo m = true →
    Memory.wfFrom a (m.dropWhile (fun c => decide (c.1 < a))) = true
  | [], _, _ => rfl
  | (k, b) :: m, lo, h => by
    simp only [Memory.wfFrom, Bool.and_eq_true, decide_eq_true_eq] at h
    by_cases hk : k < a
    · simp only [List.dropWhile_cons, hk, decide_true, if_true]
      exact Memory.dropWhile_wfFrom a h.2
    · simp only [List.dropWhile_cons, hk, decide_false]
      simp [Memory.wfFrom, h.1.2, h.2]
      omega

theorem Memory.byte_dropWhile (a : Nat) : ∀ (m : Memory) (x : Nat), a ≤ x →
    Memory.byte (m.dropWhile (fun c => decide (c.1 < a))) x = Memory.byte m x
  | [], _, _ => rfl
  | (k, b) :: m, x, hx => by
    by_cases hk : k < a
    · rw [List.dropWhile_cons, if_pos (by simpa using hk), Memory.byte_cons_ne _ _ (by omega)]
      exact Memory.byte_dropWhile a m x hx
    · simp [hk]

/-- A run of bytes read is the bytes at its addresses, in order. -/
theorem Memory.read_eq {m : Memory} (h : m.wf = true) (a n : Nat) :
    m.read a n = (List.range n).map (fun i => m.byte (a + i)) := by
  rw [Memory.read, readRun_eq n a _ (Memory.dropWhile_wfFrom a h)]
  exact List.map_congr_left (fun i _ => Memory.byte_dropWhile a m (a + i) (by omega))

/-- The bytes written are the bytes read. -/
theorem Memory.read_write {m : Memory} (h : m.wf = true) (a : Nat) (bytes : List Byte) :
    (m.write a bytes).read a bytes.length = bytes := by
  rw [Memory.read_eq (Memory.write_wf h a bytes)]
  apply List.ext_getElem (by simp)
  intro i h1 h2
  simp only [List.getElem_map, List.getElem_range]
  exact Memory.byte_write_in m a bytes i h2

end Sys2Proof.Machine
end

