-- ==== Sys2Proof/Laws/Window.lean ====
section
/-! SUPPORT. Once for each shared operation, that it keeps the window invariant and the distinct ordinals of
Sys2Proof/Safety.lean: `Upkeep s t` says that `t` has each of the two that `s` has. It is a preorder, so an operation
built from others keeps what they keep. -/

namespace Sys2Proof.Machine

/-- What a shared operation keeps of the window and the ordinals. -/
structure Upkeep (s t : State) : Prop where
  window : s.windowed → t.windowed
  ordinals : s.ordinalsDistinct → t.ordinalsDistinct

theorem Upkeep.refl (s : State) : Upkeep s s := ⟨id, id⟩

theorem Upkeep.trans {s t u : State} (h : Upkeep s t) (k : Upkeep t u) : Upkeep s u :=
  ⟨k.window ∘ h.window, k.ordinals ∘ h.ordinals⟩

theorem Upkeep.ite {s : State} {p : Prop} [Decidable p] {t u : State} (ht : p → Upkeep s t) (hu : ¬p → Upkeep s u) :
    Upkeep s (if p then t else u) := by
  split
  · next h => exact ht h
  · next h => exact hu h

theorem Upkeep.foldl {α : Type} (f : State → α → State) (hf : ∀ s a, Upkeep s (f s a)) :
    ∀ (l : List α) (s : State), Upkeep s (l.foldl f s)
  | [], s => Upkeep.refl s
  | a :: l, s => (hf s a).trans (Upkeep.foldl f hf l (f s a))

theorem Upkeep.forSlots (s : State) (f : SlotIx → State → State) (hf : ∀ i s, Upkeep s (f i s)) :
    Upkeep s (s.forSlots f) := Upkeep.foldl _ (fun s i => hf i s) _ s

/-! ## What leaves the window and the ordinals alone -/

/-- What the window invariant sees of a record. -/
def ChunkRecord.shape (r : ChunkRecord) : Nat × Nat × Bool := (r.chunk, r.frame, r.resident.isSome)

/-- A list of records less some RESIDENT ones at its tail, the others keeping chunk, frame and state. -/
def Trimmed (rs kept : List ChunkRecord) : Prop :=
  ∃ gone : List ChunkRecord, (∀ r ∈ gone, r.resident ≠ none) ∧
    rs.map ChunkRecord.shape = gone.map ChunkRecord.shape ++ kept.map ChunkRecord.shape

theorem Trimmed.refl (rs : List ChunkRecord) : Trimmed rs rs := ⟨[], by simp, by simp⟩

theorem Trimmed.lowerOwed (p : Nat → Bool) (rs : List ChunkRecord) : Trimmed rs (lowerOwed p rs) := by
  refine ⟨[], by simp, ?_⟩
  simp [Machine.lowerOwed, ChunkRecord.shape, Function.comp_def]

theorem Trimmed.retired : ∀ rs : List ChunkRecord, Trimmed rs (retired rs)
  | [] => Trimmed.refl []
  | r :: rs => by
    unfold Machine.retired
    split
    · next x hx =>
      split
      · obtain ⟨gone, h1, h2⟩ := Trimmed.retired rs
        exact ⟨r :: gone, by simpa [hx] using h1, by simp [h2]⟩
      · exact Trimmed.refl _
    · exact Trimmed.refl _

/-- The window invariant when records leave the tail and the session keeps its window, pass and phase. -/
theorem State.WindowOf.trim {s t : State} {x : Session} (h : s.WindowOf x) (ha : t.intake.assembly = s.intake.assembly)
    (hr : Trimmed s.win.records t.win.records) : t.WindowOf x := by
  obtain ⟨gone, h1, h2⟩ := hr
  have hl : s.win.records.length = gone.length + t.win.records.length := by
    simpa using congrArg List.length h2
  have proj : ∀ {α : Type} (f : Nat × Nat × Bool → α), s.win.records.map (f ∘ ChunkRecord.shape) =
      gone.map (f ∘ ChunkRecord.shape) ++ t.win.records.map (f ∘ ChunkRecord.shape) := fun f => by
    simpa using congrArg (List.map f) h2
  have hc := proj (fun p => p.1)
  have hf := proj (fun p => p.2.1)
  have hb := proj (fun p => p.2.2)
  simp only [Function.comp_def, ChunkRecord.shape] at hc hf hb
  have mem : ∀ r ∈ t.win.records, ∃ q ∈ s.win.records, q.shape = r.shape := fun r hr => by
    have : r.shape ∈ s.win.records.map ChunkRecord.shape := by rw [h2]; simp; exact .inr ⟨r, hr, rfl⟩
    simpa using this
  refine ⟨by have := h.size; omega, h.pool, ?_, ?_, fun r hr => ?_, fun n r hr => ?_, fun a e => ?_, h.head, h.streaming,
    h.draining, fun p q => ?_⟩
  · obtain ⟨tail, e, k⟩ := h.chunks
    refine ⟨tail + gone.length, ?_, by rw [ha]; omega⟩
    have e2 : s.win.records.map ChunkRecord.chunk = gone.map ChunkRecord.chunk ++ t.win.records.map ChunkRecord.chunk := hc
    rw [e2, hl, ← List.range'_append] at e
    simpa using (List.append_inj e (by simp)).2
  · have : (gone.map ChunkRecord.frame ++ t.win.records.map ChunkRecord.frame).Nodup := by
      have e2 : s.win.records.map ChunkRecord.frame = _ := hf
      rw [← e2]; exact h.frames
    exact (List.nodup_append.mp this).2.1
  · obtain ⟨q, hq, e⟩ := mem r hr
    have := h.frame q hq
    simp only [ChunkRecord.shape, Prod.mk.injEq] at e
    omega
  · obtain ⟨q, hq, e⟩ := mem r hr
    have := h.resident (ha ▸ n) q hq
    simp only [ChunkRecord.shape, Prod.mk.injEq] at e
    intro c
    rw [c] at e
    cases hx : q.resident <;> simp_all
  · obtain ⟨c1, c2, c3, c4, c5, pre, c6, c7⟩ := h.assembling a (ha ▸ e)
    refine ⟨c1, c2, c3, c4, c5, ?_⟩
    rw [c6] at h2
    rcases List.eq_nil_or_concat t.win.records with hn | ⟨init, last, hn⟩
    · exfalso
      rw [hn] at h2
      simp only [List.map_append, List.map_cons, List.map_nil, List.append_nil] at h2
      rcases List.eq_nil_or_concat gone with gn | ⟨gi, gl, gn⟩
      · rw [gn] at h2; simp at h2
      · rw [gn] at h2
        simp only [List.concat_eq_append, List.map_append, List.map_cons, List.map_nil] at h2
        have := (List.append_inj' h2 rfl).2
        have hg := h1 gl (by rw [gn]; simp)
        simp only [ChunkRecord.shape, List.cons.injEq, and_true, Prod.mk.injEq] at this
        cases hx : gl.resident <;> simp_all
    · rw [hn] at h2 ⊢
      simp only [List.concat_eq_append, List.map_append, List.map_cons, List.map_nil] at h2 ⊢
      rw [← List.append_assoc] at h2
      obtain ⟨e1, e2⟩ := List.append_inj' h2 rfl
      refine ⟨init, ?_, fun r hr => ?_⟩
      · simp only [ChunkRecord.shape, List.cons.injEq, and_true, Prod.mk.injEq] at e2
        obtain ⟨i1, i2, i3⟩ := e2
        have : last.resident = none := by cases hx : last.resident <;> simp_all
        rw [i1, i2, ← this]
      · have : r.shape ∈ pre.map ChunkRecord.shape := by rw [e1]; simp; exact .inr ⟨r, hr, rfl⟩
        obtain ⟨q, hq, e⟩ := List.mem_map.mp this
        have := c7 q hq
        simp only [ChunkRecord.shape, Prod.mk.injEq] at e
        intro c
        rw [c] at e
        cases hx : q.resident <;> simp_all
  · have := h.idle p q
    rw [this] at hl
    exact List.eq_nil_of_length_eq_zero (by simp at hl; omega)

/-- An operation that leaves session and assembly as they are, trims the window at most, and gives no slot a new
ordinal, keeps both invariants. -/
theorem Upkeep.of {s t : State} (hs : t.session = s.session) (ha : t.intake.assembly = s.intake.assembly)
    (hr : Trimmed s.win.records t.win.records)
    (ho : ∀ i, (t.slot i).ordinal = (s.slot i).ordinal ∨ (t.slot i).ordinal = none) : Upkeep s t where
  window h := by
    refine ⟨fun n => ?_, fun x hx => (h.2 x (hs ▸ hx)).trim ha hr⟩
    obtain ⟨e, a⟩ := h.1 (hs ▸ n)
    obtain ⟨gone, _, k⟩ := hr
    rw [e] at k
    simp only [List.map_nil] at k
    exact ⟨by simpa using (List.append_eq_nil_iff.mp k.symm).2, ha.trans a⟩
  ordinals h := by
    have old : ∀ i n, (t.slot i).ordinal = some n → (s.slot i).ordinal = some n := fun i n e => by
      rcases ho i with k | k
      · rw [← k]; exact e
      · rw [k] at e; cases e
    refine ⟨fun n i => ?_, fun x hx => ?_⟩
    · have := h.1 (hs ▸ n) i
      rcases ho i with k | k
      · rw [k, this]
      · exact k
    · obtain ⟨a, b, c⟩ := h.2 x (hs ▸ hx)
      exact ⟨a, fun i n e => b i n (old i n e), fun i j n e f => c i j n (old i n e) (old j n f)⟩

/-- The same where nothing the invariants look at changes. -/
theorem Upkeep.same {s t : State} (hs : t.session = s.session) (ha : t.intake.assembly = s.intake.assembly)
    (hr : t.win.records = s.win.records) (ho : t.slots = s.slots) : Upkeep s t :=
  Upkeep.of hs ha (by rw [hr]; exact Trimmed.refl _) (fun i => .inl (by simp only [State.slot, ho]))

theorem Upkeep.setSlot (s : State) (i : SlotIx) (v : Slot) (h : v.ordinal = (s.slot i).ordinal ∨ v.ordinal = none) :
    Upkeep s (s.setSlot i v) :=
  Upkeep.of rfl rfl (Trimmed.refl _) (fun j => by
    rw [State.setSlot_slot]
    split
    · next e => subst e; exact h
    · exact .inl rfl)

theorem Upkeep.updSlot (s : State) (i : SlotIx) (f : Slot → Slot)
    (h : ∀ sl : Slot, (f sl).ordinal = sl.ordinal ∨ (f sl).ordinal = none := by exact fun _ => .inl rfl) :
    Upkeep s (s.updSlot i f) := Upkeep.setSlot s i _ (h _)

theorem Upkeep.mapSlots (s : State) (f : Slot → Slot)
    (h : ∀ sl : Slot, (f sl).ordinal = sl.ordinal ∨ (f sl).ordinal = none) :
    Upkeep s { s with slots := s.slots.map f } :=
  Upkeep.of rfl rfl (Trimmed.refl _) (fun j => by simpa [State.slot] using h s.slots[j])

theorem Upkeep.updLink (s : State) (k : LinkIx) (f : Link → Link) : Upkeep s (s.updLink k f) :=
  Upkeep.same rfl rfl rfl rfl

theorem Upkeep.lower (s : State) (p : Nat → Bool) : Upkeep s { s with win.records := lowerOwed p s.win.records } :=
  Upkeep.of rfl rfl (Trimmed.lowerOwed _ _) (fun _ => .inl rfl)

theorem Upkeep.countSlot (s : State) (i : SlotIx) (k : Fin 5) : Upkeep s (s.countSlot i k) := Upkeep.updSlot s i _

theorem Upkeep.raise (s : State) (e : Event) : Upkeep s (s.raise e) := Upkeep.same (by simp) (by simp) (by simp) (by simp)

theorem Upkeep.moveSlot (s : State) (i : SlotIx) (new : SlotState) : Upkeep s (s.moveSlot i new) := by
  rw [State.moveSlot_spec]
  exact (Upkeep.setSlot s i ((s.slot i).moved new) (.inl rfl)).trans (Upkeep.raise _ _)

/-- What a slot change keeps after an operation, and what a change of a slot record that keeps its ordinal does. -/
theorem Upkeep.thenMove {s t : State} (h : Upkeep s t) (i : SlotIx) (new : SlotState) : Upkeep s (t.moveSlot i new) :=
  h.trans (Upkeep.moveSlot t i new)
theorem Upkeep.thenUpd {s t : State} (h : Upkeep s t) (i : SlotIx) (f : Slot → Slot)
    (hf : ∀ sl : Slot, (f sl).ordinal = sl.ordinal ∨ (f sl).ordinal = none := by exact fun _ => .inl rfl) :
    Upkeep s (t.updSlot i f) := h.trans (Upkeep.updSlot t i f hf)
theorem Upkeep.thenRaise {s t : State} (h : Upkeep s t) (e : Event) : Upkeep s (t.raise e) := h.trans (Upkeep.raise t e)

/-! ## Replies, flow, the end of an event -/

theorem Upkeep.settleHold (s : State) (st : ReplyStatus) (h : HoldState) : Upkeep s (s.settleHold st h) := by
  rw [State.settleHold_spec]
  exact Upkeep.same rfl rfl rfl rfl

theorem Upkeep.evalFlow (s : State) : Upkeep s s.evalFlow := Upkeep.same (by simp) (by simp) (by simp) (by simp)

/-- The window invariant when the session changes and neither the window nor the assembly does. -/
theorem State.WindowOf.session {s t : State} {x y : Session} (h : s.WindowOf x)
    (ha : t.intake.assembly = s.intake.assembly) (hr : t.win.records = s.win.records)
    (size : s.win.records.length ≤ y.windowSize) (pool : y.windowSize ≤ 4096) (next : y.nextChunk = x.nextChunk)
    (image : y.imageLength = x.imageLength)
    (open_ : s.intake.assembly.isSome = true → y.phase = .running ∧ y.pass = .streaming)
    (streaming : y.pass = .streaming → x.pass = .streaming) (draining : y.pass = .draining → x.pass = .draining)
    (idle : y.phase ≠ .faulted → y.pass = .noPass → s.win.records = []) : t.WindowOf y where
  size := by rw [hr]; exact size
  pool := pool
  chunks := by rw [hr, ha, next]; exact h.chunks
  frames := by rw [hr]; exact h.frames
  frame := by rw [hr]; exact h.frame
  resident n := by rw [hr]; exact h.resident (ha ▸ n)
  assembling a e := by
    obtain ⟨c1, c2, c3, _, _, c6⟩ := h.assembling a (ha ▸ e)
    obtain ⟨p, q⟩ := open_ (by rw [← ha, e]; rfl)
    exact ⟨by rw [next]; exact c1, c2, c3, p, q, by rw [hr]; exact c6⟩
  head := by rw [next, image]; exact h.head
  streaming e := by rw [next, image]; exact h.streaming (streaming e)
  draining e := by rw [next, image]; exact h.draining (draining e)
  idle p q := by rw [hr]; exact idle p q

/-- An empty window has no assembly open. -/
theorem State.WindowOf.no_assembly {s : State} {x : Session} (h : s.WindowOf x) (e : s.win.records = []) :
    s.intake.assembly = none := by
  cases ha : s.intake.assembly with
  | none => rfl
  | some a =>
    obtain ⟨_, _, _, _, _, pre, k, _⟩ := h.assembling a ha
    rw [e] at k
    simp at k

/-- Retirement keeps the window, and a pass that ends with it ends on an empty one (R12, R34). -/
theorem Upkeep.retire (s : State) : Upkeep s s.retire := by
  have h : Upkeep s { s with win.records := retired s.win.records } :=
    Upkeep.of rfl rfl (Trimmed.retired _) (fun _ => .inl rfl)
  unfold State.retire
  refine Upkeep.ite (fun e => ?_) (fun _ => h)
  have he : State.win { s with win.records := retired s.win.records } = { s.win with records := [] } := by rw [← e.1]
  generalize ({ s with win.records := retired s.win.records } : State) = t at *
  refine ⟨fun w => ⟨fun n => ?_, fun x hx => ?_⟩, fun o => ⟨fun n i => ?_, fun x hx => ?_⟩⟩
  · simp only [State.passEnd_session, Option.map_eq_none_iff] at n
    simpa using (h.window w).1 n
  · simp only [State.passEnd_session, Option.map_eq_some_iff] at hx
    obtain ⟨y, hy, rfl⟩ := hx
    have w' := (h.window w).2 y hy
    have ha := w'.no_assembly (by rw [he])
    exact w'.session (by simp) (by simp) w'.size w'.pool rfl rfl (fun k => by rw [ha] at k; cases k) (fun k => by cases k)
      (fun k => by cases k) (fun _ _ => by rw [he])
  · simp only [State.passEnd_session, Option.map_eq_none_iff] at n
    rw [State.passEnd_slot]
    exact (h.ordinals o).1 n i
  · simp only [State.passEnd_session, Option.map_eq_some_iff] at hx
    obtain ⟨y, hy, rfl⟩ := hx
    simp only [State.passEnd_slot]
    exact (h.ordinals o).2 y hy

theorem Upkeep.retireFlow (s : State) : Upkeep s s.retireFlow := by
  unfold State.retireFlow
  exact Upkeep.ite (fun _ => Upkeep.retire s) (fun _ => (Upkeep.retire s).trans (Upkeep.evalFlow _))

theorem Upkeep.testHeld (s : State) : Upkeep s s.testHeld := Upkeep.same (by simp) (by simp) (by simp) (by simp)

theorem Upkeep.close (s : State) : Upkeep s s.close := (Upkeep.retireFlow s).trans (Upkeep.testHeld _)

/-! ## The ways a slot leaves a state -/

theorem Upkeep.leave (s : State) (i : SlotIx) (e : Bool) : Upkeep s (s.leave i e) :=
  Upkeep.of (by simp) (by simp)
    (by
      rw [State.leave_records]
      unfold State.recordsWithout
      split
      · exact Trimmed.lowerOwed _ _
      · exact Trimmed.refl _)
    (fun j => .inl (by
      by_cases h : i = j
      · subst h; rw [State.leave_self]; rfl
      · rw [State.leave_ne s e h]))

theorem Upkeep.failSlot (s : State) (i : SlotIx) (o : Outcome) : Upkeep s (s.failSlot i o) :=
  ((Upkeep.leave s i false).thenUpd i _).thenMove i _

theorem Upkeep.emptySlot (s : State) (i : SlotIx) (why : OutcomeKind) : Upkeep s (s.emptySlot i why) := by
  unfold State.emptySlot
  refine Upkeep.ite (fun _ => Upkeep.refl s) (fun _ => ?_)
  exact ((Upkeep.leave s i true).thenUpd i _ (fun t => .inl (by split <;> rfl))).thenMove i _

theorem Upkeep.detachSlot (s : State) (i : SlotIx) : Upkeep s (s.detachSlot i) :=
  ((Upkeep.leave s i false).thenUpd i _).thenMove i _

theorem Upkeep.raiseTrouble (s : State) (i : SlotIx) (w : Nat) (go : State → State) (hg : ∀ t, Upkeep t (go t)) :
    Upkeep s (s.raiseTrouble i w go) := by
  unfold State.raiseTrouble
  have h : Upkeep s (s.updSlot i (fun sl => { sl with trouble := min 63 ((s.slot i).trouble + w) })) :=
    Upkeep.updSlot s i _
  refine Upkeep.ite (fun _ => h.trans (Upkeep.failSlot _ i _)) (fun _ => h.trans ?_)
  refine Upkeep.trans (Upkeep.ite (fun _ => ?_) (fun _ => Upkeep.refl _)) (hg _)
  unfold State.throttleSlot
  exact Upkeep.updSlot _ i _ (fun sl => .inl (by split <;> rfl))

theorem Upkeep.retryEntry (s : State) (i : SlotIx) (tag : LinkTag) (e : Entry) (o : Outcome) :
    Upkeep s (s.retryEntry i tag e o) := by
  unfold State.retryEntry
  exact Upkeep.ite (fun _ => Upkeep.updSlot s i _) (fun _ => Upkeep.failSlot s i o)

/-! ## Stamps, enrolment, acknowledgement -/

/-- The stamp store and NCU are no part of the window or the ordinals. -/
theorem Upkeep.setEntry (s : State) (i : SlotIx) (site : Nat) (e : StampEntry) : Upkeep s (s.setEntry i site e) := by
  unfold State.setEntry
  split
  · exact Upkeep.same rfl rfl rfl rfl
  · exact Upkeep.refl s

theorem Upkeep.attemptGuard (s : State) (i : SlotIx) (site : Nat) : Upkeep s (s.attemptGuard i site) := by
  unfold State.attemptGuard
  repeat' split
  all_goals first | exact Upkeep.setEntry s i site _ | exact Upkeep.refl s

theorem Upkeep.attemptGuards (s : State) (i : SlotIx) (c : Nat) : Upkeep s (s.attemptGuards i c) := by
  unfold State.attemptGuards
  refine Upkeep.foldl _ (fun t p => ?_) _ s
  exact Upkeep.attemptGuard t i p.1

theorem Upkeep.stallTest (s : State) (i : SlotIx) (c : Nat) : Upkeep s (s.stallTest i c) := by
  unfold State.stallTest
  refine Upkeep.ite (fun _ => Upkeep.attemptGuards s i c) (fun _ => ?_)
  split
  · exact Upkeep.attemptGuards s i c
  · exact ((Upkeep.attemptGuards s i c).thenUpd i _).thenRaise _

/-- Rendering a slot's stamps writes the stamp store and NCU alone (R120). -/
theorem State.renderStamps_frame (s : State) (i : SlotIx) (n c : Nat) : s.renderStamps i n c =
    { s with stu := (s.renderStamps i n c).stu, ncu := (s.renderStamps i n c).ncu } := by
  have one : ∀ (t : State) (p : Site × Nat), t.renderOne i n c p.2 p.1 =
      { t with stu := (t.renderOne i n c p.2 p.1).stu, ncu := (t.renderOne i n c p.2 p.1).ncu } := fun t p => by
    unfold State.renderOne State.setEntry
    split
    · rfl
    · dsimp only
      split <;> split <;> first | rfl | (rw [State.raise_spec])
  have fold : ∀ (l : List (Site × Nat)) (t : State), let u := l.foldl (fun t p => t.renderOne i n c p.2 p.1) t
      u = { t with stu := u.stu, ncu := u.ncu } := by
    intro l
    induction l with
    | nil => exact fun _ => rfl
    | cons p l ih =>
      intro t
      have h := ih (t.renderOne i n c p.2 p.1)
      dsimp only at h ⊢
      rw [List.foldl_cons]
      rw [one t p] at h ⊢
      exact h
  exact fold s.stu.sites.zipIdx (s.clearEntries i)

/-- Enrolment gives a slot the next ordinal, above every one held, and raises next ordinal by 1 (R7). -/
theorem Upkeep.enrol (s : State) (i : SlotIx) (hs : s.session.isSome = true) : Upkeep s (s.enrol i) := by
  obtain ⟨x0, hx0⟩ := Option.isSome_iff_exists.mp hs
  have kept : ∀ f : Session → Session, (∀ x, (f x).phase = x.phase ∧ (f x).pass = x.pass ∧
      (f x).windowSize = x.windowSize ∧ (f x).nextChunk = x.nextChunk ∧ (f x).imageLength = x.imageLength) →
      s.windowed → (s.updSession f).windowed := fun f hf w => by
    refine ⟨fun n => w.1 (by simpa using n), fun x hx => ?_⟩
    simp only [State.updSession_session, Option.map_eq_some_iff] at hx
    obtain ⟨y, hy, rfl⟩ := hx
    obtain ⟨h1, h2, h3, h4, h5⟩ := hf y
    have h := w.2 y hy
    refine h.session rfl rfl (by rw [h3]; exact h.size) (by rw [h3]; exact h.pool) h4 h5 (fun k => ?_)
      (fun k => h2 ▸ k) (fun k => h2 ▸ k) (fun a b => h.idle (h1 ▸ a) (h2 ▸ b))
    obtain ⟨a, ha⟩ := Option.isSome_iff_exists.mp k
    obtain ⟨_, _, _, p, q, _⟩ := h.assembling a ha
    exact ⟨h1.trans p, h2.trans q⟩
  unfold State.enrol
  refine Upkeep.ite (fun hn => ?_) (fun _ => Upkeep.ite (fun _ => Upkeep.refl s) (fun _ => ?_))
  · have hw := kept (fun y => { y with nextOrdinal := y.nextOrdinal + 1 }) (fun _ => ⟨rfl, rfl, rfl, rfl, rfl⟩)
    rw [State.renderStamps_frame]
    generalize (State.renderStamps _ i _ _).stu = stu
    generalize (State.renderStamps _ i _ _).ncu = ncu
    set t : State := { s.updSession (fun y => { y with nextOrdinal := y.nextOrdinal + 1 }) with stu := stu, ncu := ncu }
    have hts : t.session = some { x0 with nextOrdinal := x0.nextOrdinal + 1 } := by
      show s.session.map _ = _
      rw [hx0]; rfl
    set u := t.updSlot i (fun sl => sl.enrolled s.ses)
    refine Upkeep.thenMove ⟨fun w => ?_, fun o => ⟨fun n => ?_, fun x hx => ?_⟩⟩ i _
    · have := hw w
      refine ⟨this.1, fun x hx => (this.2 x hx).session rfl rfl (this.2 x hx).size (this.2 x hx).pool rfl rfl ?_ id id
        (this.2 x hx).idle⟩
      intro k
      obtain ⟨a, ha⟩ := Option.isSome_iff_exists.mp k
      obtain ⟨_, _, _, p, q, _⟩ := (this.2 x hx).assembling a ha
      exact ⟨p, q⟩
    · rw [show u.session = t.session from rfl, hts] at n
      cases n
    · rw [show u.session = t.session from rfl, hts] at hx
      cases hx
      obtain ⟨b, c, d⟩ := o.2 x0 hx0
      rw [State.ses_eq hx0] at hn
      have hu : ∀ j n, (u.slot j).ordinal = some n → (j = i ∧ n = x0.nextOrdinal) ∨ (j ≠ i ∧ (s.slot j).ordinal = some n) :=
        fun j n e => by
          by_cases h : i = j
          · subst h
            rw [State.updSlot_self, State.ses_eq hx0] at e
            exact .inl ⟨rfl, (Option.some.inj e).symm⟩
          · rw [State.updSlot_slot_ne _ _ h] at e
            exact .inr ⟨Ne.symm h, e⟩
      simp only [Config.ordinals] at hn
      refine ⟨by show x0.nextOrdinal + 1 ≤ 65536; omega, fun j n e => ?_, fun j k n e f => ?_⟩
      · show n < x0.nextOrdinal + 1
        rcases hu j n e with ⟨_, h⟩ | ⟨_, h⟩
        · omega
        · have := c j n h; omega
      · rcases hu j n e with ⟨h1, h⟩ | ⟨h1, h⟩ <;> rcases hu k n f with ⟨k1, g⟩ | ⟨k1, g⟩
        · rw [h1, k1]
        · have := c _ n g; omega
        · have := c _ n h; omega
        · exact d j k n h g
  · refine Upkeep.thenRaise ⟨kept (fun y => { y with exhausted := true }) (fun _ => ⟨rfl, rfl, rfl, rfl, rfl⟩),
      fun o => ⟨fun n => ?_, fun x hx => ?_⟩⟩ _
    · simp [hx0] at n
    · simp only [State.updSession_session, hx0, Option.map_some, Option.some.injEq] at hx
      subst hx
      exact o.2 x0 hx0

theorem Upkeep.enterReady (s : State) (i : SlotIx) : Upkeep s (s.enterReady i) := by
  unfold State.enterReady
  have h := (Upkeep.updSlot s i (fun sl => { sl with qual := none })).thenMove i .ready
  refine Upkeep.ite (fun hr => h.trans (Upkeep.enrol _ i ?_)) (fun _ => h)
  simp only [State.running, State.phase] at hr
  generalize ((s.updSlot i (fun sl => { sl with qual := none })).moveSlot i .ready).session = o at hr
  cases o with
  | none => cases hr
  | some x => rfl

theorem Upkeep.goLive (s : State) (i : SlotIx) : Upkeep s (s.goLive i) := (Upkeep.updSlot s i _).thenMove i _

theorem Upkeep.spanUsed (s : State) (i : SlotIx) : Upkeep s (s.spanUsed i) := by
  unfold State.spanUsed
  split
  · exact (Upkeep.updSlot s i _).thenMove i _
  · exact Upkeep.ite (fun _ => (Upkeep.updSlot s i _).thenMove i _) (fun _ => (Upkeep.updSlot s i _).thenMove i _)

theorem Upkeep.acknowledge (s : State) (i : SlotIx) (c : Nat) : Upkeep s (s.acknowledge i c) := by
  unfold State.acknowledge
  have h := (Upkeep.updSlot s i (fun sl => sl.acknowledged c)
    (fun sl => .inl (by unfold Slot.acknowledged; split <;> rfl))).trans (Upkeep.lower _ (fun d => d == c))
  exact Upkeep.ite (fun _ => h.trans (Upkeep.spanUsed _ i)) (fun _ => h)

theorem Upkeep.loseLink (s : State) (k : LinkIx) (cause : LossCause) : Upkeep s (s.loseLink k cause) := by
  have empty : Upkeep s (s.emptyLink k) := by
    unfold State.emptyLink
    refine Upkeep.foldl _ (fun t j => ?_) _ s
    exact Upkeep.emptySlot t (slotAt k j) .linkLost
  have reset : ∀ t : State, Upkeep t (t.resetLink k) := fun t => Upkeep.same rfl rfl rfl rfl
  have off : ∀ t : State, Upkeep t (t.lampsOff k) := fun t => by
    unfold State.lampsOff
    refine Upkeep.foldl _ (fun t j => ?_) _ t
    exact Upkeep.updSlot t (slotAt k j) _
  unfold State.loseLink
  exact Upkeep.thenRaise (((empty.trans (reset _)).trans (off _)).trans (Upkeep.retireFlow _)) _

end Sys2Proof.Machine
end

