-- ==== Sys2Proof/Tests/Slice0.lean ====
section
/-! SUPPORT. Tests. Expected results come from spec/: the figure or rule each names. Then one witness for each statement
with hypotheses: a state and operands that meet them together, at a boundary of their range where they have one. -/

namespace Sys2Proof.Machine.Tests
open Sys2Proof Sys2Proof.Machine

set_option Elab.async false

/-! ## Well-formedness refuses -/

/-- R171, R185: a SEGMENT body holds 4,096 image bytes. -/
theorem test_wf_refuses_short_segment : (Instr.segment 0 0 (.replicate 4095 0)).wf = false := by decide +kernel

/-- R171: a frame that is handed on is not malformed. -/
theorem test_wf_refuses_good_frame : (Instr.malformedFrame 0x02 3).wf = false := by decide

/-- R185: the body length of a frame is two bytes. -/
theorem test_wf_refuses_long_request : (Instr.requestFrame 0 1 (.replicate 65533 0)).wf = false := by
  simp only [Instr.wf, List.length_replicate, decide_eq_false_iff_not]
  decide

/-- R191: a message long enough for its fields is not malformed. -/
theorem test_wf_refuses_good_message : (Instr.bridgeMessageMalformed 0 [0x20#8, 5, 0]).wf = false := by decide

/-- The table gives no row any bits. -/
theorem test_decode_none : decodeTableWord 8 0 = none := rfl

/-- R185, written out byte by byte: a REQUEST of tag 1234 hex, code 0C hex (RELEASE SLOT) and slot 3 has a body of 4
bytes; kind 81 hex is upstream's; a body shorter than its length is no frame. -/
theorem test_downstream_frames :
    downstreamFrame [0x02, 0x04, 0x00, 0x34, 0x12, 0x0C, 0x03] = some (.requestFrame 0x1234 0x0C [3]) ∧
    downstreamFrame [0x81, 0x01, 0x00, 0xFF] = some (.malformedFrame 0x81 1) ∧
    downstreamFrame [0x02, 0x04, 0x00, 0x34, 0x12, 0x0C] = none := by decide +kernel

/-- R185: a SEGMENT of chunk 0A0B0C0D hex, index 14, of 4,096 bytes: body length 4,101 is 1005 hex. -/
theorem test_downstream_segment (bytes : List Byte) (h : bytes.length = 4096) :
    downstreamFrame (0x01 :: 0x05 :: 0x10 :: 0x0D :: 0x0C :: 0x0B :: 0x0A :: 0x0E :: bytes) =
      some (.segment 0x0A0B0C0D 14 bytes) := by
  simp [downstreamFrame, leValue, field, h]

/-- R190, written out byte by byte, one message of each kind; R191: socket 16 names no socket. -/
theorem test_bridge_messages :
    bridgeMessage 2 [0x20, 0x07, 0x01] = .writeAck 2 7 1 ∧
    bridgeMessage 2 [0x21, 0x07, 0x00, 0xAA, 0xBB] = .readData 2 7 0 [0xAA, 0xBB] ∧
    bridgeMessage 2 [0x22, 0x07, 0x00, 0x00, 0x14, 0, 0, 0, 0, 0, 0] = .capacity 2 7 0 [0x00, 0x14, 0, 0, 0, 0, 0, 0] ∧
    bridgeMessage 2 [0x23, 0x0F, 0x01] = .presenceInserted 2 15 ∧
        bridgeMessage 2 [0x23, 0x0F, 0x00] = .presenceRemoved 2 15 ∧
    bridgeMessage 2 [0x24] = .pong 2 ∧ bridgeMessage 2 [0x23, 0x10, 0x00] = .bridgeMessageMalformed 2 [0x23, 0x10,
        0x00] := by
  decide +kernel

/-! ## Figures -/

/-- Worked figure of section 6.3: ordinal 13 with B = 240,000 and stride 7 is the field "02400914". -/
theorem test_check_digit_figure :
    renderSite ⟨5, 4112, 8, .ordinal .decCheck .defer 240000 7, none⟩ 13 0 =
      (.rendered [0x30, 0x32, 0x34, 0x30, 0x30, 0x39, 0x31, 0x34], none) := by decide +kernel

/-- Worked figure of section 6.3: three overflow modes at V = 1,005. -/
theorem test_overflow_figure :
    let t := fun m => renderSite ⟨0, 0, 3, .ordinal .dec m 990 5, none⟩ 3 0
    t .wrap = (.rendered [0x30, 0x30, 0x35], none) ∧ t .clamp = (.rendered [0x39, 0x39, 0x39], none) ∧
      t .defer = (.deferred, some 1005) := by decide +kernel

/-- Worked figure of section 6.3: a partition size. -/
theorem test_size_figure :
    renderSite ⟨0, 0, 4, .capacity false .clamp 2048 2048, none⟩ 0 15633408 =
      (.rendered [0x00, 0x80, 0xEE, 0x00], none) := by decide +kernel

/-- Worked figures of section 6.4: 107,248 + 429, and 110,000 − 1,047. -/
theorem test_guard_figures :
    let stamp : List Byte := [0x30, 0x32, 0x34, 0x30, 0x30, 0x39, 0x31, 0x34]
    leBytes 4 (107248#32 + guardDelta 16 stamp (.replicate 8 0x30)).toNat = [0x9D, 0xA4, 0x01, 0x00] ∧
      110000#32 + guardDelta 16 stamp (.replicate 8 0x39) = 108953#32 := by decide +kernel

/-- Example of section 5.4: chunk 9 divides into six pieces. -/
theorem test_pieces_example :
    piecesOf [⟨9, 1020, 8, .supplied, none⟩, ⟨9, 2048, 4, .guard 0, none⟩, ⟨9, 65500, 20, .supplied, none⟩] 9 true =
      [⟨false, 0, 1⟩, ⟨false, 3, 1⟩, ⟨false, 5, 122⟩, ⟨true, 1, 2⟩, ⟨true, 4, 1⟩, ⟨true, 127, 1⟩] := by decide +kernel

/-- Example of section 4.5: the probe sectors of a stick of 8,388,609 sectors with K = 5. -/
theorem test_probe_sectors :
    (List.range 5).map (probeSector 8388609 5) = [0, 2097152, 4194304, 6291456, 8388608] := by decide

/-! ## States and requests for the tests -/

/-- The state a command leaves. -/
def after (c : Instr) (s : State) : State :=
  match exec c s with
  | .next t => t
  | _ => s

/-- Initialised, with the image link UP. -/
def linked : State := { State.reset with req.initialising := false, intake.linkUp := true }

/-- A session with the defaults of R4, RUNNING and STREAMING at chunk 0 of 40. -/
def demo : Session :=
  ⟨.running, 40, 32, 4, 8, 4, .live, .wait, .off, .probe, 0x3C5A0F96, ⟨2, 2000, 3, 500, 250, 8, 4, 5, 24, 48, 3, 15⟩,
   0, false, none, 1, .streaming, 0, 0⟩

/-- A state with that session, changed. -/
def running (f : Session → Session) : State := { linked with session := some (f demo) }

/-- The same in OPEN, before any pass. -/
def opened : State := running (fun x => { x with phase := .opened, passNumber := 0, pass := .noPass })

/-- A request at the head of the queue. -/
def ask (s : State) (code : Byte) (ps : List Byte) : State := { s with req.queue := [⟨0x1234, code, ps⟩] }

/-- The last REPLY's status and detail. The detail of an OK is open (log 36): a test of one asks for its status. -/
def replied? (s : State) : Option (ReplyStatus × Byte) := s.req.outbox.getLast?.map (fun r => (r.status, r.detail))

/-- Slot 3, socket 3 of link 0, changed. -/
def slot3 (s : State) (f : Slot → Slot) : State := s.updSlot 3 f

/-- Slot 3 LIVE over the whole image at chunk 0. -/
def live3 (s : State) : State := slot3 s (fun sl => { sl with
  state := .live, ordinal := some 0, span := some ⟨0, 40⟩, ackPoint := some 0, issueCursor := some 0 })

/-- Link 0 UP. -/
def link0 (s : State) (f : Link → Link) : State := s.updLink 0 (fun l => f { l with up := true })

/-- Slot 3's command, sent with tag 5. -/
def sent (s : State) (w : Work) (f : Slot → Slot) : State :=
  slot3 (link0 s (fun l => l.setTag 5 (.bound ⟨3, w.kind, 1000⟩))) (fun sl => f { sl with inFlight := [⟨w, some 5, 0⟩] })

/-- A window of `n` RESIDENT records from chunk 0, each owed by one slot. -/
def window (s : State) (n : Nat) : State :=
  { s with win.records := (List.range n).map (fun c => ⟨c, c, some ⟨0, 1, false⟩⟩) }

/-- An OPEN SESSION of L = 40, W = 32, P = 4, Q = 8 with every tunable at its default. -/
def openParams : List Byte :=
  leBytes 4 40 ++ leBytes 2 32 ++ leBytes 2 4 ++ leBytes 2 8 ++ [4, 0, 0, 0, 0] ++ leBytes 4 7 ++ .replicate 15 0 ++
    leBytes 2 0x1FFE

/-- A LOAD PATCH SITE of a SUPPLIED site of width `w` in chunk `c`. -/
def siteParams (c w : Nat) : List Byte := leBytes 4 c ++ leBytes 2 100 ++ leBytes 1 w ++ [7] ++ .replicate 24 0

/-! ## One step of each command -/

/-- R4's example: depth 6, timeout 5 ms, throttle 50, eject "default". -/
theorem test_tunables_example :
    let t := openTunables (.replicate 19 0 ++ [6] ++ leBytes 2 5 ++ .replicate 8 0 ++ [50, 0, 0, 0] ++ leBytes 2 0x400)
    t.depth = 4 ∧ t.commandTimeout = 10 ∧ t.eject = 48 ∧ t.throttle = 48 := by decide +kernel

/-- R23: power-on reset leaves NONE. -/
theorem test_power_on_reset : (after .powerOnReset (running id)).session = none := by decide +kernel

/-- R180: the NOT-READY period ends. -/
theorem test_buffer_init_complete : (after .bufferInitComplete State.reset).req.initialising = false := by decide +kernel

/-- R45: the first FLOW frame reports PAUSED with H and free frames absent. -/
theorem test_image_link_established :
    (after .imageLinkEstablished State.reset).req.flowOut = [⟨.paused, none, none⟩] := by decide +kernel

/-- R46: the assembly is gone with its record. -/
theorem test_image_link_lost :
    let s := after .imageLinkLost { running id with
      intake.assembly := some ⟨0, 3, 0, 0⟩, win.records := [⟨0, 0, none⟩] }
    s.intake = ⟨none, .paused, false⟩ ∧ s.win.records = [] := by decide +kernel

/-- R47: counted, engine counter 7. -/
theorem test_bad_frame : (after .badFrame linked).ncu.counters[6].value = 1 := by decide +kernel

/-- R171: an upstream kind is malformed downstream. -/
theorem test_malformed_frame : (after (.malformedFrame 0x81 5) linked).ncu.counters[6].value = 1 := by decide +kernel

/-- R48: with no pass a segment is NO-PASS, engine counter 2. -/
theorem test_segment_no_pass :
    (after (.segment 0 0 (.replicate 4096 0)) linked).ncu.counters[1].value = 1 := by decide +kernel

/-- R49: segment 0 of H opens an assembly in frame 0. -/
theorem test_segment_zero :
    (after (.segment 0 0 (.replicate 4096 0)) (running id)).win.records = [⟨0, 0, none⟩] := by decide +kernel

/-- R172: queued. -/
theorem test_request_frame :
    (after (.requestFrame 9 0x01 []) linked).req.queue = [⟨9, 0x01, []⟩] := by decide +kernel

/-- R173: a code that names no request. -/
theorem test_unknown_request : replied? (after .unknownRequest (ask linked 0x15 [])) = some (.unknown, 0) := by
  decide +kernel

/-- R181: IDENTIFY is answered in the NOT-READY period. -/
theorem test_identify : (replied? (after .identify (ask State.reset 0x01 []))).map Prod.fst = some .ok := by
  decide +kernel

/-- R182: the reset waits. -/
theorem test_engine_reset : (after .engineReset (ask linked 0x02 [])).req.resetWaiting = true := by decide +kernel

/-- R183: the cause is named. -/
theorem test_engine_reset_takes_effect :
    (after .engineResetTakesEffect { linked with req.resetWaiting := true }).req.cause = .engineReset := by decide +kernel

/-- R3: W = 31 is position 2. -/
theorem test_open_session :
    replied? (after .openSession (ask linked 0x03 (openParams.set 4 31))) = some (.refusedRange, 2) := by decide +kernel

/-- R115: the site is number 0. -/
theorem test_load_patch_site :
    (after .loadPatchSite (ask opened 0x04 (siteParams 39 32))).req.outbox.map Reply.data = [[0]] := by decide +kernel

/-- R117: a region shorter than 8 bytes is refused. -/
theorem test_load_guard_region :
    replied? (after .loadGuardRegion (ask opened 0x05 (leBytes 4 0 ++ leBytes 2 0 ++ leBytes 4 7))) =
      some (.refusedRange, 0) := by decide +kernel

/-- R118: both tables empty. -/
theorem test_clear_patch_table :
    (after .clearPatchTable (ask { opened with stu.regions := [⟨0, 0, 8, none⟩] } 0x06 [])).stu.regions = [] := by
  decide +kernel

/-- R2: START SESSION is for OPEN. -/
theorem test_start_session :
    replied? (after .startSession (ask (running id) 0x07 [])) = some (.refusedState, 0) := by decide +kernel

/-- R7, R62: a READY slot is enrolled with the next ordinal. -/
theorem test_enrol :
    let s := (slot3 (running (fun x => { x with nextOrdinal := 65535 })) (fun sl => { sl with
      state := .ready, capacity := some 5120 })).enrol 3
    (s.slot 3).state = .waiting ∧ (s.slot 3).ordinal = some 65535 ∧ s.ses.nextOrdinal = 65536 := by decide +kernel

/-- R9: the second pass is number 2. -/
theorem test_pass_start :
    (after .passStart (ask (running (fun x => { x with pass := .noPass })) 0x08 (leBytes 4 39))).ses.passNumber = 2 := by
  decide +kernel

/-- R110: HOLD in HOLDING is answered at once. -/
theorem test_hold :
    (replied? (after .hold (ask { running id with wsc.hold := .holding } 0x09 []))).map Prod.fst = some .ok := by
  decide +kernel

/-- R110: RELEASE HOLD settles the pending HOLD first. -/
theorem test_release_hold :
    let s := after .releaseHold (ask { running id with wsc.hold := .holding, wsc.holdReply := some 7 } 0x0A [])
    s.req.outbox.map Reply.tag = [7, 0x1234] ∧ s.wsc.hold = .run := by decide +kernel

/-- R113: refused outside HELD. -/
theorem test_session_tune :
    replied? (after .sessionTune (ask (running id) 0x0B (.replicate 26 0))) = some (.notHeld, 0) := by decide +kernel

/-- R78: a LIVE slot in RUN is NOT-HELD. -/
theorem test_release_slot :
    replied? (after .releaseSlot (ask (live3 (running id)) 0x0C [3])) = some (.notHeld, 0) := by decide +kernel

/-- R133: a site that is not loaded is position 2. -/
theorem test_stamp_supply :
    replied? (after .stampSupply (ask (running id) 0x0D [3, 0, 0, 0, 0])) = some (.refusedRange, 2) := by decide +kernel

/-- R84, R188: one entry of 68 bytes after the count. -/
theorem test_slot_status :
    (after .slotStatus (ask linked 0x0E [191, 1])).req.outbox.map (fun r => r.data.length) = [69] := by decide +kernel

/-- R22: taken in NONE. -/
theorem test_session_status : (replied? (after .sessionStatus (ask linked 0x0F []))).map Prod.fst = some .ok := by
  decide +kernel

/-- R197: the change mark is cleared. -/
theorem test_clear_marks :
    ((after .clearMarks (ask (slot3 linked (fun sl => { sl with changeMark := true })) 0x10 [3, 1, 0, 0,
        0])).slot 3).changeMark =
      false := by decide +kernel

/-- R201: sequence number 1. -/
theorem test_snapshot :
    (after .snapshot (ask linked 0x11 [60])).req.outbox.map Reply.data = [[1, 0, 0, 0]] := by decide +kernel

/-- R203: a count above 32 is position 2. -/
theorem test_read_snapshot :
    replied? (after .readSnapshot (ask linked 0x12 [0, 33])) = some (.refusedRange, 2) := by decide +kernel

/-- R195: members 10 to 15 read 0. -/
theorem test_set_notice_mask :
    (after .setNoticeMask (ask linked 0x13 [0xFF, 0xFF])).req.outbox.map Reply.data = [[0xFF, 0x03]] := by decide +kernel

/-- R2: there is nothing to close in NONE. -/
theorem test_close_session : replied? (after .closeSession (ask linked 0x14 [])) = some (.refusedState, 0) := by
  decide +kernel

/-- R19: an enrolled slot is FAILED as INCOMPLETE. -/
theorem test_close_slot :
    ((((live3 (running id)).closeSlot 3).slot 3).outcome.map Outcome.kind) = some .incomplete := by decide +kernel

/-- R177: FLOW goes first. -/
theorem test_upstream_grant :
    let s := { linked with req.flowOut := [⟨.paused, none, none⟩], ncu.notices := [.held] }
    (after .upstreamGrant s).req.lane.map LaneFrame.frame = some (.flow ⟨.paused, none, none⟩) := by decide +kernel

/-- R194: the notice leaves the queue when its frame has been sent. -/
theorem test_upstream_frame_sent :
    (after .upstreamFrameSent { linked with ncu.notices := [.held, .held], req.lane := some ⟨.notice .held, [],
        true⟩ }).ncu.notices =
      [.held] := by decide +kernel

/-- R202: the timer runs on one interval. -/
theorem test_auto_snapshot :
    (after .autoSnapshotExpiry { linked with ncu.autoInterval := 2, ncu.autoAt := some 500 }).ncu.autoAt = some 2500 := by
  decide +kernel

/-- R43: FILL before the rest. -/
theorem test_buffer_transfer_grant :
    (after .bufferTransferGrant { linked with win.waiting := [.digest, .fill] }).win.waiting = [.digest] := by
  decide +kernel

/-- R63: SETTLING for 500 ms without a session. -/
theorem test_presence_inserted :
    ((after (.presenceInserted 0 3) (link0 linked id)).slot 3).settleDeadline = some 500 := by decide +kernel

/-- R64: REMOVED-EARLY. -/
theorem test_presence_removed :
    ((after (.presenceRemoved 0 3) (link0 (live3 (running id)) id)).slot 3).outcome.map Outcome.kind =
      some .removedEarly := by decide +kernel

/-- R66: PRESENT in NONE. -/
theorem test_settle_deadline :
    ((after (.settleDeadline 3) (slot3 linked (fun sl => { sl with state := .settling, settleDeadline := some 9 }))).slot 3).state =
      .present := by decide +kernel

/-- R88: a PONG establishes the link. -/
theorem test_pong : ((after (.pong 11) linked).link 11).up = true := by decide +kernel

/-- R89: the third missed PING loses the link. -/
theorem test_ping_due :
    ((after (.pingDue 0) (link0 linked (fun l => { l with pingOpen := true, missed := 2 }))).link 0).up = false := by
  decide +kernel

/-- R191: no effect. -/
theorem test_bridge_message_malformed : (after (.bridgeMessageMalformed 0 []) linked).ncu.counters = linked.ncu.counters := by
  decide +kernel

/-- R81, R190: a due lamp is sent first. -/
theorem test_transmit_grant :
    ((after (.transmitGrant 0) (link0 (slot3 linked (fun sl => { sl with lamp := ⟨.off, some .green⟩ })) id)).link 0).sent =
      some [0x13, 3, 3] := by decide +kernel

/-- R91, R190: SIZE with the tag after the last allocated, wrapping. -/
theorem test_command_send :
    ((after (.commandSend 0) (link0 opened (fun l => { l with path := some ⟨3, .size, 0, .first, none, 0,
        []⟩ }))).link 0).sent =
      some [0x12, 0, 3] := by decide +kernel

/-- R104: MEDIUM-ERROR adds 4, and the entry waits with retries used 1 (example of section 5.5). -/
theorem test_write_ack :
    let sl := (after (.writeAck 0 5 1) (sent (live3 (running id)) (.piece 0 0 0) id)).slot 3
    sl.trouble = 4 ∧ sl.inFlight = [⟨.piece 0 0 0, none, 1⟩] := by decide +kernel

/-- R70: a stick one sector short is TOO-SMALL. -/
theorem test_capacity :
    ((after (.capacity 0 5 0 (leBytes 8 5119)) (sent opened .size (fun sl => { sl with
      state := .sizing, qual := some ⟨.size, 0, 0⟩ }))).slot 3).outcome.map Outcome.kind = some .tooSmall := by
  decide +kernel

/-- R75 and the example of section 4.5: pattern 4 read at probe 0 is ALIASED, probe 0, alias 4. -/
theorem test_read_data :
    ((after (.readData 0 5 0 (probeData 0x3C5A0F96 3 8388609 5 4))
      (sent { opened with session := some { demo with phase := .opened, probeCount := 5 } } (.probeRead 0) (fun sl => { sl with
        state := .probing, capacity := some 8388609, qual := some ⟨.probeRead, 0, 0⟩ }))).slot 3).outcome =
      some ⟨.aliased, none, some 0, some 4⟩ := by decide +kernel

/-- R92: the lapsed count rises. -/
theorem test_tag_lapse :
    ((after (.tagLapse 0 5) (sent (live3 (running id)) (.piece 0 0 0) id)).link 0).lapsed = 1 := by decide +kernel

/-- R131: STAMP-TIMEOUT at the stall's chunk. -/
theorem test_stall_deadline :
    ((after (.stallDeadline 3) (slot3 (live3 (running id)) (fun sl => { sl with stall := some ⟨0, 6,
        100⟩ }))).slot 3).outcome =
      some ⟨.stampTimeout, some 6, none, none⟩ := by decide +kernel

/-- R156: a full window is pinned by the slot at its tail. -/
theorem test_pace_tick :
    let s := { window (live3 (running (fun x => { x with nextChunk := 32 }))) 32 with wsc.paceAt := some 250 }
    ((after .paceTick s).slot 3).pinCount = 1 := by decide +kernel

/-- R166: every score falls by one. -/
theorem test_decay_tick :
    ((after .decayTick { slot3 (running id) (fun sl => { sl with trouble := 63 }) with wsc.decayAt := some 5000 }).slot 3).trouble =
      62 := by decide +kernel

/-! ## Witnesses

Each theorem shows that the hypotheses of the statement it is named for can be met together, clause by clause. -/

/-- The request `ask` puts at the head of the queue. -/
abbrev rq (code : Byte) (ps : List Byte) : Request := ⟨0x1234, code, ps⟩

/-- A request that passes steps 1 to 4 of R173 is served. -/
theorem ask_serves {s : State} {k : ReqKind} {code : Byte} {ps : List Byte}
    (h : s.req.outbox.length < 4 ∧ ReqKind.ofCode code = some k ∧ s.notReady = false ∧ k.takenIn s.phase = true ∧
      k.lengthOk ps = true) : (ask s code ps).Serves k (rq code ps) [] :=
  ⟨⟨rfl, h.1, h.2.1⟩, h.2.2.1, h.2.2.2.1, h.2.2.2.2⟩

/-- The tag of slot 3's command names its entry. -/
theorem sent_answers (s : State) (w : Work) (f : Slot → Slot) (hf : ∀ sl, (f sl).inFlight = sl.inFlight) :
    (sent s w f).Answers 0 5 ⟨3, w.kind, 1000⟩ ⟨w, some 5, 0⟩ where
  up := by simp [sent, slot3, link0, Link.setTag]
  bound := by simp [sent, slot3, link0, Link.setTag_tag]
  entry := by simp [sent, slot3, Slot.entry, hf]
  kind := rfl

theorem witness_StepsRunTheFrontCommandAndComplete :
    { State.reset with pending := [.hold, .paceTick] }.pending = .hold :: [.paceTick] ∧ State.reset.pending = [] :=
  ⟨rfl, rfl⟩

theorem witness_ResetAndPowerOn : State.reset.req.initialising = true := rfl

theorem witness_EngineResetWaitsAndTakesEffect :
    ((ask linked 0x02 []).Serves .engineReset (rq 0x02 []) [] ∧ linked.wsc.holdReply = none) ∧
    (let s := { running id with wsc.hold := .holding, wsc.holdReply := some 7 }
     (ask s 0x02 []).Serves .engineReset (rq 0x02 []) [] ∧ (ask s 0x02 []).wsc.holdReply = some 7) ∧
    (let s := { linked with req.resetWaiting := true }
     s.req.resetWaiting = true ∧ s.req.outbox = [] ∧ s.req.queue = []) :=
  ⟨⟨ask_serves (by decide +kernel), rfl⟩, ⟨ask_serves (by decide +kernel), rfl⟩, rfl, rfl, rfl⟩

theorem witness_EveryStepKeepsMemoryAndQueues :
    (∃ s t : State, s.win.frames = [(0, 1), (268435455, 255)] ∧ s.memoryWf ∧ step s = .next t) ∧
    (∃ s t : State, s.req.queue.length = 8 ∧ s.replies = 16 ∧ s.ncu.notices.length = 32 ∧ s.QueuesBounded ∧
      step s = .next t) :=
  ⟨⟨{ State.reset with win.frames := [(0, 1), (268435455, 255)], pending := [.paceTick] }, _, rfl,
    ⟨by decide +kernel, by decide +kernel⟩, rfl⟩,
  { linked with
      req.queue := .replicate 8 (rq 1 []), req.outbox := .replicate 16 ⟨0, 1, .ok, 0, []⟩
      req.flowOut := .replicate 8 ⟨.paused, none, none⟩, ncu.notices := .replicate 32 .held, pending := [.badFrame] }, _,
    by decide +kernel, by decide +kernel, by decide +kernel,
    ⟨by decide +kernel, by decide +kernel, by decide +kernel, by decide +kernel⟩, rfl⟩

/-- Every slot but slot 3 is as reset leaves it. -/
theorem slot3_ne (f : Slot → Slot) (s : State) (i : SlotIx) (h : i ≠ 3) : (slot3 s f).slot i = s.slot i :=
  State.updSlot_slot_ne s f (Ne.symm h)

theorem reset_slot (i : SlotIx) : State.reset.slot i = Slot.reset := by simp [State.slot, State.reset]

theorem reset_inRange : Slot.reset.InRange :=
  ⟨by decide, by decide, by decide, by decide, rfl, fun _ h => by cases h⟩

theorem witness_EveryStepKeepsSlotAndTagCounts :
    (∃ s t : State, (s.slot 3).trouble = 63 ∧ (s.slot 3).throttledDepth = some 1 ∧ s.slotsInRange ∧ step s = .next t) ∧
    (∃ s t : State, (s.link 0).lapsed = 1 ∧ s.lapsedExact ∧ step s = .next t) := by
  let s := slot3 { State.reset with pending := [.decayTick] } (fun sl => { sl with
    trouble := 63, residency := 255, pinCount := 255, clearCount := 255, throttled := true, throttledDepth := some 1 })
  refine ⟨⟨s, _, ?_, ?_, fun i => ?_, rfl⟩, link0 { State.reset with pending := [.pong 0] } (fun l =>
    { l.setTag 5 .lapsed with lapsed := 1 }), _, by decide +kernel, by unfold State.lapsedExact; decide +kernel, rfl⟩
  · simp [s, slot3]
  · simp [s, slot3]
  · by_cases h : i = 3
    · subst h
      simp only [s, slot3, State.updSlot_self]
      exact ⟨by simp, by simp, by simp, by simp, rfl, fun d h => by cases h; exact le_refl 1⟩
    · rw [show s.slot i = Slot.reset from (slot3_ne _ _ i h).trans (reset_slot i)]
      exact reset_inRange

/-- A window of two frames, the second being assembled; and ordinals 0 and 65,535 held with none left. -/
theorem witness_EveryStepKeepsLinkAndSessionState :
    (∃ s t : State, s.intake.linkUp = false ∧ s.downQuiet ∧ step s = .next t) ∧
    (∃ s t : State, s.session = none ∧ s.noneEmpty ∧ step s = .next t) ∧
    (∃ s t : State, s.wsc.holdReply = some 7 ∧ s.holdReplyInHolding ∧ step s = .next t) ∧
    (∃ s t : State, s.win.records = [⟨5, 7, some ⟨0, 1, false⟩⟩, ⟨6, 0, none⟩] ∧ s.intake.assembly = some ⟨6, 15, 0, 0⟩ ∧
      s.windowed ∧ step s = .next t) ∧
    (∃ s t : State, (s.slot 3).ordinal = some 0 ∧ (s.slot 4).ordinal = some 65535 ∧ s.ordinalsDistinct ∧ step s = .next t) := by
  let w : State := { running (fun x => { x with nextChunk := 6 }) with
    win.records := [⟨5, 7, some ⟨0, 1, false⟩⟩, ⟨6, 0, none⟩], intake.assembly := some ⟨6, 15, 0, 0⟩, pending := [.badFrame] }
  let o : State := slot3 ((running (fun x => { x with nextOrdinal := 65536 })).updSlot 4 (fun sl =>
    { sl with ordinal := some 65535 })) (fun sl => { sl with ordinal := some 0 })
  have at3 : (o.slot 3).ordinal = some 0 := by simp [o, slot3]
  have at4 : (o.slot 4).ordinal = some 65535 := by
    rw [show o.slot 4 = _ from slot3_ne _ _ 4 (by decide)]; simp
  have rest : ∀ i : SlotIx, i ≠ 3 → i ≠ 4 → (o.slot i).ordinal = none := fun i h h' => by
    rw [show o.slot i = _ from slot3_ne _ _ i h, State.updSlot_slot_ne _ _ (Ne.symm h'), show (running _).slot i = _ from
      reset_slot i]
    rfl
  have two : ∀ i n, (o.slot i).ordinal = some n → (i = 3 ∧ n = 0) ∨ (i = 4 ∧ n = 65535) := fun i n h => by
    by_cases h3 : i = 3
    · subst h3; rw [at3] at h; cases h; exact .inl ⟨rfl, rfl⟩
    · by_cases h4 : i = 4
      · subst h4; rw [at4] at h; cases h; exact .inr ⟨rfl, rfl⟩
      · rw [rest i h3 h4] at h; cases h
  refine ⟨⟨{ State.reset with pending := [.imageLinkEstablished] }, _, rfl, fun _ => ⟨rfl, rfl, rfl⟩, rfl⟩,
   ⟨{ State.reset with pending := [.badFrame] }, _, rfl, fun _ => ⟨rfl, rfl, rfl, rfl, rfl, rfl, rfl, rfl⟩, rfl⟩,
   ⟨{ running id with wsc.hold := .holding, wsc.holdReply := some 7, pending := [.badFrame] }, _, rfl, fun _ => rfl, rfl⟩,
   ⟨w, _, rfl, rfl, ⟨(fun h => by cases h), fun x h => ?_⟩, rfl⟩,
   ⟨o, _, at3, at4, ⟨(fun h => by cases h), fun x h => ?_⟩, rfl⟩⟩
  · cases h
    exact ⟨by decide, by decide, ⟨5, rfl, rfl⟩, by decide, by decide, nofun,
      (fun a h => by
        cases h
        exact ⟨rfl, by decide, by decide, rfl, rfl, [⟨5, 7, some ⟨0, 1, false⟩⟩], rfl, by decide⟩),
      by decide, fun _ => by decide, nofun, nofun⟩
  · cases h
    refine ⟨le_refl _, fun i n h => ?_, fun i j n h h' => ?_⟩
    · rcases two i n h with ⟨-, rfl⟩ | ⟨-, rfl⟩ <;> decide
    · rcases two i n h with ⟨rfl, e⟩ | ⟨rfl, e⟩ <;> rcases two j n h' with ⟨rfl, e'⟩ | ⟨rfl, e'⟩ <;> first | rfl | omega

theorem witness_ImageLinkComesAndGoes :
    (let s := { running id with intake.linkUp := false }
     s.downQuiet ∧ s.intake.linkUp = false ∧ s.session = some demo ∧ s.wsc.hold = .run) ∧
    (linked.intake.linkUp = true ∧ State.reset.intake.linkUp = false) :=
  ⟨⟨fun _ => ⟨rfl, rfl, rfl⟩, rfl, rfl, rfl⟩, rfl, rfl⟩

/-- The two accepted frames are missed by one: a SEGMENT body of 4,100 bytes, a REQUEST body of 2. -/
theorem witness_BadFramesAreCountedAndSaturate :
    linked.intake.linkUp = true ∧
    (let kind : Byte := 0x01; let len : BitVec 16 := 4100
     ¬(kind = 0x01#8 ∧ len = 4101#16) ∧ ¬(kind = 0x02#8 ∧ 3 ≤ len.toNat)) ∧
    (let kind : Byte := 0x02; let len : BitVec 16 := 2
     ¬(kind = 0x01#8 ∧ len = 4101#16) ∧ ¬(kind = 0x02#8 ∧ 3 ≤ len.toNat)) := by
  refine ⟨rfl, ?_, ?_⟩ <;> decide

/-- An assembly of chunk 0 that expects segment `n`. -/
def assembling (n : Nat) : State :=
  { running id with intake.assembly := some ⟨0, n, 0, 0⟩, win.records := [⟨0, 0, none⟩] }

/-- A SEGMENT of 4,096 bytes, the longest REQUEST, the two malformed bodies one byte short, and a frame cut short. -/
theorem witness_FramesAndMessagesAreRead :
    (List.replicate 4096 (0 : Byte)).length = 4096 ∧ (List.replicate 65532 (0 : Byte)).length + 3 < 65536 ∧
    (∀ n kind, (n = 4100 ∧ kind = 0x01#8) ∨ (n = 2 ∧ kind = 0x02#8) → n < 65536 ∧ ¬(kind = 0x01#8 ∧ n = 4101) ∧
      ¬(kind = 0x02#8 ∧ 3 ≤ n)) ∧
    (∀ (kind : Byte) (body : List Byte), body.length < 65536 →
      [0x02#8, 3, 0, 0x34, 0x12] ≠ kind :: (leBytes 2 body.length ++ body)) ∧
    downstreamFrame [0x02#8, 3, 0, 0x34, 0x12, 1] = some (.requestFrame 0x1234 1 []) := by
  refine ⟨List.length_replicate, by rw [List.length_replicate]; decide, ?_, fun kind body _ h => ?_, by decide⟩
  · rintro n kind (⟨rfl, rfl⟩ | ⟨rfl, rfl⟩) <;> decide
  · have l : 5 = 1 + (1 + (1 + body.length)) := by
      simpa [leBytes, Nat.add_comm, Nat.add_left_comm] using congrArg List.length h
    rw [show body.length = 2 by omega] at h
    simp [leBytes] at h

theorem witness_SegmentsAreClassifiedAndAssembled :
    (linked.intake.linkUp = true ∧ (List.replicate 4096 (0 : Byte)).length = 4096 ∧ linked.session = none) ∧
    (∃ x, (running (fun x => { x with pass := .draining })).session = some x ∧ ¬(x.phase = .running ∧
        x.pass = .streaming)) ∧
    (∃ x, (running (fun x => { x with nextChunk := 1 })).session = some x ∧ x.phase = .running ∧ x.pass = .streaming ∧
      (0 : Word32).toNat < x.nextChunk ∧ x.nextChunk < (2 : Word32).toNat ∧ (1 : Word32).toNat = x.nextChunk) ∧
    ((assembling 14).intake.assembly = some ⟨0, 14, 0, 0⟩ ∧ (14 : Byte).toNat = 14 ∧ (14 : Byte).toNat < 15) ∧
    ((13 : Byte).toNat ≠ 14 ∧ 15 < (16 : Byte).toNat ∧ (running id).intake.assembly = none ∧ (15 : Byte) ≠ 0) ∧
    (∀ n, n = 31 ∨ n = 32 → let s := window (running (fun x => { x with nextChunk := n })) n
      s.intake.linkUp = true ∧ s.session = some { demo with nextChunk := n } ∧
      (BitVec.ofNat 32 n).toNat = n ∧ s.intake.assembly = none ∧
      (n = 31 → s.win.records.length < demo.windowSize) ∧ (n = 32 → demo.windowSize ≤ s.win.records.length)) := by
  refine ⟨⟨rfl, List.length_replicate, rfl⟩, ⟨_, rfl, by decide⟩, ⟨_, rfl, rfl, rfl, by decide, by decide, rfl⟩,
    ⟨rfl, rfl, by decide⟩, ⟨by decide, by decide, rfl, by decide⟩, ?_⟩
  rintro n (rfl | rfl) <;> exact ⟨rfl, rfl, rfl, rfl, by decide +kernel, by decide +kernel⟩

/-- The last chunk of the image, its fifteen segments in, the window full, slot 3 rostered on it. -/
def lastChunk : State :=
  { slot3 (running (fun x => { x with nextChunk := 39 })) (fun sl => { sl with
      state := .waiting, rostered := true, span := some ⟨39, 40⟩, ordinal := some 0 }) with
    intake.assembly := some ⟨39, 15, 31, 0⟩
    win.records := [⟨38, 0, some ⟨0, 1, false⟩⟩] ++ [⟨39, 31, none⟩] }

theorem running_slot (f : Session → Session) (i : SlotIx) : (running f).slot i = Slot.reset := reset_slot i

/-- With slot 3 joining at the last chunk; and with no slot joining, where the window empties and the pass ends. -/
theorem witness_ChunkCompletionRunsInOrder :
    (lastChunk.intake.linkUp = true ∧ lastChunk.session = some { demo with nextChunk := 39 } ∧
      (39 : Word32).toNat = 39 ∧ lastChunk.intake.assembly = some ⟨39, 15, 31, 0⟩ ∧
      lastChunk.win.records = [⟨38, 0, some ⟨0, 1, false⟩⟩] ++ [⟨39, 31, none⟩] ∧
      (∀ r ∈ [(⟨38, 0, some ⟨0, 1, false⟩⟩ : ChunkRecord)], r.resident.isSome = true ∧ r.chunk ≠ 39) ∧
      digestEntry lastChunk.win.digest 39 = none ∧
      (lastChunk.slot 3).state = .waiting ∧ (lastChunk.slot 3).rostered = true ∧
      (lastChunk.slot 3).span.map Span.lo = some 39) ∧
    (let s := { slot3 lastChunk (fun sl => { sl with rostered := false }) with win.records := [] ++ [⟨39, 31, none⟩] }
     s.session = some { demo with nextChunk := 39 } ∧ s.intake.assembly = some ⟨39, 15, 31, 0⟩ ∧
      s.win.records = [] ++ [⟨39, 31, none⟩] ∧ 39 + 1 = demo.imageLength ∧ (∀ i, (s.slot i).rostered = false) ∧
      (after (.segment 39 15 (.replicate 4096 0)) s).win.records = []) := by
  refine ⟨⟨rfl, rfl, rfl, rfl, rfl, by decide, rfl, ?_, ?_, ?_⟩, rfl, rfl, rfl, rfl, fun i => ?_, ?_⟩
  · decide +kernel
  · decide +kernel
  · decide +kernel
  · show ((slot3 lastChunk (fun sl => { sl with rostered := false })).slot i).rostered = false
    by_cases h : i = 3
    · subst h; rw [slot3, State.updSlot_self]
    · rw [slot3_ne _ _ i h]
      have e : lastChunk.slot i = Slot.reset := (slot3_ne (fun sl => { sl with
        state := .waiting, rostered := true, span := some ⟨39, 40⟩, ordinal := some 0 }) (running (fun x =>
          { x with nextChunk := 39 })) i h).trans (running_slot _ i)
      rw [e]; rfl
  · decide +kernel

/-- In RUN, and in HOLDING with and without a command of an enrolled slot still out. -/
theorem witness_DigestMismatchFaultsSession :
    ∃ d : Word32, d ≠ ~~~ crcRun 0 (.replicate 4096 0) ∧ ∀ (h : HoldState) (e : Option LinkTag),
      let s := slot3 { assembling 15 with win.digest := [(0, 0)], wsc.hold := h } (fun sl => { sl with
        state := .live, inFlight := [⟨.piece 0 0 0, e, 0⟩] })
      s.intake.linkUp = true ∧ s.session = some demo ∧ (0 : Word32).toNat = demo.nextChunk ∧
      s.intake.assembly = some ⟨0, 15, 0, 0⟩ ∧ digestEntry s.win.digest demo.nextChunk = some d ∧ s.wsc.hold = h ∧
      ((∀ i, (s.slot i).state.enrolled = true → ∀ q ∈ (s.slot i).inFlight, q.tag = none) ↔ e = none) := by
  have h : ∀ n, crcRun 0 (.replicate n 0) = 0 := by
    intro n
    induction n with
    | zero => rfl
    | succ n ih => rw [List.replicate_succ, crcRun, List.foldl_cons, show crcByte 0 0 = 0 by decide]; exact ih
  refine ⟨0, by rw [h]; decide, fun h e => ⟨rfl, rfl, rfl, rfl, rfl, rfl, ?_⟩⟩
  constructor
  · intro q
    have := q 3 (by simp [slot3, SlotState.enrolled]) ⟨.piece 0 0 0, e, 0⟩ (by simp [slot3])
    exact this
  · rintro rfl i hi q hq
    by_cases h3 : i = 3
    · subst h3; simp [slot3] at hq; rw [hq]
    · rw [slot3_ne _ _ i h3] at hq
      exact absurd ((congrArg Slot.inFlight (running_slot id i)) ▸ hq : q ∈ Slot.reset.inFlight) (by simp [Slot.reset])

/-- Free frames at P = 4 and one above, at Q = 8 and one below. -/
theorem witness_FlowFollowsMarks :
    (linked.session = none ∧ linked.intake.linkUp = true ∧ linked.intake.flow = .paused ∧
      { linked with intake.flow := .opened }.intake.flow = .opened) ∧
    ((window (running id) 28).session = some demo ∧ (running id).wsc.hold = .run ∧ demo.pass = .streaming ∧
      demo.windowSize - (window (running id) 28).win.records.length = demo.pauseMark ∧
      demo.pauseMark < demo.windowSize - (window (running id) 27).win.records.length ∧
      demo.windowSize - (window (running id) 24).win.records.length = demo.resumeMark ∧
      demo.windowSize - (window (running id) 25).win.records.length < demo.resumeMark) ∧
    (State.reset.intake.linkUp = false ∧ State.reset.downQuiet) :=
  ⟨⟨rfl, rfl, rfl, rfl⟩, by decide +kernel, rfl, fun _ => ⟨rfl, rfl, rfl⟩⟩

theorem witness_UpstreamLaneTakesTurns :
    (∃ t, exec .powerOnReset linked = .next t) ∧
    (∃ t, exec .engineResetTakesEffect { linked with req.resetWaiting := true } = .next t) ∧
    (State.reset.intake.linkUp = false ∧ linked.req.flowOut = [] ∧ linked.req.outbox = [] ∧ linked.ncu.notices = []) ∧
    (let s := { linked with req.flowOut := [⟨.paused, none, none⟩] }
     s.intake.linkUp = true ∧ s.req.lane = none ∧ s.req.flowOut = [⟨.paused, none, none⟩]) ∧
    (let s := { linked with req.outbox := [⟨0, 1, .ok, 0, []⟩], ncu.notices := [.held] }
     s.req.flowOut = [] ∧ s.req.outbox = [⟨0, 1, .ok, 0, []⟩] ∧ s.ncu.notices = [.held] ∧ s.req.replyServed = false ∧
     { s with req.replyServed := true }.req.replyServed = true) ∧
    ({ linked with req.lane := some ⟨.notice .held, [], true⟩ }.req.lane = some ⟨.notice .held, [], true⟩) :=
  ⟨⟨_, rfl⟩, ⟨_, rfl⟩, ⟨rfl, rfl, rfl, rfl⟩, ⟨rfl, rfl, rfl⟩, ⟨rfl, rfl, rfl, rfl, rfl⟩, rfl⟩

theorem witness_RequestsAreQueuedAndExamined :
    (let s := { linked with req.queue := .replicate 8 (rq 1 []), req.outbox := .replicate 14 ⟨0, 1, .ok, 0, []⟩ }
     s.intake.linkUp = true ∧ s.req.queue.length = 8 ∧ s.req.outbox.length < 15) ∧
    (let s := { linked with req.queue := .replicate 8 (rq 1 []), req.outbox := .replicate 15 ⟨0, 1, .ok, 0, []⟩ }
     s.req.queue.length = 8 ∧ 15 ≤ s.req.outbox.length) ∧
    ((ask State.reset 0x14 []).Heads .closeSession (rq 0x14 []) [] ∧ State.reset.notReady = true) ∧
    ((ask linked 0x14 []).Heads .closeSession (rq 0x14 []) [] ∧ linked.notReady = false ∧
      ReqKind.closeSession.takenIn linked.phase = false) ∧
    ((ask linked 0x11 []).Heads .snapshot (rq 0x11 []) [] ∧ ReqKind.snapshot.takenIn linked.phase = true ∧
      ReqKind.snapshot.lengthOk [] = false) ∧
    ((ask linked 0x15 []).req.queue = [rq 0x15 []] ∧ linked.req.outbox.length < 4 ∧ ReqKind.ofCode 0x15 = none) :=
  ⟨by decide +kernel, by decide +kernel, ⟨⟨rfl, by decide, rfl⟩, rfl⟩, ⟨⟨rfl, by decide, rfl⟩, rfl, rfl⟩,
    ⟨⟨rfl, by decide, rfl⟩, rfl, rfl⟩, rfl, by decide, rfl⟩

/-- SLOT STATUS and READ SNAPSHOT at 160 + 32 = 192, one slot past it, slot 192 and a count of 33, alone and together.
-/
theorem witness_ReportsChangeNoState :
    ((ask State.reset 0x01 []).Heads .identify (rq 0x01 []) [] ∧ (rq 0x01 []).params = []) ∧
    (ask linked 0x0F []).Serves .sessionStatus (rq 0x0F []) [] ∧
    (∀ a b, (ask linked 0x0E [a, b]).Serves .slotStatus (rq 0x0E [a, b]) [] ∧
      (ask linked 0x12 [a, b]).Serves .readSnapshot (rq 0x12 [a, b]) []) ∧
    (192 < field [161#8, 32] 0 1 + field [161#8, 32] 1 1 ∧ field [0#8, 0] 1 1 = 0 ∧ 32 < field [0#8, 33] 1 1 ∧
      191 < field [192#8, 1] 0 1) ∧
    (field [160#8, 32] 1 1 ≠ 0 ∧ field [160#8, 32] 1 1 ≤ 32 ∧ field [160#8, 32] 0 1 ≤ 191 ∧
      field [160#8, 32] 0 1 + field [160#8, 32] 1 1 ≤ 192) ∧
    (191 < field [192#8, 32] 0 1 ∧ field [192#8, 32] 1 1 ≤ 32 ∧ field [191#8, 33] 0 1 ≤ 191 ∧ 32 < field [191#8, 33] 1 1 ∧
      191 < field [192#8, 33] 0 1 ∧ 32 < field [192#8, 33] 1 1 ∧ field [161#8, 32] 0 1 ≤ 191 ∧
      field [161#8, 32] 1 1 ≤ 32) ∧
    (State.reset.session = none ∧ (running id).session = some demo ∧ 160 + 32 ≤ 192 ∧ 31 < 32 ∧
      (191 : SlotIx).val = 160 + 31) :=
  ⟨⟨⟨rfl, by decide, rfl⟩, rfl⟩, ask_serves (by decide +kernel),
    fun _ _ => ⟨ask_serves ⟨Nat.zero_lt_succ 3, rfl, rfl, rfl, rfl⟩, ask_serves ⟨Nat.zero_lt_succ 3, rfl, rfl, rfl, rfl⟩⟩,
    by decide, by decide, by decide, rfl, rfl, by decide⟩

theorem witness_OpenSessionFillsTheRecord :
    ((ask linked 0x03 openParams).Serves .openSession (rq 0x03 openParams) [] ∧ openFailure openParams = none) ∧
    ((ask linked 0x03 (openParams.set 4 31)).Serves .openSession (rq 0x03 (openParams.set 4 31)) [] ∧
      openFailure (openParams.set 4 31) = some 2) ∧
    ((slot3 linked (fun sl => { sl with state := .present })).slot 3).state = .present :=
  ⟨⟨ask_serves (by decide +kernel), by decide +kernel⟩, ⟨ask_serves (by decide +kernel), by decide +kernel⟩,
    by decide +kernel⟩

/-- W = 32 is in its range; P = Q − 1 and K = 4 pass; L = 0 and L one above 1,048,576 do not. -/
theorem witness_OpenSessionValuesAreChecked :
    openFailure openParams = none ∧ openFailure (openParams.set 6 7) = none ∧ openFailure (openParams.set 6 8) = some 3 ∧
    openFailure (openParams.set 0 0) = some 1 ∧
    openFailure ((openParams.set 0 1).set 2 16) = some 1 ∧ openFailure (openParams.set 14 2) = some 9 := by decide +kernel

theorem witness_PatchSitesAreLoadedInOrder :
    (let s := { opened with stu.sites := .replicate 32 ⟨0, 0, 1, .supplied, none⟩ }
     (ask s 0x04 (siteParams 0 1)).Serves .loadPatchSite (rq 0x04 (siteParams 0 1)) [] ∧ 32 ≤ s.stu.sites.length) ∧
    ((ask opened 0x04 (siteParams 39 33)).Serves .loadPatchSite (rq 0x04 (siteParams 39 33)) [] ∧
      siteValueFailure (siteParams 39 33) 40 0 = some 3) ∧
    ((ask opened 0x04 (siteParams 40 32)).Serves .loadPatchSite (rq 0x04 (siteParams 40 32)) [] ∧
      siteValueFailure (siteParams 40 32) 40 0 = none ∧ 40 ≤ field (siteParams 40 32) 0 4) ∧
    ((ask opened 0x04 (siteParams 39 32)).Serves .loadPatchSite (rq 0x04 (siteParams 39 32)) [] ∧
      siteValueFailure (siteParams 39 32) 40 0 = none ∧ placementFailure (siteOf (siteParams 39 32)) 40 [] [] = none) ∧
    placementFailure ⟨0, 65535, 1, .supplied, none⟩ 1 [⟨0, 65534, 1, .supplied, none⟩] [⟨0, 65528, 8, none⟩] = none :=
  ⟨⟨ask_serves (by decide +kernel), by decide +kernel⟩, ⟨ask_serves (by decide +kernel), by decide +kernel⟩,
    ⟨ask_serves (by decide +kernel), by decide +kernel⟩, ⟨ask_serves (by decide +kernel), by decide +kernel⟩,
    by decide +kernel⟩

/-- A LOAD GUARD REGION of `n` bytes at the start of the last chunk. -/
def regionParams (n : Nat) : List Byte := leBytes 4 39 ++ leBytes 2 0 ++ leBytes 4 n

/-- The 32 parameter bytes of a LOAD PATCH SITE at offset 100 of chunk 0. -/
def siteBytes (w code mode b d off al region : Nat) : List Byte :=
  leBytes 4 0 ++ leBytes 2 100 ++ leBytes 1 w ++ leBytes 1 code ++ leBytes 1 mode ++ leBytes 8 b ++ leBytes 2 d ++
    leBytes 8 off ++ leBytes 4 al ++ leBytes 1 region

/-- Each value check at the edge of its range, L = 40: code 9; ORD-DEC-CHECK of one byte; mode 3; B and stride, Off
and Al on either side of their bounds, in every pairing; a region that is not loaded. Then each placement check,
alone. -/
theorem witness_SiteChecksAreOrdered :
    let f := fun ps n => siteValueFailure ps 40 n
    (f (siteBytes 1 9 0 0 0 0 0 0) 0 = some 4 ∧ f (siteBytes 1 3 3 (2 ^ 48) 0 0 0 0) 0 = some 3 ∧
      f (siteBytes 33 7 0 0 0 0 0 0) 0 = some 3 ∧ f (siteBytes 8 6 3 0 0 5120 0 0) 0 = some 5 ∧
      f (siteBytes 1 0 2 (2 ^ 48 - 1) 1 0 0 0) 0 = none ∧
      (∀ b ∈ [2 ^ 48 - 1, 2 ^ 48], ∀ d ∈ [0, 1], let ps := siteBytes 1 4 2 b d 0 0 0
        field ps 7 1 = 4 ∧ field ps 6 1 = 1 ∧ field ps 8 1 = 2 ∧ field ps 9 8 = b ∧ field ps 17 2 = d)) ∧
    (f (siteBytes 8 5 2 0 0 5119 65536 0) 0 = none ∧
      (∀ off ∈ [128 * 40 - 1, 128 * 40], ∀ al ∈ [0, 1, 65536, 65537], let ps := siteBytes 8 6 0 0 0 off al 0
        field ps 7 1 = 6 ∧ field ps 6 1 = 8 ∧ field ps 8 1 = 0 ∧ field ps 19 8 = off ∧ field ps 27 4 = al) ∧
      f (siteBytes 32 7 9 0 0 0 0 0) 0 = none ∧ f (siteBytes 4 8 0 0 0 0 0 1) 1 = some 10 ∧
      f (siteBytes 4 8 0 0 0 0 0 0) 1 = none) ∧
    (let t := fun (c o : Nat) (k : SiteKind) => (⟨c, o, 4, k, none⟩ : Site)
     let g : List Region := [⟨0, 100, 16, none⟩]
     placementFailure (t 40 0 .supplied) 40 [] g = some 1 ∧ placementFailure (t 39 65533 .supplied) 40 [] g = some 2 ∧
     placementFailure (t 39 65532 .supplied) 40 [] g = none ∧
     placementFailure (t 0 103 .supplied) 40 [t 0 100 .supplied] g = some 3 ∧
     placementFailure (t 0 97 .supplied) 40 [t 0 104 .supplied] g = some 4 ∧
     placementFailure (t 0 116 (.guard 0)) 40 [] g = some 5 ∧
     placementFailure (t 0 104 (.guard 0)) 40 [t 0 100 (.guard 0)] g = some 6 ∧
     placementFailure (t 0 112 (.guard 0)) 40 [t 0 100 .supplied] g = none) := by decide +kernel

theorem witness_GuardRegionsAndClearing :
    (let s := { opened with stu.regions := .replicate 4 ⟨0, 0, 8, none⟩ }
     (ask s 0x05 (regionParams 8)).Serves .loadGuardRegion (rq 0x05 (regionParams 8)) [] ∧ 4 ≤ s.stu.regions.length) ∧
    ((ask opened 0x05 (regionParams 7)).Serves .loadGuardRegion (rq 0x05 (regionParams 7)) [] ∧
      regionRefused (regionOf (regionParams 7)) 40 [] [] = true) ∧
    ((ask opened 0x05 (regionParams 65536)).Serves .loadGuardRegion (rq 0x05 (regionParams 65536)) [] ∧
      regionRefused (regionOf (regionParams 65536)) 40 [] [] = false) ∧
    (ask opened 0x06 []).Serves .clearPatchTable (rq 0x06 []) [] :=
  ⟨⟨ask_serves (by decide +kernel), by decide +kernel⟩, ⟨ask_serves (by decide +kernel), by decide +kernel⟩,
    ⟨ask_serves (by decide +kernel), by decide +kernel⟩, ask_serves (by decide +kernel)⟩

theorem witness_StartSessionEnrolsReadySlots :
    (let s := slot3 opened (fun sl => { sl with state := .ready })
     (ask s 0x07 []).Serves .startSession (rq 0x07 []) [] ∧
       s.session = some { demo with phase := .opened, passNumber := 0, pass := .noPass } ∧ (s.slot 3).state = .ready) ∧
    (demo.join = .live ∧ demo.pass = .streaming ∧ demo.nextChunk = 0 ∧ { demo with nextChunk := 1 }.nextChunk ≠ 0) :=
  ⟨⟨ask_serves (by decide +kernel), rfl, by decide +kernel⟩, rfl, rfl, rfl, by decide⟩

/-- The last ordinal, and none left, with and without the event raised; a GUARD site and an ordinal site that defers;
30 notices waiting, and two raised. -/
theorem witness_EnrolmentGivesOrdinalAndStamps :
    let s := fun (n : Nat) (e : Bool) => { slot3 (running (fun x => { x with nextOrdinal := n, exhausted := e }))
        (fun sl => { sl with state := .ready, capacity := some 5120 }) with
      stu.sites := [⟨0, 0, 4, .guard 0, none⟩, ⟨0, 8, 1, .ordinal .dec .defer 9 1, none⟩]
      ncu.notices := .replicate 29 .held }
    ((s 65535 false).session = some { demo with nextOrdinal := 65535 } ∧ 65535 < 65536 ∧
      (s 65536 false).session = some { demo with nextOrdinal := 65536 } ∧
      (s 65536 true).session = some { demo with nextOrdinal := 65536, exhausted := true }) ∧
    (demo.phase = .running ∧ ∃ x, opened.session = some x ∧ x.phase ≠ .running) ∧
    ((s 0 false).stu.sites[0]? = some ⟨0, 0, 4, .guard 0, none⟩ ∧ (s 0 false).stu.sites[2]? = none ∧
      (s 0 false).stu.sites[1]? = some ⟨0, 8, 1, .ordinal .dec .defer 9 1, none⟩ ∧
      (renderSite ⟨0, 8, 1, .ordinal .dec .defer 9 1, none⟩ 1 5120).1 = .deferred) ∧
    ((s 0 false).ncu.mask = BitVec.allOnes 10 ∧ (s 0 false).ncu.notices.length + 1 < 32) :=
  ⟨⟨rfl, by decide, rfl, rfl⟩, ⟨rfl, _, rfl, by decide⟩, by decide +kernel, by decide +kernel⟩

theorem witness_PassStartRostersSlots :
    let none_ := fun (n : Nat) => running (fun x => { x with pass := .noPass, passNumber := n })
    ((ask (running id) 0x08 (leBytes 4 0)).Serves .passStart (rq 0x08 (leBytes 4 0)) [] ∧ demo.pass ≠ .noPass) ∧
    ((ask (none_ 1) 0x08 (leBytes 4 40)).Serves .passStart (rq 0x08 (leBytes 4 40)) [] ∧
      demo.imageLength ≤ field (leBytes 4 40) 0 4) ∧
    ((ask (none_ 65535) 0x08 (leBytes 4 39)).Serves .passStart (rq 0x08 (leBytes 4 39)) [] ∧
      field (leBytes 4 39) 0 4 < demo.imageLength) ∧
    ((ask (none_ 65534) 0x08 (leBytes 4 39)).Serves .passStart (rq 0x08 (leBytes 4 39)) [] ∧
      (none_ 65534).session = some { demo with pass := .noPass, passNumber := 65534 }) :=
  ⟨⟨ask_serves (by decide +kernel), by decide⟩, ⟨ask_serves (by decide +kernel), by decide⟩,
    ⟨ask_serves (by decide +kernel), by decide⟩, ask_serves (by decide +kernel), rfl⟩

theorem witness_HoldReachesHeldAndIsReleased :
    let s := fun (h : HoldState) (t : Option ReqTag) => { running id with wsc.hold := h, wsc.holdReply := t }
    (∀ h t, (ask (s h t) 0x09 []).Serves .hold (rq 0x09 []) [] ∧ (ask (s h t) 0x0A []).Serves .releaseHold (rq 0x0A []) [] ∧
      (s h t).wsc.hold = h ∧ (s h t).wsc.holdReply = t) ∧
    ((running id).session = some demo ∧ demo.phase ≠ .opened ∧
      ∀ i, ((s .holding (some 7)).slot i).state.enrolled = false) ∧
    (let u := slot3 (live3 (running id)) (fun sl => { sl with inFlight := [⟨.piece 0 0 0, some 5, 0⟩] })
     (u.slot 3).state.enrolled = true ∧ (u.slot 3).inFlight ≠ []) := by
  refine ⟨fun h t => ⟨ask_serves ⟨Nat.zero_lt_succ 3, rfl, rfl, rfl, rfl⟩, ask_serves ⟨Nat.zero_lt_succ 3, rfl, rfl, rfl,
      rfl⟩,
    rfl, rfl⟩, ⟨rfl, by decide, fun i => ?_⟩, by decide +kernel, by decide +kernel⟩
  show ((running id).slot i).state.enrolled = false
  rw [running_slot]; rfl

/-- A SESSION TUNE that gives W alone. -/
def tuneParams (w : Nat) : List Byte := leBytes 2 w ++ .replicate 20 0 ++ leBytes 2 1 ++ leBytes 2 0

theorem witness_SessionTuneRequiresHeld :
    let held := { window (live3 (running id)) 32 with wsc.hold := .held }
    ((ask (running id) 0x0B (tuneParams 32)).Serves .sessionTune (rq 0x0B (tuneParams 32)) [] ∧
        (running id).wsc.hold ≠ .held) ∧
    ((ask held 0x0B (tuneParams 31)).Serves .sessionTune (rq 0x0B (tuneParams 31)) [] ∧
      tuneFailure (tuneParams 31) demo held.win.records.length = some 1) ∧
    ((ask held 0x0B (tuneParams 32)).Serves .sessionTune (rq 0x0B (tuneParams 32)) [] ∧
      tuneFailure (tuneParams 32) demo held.win.records.length = none) ∧
    ((held.slot 3).state.enrolled = true ∧ (held.slot 3).throttled = false ∧ held.win.records.length ≤ demo.windowSize) ∧
    (let policy := fun p => leBytes 6 0 ++ leBytes 1 p ++ .replicate 15 0 ++ leBytes 2 8 ++ leBytes 2 0
     (field (policy 2) 22 2).testBit 3 = true ∧ field (policy 2) 6 1 ≤ 2 ∧ 2 < field (policy 3) 6 1 ∧
       tuneFailure (policy 3) demo 32 = some 4 ∧ (field (tuneParams 32) 22 2).testBit 3 = false ∧
       tuneFailure (leBytes 2 0 ++ leBytes 2 8 ++ .replicate 18 0 ++ leBytes 2 2 ++ leBytes 2 0) demo 32 = some 2) :=
  ⟨⟨ask_serves (by decide +kernel), by decide⟩, ⟨ask_serves (by decide +kernel), by decide +kernel⟩,
    ⟨ask_serves (by decide +kernel), by decide +kernel⟩, by decide +kernel, by decide +kernel⟩

theorem witness_ReleaseSlotFollowsTheTable :
    ((ask (running id) 0x0C [192]).Serves .releaseSlot (rq 0x0C [192]) [] ∧ 191 < field [192#8] 0 1) ∧
    ∀ st, let s := slot3 (running id) (fun sl => { sl with state := st })
      (ask s 0x0C [3]).Serves .releaseSlot (rq 0x0C [3]) [] ∧ field [3#8] 0 1 = (3 : SlotIx).val ∧ (s.slot 3).state = st :=
  ⟨⟨ask_serves (by decide +kernel), by decide⟩,
    fun st => ⟨ask_serves ⟨Nat.zero_lt_succ 3, rfl, rfl, rfl, rfl⟩, rfl, by simp [slot3]⟩⟩

/-- One SUPPLIED site of 4 bytes in chunk 0; slot 3 is LIVE with its entry DEFERRED. -/
def deferred3 (stall : Option Stall) : State :=
  { slot3 (live3 (running id)) (fun sl => { sl with stall := stall }) with
    stu.sites := [⟨0, 100, 4, .supplied, none⟩]
    stu.entries := .replicate 192 (.replicate 32 .deferred) }

/-- Section 11.3 at 4.00 s: the supply to the site the slot is stalled at lifts the stall; the reply says so. -/
theorem test_stamp_supply_lifts_the_stall :
    let s := after .stampSupply (ask (deferred3 (some ⟨0, 0, 100⟩)) 0x0D [3, 0, 0, 0, 4, 1, 2, 3, 4])
    s.entry 3 0 = .supplied [1, 2, 3, 4] ∧ (s.slot 3).stall = none ∧
      s.req.outbox.map Reply.data = [[3, 0, 1, 0xFF]] := by decide +kernel

/-- For a stall record at the site's chunk: no region (section 11.3 at 4.00 s), and a region without a GUARD site. -/
theorem witness_StampSupplyChecksAndSupplies :
    (let ps := [192#8, 0, 0, 0, 0]
     (ask (deferred3 none) 0x0D ps).Serves .stampSupply (rq 0x0D ps) [] ∧ 191 < field ps 0 1) ∧
    (let ps := [3#8, 1, 0, 0, 0]
     (ask (deferred3 none) 0x0D ps).Serves .stampSupply (rq 0x0D ps) [] ∧ (deferred3 none).stu.sites[1]? = none) ∧
    (let s := { deferred3 none with stu.sites := [⟨0, 100, 4, .guard 0, none⟩] }; let ps := [3#8, 0, 0, 0, 0]
     (ask s 0x0D ps).Serves .stampSupply (rq 0x0D ps) [] ∧ s.stu.sites[0]? = some ⟨0, 100, 4, .guard 0, none⟩) ∧
    (let ps := [3#8, 0, 0, 0, 3, 1, 2, 3]
     (ask (deferred3 none) 0x0D ps).Serves .stampSupply (rq 0x0D ps) [] ∧ field ps 4 1 ≠ 4) ∧
    (let ps := [3#8, 0, 1, 0, 4, 1, 2, 3, 4]
     (ask (deferred3 none) 0x0D ps).Serves .stampSupply (rq 0x0D ps) [] ∧
       ((deferred3 none).slot 3).ordinal ≠ some (field ps 2 2)) ∧
    (let ps := [3#8, 0, 0, 0, 4, 1, 2, 3, 4]; let s := deferred3 none
     (ask s 0x0D ps).Serves .stampSupply (rq 0x0D ps) [] ∧ field ps 0 1 = (3 : SlotIx).val ∧ field ps 1 1 = 0 ∧
       s.stu.sites[0]? = some ⟨0, 100, 4, .supplied, none⟩ ∧ field ps 4 1 = 4 ∧ (s.slot 3).state.enrolled = true ∧
       (s.slot 3).ordinal = some (field ps 2 2) ∧ s.entry 3 0 = .deferred ∧ s.stu.regions = [] ∧ (s.slot 3).stall = none) ∧
    (let ps := [3#8, 0, 0, 0, 4, 1, 2, 3, 4]; let t : Site := ⟨0, 100, 4, .supplied, none⟩
     ∀ gs ∈ [[], [⟨0, 96, 16, none⟩]], let s := { deferred3 (some ⟨0, 0, 100⟩) with stu.regions := gs }
     (ask s 0x0D ps).Serves .stampSupply (rq 0x0D ps) [] ∧ s.stu.sites = [t] ∧ field ps 4 1 = t.width ∧
       (s.slot 3).state.enrolled = true ∧ (s.slot 3).ordinal = some (field ps 2 2) ∧ s.entry 3 0 = .deferred ∧
       (s.slot 3).stall = some ⟨0, t.chunk, 100⟩ ∧ ∀ q, t.kind ≠ .guard q) ∧
    (let s := deferred3 (some ⟨0, 0, 100⟩)
     (s.slot 3).stall = some ⟨0, 0, 100⟩ ∧ (0 : Nat) ≠ 1 ∧ s.chunkReady 3 0 = false ∧ s.lowestDeferred 3 0 = some 0 ∧
       s.chunkReady 3 1 = true) ∧
    (let ps := [3#8, 0, 0, 0, 4, 1, 2, 3, 4]; let g : Region := ⟨0, 96, 16, some 0⟩
     let t : Site := ⟨0, 100, 4, .supplied, none⟩; let v : Site := ⟨0, 104, 4, .guard 0, none⟩
     let s := { deferred3 none with stu.sites := [t, v], stu.regions := [g] }
     (ask s 0x0D ps).Serves .stampSupply (rq 0x0D ps) [] ∧ s.stu.sites[0]? = some t ∧ field ps 4 1 = t.width ∧
       (s.slot 3).state.enrolled = true ∧ (s.slot 3).ordinal = some (field ps 2 2) ∧ s.entry 3 0 = .deferred ∧
       s.stu.regions[0]? = some g ∧ t.inside g = true ∧ s.stu.sites[1]? = some v ∧ v.kind = .guard 0 ∧ t.kind ≠ .guard 0) :=
  ⟨⟨ask_serves (by decide +kernel), by decide⟩, ⟨ask_serves (by decide +kernel), by decide⟩,
    ⟨ask_serves (by decide +kernel), by decide⟩, ⟨ask_serves (by decide +kernel), by decide⟩,
    ⟨ask_serves (by decide +kernel), by decide +kernel⟩, ⟨ask_serves (by decide +kernel), by decide +kernel⟩,
    fun gs h => ⟨ask_serves (by revert gs; decide +kernel), by
      simp only [List.mem_cons, List.not_mem_nil, or_false] at h
      rcases h with rfl | rfl <;> exact ⟨rfl, by decide +kernel, by decide +kernel, by decide +kernel, by decide +kernel,
        by decide +kernel, fun q => by simp⟩⟩,
    by decide +kernel, ask_serves (by decide +kernel), by decide +kernel⟩

/-- CLEAR MARKS of slots 192 and 191, of 193 and 192 marks, alone and together, and of every mark. -/
theorem witness_EventsMarksAndMask :
    (∀ a b x y z, (ask linked 0x10 [a, b, x, y, z]).Serves .clearMarks (rq 0x10 [a, b, x, y, z]) []) ∧
    (let first := fun a b => field [a, b, 255, 3, 1#8] 0 1; let count := fun a b => field [a, b, 255, 3, 1#8] 1 1
     (191 < first 192 0 ∧ count 192 0 ≤ 192) ∧ (first 191 193 ≤ 191 ∧ 192 < count 191 193) ∧
       (191 < first 192 193 ∧ 192 < count 192 193) ∧
       (first 1 192 ≤ 191 ∧ count 1 192 ≤ 192 ∧ 192 < first 1 192 + count 1 192) ∧
       (first 0 192 ≤ 191 ∧ first 0 192 + count 0 192 ≤ 192)) ∧
    (ask linked 0x13 [255, 255]).Serves .setNoticeMask (rq 0x13 [255, 255]) [] ∧
    (linked.ncu.mask.getLsbD Event.held.member.val = true ∧ linked.ncu.notices.length < 32 ∧
      { linked with ncu.notices := .replicate 32 .held }.ncu.notices.length = 32 ∧
      { linked with ncu.mask := 0 }.ncu.mask.getLsbD Event.held.member.val = false) :=
  ⟨fun _ _ _ _ _ => ask_serves ⟨Nat.zero_lt_succ 3, rfl, rfl, rfl, rfl⟩, by decide, ask_serves (by decide +kernel),
    by decide +kernel⟩

theorem witness_SnapshotsCopyEveryCounter :
    (ask linked 0x11 [61]).Serves .snapshot (rq 0x11 [61]) [] ∧
    { linked with ncu.autoAt := some 1000, ncu.autoInterval := 1 }.ncu.autoAt = some 1000 :=
  ⟨ask_serves (by decide +kernel), rfl⟩

/-- With a command of slot 3 out under tag 5 and a HOLD reply pending. -/
theorem witness_CloseSessionSettlesAndClears :
    let s := { sent (live3 (running id)) (.piece 0 0 0) id with wsc.hold := .holding, wsc.holdReply := some 7 }
    (ask s 0x14 []).Serves .closeSession (rq 0x14 []) [] ∧ (s.link 0).tag 5 = .bound ⟨3, .write, 1000⟩ ∧
      linkOf (⟨3, .write, 1000⟩ : Busy).slot = 0 ∧ (s.link 0).tag 6 = .free ∧ s.intake.linkUp = true :=
  ⟨ask_serves (by decide +kernel), by decide +kernel⟩

/-- Link 11, socket 15: slot 191. -/
theorem witness_PresenceMovesSlots :
    (State.reset.session = none ∧ (running id).session = some demo) ∧
    (linked.link 11).up = false ∧
    ∀ st, let s := (linked.updLink 11 (fun l => { l with up := true })).updSlot 191 (fun sl => { sl with state := st })
      slotAt 11 15 = 191 ∧ (s.link 11).up = true ∧ (s.slot 191).state = st :=
  ⟨⟨rfl, rfl⟩, by decide +kernel, fun st => ⟨by decide, by simp, by simp⟩⟩

theorem witness_SettleDeadlineSeatsANewStick :
    ∀ s ∈ [linked, opened, running id, running (fun x => { x with phase := .faulted })],
      let t := slot3 s (fun sl => { sl with state := .settling, settleDeadline := some 0 })
      (t.slot 3).state = .settling ∧ (t.slot 3).settleDeadline = some 0 := by simp [slot3]

/-- A LIVE slot over the whole image and one in WAITING; a window that stays, one whose last record goes in a STREAMING
pass, and one whose last record goes in a DRAINING pass, which ends; WAITING slots with spans from 7 and from 9. -/
theorem witness_PendingIsReleasedAndRetired :
    (let s := live3 (running (fun x => { x with nextChunk := 40 }))
     s.session = some { demo with nextChunk := 40 } ∧ (s.slot 3).ackPoint = some 0 ∧ (s.slot 3).span = some ⟨0, 40⟩ ∧
      (s.slot 3).state = .live ∧ ((slot3 s (fun sl => { sl with state := .waiting })).slot 3).state ≠ .live ∧
      retired (window s 2).win.records = ⟨0, 0, some ⟨0, 1, false⟩⟩ :: [⟨1, 1, some ⟨0, 1, false⟩⟩]) ∧
    (∀ p, let s := { running (fun x => { x with pass := p }) with win.records := [⟨39, 5, some ⟨0, 0, false⟩⟩] }
      s.session = some { demo with pass := p } ∧ retired s.win.records = [] ∧ s.win.records ≠ [] ∧
        retired s.win.records ≠ s.win.records) ∧
    (let s := { running (fun x => { x with pass := .draining }) with win.records := [] }
     s.session = some { demo with pass := .draining } ∧ ¬s.win.records ≠ [] ∧ retired s.win.records = s.win.records) ∧
    (let w := fun (lo : Nat) (sl : Slot) => { sl with state := .waiting, span := some ⟨lo, 40⟩ }
     let s := slot3 ((running id).updSlot 4 (w 9)) (w 7)
     (s.slot 3).state = .waiting ∧ (s.slot 3).span = some ⟨7, 40⟩ ∧ s.lowestFrom = some 7 ∧
       (running id).lowestFrom = none) :=
  ⟨⟨rfl, by decide +kernel⟩, fun p => ⟨rfl, rfl, nofun, nofun⟩, ⟨rfl, (fun h => h rfl), rfl⟩, by decide +kernel⟩

/-- Scores at the eject threshold, one below it, at the throttle threshold and one below it. -/
theorem witness_TroubleRisesAndDecays :
    (let s := fun (n : Nat) (t : Bool) => slot3 (running id) (fun sl => { sl with trouble := n, throttled := t })
     (s 44 true).session = some demo ∧ demo.tune.eject = min 63 (((s 44 true).slot 3).trouble + 4) ∧
       min 63 (((s 43 true).slot 3).trouble + 4) < demo.tune.eject ∧
       demo.tune.throttle = min 63 (((s 20 false).slot 3).trouble + 4) ∧ ((s 20 false).slot 3).throttled = false ∧
       ((s 20 true).slot 3).throttled = true ∧ min 63 (((s 19 false).slot 3).trouble + 4) < demo.tune.throttle) ∧
    (let s := { running id with wsc.decayAt := some 5000 }
     s.session = some demo ∧ s.wsc.decayAt = some 5000) ∧
    (17 - 1 ≤ demo.tune.throttle - 8 ∧ demo.tune.residencyMin ≤ min 255 (2 + 1)) ∧
    (demo.tune.throttle - 8 < 18 - 1 ∨ min 255 (1 + 1) < demo.tune.residencyMin) := by
  refine ⟨?_, ⟨rfl, rfl⟩, by decide, by decide⟩
  refine ⟨rfl, ?_⟩
  decide +kernel

/-- A full window at whose tail slot 3 stands, under a laggard policy, with a pin count. -/
def pinned (policy : LaggardPolicy) (pins : Nat) : State :=
  { slot3 (window (live3 (running (fun x => { x with nextChunk := 32, laggard := policy }))) 32)
      (fun sl => { sl with pinCount := pins }) with
    wsc.paceAt := some 250 }

/-- Two ticks before slot 3 is declared and at the tick that declares it, under each policy; no other slot is LIVE. -/
theorem witness_PaceTickCountsAndPoliciesAct :
    ((∀ p n, (pinned p n).session = some { demo with nextChunk := 32, laggard := p } ∧ (pinned p n).wsc.paceAt = some 250 ∧
        (pinned p n).wsc.hold = .run ∧ (pinned p n).ncu.mask = BitVec.allOnes 10) ∧
      demo.phase = .running ∧ demo.pass ≠ .noPass ∧ (opened.session.any (fun x => x.phase == .opened)) = true) ∧
    (demo.windowSize - (pinned .wait 7).win.records.length = 0 ∧
      (((pinned .wait 7).win.records.head?).map ChunkRecord.chunk) = some 0 ∧
      (∀ p, ((pinned p 7).slot 3).state = .live ∧ ((pinned p 7).slot 3).ackPoint = some 0 ∧
        ((pinned p 7).slot 3).span = some ⟨0, 40⟩ ∧ ((pinned p 7).slot 3).pinCount + 1 = demo.tune.declareCount) ∧
      7 < 255 ∧ 6 + 1 ≠ demo.tune.declareCount) ∧
    (∀ p n (i : SlotIx), i ≠ 3 → ((pinned p n).slot i).state ≠ .live) := by
  refine ⟨⟨fun p n => ⟨rfl, rfl, rfl, rfl⟩, rfl, by decide, by decide +kernel⟩,
    ⟨by decide +kernel, by decide +kernel, fun p => ?_, by decide, by decide⟩, fun p n i h => ?_⟩
  · cases p <;> decide +kernel
  · rw [show (pinned p n).slot i = (live3 (running (fun x => { x with nextChunk := 32, laggard := p }))).slot i from
      slot3_ne (fun sl => { sl with pinCount := n }) (window (live3 (running (fun x =>
        { x with nextChunk := 32, laggard := p }))) 32) i h,
      show (live3 (running (fun x => { x with nextChunk := 32, laggard := p }))).slot i = Slot.reset from
        (slot3_ne _ _ i h).trans (running_slot _ i)]
    decide

theorem witness_StallDeadlineFailsTheSlot :
    ((deferred3 (some ⟨0, 0, 100⟩)).session = some demo ∧ ((deferred3 (some ⟨0, 0, 100⟩)).slot 3).stall = some ⟨0, 0, 100⟩ ∧
      demo.phase = .running) ∧
    (let s := slot3 (running (fun x => { x with phase := .faulted })) (fun sl => { sl with stall := some ⟨0, 0, 100⟩ })
     s.session = some { demo with phase := .faulted } ∧ (s.slot 3).stall = some ⟨0, 0, 100⟩) :=
  ⟨⟨rfl, by decide +kernel, rfl⟩, rfl, by decide +kernel⟩

/-- Link 0 of an engine without a session, and link 0 of a running session whose slot 3 is LIVE. -/
theorem witness_PingsEstablishAndLoseTheLink :
    ((State.reset.link 0).up = false ∧ ((link0 State.reset id).link 0).up = true) ∧
    (let s := fun (n : Nat) => link0 (window (live3 (running (fun x => { x with nextChunk := 1 }))) 1) (fun l =>
      { l with pingOpen := true, missed := n })
    let l := fun n => (s n).link 0
    ((link0 linked (fun l => { l with pingWaiting := true })).link 0).pingWaiting = true ∧
    ((State.reset.link 0).pingWaiting = false ∧ (State.reset.link 0).up = false ∧ (State.reset.link 0).missed < 3) ∧
    ((l 1).pingWaiting = false ∧ (l 1).up = true ∧ (l 1).pingOpen = true ∧ (l 1).missed < 2) ∧
    ((l 2).pingWaiting = false ∧ (l 2).up = true ∧ (l 2).pingOpen = true ∧ (l 2).missed = 2 ∧ linkOf 3 = 0 ∧
      ((s 2).slot 3).state.enrolled = true ∧ (s 2).recordsWithoutLink 0 ≠ (s 2).win.records)) ∧
    (LampPattern.green ≠ (⟨.off, some .green⟩ : Lamp).shown ∧ LampPattern.off = (⟨.off, some .green⟩ : Lamp).shown) := by
  decide +kernel

/-- One state for each clause: qualification, an entry waiting behind one sent, a rewrite queue, a cursor piece at the
last place before the conditions fail, and a verify cursor below L and at it. -/
theorem witness_IssuableCommandsFollowTheRules :
    ((slot3 linked (fun sl => { sl with lamp := ⟨.off, some .green⟩ })).eligible 3 = true ∧
      (∃ t : LinkTag, (linked.link 0).tag t = .free)) ∧
    (∀ p, let s := slot3 opened (fun sl => { sl with state := .probing, qual := some ⟨p, 1, 2⟩ })
      (s.slot 3).state = .probing ∧ (s.slot 3).qual = some ⟨p, 1, 2⟩ ∧ (s.slot 3).inFlight = []) ∧
    (let g : Grant := ⟨3, .size, 0, .first, none, 0, []⟩
     ∃ h, ((link0 linked (fun l => { l with path := some g })).link (linkOf 3)).path = some h ∧ h.slot = 3 ∧
       h.origin ≠ .waiting) ∧
    (∀ h, let s := slot3 { running id with wsc.hold := h } (fun sl => { sl with
        state := .live, inFlight := [⟨.piece 0 0 0, some 5, 0⟩] ++ ⟨.piece 0 1 0, none, 1⟩ :: [] })
      (s.slot 3).state = .live ∧ s.phase = some .running ∧
        (s.slot 3).inFlight = [⟨.piece 0 0 0, some 5, 0⟩] ++ ⟨.piece 0 1 0, none, 1⟩ :: [] ∧ s.wsc.hold = h) ∧
    (let s := slot3 (live3 (running id)) (fun sl => { sl with rewrites := [⟨0, 0, 1⟩] })
     (s.slot 3).rewrites = ⟨0, 0, 1⟩ :: [] ∧ (s.slot 3).inFlight = [] ∧ s.places 3 < s.depth 3) ∧
    (let s := fun n => window (live3 (running (fun x => { x with nextChunk := n }))) n
     (∀ n, (s n).session = some { demo with nextChunk := n }) ∧ ((s 1).slot 3).issueCursor = some 0 ∧
       ((s 1).slot 3).ackPoint = some 0 ∧ ((s 1).slot 3).span = some ⟨0, 40⟩ ∧ ((s 1).slot 3).rewrites = [] ∧
       (s 1).nextSend 3 = some (.piece 0 0 0, 0, .first) ∧ (s 0).nextSend 3 = none) ∧
    (∀ c, let s := slot3 (running id) (fun sl => { sl with state := .verifying, verifyCursor := some c })
      (s.slot 3).state = .verifying ∧ (s.slot 3).verifyCursor = some c ∧ (s.slot 3).inFlight = []) ∧
    (demo.imageLength = 40 ∧ (slot3 (live3 (running id)) (fun sl => { sl with
      throttled := true, throttledDepth := some 1 })).depth 3 = 1 ∧ (opened.slot 3).state.enrolled = false) :=
  ⟨⟨by decide +kernel, 0, by decide +kernel⟩, fun p => ⟨by simp [slot3], by simp [slot3], by simp [slot3, opened,
      running_slot, Slot.reset]⟩,
    ⟨_, rfl, rfl, by decide⟩, fun h => ⟨by simp [slot3], rfl, by simp [slot3], rfl⟩, by decide +kernel,
    ⟨fun _ => rfl, by decide +kernel⟩, fun c => ⟨by simp [slot3], by simp [slot3], by simp [slot3, running_slot,
        Slot.reset]⟩,
    by decide +kernel⟩

/-- Slot 3 with a lamp due, slot 3 with a SIZE to send: socket 3 after socket 15, past 0, 1 and 2. -/
theorem witness_TransmitPathIsGrantedInTurn :
    ((link0 linked (fun l => { l with path := some ⟨3, .size, 0, .first, none, 0, []⟩ })).link 0).path.isSome = true ∧
    ((linked.link 0).path = none ∧ (linked.link 0).pingWaiting = false ∧ (linked.link 0).up = false) ∧
    ((link0 linked (fun l => { l with pingWaiting := true })).link 0).pingWaiting = true ∧
    (let s := link0 (slot3 linked (fun sl => { sl with lamp := ⟨.off, some .green⟩ })) id
     (s.link 0).path = none ∧ (s.link 0).up = true ∧ (3 : Socket) = (s.link 0).lastSocket + 1 + 3 ∧
       s.eligible (slotAt 0 3) = true ∧ (∀ m : Fin 16, m < 3 →
           s.eligible (slotAt 0 ((s.link 0).lastSocket + 1 + m)) = false) ∧
       (s.slot (slotAt 0 3)).lamp.due = some .green) ∧
    (let s := link0 (slot3 opened (fun sl => { sl with state := .sizing, qual := some ⟨.size, 0, 0⟩ })) id
     s.eligible (slotAt 0 3) = true ∧ (s.slot (slotAt 0 3)).lamp.due = none ∧
       s.nextSend (slotAt 0 3) = some (.size, 0, .first)) ∧
    (let s := link0 (slot3 opened (fun sl => { sl with
        state := .probing, capacity := some 5120, qual := some ⟨.probeWrite, 2, 0⟩ })) id
     s.eligible (slotAt 0 3) = true ∧ s.nextSend (slotAt 0 3) = some (.probeWrite 2, 0, .first) ∧
       s.session.isSome = true ∧ (s.slot (slotAt 0 3)).capacity = some 5120) ∧
    (let s := link0 (window (live3 (running (fun x => { x with nextChunk := 1 }))) 1) id
     s.eligible (slotAt 0 3) = true ∧ s.nextSend (slotAt 0 3) = some (.piece 0 0 0, 0, .first) ∧
       s.record 0 = some ⟨0, 0, some ⟨0, 1, false⟩⟩ ∧ (s.pieces 0)[0]? = some ⟨false, 0, 128⟩) ∧
    (∀ j, (link0 linked id).eligible (slotAt 0 j) = false) := by decide +kernel

/-- Link 0 reading the only piece of chunk 0 from frame 0 for slot 3. -/
def reading (moved : Nat) : State :=
  { link0 (window (live3 (running (fun x => { x with nextChunk := 1 }))) 1) (fun l => { l with
      path := some ⟨3, .piece 0 0 0, 0, .first, some (0, ⟨false, 0, 128⟩), moved, []⟩ }) with
    win.waiting := [.drain 0] }

theorem witness_BufferPortIsGrantedInTurn :
    (Transfer.fill ∈ { linked with win.waiting := [.digest, .fill] }.win.waiting) ∧
    (let s := { linked with win.waiting := [.digest] }
     Transfer.fill ∉ s.win.waiting ∧ (0 : Fin 14) = s.win.ring + 1 + 0 ∧
       s.win.waiting.find? (fun u => u.ringMember == some 0) = some .digest) ∧
    (let s := reading 15
     Transfer.fill ∉ s.win.waiting ∧ (2 : Fin 14) = s.win.ring + 1 + 2 ∧
       (∀ d : Fin 14, d < 2 → ∀ u ∈ s.win.waiting, u.ringMember ≠ some (s.win.ring + 1 + d)) ∧
       s.win.waiting.find? (fun u => u.ringMember == some 2) = some (.drain 0) ∧
       (s.link 0).path = some ⟨3, .piece 0 0 0, 0, .first, some (0, ⟨false, 0, 128⟩), 15, []⟩) := by decide +kernel

/-- Link 0 building the only stamped piece of chunk 0, sectors 0 to 15, from frame 0 for slot 3: two sites in it, at
its first and last byte, rendered. -/
def building (moved : Nat) : State :=
  { link0 (window (live3 (running (fun x => { x with nextChunk := 1 }))) 1) (fun l => { l with
      path := some ⟨3, .piece 0 1 0, 0, .first, some (0, ⟨true, 0, 16⟩), moved, []⟩ }) with
    win.waiting := [.stamp 0], win.ring := 12
    stu.sites := [⟨0, 0, 1, .supplied, none⟩, ⟨0, 8191, 1, .supplied, none⟩]
    stu.entries := .replicate 192 (.replicate 32 (.supplied [9])) }

/-- Transfers 1 to 4 of the four: the first copies, the second copies and writes the stamps, two read. -/
theorem witness_StampedPiecesAreBuiltInScratch :
    (∀ moved, let s := building moved
      s.memoryWf ∧ Transfer.fill ∉ s.win.waiting ∧ (1 : Fin 14) = s.win.ring + 1 + 2 ∧
      (∀ d : Fin 14, d < 2 → ∀ u ∈ s.win.waiting, u.ringMember ≠ some (s.win.ring + 1 + d)) ∧
      s.win.waiting.find? (fun u => u.ringMember == some 1) = some (.stamp 0) ∧
      (s.link 0).path = some ⟨3, .piece 0 1 0, 0, .first, some (0, ⟨true, 0, 16⟩), moved, []⟩) ∧
    (let total := (512 * 16 + 4095) / 4096; 0 + 1 < total ∧ 1 < total ∧ 1 + 1 = total ∧ total ≤ 2 ∧ total ≤ 3) ∧
    ((building 1).stu.sites[1]? = some ⟨0, 8191, 1, .supplied, none⟩ ∧ 8191 + 1 ≤ 512 * (0 + 16) ∧
      ((building 1).entry 3 1).bytes? = some [9#8] ∧ [9#8].length = 1 ∧ 0 + 1 ≤ 8191) :=
  ⟨fun _ => ⟨⟨rfl, rfl⟩, by simp [building],
      show (1 : Fin 14) = 12 + 1 + 2 by decide, by simp only [building]; decide, rfl,
      by simp [building, link0, State.link, State.updLink, State.setLink]⟩,
    by decide, by decide +kernel⟩

/-- Link 0 with a command of slot 3 granted and its bytes read; `f` is the rest of the slot. -/
def granted (w : Work) (o : Origin) (source : Option (Nat × Piece)) (f : Slot → Slot) : State :=
  link0 (slot3 (window (live3 (running (fun x => { x with nextChunk := 1 }))) 1) f) (fun l => { l with
    path := some ⟨3, w, 0, o, source, 16, []⟩ })

/-- Every kind of command and every origin; an entry waiting for the piece, or the read, behind one of other work; a
sixteenth transfer still to come; a link whose tags are all LAPSED. -/
theorem witness_CommandsAreSentWithATag :
    (∀ w o f h, let s := { granted w o (some (0, ⟨false, 0, 128⟩)) f with wsc.hold := h }
      let g : Grant := ⟨3, w, 0, o, some (0, ⟨false, 0, 128⟩), 16, []⟩
      s.session = some { demo with nextChunk := 1 } ∧ s.wsc.hold = h ∧ (s.link 0).path = some g ∧
        (s.link 0).nextTag = some 0 ∧ g.transfers ≤ g.moved) ∧
    (∀ w o f, let s := granted w o none f
      (s.link 0).path = some ⟨3, w, 0, o, none, 16, []⟩ ∧ (⟨3, w, 0, o, none, 16, []⟩ : Grant).transfers ≤ 16) ∧
    (∀ w, let es : List Entry := [⟨.size, some 9, 0⟩] ++ ⟨w, none, 1⟩ :: [⟨w, some 8, 0⟩]
      ((granted w .waiting none (fun sl => { sl with inFlight := es })).slot 3).inFlight = es ∧
      (∀ d ∈ [(⟨.size, some 9, 0⟩ : Entry)], d.tag ≠ none ∨ d.work ≠ w)) ∧
    (((granted (.piece 0 0 1) .rewrite none (fun sl => { sl with rewrites := [⟨0, 0, 1⟩] })).slot 3).rewrites =
        ⟨0, 0, 1⟩ :: [] ∧
      (let s := granted (.piece 0 0 0) .first none id; 0 + 1 = (s.pieces 0).length ∧ s.stu.sites = [])) ∧
    ((⟨3, .piece 0 0 0, 0, .first, some (0, ⟨false, 0, 128⟩), 15, []⟩ : Grant).transfers = 16 ∧
      (State.reset.link 0).nextTag = some 0 ∧ { State.reset.link 0 with tags := .replicate 256 .lapsed }.nextTag = none) := by
  refine ⟨fun w o f h => ⟨rfl, rfl, ?_, ?_, le_refl 16⟩, fun w o f => ⟨?_, Nat.zero_le 16⟩, fun w => ⟨?_, by simp⟩,
    by decide +kernel, by decide +kernel⟩
  · simp [granted, link0, State.link, State.updLink, State.setLink]
  · rw [show (({ granted w o (some (0, ⟨false, 0, 128⟩)) f with wsc.hold := h } : State).link 0).nextTag = (State.reset.link 0).nextTag by
      simp [granted, link0, slot3, Link.nextTag, State.link, State.updLink, State.setLink, State.updSlot, State.setSlot,
          window, live3,
        running, linked, State.reset]
      rfl]
    decide +kernel
  · simp [granted, link0, State.link, State.updLink, State.setLink]
  · simp [granted, link0, slot3]

/-- Chunk 0 with one SUPPLIED site in its first sector: pristine sectors 1 to 127, then the stamped one. The entry is
DEFERRED, or SUPPLIED. -/
theorem witness_StallsBeginAtTheLastPristinePiece :
    (∀ h, let g : Grant := ⟨3, .piece 0 0 0, 0, .first, some (0, ⟨false, 1, 127⟩), 16, []⟩
     let s := { link0 (slot3 (live3 (running (fun x => { x with nextChunk := 1 }))) id) (fun l => { l with path := some g }) with
       win.records := [⟨0, 0, some ⟨0, 1, true⟩⟩], stu.sites := [⟨0, 100, 4, .supplied, none⟩], wsc.hold := h }
     s.session = some { demo with nextChunk := 1 } ∧ s.wsc.hold = h ∧ (s.link 0).path = some g ∧ (s.link 0).nextTag = some 0 ∧
       g.transfers ≤ g.moved ∧ s.pieces 0 = [⟨false, 1, 127⟩, ⟨true, 0, 1⟩] ∧ 0 + 1 = pristineCount (s.pieces 0) ∧
       0 + 1 < (s.pieces 0).length) ∧
    (((deferred3 none).attemptGuards 3 0).chunkReady 3 0 = false ∧
      ((deferred3 none).attemptGuards 3 0).lowestDeferred 3 0 = some 0) ∧
    (let s := { deferred3 none with stu.entries := .replicate 192 (.replicate 32 (.supplied [1, 2, 3, 4])) }
     (s.attemptGuards 3 0).chunkReady 3 0 = true ∧ (3 : SlotIx) ≠ 4) ∧
    (let s := { deferred3 none with stu.sites := [⟨0, 100, 4, .guard 0, none⟩], stu.regions := [⟨0, 100, 8, some 0⟩] }
     s.stu.sites[0]? = some ⟨0, 100, 4, .guard 0, none⟩ ∧ s.stu.sites[1]? = none) :=
  ⟨fun h => ⟨rfl, rfl, by cases h <;> decide +kernel⟩, by decide +kernel, by decide +kernel, rfl, rfl⟩

theorem witness_LateAnswersAreDiscarded :
    (linked.link 0).up = false ∧
    ∀ t : TagState, let s := link0 linked (fun l => l.setTag 255 t)
      (s.link 0).up = true ∧ (s.link 0).tag 255 = t ∧
        (⟨3, .size, 1000⟩ : Busy).kind ≠ .write ∧ (⟨3, .write, 1000⟩ : Busy).kind = .write ∧ (3 : Byte) ≠ 4 :=
  ⟨by decide +kernel, fun t => ⟨by simp [link0, Link.setTag], by simp [link0, Link.setTag_tag], by decide, rfl, by decide⟩⟩

/-- A LIVE slot in FAULTED, for answers of every status, and in RUNNING, a SIZING slot in FAULTED, and a FAILED slot's
ABANDONED tag; in each hold state. -/
theorem witness_GoneEmptiesTheSlot (h : HoldState) :
    (∀ p, let s := sent { running (fun x => { x with phase := p }) with wsc.hold := h } (.piece 0 0 0) (fun sl =>
        { sl with state := .live })
      s.Answers 0 5 ⟨3, .write, 1000⟩ ⟨.piece 0 0 0, some 5, 0⟩ ∧ s.session = some { demo with phase := p } ∧
        (s.slot 3).state = .live ∧ (s.slot 3).state.enrolled = true ∧ s.wsc.hold = h) ∧
    (∀ p, let s := sent { running (fun x => { x with phase := p }) with wsc.hold := h } .size (fun sl => { sl with state := .sizing })
      s.Answers 0 5 ⟨3, .size, 1000⟩ ⟨.size, some 5, 0⟩ ∧ s.session = some { demo with phase := p } ∧
        (s.slot 3).state = .sizing ∧ s.wsc.hold = h) ∧
    (∀ b : Busy, b.slot = 3 → let u := slot3 (link0 linked (fun l => l.setTag 255 (.abandoned b))) (fun sl => { sl with state := .failed })
     (u.link 0).up = true ∧ (u.link 0).tag 255 = .abandoned b ∧ (u.slot b.slot).state ≠ .empty) :=
  ⟨fun _ => ⟨sent_answers _ _ _ (fun _ => rfl), rfl, by simp [sent, slot3],
      by simp [sent, slot3, SlotState.enrolled], rfl⟩,
    fun _ => ⟨sent_answers _ _ _ (fun _ => rfl), rfl, by simp [sent, slot3], rfl⟩,
    fun b h => ⟨by simp [link0, slot3, Link.setTag], by simp [link0, slot3, Link.setTag_tag], by simp [slot3, h]⟩⟩

/-- Slot 3 past chunk 0, whose only piece is in flight. -/
def past0 (sl : Slot) : Slot :=
  { sl with state := .live, span := some ⟨0, 40⟩, ackPoint := some 0, issueCursor := some 1 }

theorem witness_PieceAcknowledgedOk (h : HoldState) :
    (∀ v, let s := sent { running (fun x => { x with verify := v }) with wsc.hold := h } (.piece 0 0 0) past0
     s.Answers 0 5 ⟨3, .write, 1000⟩ ⟨.piece 0 0 0, some 5, 0⟩ ∧ s.session = some { demo with verify := v } ∧
       demo.phase = .running ∧ s.wsc.hold = h ∧ ((s.slot 3).dropEntry 5).written 0 = true) ∧
    (let s := sent { running id with wsc.hold := h } (.piece 0 0 0) (fun sl => { past0 sl with
       issueCursor := some 0, piecesSent := 1 })
     s.Answers 0 5 ⟨3, .write, 1000⟩ ⟨.piece 0 0 0, some 5, 0⟩ ∧ ((s.slot 3).dropEntry 5).written 0 = false) :=
  ⟨fun v => ⟨sent_answers _ _ _ (fun _ => rfl), rfl, rfl, rfl, by cases h <;> cases v <;> decide +kernel⟩,
    sent_answers _ _ _ (fun _ => rfl), by cases h <;> decide +kernel⟩

/-- The last chunk of the span, and the chunk below two that are acknowledged ahead up to its end, with and without a
deferred span, under OFF and TRAILING; a chunk that joins the set; and an ack point that passes over 21 and 22 (example
of section 5.5). -/
theorem witness_AcknowledgementAdvancesTheSpan :
    (∀ v d, ∀ p ∈ [(39, []), (37, [38, 39])], let s := slot3 (live3 (running (fun x => { x with verify := v }))) (fun sl =>
        { sl with ackPoint := some p.1, ahead := p.2, deferred := d })
      s.session = some { demo with verify := v } ∧ (s.slot 3).state = .live ∧ (s.slot 3).span = some ⟨0, 40⟩ ∧
        ((s.slot 3).acknowledged p.1).ackPoint = some (⟨0, 40⟩ : Span).hi ∧ (s.slot 3).deferred = d) ∧
    (let s := slot3 (live3 (running id)) (fun sl => { sl with ackPoint := some 37, ahead := [38] })
     s.session = some demo ∧ (s.slot 3).state = .live ∧ (s.slot 3).span = some ⟨0, 40⟩ ∧
       (s.slot 3).acknowledged 39 = { s.slot 3 with ahead := [38, 39] } ∧
       ((s.slot 3).acknowledged 39).ackPoint ≠ some (⟨0, 40⟩ : Span).hi) ∧
    (let sl := { Slot.reset with ackPoint := some 20, ahead := [21, 22] }
     sl.ackPoint = some 20 ∧ sl.ahead.Pairwise (· < ·) ∧ (∀ d ∈ sl.ahead, 20 < d) ∧
       (sl.acknowledged 20).ackPoint = some 23) :=
  ⟨fun v d p h => ⟨rfl, by simp [slot3, live3], by simp [slot3, live3], by
      simp only [List.mem_cons, List.not_mem_nil, or_false] at h
      rcases h with rfl | rfl <;> simp [slot3, Slot.acknowledged, advance], by simp [slot3]⟩,
    by decide +kernel, by decide +kernel⟩

/-- Scores that each weight takes to the eject threshold, one below it, to the throttle threshold and one below that;
retry limits of 0 and of 3. -/
theorem witness_PieceErrorsAreRetried (h : HoldState) :
    (∀ r n, let s := sent { running (fun x => { x with tune.retryLimit := r }) with wsc.hold := h } (.piece 0 0 0) (fun sl =>
        { past0 sl with trouble := n })
     s.Answers 0 5 ⟨3, .write, 1000⟩ ⟨.piece 0 0 0, some 5, 0⟩ ∧ s.wsc.hold = h ∧
       s.session = some { demo with tune.retryLimit := r } ∧ demo.phase = .running ∧ (s.slot 3).trouble = n) ∧
    (∀ r n, let s := sent { running (fun x => { x with tune.retryLimit := r }) with wsc.hold := h } (.verify 0 0) (fun sl =>
        { past0 sl with trouble := n })
     s.Answers 0 5 ⟨3, .read, 1000⟩ ⟨.verify 0 0, some 5, 0⟩ ∧ s.wsc.hold = h ∧
       s.session = some { demo with tune.retryLimit := r } ∧ (s.slot 3).trouble = n) ∧
    (∀ w, w = 2 ∨ w = 4 → demo.tune.eject ≤ min 63 (48 - w + w) ∧ min 63 (47 - w + w) < demo.tune.eject ∧
      demo.tune.throttle ≤ min 63 (24 - w + w) ∧ min 63 (23 - w + w) < demo.tune.throttle) ∧
    ((0 : Nat) < 3 ∧ (0 : Nat) ≤ 0 ∧ 4 < (5 : Byte).toNat ∧ (List.replicate 65535 0#8).length ≠ 65536) :=
  ⟨fun r n => ⟨sent_answers _ _ _ (fun _ => rfl), rfl, rfl, rfl, by simp [sent, slot3]⟩,
    fun r n => ⟨sent_answers _ _ _ (fun _ => rfl), rfl, rfl, by simp [sent, slot3]⟩,
    by rintro w (rfl | rfl) <;> decide, by decide, by decide, by decide, by rw [List.length_replicate]; decide⟩

/-- CAPACITY of 5,119 and 5,120 sectors for an image of 40 chunks, and of 7 bytes, at any score. -/
theorem witness_CapacityDecidesSizing (h : HoldState) :
    (∀ p q n, let s := sent { running (fun x => { x with phase := p, qualify := q }) with wsc.hold := h } .size (fun sl => { sl with
        state := .sizing, qual := some ⟨.size, 0, 0⟩, trouble := n })
      s.Answers 0 5 ⟨3, .size, 1000⟩ ⟨.size, some 5, 0⟩ ∧ s.session = some { demo with phase := p, qualify := q } ∧
        (s.slot 3).state = .sizing ∧ (s.slot 3).qual = some ⟨.size, 0, 0⟩ ∧ (s.slot 3).trouble = n ∧ s.wsc.hold = h) ∧
    (leBytes 8 5119).length = 8 ∧ leValue (leBytes 8 5119) < 128 * demo.imageLength ∧
    128 * demo.imageLength ≤ leValue (leBytes 8 5120) ∧ (leBytes 7 0).length ≠ 8 :=
  ⟨fun _ q n => ⟨sent_answers _ _ _ (fun _ => rfl), rfl, by simp [sent, slot3], by simp [sent, slot3],
    by simp [sent, slot3], rfl⟩, by decide +kernel⟩

/-- The probe content of the demo session for slot 3 with a stick of 5,120 sectors. -/
abbrev content (j : Nat) : List Byte := probeData demo.sessionTag 3 5120 demo.probeCount j

/-- A SIZE and a probe's WRITE and READ, under a retry limit of 0 and of 3, at a score that leaves room for a
timeout's 8, and at one that every weight takes to the eject threshold. -/
theorem witness_QualificationAnswersAndTimeouts (h : HoldState) :
    (∀ (w : Work) (st : SlotState) (q : Qualification) (n r : Nat),
      let s := sent { running (fun x => { x with tune.retryLimit := r }) with wsc.hold := h } w (fun sl => { sl with
        state := st, qual := some q, trouble := n })
      s.Answers 0 5 ⟨3, w.kind, 1000⟩ ⟨w, some 5, 0⟩ ∧ s.wsc.hold = h ∧ s.session = some { demo with tune.retryLimit := r } ∧
        (s.slot 3).state = st ∧ (s.slot 3).qual = some q ∧ (s.slot 3).trouble = n ∧ (s.link 0).lapsed + 1 < 192) ∧
    ((Work.size).kind = .size ∧ (Work.probeWrite 3).kind = .write ∧ (Work.probeRead 3).kind = .read ∧
      2 + 1 < demo.probeCount ∧ ¬3 + 1 < demo.probeCount) ∧
    (15 + 8 < demo.tune.throttle ∧ 15 + 8 < demo.tune.eject ∧ 15 + 8 ≤ 63 ∧ 0 < 3 ∧ demo.tune.eject ≤ min 63 (46 + 2)) ∧
    (4 < (5 : Byte).toNat ∧ ([] : List Byte).length ≠ 8 ∧ (List.replicate 511 0#8).length ≠ 512) :=
  ⟨fun w st q n r => ⟨sent_answers _ _ _ (fun _ => rfl), rfl, rfl, by simp [sent, slot3], by simp [sent,
      slot3],
      by simp [sent, slot3], by simp [sent, slot3, link0, Link.setTag, running, linked, State.reset, State.link,
          Link.reset, State.updLink, State.setLink]⟩,
    by decide, by decide, by decide +kernel⟩

theorem witness_ProbeReadsDecide (h : HoldState) :
    (∀ p j, let s := sent { running (fun x => { x with phase := p }) with wsc.hold := h } (.probeRead j) (fun sl => { sl with
        state := .probing, capacity := some 5120 })
      s.Answers 0 5 ⟨3, .read, 1000⟩ ⟨.probeRead j, some 5, 0⟩ ∧ s.session = some { demo with phase := p } ∧
        (s.slot 3).state = .probing ∧ (s.slot 3).capacity = some 5120 ∧ s.wsc.hold = h) ∧
    ((content 2).length = 512 ∧ 2 + 1 < demo.probeCount ∧ 3 + 1 = demo.probeCount) ∧
    (content 3 ≠ content 0 ∧ ∀ m, m < 3 → content 3 ≠ content m) ∧
    (∀ m, m < demo.probeCount → List.replicate 512 0#8 ≠ content m) :=
  ⟨fun _ j => ⟨sent_answers _ _ _ (fun _ => rfl), rfl, by simp [sent, slot3], by simp [sent, slot3], rfl⟩,
    by decide +kernel, by decide +kernel, by decide +kernel⟩

/-- Slot 3, in state `st` at the last chunk, reading it back for the `n`th rewrite; `w` is the window and digest
table. -/
def verifying (st : SlotState) (n : Nat) (w : Window) : State :=
  { sent (running id) (.verify 39 n) (fun sl => { sl with
      state := st, span := some ⟨0, 40⟩, ackPoint := some 39, verifyCursor := some 40 }) with win := w }

/-- A match and a mismatch of any data, in LIVE and in VERIFYING, at rewrite 2 and at the retry limit 3. -/
theorem witness_VerifyReadsCompare (d : List Byte) :
    (∀ st n w, let s := verifying st n w
      s.Answers 0 5 ⟨3, .read, 1000⟩ ⟨.verify 39 n, some 5, 0⟩ ∧ s.session = some demo ∧
        (s.slot 3).state = st ∧ (s.slot 3).verifyCursor = some demo.imageLength ∧ ((s.slot 3).dropEntry 5).inFlight = []) ∧
    (∀ st n, let s := verifying st n ⟨[⟨39, 0, some ⟨crc d, 1, false⟩⟩], [(39, crc d)], [], 13, []⟩
      s.compareChunk 3 39 d = true) ∧
    (∀ st n, let s := verifying st n ⟨[], [], [], 13, []⟩
      s.compareChunk 3 39 d = false) ∧
    (List.replicate 65536 0#8).length = 65536 ∧ demo.tune.retryLimit = 3 ∧
    (demo.tune.eject ≤ min 63 (42 + 6) ∧ min 63 (41 + 6) < demo.tune.eject ∧ demo.tune.throttle ≤ min 63 (18 + 6)) := by
  refine ⟨fun st n w => ⟨⟨?_, ?_, ?_, rfl⟩, rfl, ?_, ?_, ?_⟩, fun st n => ?_, fun st n => ?_,
    List.length_replicate, rfl, by decide⟩
  · exact (sent_answers (running id) (.verify 39 n) _ (fun _ => rfl)).up
  · exact (sent_answers (running id) (.verify 39 n) _ (fun _ => rfl)).bound
  · exact (sent_answers (running id) (.verify 39 n) (fun sl => { sl with
      state := st, span := some ⟨0, 40⟩, ackPoint := some 39, verifyCursor := some 40 }) (fun _ => rfl)).entry
  · simp [verifying, sent, slot3, State.updSlot, State.setSlot, State.slot]
  · simp [verifying, sent, slot3, State.updSlot, State.setSlot, State.slot, demo]
  · simp [verifying, sent, slot3, State.updSlot, State.setSlot, State.slot, Slot.dropEntry]
  · simp only [State.compareChunk, State.referenceCrc]
    split <;> exact (Bool.true_and _).trans (beq_self_eq_true (some (crc d)))
  · simp only [State.compareChunk, State.referenceCrc]
    split <;> rfl

/-- A site of one byte at offset 2 whose pristine byte is 7, with 9 in slot 3's entry. -/
def sited : State :=
  { live3 (running id) with
    stu.sites := [⟨0, 2, 1, .supplied, some [7]⟩]
    stu.entries := .replicate 192 (.replicate 32 (.supplied [9])) }

/-- A sector range where the site's byte differs from the entry; a chunk with no site; the image with the pristine
byte put back; references in and out of VERIFYING. -/
theorem witness_ComparisonChecksSitesAndCrc :
    (sited.stu.sites[0]? = some ⟨0, 2, 1, .supplied, some [7]⟩ ∧
      (sited.entry 3 0).bytes? ≠ some (([0#8, 0, 7, 0].drop 2).take 1)) ∧
    (∀ t ∈ sited.stu.sites, t.chunk ≠ 1) ∧
    (let data := [0#8, 0, 9, 0]; let image := [0#8, 0, 7, 0]
     image.length = data.length ∧
      (∀ n t, sited.stu.sites[n]? = some t → t.chunk = 0 → t.offset + t.width ≤ data.length ∧
        (sited.entry 3 n).bytes? = some ((data.drop t.offset).take t.width) ∧
        t.pristine = some ((image.drop t.offset).take t.width)) ∧
      (∀ b, (∀ t ∈ sited.stu.sites, t.chunk = 0 → ¬(t.offset ≤ b ∧ b < t.offset + t.width)) → image[b]? = data[b]?)) ∧
    ((sited.slot 3).state ≠ .verifying ∧ ((slot3 sited (fun sl => { sl with state := .verifying })).slot 3).state = .verifying ∧
      (window sited 1).record 0 = some ⟨0, 0, some ⟨0, 1, false⟩⟩) := by
  refine ⟨by decide +kernel, by decide, ⟨rfl, fun n t h _ => ?_, fun b h => ?_⟩, by decide +kernel⟩
  · cases n with
    | zero => simp only [sited, List.getElem?_cons_zero, Option.some.injEq] at h; subst h; decide +kernel
    | succ n => simp [sited] at h
  · have hb : b ≠ 2 := fun e => by subst e; exact h ⟨0, 2, 1, .supplied, some [7]⟩ (by simp [sited]) rfl (by decide)
    match b with
    | 0 | 1 | 3 => rfl
    | 2 => exact absurd rfl hb
    | b + 4 => simp

/-- Every kind of busy tag below the lapsed count that loses the link and at it, in RUNNING and in NONE; an image
piece and a verify read at scores that 8 more takes to the eject threshold, one below it and below the throttle
threshold, at retry limits of 0 and of 3; slot 3 is of the tag's link. -/
theorem witness_TagLapseTimesOut (h : HoldState) :
    (∀ t : Busy → TagState, let s := link0 { running id with wsc.hold := h } (fun l =>
        ({ l with lapsed := 190 }).setTag 5 (t ⟨3, .write, 1000⟩))
      s.session = some demo ∧ s.wsc.hold = h ∧ (s.link 0).lapsed + 1 < 192 ∧ (s.link 0).tag 5 = t ⟨3, .write, 1000⟩) ∧
    (∀ n, ∀ t : Busy → TagState, let s := link0 linked (fun l => ({ l with lapsed := n }).setTag 5 (t ⟨3, .write, 1000⟩))
      s.session = none ∧ (s.link 0).up = true ∧ (s.link 0).lapsed = n ∧ (s.link 0).tag 5 = t ⟨3, .write, 1000⟩) ∧
    (∀ p w, let s := sent { running (fun x => { x with phase := p }) with wsc.hold := h } w past0
     s.session = some { demo with phase := p } ∧ (s.link 0).tag 5 = .bound ⟨3, w.kind, 1000⟩ ∧
       (s.slot 3).state.enrolled = true ∧ (s.link 0).lapsed + 1 < 192) ∧
    (∀ r n w, let s := sent { running (fun x => { x with tune.retryLimit := r }) with wsc.hold := h } w (fun sl =>
        { past0 sl with trouble := n })
     s.Answers 0 5 ⟨3, w.kind, 1000⟩ ⟨w, some 5, 0⟩ ∧ s.session = some { demo with tune.retryLimit := r } ∧
       (s.slot 3).trouble = n) ∧
    (demo.tune.eject ≤ min 63 (40 + 8) ∧ min 63 (39 + 8) < demo.tune.eject ∧ min 63 (15 + 8) < demo.tune.throttle ∧
      (0 : Nat) ≤ 0 ∧ (0 : Nat) < 3) ∧
    (∀ t : TagState, let s := link0 (live3 (running id)) (fun l => ({ l with lapsed := 191 }).setTag 5 t)
      (s.link 0).up = true ∧ 192 ≤ (s.link 0).lapsed + 1 ∧ (s.link 0).tag 5 = t ∧ linkOf 3 = 0) :=
  ⟨fun t => ⟨rfl, rfl, by simp [link0, Link.setTag], by simp [link0, Link.setTag_tag]⟩,
    fun n t => ⟨rfl, by simp [link0, Link.setTag], by simp [link0, Link.setTag], by simp [link0, Link.setTag_tag]⟩,
    fun p w => ⟨rfl, (sent_answers _ _ _ (fun _ => rfl)).bound, by simp [sent, slot3, past0, SlotState.enrolled],
      by simp [sent, slot3, link0, Link.setTag, running, linked, State.reset, State.link, Link.reset, State.updLink,
        State.setLink]⟩,
    fun r n w => ⟨sent_answers _ _ _ (fun _ => rfl), rfl, by simp [sent, slot3]⟩, by decide,
    fun t => ⟨by simp [link0, Link.setTag], by simp [link0, Link.setTag], by simp [link0, Link.setTag_tag], by decide⟩⟩

theorem witness_PiecesCoverTheChunk :
    ∃ p ∈ piecesOf [⟨9, 65500, 20, .supplied, none⟩] 9 true, 0 < p.first ∧ p.first + p.count = 128 := by decide +kernel

/-- The value just below the limit and at it, for each mode; a room of one sector and units of the whole range. -/
theorem witness_StampsAreRenderedToWidth :
    (∀ m, let t : Site := ⟨0, 0, 1, .ordinal .dec m 9 1, none⟩
      t.kind.mode = some m ∧ 1 ≤ t.width ∧ siteValue t.kind 0 0 < siteLimit t.kind t.width ∧
        siteLimit t.kind t.width ≤ siteValue t.kind 1 0) ∧
    ((⟨0, 0, 1, .supplied, none⟩ : Site).kind = .supplied ∧ 5119 ≤ 5120 ∧ 0 < 65536 ∧ 0 < 1) :=
  ⟨fun m => ⟨rfl, le_refl 1, by cases m <;> decide, by cases m <;> decide⟩, rfl, by decide⟩

/-- A GUARD site of slot 3 not yet attempted, a SUPPLIED site beside it in the region, and the region's base sum. -/
def guarded (base : Option Word32) : State :=
  State.setEntry { sited with
    stu.sites := [⟨0, 4, 4, .guard 0, none⟩, ⟨0, 2, 1, .supplied, some [7]⟩], stu.regions := [⟨0, 0, 8,
        base⟩] } 3 0 .unrendered

/-- A field outside the skipped positions; then a GUARD attempt with the base sum absent or present. -/
theorem witness_GuardSumFollowsStamps :
    (let skip := fun i => decide (4 ≤ i)
     [1#8, 2].length = [3#8, 4].length ∧
       ∀ i, [0#8, 0].length ≤ i → i < [0#8, 0].length + [1#8, 2].length → skip i = false) ∧
    (∀ base, (guarded base).stu.sites[0]? = some ⟨0, 4, 4, .guard 0, none⟩ ∧
        (guarded base).stu.regions[0]? = some ⟨0, 0, 8, base⟩ ∧ (guarded base).stu.sites[2]? = none) ∧
    ((guarded (some 0)).entry 3 0 = .unrendered ∧ ((guarded (some 0)).entry 3 1).bytes? ≠ none) := by
  refine ⟨⟨rfl, fun i _ h => ?_⟩, fun base => ⟨rfl, rfl, rfl⟩, by decide +kernel⟩
  simp at h ⊢; omega

end Sys2Proof.Machine.Tests
end

section
/-! SUPPORT. The CRC of R42: one byte as eight shifts of its register, and the register carried over a message taken in
parts. The bytes of a 32-bit word in a frame. Then the statement about the CRC. -/

namespace Sys2Proof.Machine

/-! ### The CRC register -/

/-- R42: the byte goes into the register's low eight bits, then the register shifts eight times. -/
theorem crcByte_eq_iterate (r : Word32) (b : Byte) : crcByte r b = crcShift^[8] (r ^^^ b.setWidth 32) := rfl

theorem crc_eq_foldl (m : List Byte) :
    crc m = ~~~ m.foldl (fun r b => crcShift^[8] (r ^^^ b.setWidth 32)) 0xFFFFFFFF#32 := by
  have hbyte : crcByte = fun r b => crcShift^[8] (r ^^^ b.setWidth 32) := funext₂ crcByte_eq_iterate
  rw [crc, crcRun, crcStart, hbyte]

/-- R50: the register left by the earlier segments is all that the next one needs of them. -/
theorem crcRun_append (r : Word32) (a b : List Byte) : crcRun r (a ++ b) = crcRun (crcRun r a) b :=
  List.foldl_append

/-- R50, R53: the register is carried as it stands and inverted once, after the last segment. -/
theorem crc_append (a b : List Byte) : crc (a ++ b) = ~~~ crcRun (crcRun crcStart a) b := by
  rw [crc, crcRun_append]

theorem crc_nil : crc [] = 0 := by decide

/-- R42: the check value of the nine ASCII bytes "123456789". -/
theorem crc_check_value : crc [0x31, 0x32, 0x33, 0x34, 0x35, 0x36, 0x37, 0x38, 0x39] = 0xCBF43926#32 := by
  decide +kernel

/-! ### A word's bytes in a frame -/

theorem setWidth_shiftRight_eq_ofNat_div (v : Word32) (k : Nat) :
    (v >>> k).setWidth 8 = BitVec.ofNat 8 (v.toNat / 2 ^ k) := by
  rw [← BitVec.ofNat_toNat, BitVec.toNat_ushiftRight, Nat.shiftRight_eq_div_pow]

/-- R42, R184: the byte at offset `j` of a little-endian word is the word shifted right by `8 * j` bits. -/
theorem leBytes_four_toNat (v : Word32) :
    leBytes 4 v.toNat = [v.setWidth 8, (v >>> 8).setWidth 8, (v >>> 16).setWidth 8, (v >>> 24).setWidth 8] := by
  simp only [leBytes, setWidth_shiftRight_eq_ofNat_div, BitVec.ofNat_toNat, Nat.div_div_eq_div_mul, Nat.reduceMul,
    Nat.reducePow]

/-- Settles O60: the CRC as R42 defines it, its two check values, its carrying over `++`, and the bytes of the two CRCs
in IMAGE-MISMATCH. -/
theorem crcIsCarriedAcrossSegments : Obligations.CrcIsCarriedAcrossSegments :=
  ⟨crc_eq_foldl, crc_nil, crc_check_value, crc_append, fun _ _ _ _ => rfl, leBytes_four_toNat⟩

end Sys2Proof.Machine
end

section
/-! SUPPORT. The flow state R57 gives, with and without a session, and what Intake's evaluation then does. Counters. The
meanings of the image link's reports and of the frames that are not handed on. Then the statements about the three. -/

namespace Sys2Proof.Machine

/-! ### The inputs of R57 -/

theorem State.free_eq {s : State} {x : Session} (h : s.session = some x) :
    s.free = some (x.windowSize - s.win.records.length) := by
  rw [State.free, h, Option.map_some]

theorem State.head_eq {s : State} {x : Session} (h : s.session = some x) : s.head = some x.nextChunk := by
  rw [State.head, h, Option.map_some]

theorem State.streaming_iff {s : State} {x : Session} (h : s.session = some x) :
    s.streaming = true ↔ x.pass = .streaming := by
  rw [State.streaming, h, Option.any_some, beq_iff_eq]

theorem State.streaming_eq_false_iff {s : State} {x : Session} (h : s.session = some x) :
    s.streaming = false ↔ x.pass ≠ .streaming := by
  rw [← Bool.not_eq_true, State.streaming_iff h]

theorem State.streaming_of_no_session {s : State} (h : s.session = none) : s.streaming = false := by
  rw [State.streaming, h, Option.any_none]

/-! ### The flow state R57 gives -/

theorem State.flowNext_of_no_session {s : State} (h : s.session = none) : s.flowNext = .paused := by
  cases hflow : s.intake.flow with
  | opened => simp [State.flowNext, hflow, State.streaming_of_no_session h]
  | paused => simp [State.flowNext, hflow, State.streaming_of_no_session h]

theorem State.flowNext_of_opened {s : State} {x : Session} (h : s.session = some x) (hflow : s.intake.flow = .opened) :
    s.flowNext =
      if x.windowSize - s.win.records.length ≤ x.pauseMark ∨ s.wsc.hold ≠ .run ∨ x.pass ≠ .streaming then .paused
      else .opened := by
  simp only [State.flowNext, hflow, State.free_eq h, Option.getD_some, State.ses_eq h, State.streaming_eq_false_iff h]

theorem State.flowNext_of_paused {s : State} {x : Session} (h : s.session = some x) (hflow : s.intake.flow = .paused) :
    s.flowNext =
      if x.resumeMark ≤ x.windowSize - s.win.records.length ∧ s.wsc.hold = .run ∧ x.pass = .streaming then .opened
      else .paused := by
  simp only [State.flowNext, hflow, State.free_eq h, Option.getD_some, State.ses_eq h, State.streaming_iff h]

/-! ### The FLOW outbox -/

/-- The waiting FLOW frames that stay when another is placed (R178). -/
def flowRoom (q : List FlowFrame) : List FlowFrame := if q.length < 8 then q else q.dropLast

theorem State.sendFlow_eq (s : State) :
    s.sendFlow = { s with req.flowOut := flowRoom s.req.flowOut ++ [⟨s.intake.flow, s.head, s.free⟩] } := rfl

theorem flowRoom_nil : flowRoom [] = [] := rfl

/-! ### Intake's evaluation -/

theorem State.evalFlow_of_linkDown {s : State} (h : s.intake.linkUp = false) : s.evalFlow = s :=
  if_neg fun hc => by simp [h] at hc

theorem State.evalFlow_of_flowNext_eq {s : State} (h : s.flowNext = s.intake.flow) : s.evalFlow = s :=
  if_neg fun hc => hc.2 h

/-- R59, R178: a change is reported once, in the place of the newest FLOW frame when eight wait. -/
theorem State.evalFlow_of_change {s : State} {f : FlowState} (hup : s.intake.linkUp = true) (hnext : s.flowNext = f)
    (hne : f ≠ s.intake.flow) :
    s.evalFlow = { s with
      intake.flow := f
      req.flowOut := flowRoom s.req.flowOut ++ [⟨f, s.head, s.free⟩] } := by
  subst hnext
  exact (if_pos ⟨hup, hne⟩).trans (State.sendFlow_eq _)

/-- R57 to R59 without a session: there is no STREAMING pass, so the flow state is or becomes PAUSED. -/
theorem State.evalFlow_without_session {s : State} (h : s.session = none) (hup : s.intake.linkUp = true) :
    (s.intake.flow = .opened → s.evalFlow = { s with
      intake.flow := .paused
      req.flowOut := flowRoom s.req.flowOut ++ [⟨.paused, none, none⟩] }) ∧
    (s.intake.flow = .paused → s.evalFlow = s) := by
  have hnext := State.flowNext_of_no_session h
  have hhead : s.head = none := by rw [State.head, h, Option.map_none]
  have hfree : s.free = none := by rw [State.free, h, Option.map_none]
  refine ⟨fun hflow => ?_, fun hflow => State.evalFlow_of_flowNext_eq (hnext.trans hflow.symm)⟩
  rw [State.evalFlow_of_change hup hnext (by simp [hflow]), hhead, hfree]

/-- In a session a change is reported with H and the free frames (R59). -/
theorem State.evalFlow_of_change_in_session {s : State} {x : Session} {f : FlowState} (h : s.session = some x)
    (hup : s.intake.linkUp = true) (hnext : s.flowNext = f) (hne : f ≠ s.intake.flow) :
    s.evalFlow = { s with
      intake.flow := f
      req.flowOut := flowRoom s.req.flowOut ++
        [⟨f, some x.nextChunk, some (x.windowSize - s.win.records.length)⟩] } := by
  rw [State.evalFlow_of_change hup hnext hne, State.head_eq h, State.free_eq h]

/-- Settles O14: by the link state, then by the session and the flow state, on the two tests of R57. -/
theorem flowFollowsMarks : Obligations.FlowFollowsMarks := by
  intro s
  refine ⟨fun hdown => ⟨State.evalFlow_of_linkDown hdown, fun hquiet => (hquiet hdown).1⟩,
    State.evalFlow_without_session, fun x hx hup => ⟨fun hflow => ⟨fun hpause => ?_, fun hfree hrun hpass => ?_⟩,
      fun hflow => ⟨fun hfree hrun hpass => ?_, fun hstay => ?_⟩⟩⟩
  · have hnext : s.flowNext = .paused := (State.flowNext_of_opened hx hflow).trans (if_pos hpause)
    exact State.evalFlow_of_change_in_session hx hup hnext (by simp [hflow])
  · have hnext : s.flowNext = .opened := by
      rw [State.flowNext_of_opened hx hflow, if_neg (by simp [hrun, hpass]; omega)]
    exact State.evalFlow_of_flowNext_eq (hnext.trans hflow.symm)
  · have hnext : s.flowNext = .opened := (State.flowNext_of_paused hx hflow).trans (if_pos ⟨hfree, hrun, hpass⟩)
    exact State.evalFlow_of_change_in_session hx hup hnext (by simp [hflow])
  · have hnext : s.flowNext = .paused := by
      refine (State.flowNext_of_paused hx hflow).trans (if_neg fun ⟨hfree, hrun, hpass⟩ => ?_)
      rcases hstay with hless | hhold | hpass'
      · exact absurd hfree (Nat.not_le.mpr hless)
      · exact hhold hrun
      · exact hpass' hpass
    exact State.evalFlow_of_flowNext_eq (hnext.trans hflow.symm)

/-! ### The image link -/

theorem exec_imageLinkEstablished (s : State) : exec .imageLinkEstablished s = execImageLinkEstablished s := rfl

theorem exec_imageLinkLost (s : State) : exec .imageLinkLost s = execImageLinkLost s := rfl

/-- R57 on a link that comes up: the flow state of a DOWN link is PAUSED, so only the resume test counts. -/
theorem State.flowNext_eq_any_of_paused {s : State} (hflow : s.intake.flow = .paused) :
    s.flowNext =
      if s.session.any (fun x => x.pass == .streaming && decide (x.resumeMark ≤ x.windowSize - s.win.records.length)) =
          true ∧ s.wsc.hold = .run then .opened
      else .paused := by
  cases hx : s.session with
  | none => simp [State.flowNext_of_no_session hx]
  | some x =>
    rw [State.flowNext_of_paused hx hflow]
    refine if_congr ?_ rfl rfl
    simp only [Option.any_some, Bool.and_eq_true, beq_iff_eq, decide_eq_true_eq]
    tauto

theorem exec_imageLinkEstablished_of_down {s : State} (hdown : s.intake.linkUp = false) (hout : s.req.flowOut = []) :
    exec .imageLinkEstablished s =
      let f := { s with intake.linkUp := true }.flowNext
      .next { s with intake.linkUp := true, intake.flow := f, req.flowOut := [⟨f, s.head, s.free⟩] } := by
  rw [exec_imageLinkEstablished, execImageLinkEstablished, if_neg (by simp [hdown]), State.sendFlow_eq, hout,
    flowRoom_nil]
  rfl

theorem exec_imageLinkEstablished_of_up {s : State} (hup : s.intake.linkUp = true) :
    exec .imageLinkEstablished s = .next s := by
  rw [exec_imageLinkEstablished, execImageLinkEstablished, if_pos hup]

theorem exec_imageLinkLost_of_up {s : State} (hup : s.intake.linkUp = true) :
    exec .imageLinkLost s = .next { s with
      intake := ⟨none, .paused, false⟩
      win.records :=
        if s.intake.assembly.isSome then s.win.records.filter (fun r => r.resident.isSome) else s.win.records
      req.flowOut := [], req.lane := none } := by
  rw [exec_imageLinkLost, execImageLinkLost, if_pos hup]
  cases hopen : s.intake.assembly with
  | none => simp [hopen]
  | some a => simp [State.abandonAssembly]

theorem exec_imageLinkLost_of_down {s : State} (hdown : s.intake.linkUp = false) :
    exec .imageLinkLost s = .next s := by
  simp [exec_imageLinkLost, execImageLinkLost, hdown]

/-- Settles O8: each report on a DOWN and on an UP link. -/
theorem imageLinkComesAndGoes : Obligations.ImageLinkComesAndGoes := by
  refine ⟨⟨fun s hquiet hdown => ?_, fun s => exec_imageLinkEstablished_of_up⟩, fun s => exec_imageLinkLost_of_up,
    fun s hdown => ⟨exec_imageLinkLost_of_down hdown, State.evalFlow_of_linkDown hdown⟩⟩
  obtain ⟨hflow, hout, -⟩ := hquiet hdown
  have hnext := State.flowNext_eq_any_of_paused (s := { s with intake.linkUp := true }) hflow
  rw [exec_imageLinkEstablished_of_down hdown hout, hnext]

/-! ### Counters and discarded frames -/

theorem Counter.bump_of_max {c : Counter} (h : c.value = 4294967295#32) : c.bump = ⟨4294967295#32, true⟩ :=
  (if_pos h).trans (by rw [h])

theorem Counter.bump_of_ne_max {c : Counter} (h : c.value ≠ 4294967295#32) : c.bump = ⟨c.value + 1, c.saturated⟩ :=
  if_neg h

/-- R198: below its maximum a counter does not wrap. -/
theorem Counter.toNat_bump_of_ne_max {c : Counter} (h : c.value ≠ 4294967295#32) :
    c.bump.value.toNat = c.value.toNat + 1 := by
  rw [Counter.bump_of_ne_max h]
  bv_omega

theorem exec_badFrame (s : State) : exec .badFrame s = execBadFrame s := rfl

theorem exec_malformedFrame (s : State) (kind : Byte) (len : BitVec 16) :
    exec (.malformedFrame kind len) s = execMalformedFrame kind len s := rfl

theorem exec_badFrame_of_up {s : State} (hup : s.intake.linkUp = true) :
    exec .badFrame s = .next (s.count ctrBadFrames) := by
  rw [exec_badFrame, execBadFrame, if_pos hup]

theorem downstreamAccepted_iff (kind : Byte) (len : BitVec 16) :
    downstreamAccepted kind len = true ↔ (kind = 0x01#8 ∧ len = 4101#16) ∨ (kind = 0x02#8 ∧ 3 ≤ len.toNat) := by
  simp only [downstreamAccepted, Bool.or_eq_true, Bool.and_eq_true, beq_iff_eq, decide_eq_true_eq]

theorem exec_malformedFrame_of_not_accepted {s : State} {kind : Byte} {len : BitVec 16}
    (hup : s.intake.linkUp = true) (hacc : ¬downstreamAccepted kind len = true) :
    exec (.malformedFrame kind len) s = .next (s.count ctrBadFrames) := by
  simp [exec_malformedFrame, execMalformedFrame, hup, hacc]

/-- Settles O9: R47, R171 and R191 by what each discard counts, and R198 at the maximum and below it. -/
theorem badFramesAreCountedAndSaturate : Obligations.BadFramesAreCountedAndSaturate := by
  refine ⟨⟨fun s => exec_badFrame_of_up, fun s kind len hup hsegment hrequest => ?_, fun s k bytes => rfl⟩,
    fun c => ⟨Counter.bump_of_max, fun h => ⟨Counter.bump_of_ne_max h, Counter.toNat_bump_of_ne_max h⟩⟩⟩
  refine exec_malformedFrame_of_not_accepted hup fun hacc => ?_
  exact ((downstreamAccepted_iff kind len).mp hacc).elim hsegment hrequest

end Sys2Proof.Machine
end

section
/-! SUPPORT. The settle time in force, the record a slot keeps once it has gone EMPTY and the event has closed, and the
meanings of the two presence reports by the state of their slot. Then the statement about presence. -/

namespace Sys2Proof.Machine

/-! ### Settling -/

theorem State.settleTime_of_no_session {s : State} (h : s.session = none) : s.settleTime = 500 := by
  rw [State.settleTime, h, Option.map_none, Option.getD_none, Config.idleSettle]

theorem State.settleTime_of_session {s : State} {x : Session} (h : s.session = some x) :
    s.settleTime = x.tune.settleTime := by
  rw [State.settleTime, h, Option.map_some, Option.getD_some]

/-- A slot that goes EMPTY leaves the time and the session, so the settle time that follows is the one in force. -/
@[simp] theorem State.emptySlot_settleTime (s : State) (i : SlotIx) (why : OutcomeKind) :
    (s.emptySlot i why).settleTime = s.settleTime := by
  rw [State.settleTime, State.emptySlot_session, State.settleTime]

theorem State.startSettling_self (s : State) (i : SlotIx) :
    (s.startSettling i).slot i =
      Slot.moved { s.slot i with settleDeadline := some (s.now + s.settleTime) } .settling := by
  rw [State.startSettling, State.moveSlot_self, State.updSlot_self]

@[simp] theorem State.startSettling_win (s : State) (i : SlotIx) : (s.startSettling i).win = s.win := by
  rw [State.startSettling, State.moveSlot_win, State.updSlot_win]

theorem Elsewhere.startSettling (s : State) {i : SlotIx} {mine : SlotIx → Prop} (h : mine i) :
    Elsewhere s (s.startSettling i) mine :=
  (Elsewhere.updSlot s _ h).trans (Elsewhere.moveSlot _ _ h)

/-! ### The end of an event in which a slot went EMPTY -/

/-- R12 clears rostered marks only, so a record without one is as the event left it. -/
theorem State.close_slot_of_unrostered {s : State} {i : SlotIx} (h : (s.slot i).rostered = false) :
    s.close.slot i = s.slot i := by
  rcases s.close_slot i with hkept | hcleared
  · exact hkept
  · rw [hcleared, ← h]

theorem State.emptySlot_rostered {s : State} {i : SlotIx} (h : (s.slot i).state ≠ .empty) (why : OutcomeKind) :
    ((s.emptySlot i why).slot i).rostered = false := by
  rw [State.emptySlot_self s i why h]
  rfl

/-- R64: the record of a slot whose stick is gone, at the end of the event. -/
theorem State.emptySlot_close_self {s : State} {i : SlotIx} (h : (s.slot i).state ≠ .empty) (why : OutcomeKind) :
    (s.emptySlot i why).close.slot i = Slot.moved { (s.slot i).left (s.places i) with
      outcome := if (s.slot i).state.enrolled then some ((s.slot i).outcome.getD ⟨why, none, none, none⟩)
        else (s.slot i).outcome
      settleDeadline := none, qual := none } .empty :=
  (State.close_slot_of_unrostered (State.emptySlot_rostered h why)).trans (State.emptySlot_self s i why h)

/-- R65: the record of a slot whose stick was replaced, at the end of the event. -/
theorem State.emptySlot_startSettling_close_self {s : State} {i : SlotIx} (h : (s.slot i).state ≠ .empty)
    (why : OutcomeKind) :
    ((s.emptySlot i why).startSettling i).close.slot i =
      Slot.moved { (s.emptySlot i why).slot i with settleDeadline := some (s.now + s.settleTime) } .settling := by
  have hself := State.startSettling_self (s.emptySlot i why) i
  rw [State.emptySlot_now, State.emptySlot_settleTime] at hself
  rw [State.close_slot_of_unrostered, hself]
  rw [hself]
  exact State.emptySlot_rostered h why

/-! ### The reports -/

theorem exec_presenceInserted (k : LinkIx) (j : Socket) (s : State) :
    exec (.presenceInserted k j) s = execPresenceInserted k j s := rfl

theorem exec_presenceRemoved (k : LinkIx) (j : Socket) (s : State) :
    exec (.presenceRemoved k j) s = execPresenceRemoved k j s := rfl

theorem exec_presenceInserted_of_down {s : State} {k : LinkIx} (hdown : (s.link k).up = false) (j : Socket) :
    exec (.presenceInserted k j) s = .next s := by
  simp [exec_presenceInserted, execPresenceInserted, hdown]

theorem exec_presenceRemoved_of_down {s : State} {k : LinkIx} (hdown : (s.link k).up = false) (j : Socket) :
    exec (.presenceRemoved k j) s = .next s := by
  simp [exec_presenceRemoved, execPresenceRemoved, hdown]

section
variable {s : State} {k : LinkIx} {j : Socket} (hup : (s.link k).up = true)
include hup

theorem exec_presenceInserted_of_empty (h : (s.slot (slotAt k j)).state = .empty) :
    exec (.presenceInserted k j) s = .next (s.startSettling (slotAt k j)) := by
  simp [exec_presenceInserted, execPresenceInserted, hup, h]

theorem exec_presenceInserted_of_settling (h : (s.slot (slotAt k j)).state = .settling) :
    exec (.presenceInserted k j) s = .next
      (s.updSlot (slotAt k j) (fun sl => { sl with settleDeadline := some (s.now + s.settleTime) })) := by
  simp [exec_presenceInserted, execPresenceInserted, hup, h]

/-- R65: the slot goes EMPTY and then SETTLING within the one event. -/
theorem exec_presenceInserted_of_occupied (hempty : (s.slot (slotAt k j)).state ≠ .empty)
    (hsettling : (s.slot (slotAt k j)).state ≠ .settling) :
    exec (.presenceInserted k j) s =
      .next ((s.emptySlot (slotAt k j) .removedEarly).startSettling (slotAt k j)).close := by
  rw [exec_presenceInserted, execPresenceInserted, if_neg (by simp [hup])]
  split
  · next h => exact absurd h hempty
  · next h => exact absurd h hsettling
  · rfl

theorem exec_presenceRemoved_of_empty (h : (s.slot (slotAt k j)).state = .empty) :
    exec (.presenceRemoved k j) s = .next s := by
  simp [exec_presenceRemoved, execPresenceRemoved, hup, h]

theorem exec_presenceRemoved_of_occupied (h : (s.slot (slotAt k j)).state ≠ .empty) :
    exec (.presenceRemoved k j) s = .next (s.emptySlot (slotAt k j) .removedEarly).close := by
  simp [exec_presenceRemoved, execPresenceRemoved, hup, h]

end

/-- Settles O33: by the link state, then by the state of the slot. -/
theorem presenceMovesSlots : Obligations.PresenceMovesSlots := by
  refine ⟨fun s => ⟨State.settleTime_of_no_session, fun x => State.settleTime_of_session⟩, fun s k j => ⟨fun hdown => ?_,
    fun hup => ⟨fun hempty => ?_, fun hsettling => ?_, fun hne => ?_, fun hne hns => ?_⟩⟩⟩
  · exact ⟨exec_presenceInserted_of_down hdown j, exec_presenceRemoved_of_down hdown j⟩
  · exact ⟨exec_presenceInserted_of_empty hup hempty, exec_presenceRemoved_of_empty hup hempty⟩
  · exact exec_presenceInserted_of_settling hup hsettling
  · refine ⟨_, exec_presenceRemoved_of_occupied hup hne, ?_⟩
    have htag := State.emptySlot_tag s (slotAt k j) .removedEarly hne
    rw [linkOf_slotAt] at htag
    have helse := Elsewhere.emptySlot s (mine := (· = slotAt k j)) .removedEarly rfl
    rw [State.emptySlot_close_self hne, State.close_link, State.close_records, State.emptySlot_records]
    exact ⟨rfl, rfl, rfl, rfl, rfl, rfl, rfl, rfl, rfl, rfl, rfl, rfl, rfl, rfl, rfl, htag, rfl, rfl,
      helse.trans (Elsewhere.close _ _), rfl⟩
  · refine ⟨_, exec_presenceInserted_of_occupied hup hne hns, ?_⟩
    have helse := (Elsewhere.emptySlot s (mine := (· = slotAt k j)) .removedEarly rfl).trans
      (Elsewhere.startSettling _ rfl)
    rw [State.emptySlot_startSettling_close_self hne, State.emptySlot_self s _ _ hne, State.close_records,
      State.startSettling_win, State.emptySlot_records]
    exact ⟨rfl, rfl, rfl, helse.trans (Elsewhere.close _ _), rfl⟩

end Sys2Proof.Machine
end

section
/-! SUPPORT. Every record of the reset state, and with it every invariant. Then the statements about one step and about
reset. From here on the proofs are elaborated in turn (`Elab.async`): side by side, in one text, they would need more
threads than the check's memory limit leaves. -/

set_option Elab.async false

namespace Sys2Proof.Machine

/-! ### One step -/

theorem exec_completes (c : Instr) (s : State) : ∃ t, exec c s = .next t := by
  cases c <;> exact ⟨_, rfl⟩

/-- Settles O1: by the queue's two shapes, and by the meaning of each command. -/
theorem stepsRunTheFrontCommandAndComplete : Obligations.StepsRunTheFrontCommandAndComplete :=
  ⟨fun s c rest h => by rw [step, h], fun s h => by simp only [step, h, idle], exec_completes⟩

/-! ### The records of the reset state -/

@[simp] theorem State.reset_slot (i : SlotIx) : State.reset.slot i = Slot.reset := by
  simp [State.slot, State.reset]

@[simp] theorem State.reset_link (k : LinkIx) : State.reset.link k = Link.reset := by
  simp [State.link, State.reset]

@[simp] theorem State.reset_entry (i : SlotIx) (n : Nat) : State.reset.entry i n = .unrendered := by
  simp [State.entry, State.reset]

theorem Slot.reset_inRange : Slot.reset.InRange :=
  ⟨Nat.zero_le _, Nat.zero_le _, Nat.zero_le _, Nat.zero_le _, rfl, fun _ h => nomatch h⟩

theorem Link.reset_lapsed : Link.reset.lapsed = Link.reset.lapsedTags := by
  show 0 = (Vector.replicate 256 TagState.free).toList.countP _
  rw [Vector.toList_replicate, List.countP_replicate]
  rfl

theorem Ncu.reset_flags (n : Fin 10) :
    Ncu.reset.mask.getLsbD n = true ∧ Ncu.reset.seen.getLsbD n = false := by
  refine ⟨?_, by simp [Ncu.reset]⟩
  rw [Ncu.reset, BitVec.getLsbD_allOnes, decide_eq_true n.isLt]

/-- Settles O2: each block of the reset state, and the two commands. -/
theorem resetAndPowerOn : Obligations.ResetAndPowerOn := by
  refine ⟨?_, fun s => rfl, fun s h => ?_⟩
  · refine ⟨rfl, rfl, rfl, rfl, rfl, rfl, rfl, rfl, fun i => ?_, rfl, fun k => ?_, rfl, rfl, State.reset_entry,
      rfl, rfl, rfl, rfl, rfl, rfl, rfl, rfl, rfl, Ncu.reset_flags, rfl, fun n => ?_, rfl, rfl, fun n => ?_,
      fun i n => ?_, rfl, rfl⟩
    · rw [State.reset_slot]
      simp [Slot.reset, Counter.zero]
    · rw [State.reset_link]
      simp [Link.reset]
    all_goals simp [State.reset, Ncu.reset, Counter.zero]
  · show execBufferInitComplete s = _
    rw [execBufferInitComplete, if_pos h]

/-! ### The invariants of the reset state -/

theorem State.reset_slotsInRange : State.reset.slotsInRange := fun i => by
  rw [State.reset_slot]
  exact Slot.reset_inRange

theorem State.reset_lapsedExact : State.reset.lapsedExact := fun k => by
  rw [State.reset_link]
  exact Link.reset_lapsed

theorem State.reset_noneEmpty : State.reset.noneEmpty := fun _ => ⟨rfl, rfl, rfl, rfl, rfl, rfl, rfl, rfl⟩

theorem State.reset_windowed : State.reset.windowed := ⟨fun _ => ⟨rfl, rfl⟩, fun _ h => nomatch h⟩

theorem State.reset_ordinalsDistinct : State.reset.ordinalsDistinct :=
  ⟨fun _ i => by rw [State.reset_slot]; rfl, fun _ h => nomatch h⟩

theorem State.reset_queuesBounded : State.reset.QueuesBounded :=
  ⟨Nat.zero_le 8, Nat.zero_le 16, Nat.zero_le 8, Nat.zero_le 32⟩

theorem State.reset_holdReplyInHolding : State.reset.holdReplyInHolding := fun h => nomatch h

/-- Settles O4: each invariant of the reset state by its lemma. -/
theorem resetHasEveryInvariant : Obligations.ResetHasEveryInvariant :=
  ⟨⟨Memory.nil_wf, Memory.nil_wf⟩, State.reset_queuesBounded, State.reset_slotsInRange, State.reset_lapsedExact,
    fun _ => ⟨rfl, rfl, rfl⟩, State.reset_noneEmpty, State.reset_holdReplyInHolding, State.reset_windowed,
    State.reset_ordinalsDistinct⟩

end Sys2Proof.Machine
end

section
/-! SUPPORT. The invariants of Sys2Proof/Safety.lean along one command: `Sound n s t` says that `t` has each of them that
`s` has, with at most `n` more REPLY frames built or owed. Each shared operation and each command is `Sound`, and with
that every step keeps every invariant. -/

set_option Elab.async false

namespace Sys2Proof.Machine

/-- Every invariant of `s` holds of `t`, and at most `n` REPLY frames more are built or owed. -/
structure Sound (n : Nat) (s t : State) : Prop where
  memory : s.memoryWf → t.memoryWf
  queue : s.req.queue.length ≤ 8 → t.req.queue.length ≤ 8
  replies : t.replies ≤ s.replies + n
  flow : s.req.flowOut.length ≤ 8 → t.req.flowOut.length ≤ 8
  notices : s.ncu.notices.length ≤ 32 → t.ncu.notices.length ≤ 32
  slots : s.slotsInRange → t.slotsInRange
  lapsed : s.lapsedExact → t.lapsedExact
  down : s.downQuiet → t.downQuiet
  empty : s.noneEmpty → t.noneEmpty
  hold : s.holdReplyInHolding → t.holdReplyInHolding
  window : s.windowed → t.windowed
  ordinals : s.ordinalsDistinct → t.ordinalsDistinct

/-! ### How `Sound` is put together -/

theorem Sound.of {s t : State} (h : Keeps s t) (k : Upkeep s t) : Sound 0 s t where
  memory m := ⟨by rw [h.frames]; exact m.1, by rw [h.scratch]; exact m.2⟩
  queue q := by rw [h.queue]; exact q
  replies := h.replies
  flow := h.flow
  notices := h.notices
  slots := h.slots
  lapsed := h.lapsed
  down := h.down
  empty := h.empty
  hold := h.hold
  window := k.window
  ordinals := k.ordinals

theorem Sound.refl (s : State) : Sound 0 s s := Sound.of (Keeps.refl s) (Upkeep.refl s)

theorem Sound.add {m n p : Nat} {s t u : State} (h : Sound m s t) (k : Sound n t u) (e : m + n ≤ p) : Sound p s u where
  memory := k.memory ∘ h.memory
  queue := k.queue ∘ h.queue
  replies := by
    have := h.replies
    have := k.replies
    omega
  flow := k.flow ∘ h.flow
  notices := k.notices ∘ h.notices
  slots := k.slots ∘ h.slots
  lapsed := k.lapsed ∘ h.lapsed
  down := k.down ∘ h.down
  empty := k.empty ∘ h.empty
  hold := k.hold ∘ h.hold
  window := k.window ∘ h.window
  ordinals := k.ordinals ∘ h.ordinals

theorem Sound.mono {m n : Nat} {s t : State} (h : Sound m s t) (e : m ≤ n := by decide) : Sound n s t :=
  h.add (Sound.refl t) e

/-- An operation after one that builds no REPLY, and one that builds none after another. -/
theorem Sound.trans {n : Nat} {s t u : State} (h : Sound 0 s t) (k : Sound n t u) : Sound n s u :=
  h.add k (by omega)
theorem Sound.andThen {n : Nat} {s t u : State} (h : Sound n s t) (k : Sound 0 t u) : Sound n s u := h.add k le_rfl

theorem Sound.ite {n : Nat} {s t u : State} {p : Prop} [Decidable p] (ht : p → Sound n s t) (hu : ¬p → Sound n s u) :
    Sound n s (if p then t else u) := by
  split
  · next h => exact ht h
  · next h => exact hu h

theorem Sound.foldl {α : Type} (f : State → α → State) (hf : ∀ s a, Sound 0 s (f s a)) :
    ∀ (l : List α) (s : State), Sound 0 s (l.foldl f s)
  | [], s => Sound.refl s
  | a :: l, s => (hf s a).trans (Sound.foldl f hf l (f s a))

/-- A change of what no invariant but `noneEmpty` and the sizes of the queues speak of. -/
theorem Sound.frame {s t : State} (empty : s.noneEmpty → t.noneEmpty) (session : t.session = s.session := by rfl)
    (intake : t.intake = s.intake := by rfl) (memory : s.memoryWf → t.memoryWf := by exact id)
    (records : t.win.records = s.win.records := by rfl) (slots : t.slots = s.slots := by rfl)
    (links : t.links = s.links := by rfl) (hold : t.wsc.hold = s.wsc.hold := by rfl)
    (holdReply : t.wsc.holdReply = s.wsc.holdReply := by rfl)
    (queue : s.req.queue.length ≤ 8 → t.req.queue.length ≤ 8 := by exact id)
    (outbox : t.req.outbox.length ≤ s.req.outbox.length := by exact le_rfl)
    (flowOut : t.req.flowOut = s.req.flowOut := by rfl) (lane : t.req.lane = s.req.lane := by rfl)
    (notices : s.ncu.notices.length ≤ 32 → t.ncu.notices.length ≤ 32 := by exact id) : Sound 0 s t where
  memory := memory
  queue := queue
  replies := by simp only [State.replies, holdReply]; omega
  flow h := by rw [flowOut]; exact h
  notices := notices
  slots h i := by simpa only [State.slot, slots] using h i
  lapsed h k := by simpa only [State.link, links] using h k
  down h e := by
    rw [intake, flowOut, lane]
    exact h (by rw [← intake]; exact e)
  empty := empty
  hold h e := by
    rw [hold]
    exact h (by rw [← holdReply]; exact e)
  window := (Upkeep.same session (by rw [intake]) records slots).window
  ordinals := (Upkeep.same session (by rw [intake]) records slots).ordinals

/-- `noneEmpty` asks nothing of a state with a session. -/
theorem State.noneEmpty_of_session {t : State} {x : Session} (h : t.session = some x) : t.noneEmpty :=
  fun n => nomatch h.symm.trans n

/-! ### Shared operations -/

/-- The fields of a slot record that an invariant speaks of are the same. -/
structure Slot.Alike (sl sl' : Slot) : Prop where
  trouble : sl'.trouble = sl.trouble := by rfl
  residency : sl'.residency = sl.residency := by rfl
  pinCount : sl'.pinCount = sl.pinCount := by rfl
  clearCount : sl'.clearCount = sl.clearCount := by rfl
  throttled : sl'.throttled = sl.throttled := by rfl
  throttledDepth : sl'.throttledDepth = sl.throttledDepth := by rfl
  ordinal : sl'.ordinal = sl.ordinal := by rfl

theorem Slot.Alike.inRange {sl sl' : Slot} (h : sl.Alike sl') (hr : sl.InRange) : sl'.InRange :=
  hr.of_eq h.trouble h.residency h.pinCount h.clearCount h.throttled h.throttledDepth

theorem Sound.setSlot (s : State) (i : SlotIx) (v : Slot) (h : (s.slot i).InRange → v.InRange)
    (ho : v.ordinal = (s.slot i).ordinal ∨ v.ordinal = none) : Sound 0 s (s.setSlot i v) :=
  Sound.of (Keeps.setSlot s i v h) (Upkeep.setSlot s i v ho)

theorem Sound.updSlot (s : State) (i : SlotIx) (f : Slot → Slot) (h : ∀ sl : Slot, sl.InRange → (f sl).InRange)
    (ho : ∀ sl : Slot, (f sl).ordinal = sl.ordinal ∨ (f sl).ordinal = none := by exact fun _ => .inl rfl) :
    Sound 0 s (s.updSlot i f) := Sound.setSlot s i _ (h _) (ho _)

theorem Sound.updAlike (s : State) (i : SlotIx) (f : Slot → Slot) (h : ∀ sl : Slot, sl.Alike (f sl) := by exact fun _ => {}) :
    Sound 0 s (s.updSlot i f) := Sound.updSlot s i f (fun sl => (h sl).inRange) (fun sl => .inl (h sl).ordinal)

theorem Sound.mapSlots (s : State) (f : Slot → Slot) (h : ∀ sl : Slot, sl.InRange → (f sl).InRange)
    (ho : ∀ sl : Slot, (f sl).ordinal = sl.ordinal ∨ (f sl).ordinal = none := by exact fun _ => .inl rfl) :
    Sound 0 s { s with slots := s.slots.map f } :=
  Sound.of (Keeps.mapSlots s f h) (Upkeep.mapSlots s f ho)

theorem Sound.updLink (s : State) (k : LinkIx) (f : Link → Link)
    (h : ∀ l : Link, l.lapsed = l.lapsedTags → (f l).lapsed = (f l).lapsedTags := by exact fun _ h => h) :
    Sound 0 s (s.updLink k f) := Sound.of (Keeps.updLink s k f h) (Upkeep.updLink s k f)

theorem Sound.ncu (s : State) (n : Ncu) (h : s.ncu.notices.length ≤ 32 → n.notices.length ≤ 32 := by exact id) :
    Sound 0 s { s with ncu := n } := Sound.of (Keeps.ncu s n h) (Upkeep.same rfl rfl rfl rfl)

theorem Sound.waiting (s : State) (ts : List Transfer) : Sound 0 s { s with win.waiting := ts } :=
  Sound.of (Keeps.waiting s ts) (Upkeep.same rfl rfl rfl rfl)

theorem Sound.reach (s : State) (d : Nat) : Sound 0 s (s.reach d) :=
  Sound.of (Keeps.reach s d) (Upkeep.same rfl rfl rfl rfl)

theorem Sound.count (s : State) (k : Fin 10) : Sound 0 s (s.count k) := Sound.ncu s _

theorem Sound.countSlot (s : State) (i : SlotIx) (k : Fin 5) : Sound 0 s (s.countSlot i k) := Sound.updAlike s i _

theorem Sound.raise (s : State) (e : Event) : Sound 0 s (s.raise e) := Sound.of (Keeps.raise s e) (Upkeep.raise s e)

theorem Sound.moveSlot (s : State) (i : SlotIx) (new : SlotState) : Sound 0 s (s.moveSlot i new) :=
  Sound.of (Keeps.moveSlot s i new) (Upkeep.moveSlot s i new)

theorem Sound.settleHold (s : State) (st : ReplyStatus) (h : HoldState) : Sound 0 s (s.settleHold st h) :=
  Sound.of (Keeps.settleHold s st h) (Upkeep.settleHold s st h)

theorem Sound.evalFlow (s : State) : Sound 0 s s.evalFlow := Sound.of (Keeps.evalFlow s) (Upkeep.evalFlow s)

theorem Sound.retire (s : State) : Sound 0 s s.retire := Sound.of (Keeps.retire s) (Upkeep.retire s)

theorem Sound.testHeld (s : State) : Sound 0 s s.testHeld := Sound.of (Keeps.testHeld s) (Upkeep.testHeld s)

theorem Sound.close (s : State) : Sound 0 s s.close := Sound.of (Keeps.close s) (Upkeep.close s)

theorem Sound.leave (s : State) (i : SlotIx) (e : Bool) : Sound 0 s (s.leave i e) :=
  Sound.of (Keeps.leave s i e) (Upkeep.leave s i e)

theorem Sound.failSlot (s : State) (i : SlotIx) (o : Outcome) : Sound 0 s (s.failSlot i o) :=
  Sound.of (Keeps.failSlot s i o) (Upkeep.failSlot s i o)

theorem Sound.emptySlot (s : State) (i : SlotIx) (why : OutcomeKind) : Sound 0 s (s.emptySlot i why) :=
  Sound.of (Keeps.emptySlot s i why) (Upkeep.emptySlot s i why)

theorem Sound.detachSlot (s : State) (i : SlotIx) : Sound 0 s (s.detachSlot i) :=
  Sound.of (Keeps.detachSlot s i) (Upkeep.detachSlot s i)

theorem Sound.retryEntry (s : State) (i : SlotIx) (tag : LinkTag) (e : Entry) (o : Outcome) :
    Sound 0 s (s.retryEntry i tag e o) := Sound.of (Keeps.retryEntry s i tag e o) (Upkeep.retryEntry s i tag e o)

theorem Sound.throttleSlot (s : State) (i : SlotIx) : Sound 0 s (s.throttleSlot i) := by
  refine Sound.of (Keeps.throttleSlot s i) ?_
  unfold State.throttleSlot
  refine Upkeep.updSlot s i _ fun sl => .inl ?_
  split <;> rfl

theorem Sound.raiseTrouble (s : State) (i : SlotIx) (w : Nat) (go : State → State) (hg : ∀ t, Sound 0 t (go t)) :
    Sound 0 s (s.raiseTrouble i w go) := by
  unfold State.raiseTrouble
  have hrise : Sound 0 s (s.updSlot i (fun sl => { sl with trouble := min 63 ((s.slot i).trouble + w) })) :=
    Sound.updSlot s i _ fun sl h =>
      ⟨by simp, h.residency, h.pinCount, h.clearCount, h.throttled, h.depth⟩
  refine Sound.ite (fun _ => hrise.trans (Sound.failSlot _ i _)) (fun _ => hrise.trans ?_)
  exact Sound.trans (Sound.ite (fun _ => Sound.throttleSlot _ i) (fun _ => Sound.refl _)) (hg _)

theorem Sound.stallTest (s : State) (i : SlotIx) (c : Nat) : Sound 0 s (s.stallTest i c) :=
  Sound.of (Keeps.stallTest s i c) (Upkeep.stallTest s i c)

theorem Sound.clearEntries (s : State) (i : SlotIx) : Sound 0 s (s.clearEntries i) :=
  Sound.of (Keeps.clearEntries s i) (Upkeep.same rfl rfl rfl rfl)

theorem Sound.setEntry (s : State) (i : SlotIx) (site : Nat) (e : StampEntry) : Sound 0 s (s.setEntry i site e) :=
  Sound.of (Keeps.setEntry s i site e) (Upkeep.setEntry s i site e)

theorem Sound.attemptGuard (s : State) (i : SlotIx) (site : Nat) : Sound 0 s (s.attemptGuard i site) :=
  Sound.of (Keeps.attemptGuard s i site) (Upkeep.attemptGuard s i site)

theorem Sound.enterReady (s : State) (i : SlotIx) : Sound 0 s (s.enterReady i) :=
  Sound.of (Keeps.enterReady s i) (Upkeep.enterReady s i)

theorem Sound.enterSizing (s : State) (i : SlotIx) : Sound 0 s (s.enterSizing i) :=
  (Sound.updAlike s i _).trans (Sound.moveSlot _ i _)

theorem Sound.acknowledge (s : State) (i : SlotIx) (c : Nat) : Sound 0 s (s.acknowledge i c) :=
  Sound.of (Keeps.acknowledge s i c) (Upkeep.acknowledge s i c)

theorem Sound.takeSnapshot (s : State) : Sound 0 s s.takeSnapshot := (Sound.ncu s _).trans (Sound.raise _ _)

theorem Sound.loseLink (s : State) (k : LinkIx) (cause : LossCause) : Sound 0 s (s.loseLink k cause) :=
  Sound.of (Keeps.loseLink s k cause) (Upkeep.loseLink s k cause)

/-- One REPLY more in the outbox. -/
theorem Sound.pushReply (s : State) (r : Reply) : Sound 1 s (s.pushReply r) where
  memory := id
  queue := id
  replies := by
    rw [State.replies, State.replies, State.pushReply_outbox, State.pushReply_wsc, List.length_append,
      List.length_singleton]
    omega
  flow := id
  notices := id
  slots := id
  lapsed := id
  down := id
  empty h n := ⟨(h n).assembly, (h n).records, (h n).digest, (h n).sites, (h n).regions, (h n).hold, (h n).pace,
    (h n).decay⟩
  hold := id
  window := (Upkeep.same (s := s) (t := s.pushReply r) rfl rfl rfl rfl).window
  ordinals := (Upkeep.same (s := s) (t := s.pushReply r) rfl rfl rfl rfl).ordinals

theorem Sound.accept (s : State) (r : Request) (st : ReplyStatus) (data : List Byte) : Sound 1 s (s.accept r st data) :=
  Sound.pushReply s _

theorem Sound.answer (s : State) (r : Request) (st : ReplyStatus) (detail : Nat) (data : List Byte) :
    Sound 1 s (s.answer r st detail data) := Sound.pushReply s _

end Sys2Proof.Machine
end

section
/-! SUPPORT. The invariants along the commands of a link: its tags, the grants, the answers and the lapse of a tag. -/

set_option Elab.async false

namespace Sys2Proof.Machine

/-! ### The tags of a link -/

/-- R90 to R93: a tag written counts among the LAPSED ones as it does now, and no longer as it did. -/
theorem Link.lapsedTags_setTag (l : Link) (tag : LinkTag) (v : TagState) :
    (l.setTag tag v).lapsedTags + (if l.tag tag = .lapsed then 1 else 0) =
      l.lapsedTags + (if v = .lapsed then 1 else 0) := by
  have hlen : tag.toNat < l.tags.toList.length := by simpa using tag.isLt
  have hget : l.tags.toList[tag.toNat] = l.tag tag := by simp [Link.tag]
  have hpos : l.tag tag = .lapsed → 0 < l.tags.toList.countP (fun t => t == .lapsed) := fun h =>
    List.countP_pos_iff.mpr ⟨_, List.getElem_mem hlen, by rw [hget, h]; rfl⟩
  simp only [Link.lapsedTags, Link.setTag, Vector.toList_set, List.countP_set hlen, hget, beq_iff_eq]
  split
  · next h => have := hpos h; omega
  · omega

/-- A link record replaced, its lapsed count exact if it was. -/
theorem Sound.setLink (s : State) (k : LinkIx) (l : Link)
    (h : (s.link k).lapsed = (s.link k).lapsedTags → l.lapsed = l.lapsedTags) : Sound 0 s (s.setLink k l) where
  memory := id
  queue := id
  replies := le_rfl
  flow := id
  notices := id
  slots := id
  lapsed hs j := by
    by_cases hkj : k = j
    · subst hkj
      simpa using h (hs k)
    · simpa [hkj] using hs j
  down := id
  empty hs n := ⟨(hs n).assembly, (hs n).records, (hs n).digest, (hs n).sites, (hs n).regions, (hs n).hold, (hs n).pace,
    (hs n).decay⟩
  hold := id
  window := (Upkeep.same (s := s) (t := s.setLink k l) rfl rfl rfl rfl).window
  ordinals := (Upkeep.same (s := s) (t := s.setLink k l) rfl rfl rfl rfl).ordinals

/-- A tag that is not LAPSED set to another state that is not. -/
theorem Sound.setTag (s : State) (k : LinkIx) (tag : LinkTag) (v : TagState) (f : Link → Link)
    (hold : (s.link k).tag tag ≠ .lapsed) (hnew : v ≠ .lapsed)
    (hf : ∀ l, (f l).tags = (l.setTag tag v).tags ∧ (f l).lapsed = l.lapsed := by exact fun _ => ⟨rfl, rfl⟩) :
    Sound 0 s (s.updLink k f) := by
  refine Sound.setLink s k _ fun h => ?_
  have hcount := Link.lapsedTags_setTag (s.link k) tag v
  rw [if_neg hold, if_neg hnew] at hcount
  have htags : (f (s.link k)).lapsedTags = ((s.link k).setTag tag v).lapsedTags := by
    rw [Link.lapsedTags, Link.lapsedTags, (hf _).1]
  rw [(hf _).2, h, htags]
  exact hcount.symm

/-! ### What a command answers -/

/-- A command answers a state that has the invariants of `s`; the REPLY frames it builds have room. -/
def SoundOutcome (s : State) (o : Host.Outcome State Fault Refusal) : Prop :=
  ∀ t, o = .next t → ∃ n, Sound n s t ∧ (n = 0 ∨ s.replies + n ≤ 16)

theorem SoundOutcome.next {s t : State} (h : Sound 0 s t) : SoundOutcome s (.next t) := fun u hu => by
  cases hu
  exact ⟨0, h, .inl rfl⟩

theorem SoundOutcome.room {s t : State} {n : Nat} (h : Sound n s t) (hn : s.replies + n ≤ 16) :
    SoundOutcome s (.next t) := fun u hu => by
  cases hu
  exact ⟨n, h, .inr hn⟩

/-- A change of `now`, the timers, the turns and the other fields of which no invariant but `noneEmpty` speaks. -/
theorem State.NoneEmpty.of_eq {s t : State} (h : s.NoneEmpty) (assembly : t.intake.assembly = s.intake.assembly := by rfl)
    (records : t.win.records = s.win.records := by rfl) (digest : t.win.digest = s.win.digest := by rfl)
    (sites : t.stu.sites = s.stu.sites := by rfl) (regions : t.stu.regions = s.stu.regions := by rfl)
    (hold : t.wsc.hold = s.wsc.hold := by rfl) (pace : t.wsc.paceAt = s.wsc.paceAt := by rfl)
    (decay : t.wsc.decayAt = s.wsc.decayAt := by rfl) : t.NoneEmpty :=
  ⟨assembly.trans h.assembly, records.trans h.records, digest.trans h.digest, sites.trans h.sites,
    regions.trans h.regions, hold.trans h.hold, pace.trans h.pace, decay.trans h.decay⟩

/-! ### Socket links -/

theorem Sound.overSockets (s : State) (k : LinkIx) (f : SlotIx → State → State) (hf : ∀ i t, Sound 0 t (f i t)) :
    Sound 0 s ((List.finRange 16).foldl (fun t j => f (slotAt k j) t) s) :=
  Sound.foldl _ (fun t j => hf (slotAt k j) t) _ s

theorem soundOutcome_execPong (k : LinkIx) (s : State) : SoundOutcome s (execPong k s) := by
  have hup : Sound 0 s (s.updLink k (fun l => { l with up := true, missed := 0, pingOpen := false })) :=
    Sound.updLink s k _
  refine .next (Sound.ite (fun _ => hup) (fun _ => hup.trans ?_))
  exact Sound.overSockets _ k
    (fun i t => t.updSlot i (fun sl => { sl with lamp := { sl.lamp with due := some sl.state.lamp } }))
    (fun i t => Sound.updAlike t i _)

theorem soundOutcome_execPingDue (k : LinkIx) (s : State) : SoundOutcome s (execPingDue k s) := by
  have hdue : Sound 0 s ((s.reach (s.link k).pingAt).updLink k
      (fun x => { x with pingAt := (s.link k).pingAt + Config.pingPeriod })) :=
    (Sound.reach s _).trans (Sound.updLink _ k _)
  refine .next (Sound.ite (fun _ => hdue) (fun _ => hdue.trans (Sound.ite (fun _ => ?_) (fun _ => ?_))))
  · exact (Sound.updLink _ k _).trans ((Sound.loseLink _ k .ping).trans (Sound.close _))
  · exact Sound.updLink _ k _

theorem Sound.requestTransfer (s : State) (k : LinkIx) (g : Grant) : Sound 0 s (s.requestTransfer k g) :=
  Sound.ite (fun _ => Sound.waiting s _) (fun _ => Sound.refl s)

theorem soundOutcome_execTransmitGrant (k : LinkIx) (s : State) : SoundOutcome s (execTransmitGrant k s) := by
  refine .next (Sound.ite (fun _ => Sound.refl s) (fun _ => Sound.ite (fun _ => Sound.updLink s k _)
    (fun _ => Sound.ite (fun _ => Sound.refl s) (fun _ => ?_))))
  split
  · exact Sound.refl s
  · next j _ =>
    have hturn : Sound 0 s (s.updLink k (fun x => { x with lastSocket := j })) := Sound.updLink s k _
    dsimp only
    split
    · exact hturn.trans ((Sound.updAlike _ (slotAt k j) _).trans (Sound.updLink _ _ _))
    · split
      · exact hturn.trans ((Sound.updLink _ k _).trans (Sound.requestTransfer _ k _))
      · exact hturn

/-- A write to the scratch. -/
theorem Sound.scratch (s : State) (m : Memory) (h : s.stu.scratch.wf = true → m.wf = true) :
    Sound 0 s { s with stu.scratch := m } :=
  Sound.frame (fun hs n => (hs n).of_eq) (memory := fun hm => ⟨hm.1, h hm.2⟩)

theorem State.overlay_wf (s : State) (k : LinkIx) (i : SlotIx) (c : Nat) (p : Piece) (h : s.stu.scratch.wf = true) :
    (s.overlay k i c p).wf = true := by
  unfold State.overlay
  refine List.foldlRecOn (motive := fun m : Memory => m.wf = true) _ _ h fun m hm x _ => ?_
  split
  · exact Memory.write_wf hm _ _
  · exact hm

theorem Sound.moveBytes (s : State) (k : LinkIx) : Sound 0 s (s.moveBytes k) := by
  unfold State.moveBytes
  split
  · exact Sound.refl s
  · next g _ =>
    split
    · exact Sound.refl s
    · next f p _ =>
      refine Sound.trans ?_ ((Sound.updLink _ k _).trans (Sound.requestTransfer _ k _))
      refine Sound.ite (fun _ => Sound.ite (fun _ => ?_) (fun _ => ?_)) (fun _ => Sound.refl s)
      · exact Sound.scratch s _ fun h => State.overlay_wf _ k _ _ p (Memory.write_wf h _ _)
      · exact Sound.scratch s _ fun h => Memory.write_wf h _ _

theorem soundOutcome_execBufferTransferGrant (s : State) : SoundOutcome s (execBufferTransferGrant s) := by
  refine .next (Sound.ite (fun _ => Sound.waiting s _) (fun _ => ?_))
  split
  · exact Sound.refl s
  · next m _ =>
    split
    · exact Sound.refl s
    · next t _ =>
      have htaken : Sound 0 s { s with win.waiting := s.win.waiting.erase t, win.ring := m } :=
        Sound.of (Keeps.window s _ m _ id) (Upkeep.same rfl rfl rfl rfl)
      dsimp only
      split
      · exact htaken.trans (Sound.moveBytes _ _)
      · exact htaken.trans (Sound.moveBytes _ _)
      all_goals exact htaken

theorem Slot.alike_sentEntry (sl : Slot) (g : Grant) (tag : LinkTag) : sl.Alike (sl.sentEntry g tag) := {}

theorem Sound.sentPiece (s : State) (i : SlotIx) (c p : Nat) : Sound 0 s (s.sentPiece i c p) := by
  have hcursor : Sound 0 s (s.updSlot i (fun sl =>
      if p + 1 = (s.pieces c).length then { sl with issueCursor := some (c + 1), piecesSent := 0 }
      else { sl with piecesSent := p + 1 })) :=
    Sound.updAlike s i _ fun sl => by split <;> exact {}
  exact Sound.ite (fun _ => hcursor.trans (Sound.stallTest _ i c)) (fun _ => hcursor)

theorem Sound.afterSend (s : State) (g : Grant) : Sound 0 s (s.afterSend g) := by
  unfold State.afterSend
  split
  · exact Sound.sentPiece s _ _ _
  · exact Sound.updAlike s _ _
  · exact Sound.countSlot s _ _
  · exact Sound.updAlike s _ _
  · exact Sound.refl s

theorem Link.tag_nextTag {l : Link} {tag : LinkTag} (h : l.nextTag = some tag) : l.tag tag = .free := by
  simpa using List.find?_some h

theorem soundOutcome_execCommandSend (k : LinkIx) (s : State) : SoundOutcome s (execCommandSend k s) := by
  refine .next ?_
  split
  · next g tag _ htag =>
    refine Sound.ite (fun _ => Sound.refl s) (fun _ => ?_)
    have hfree := Link.tag_nextTag htag
    refine Sound.trans ?_ (((Sound.updAlike _ g.slot _ (fun sl => sl.alike_sentEntry g tag)).trans
      (Sound.afterSend _ g)).trans (Sound.testHeld _))
    exact Sound.setTag s k tag _ _ (by simp [hfree]) TagState.noConfusion
  · exact Sound.refl s

/-! ### Answers and timeouts -/

theorem Slot.alike_dropEntry (sl : Slot) (tag : LinkTag) : sl.Alike (sl.dropEntry tag) := {}

theorem Sound.dropEntry (s : State) (i : SlotIx) (tag : LinkTag) : Sound 0 s (s.updSlot i (fun sl => sl.dropEntry tag)) :=
  Sound.updAlike s i _ fun sl => sl.alike_dropEntry tag

/-- An entry that leaves its list with its place. -/
theorem Slot.InRange.dropPlace {sl : Slot} (h : sl.InRange) (tag : LinkTag) :
    ((sl.dropEntry tag).givePlaces 1).InRange := ((sl.alike_dropEntry tag).inRange h).givePlaces 1

theorem Sound.endRead (s : State) (i : SlotIx) (tag : LinkTag) :
    Sound 0 s (s.updSlot i (fun sl => (sl.dropEntry tag).givePlaces 1)) :=
  Sound.updSlot s i _ fun _ h => h.dropPlace tag

theorem Sound.boundAnswer (s : State) (i : SlotIx) (tag : LinkTag) (st : Status) (owner : Entry → State → State)
    (h : ∀ e t, Sound 0 t (owner e t)) : Sound 0 s (s.boundAnswer i tag st owner) := by
  refine Sound.ite (fun _ => Sound.endRead s i tag) (fun _ => Sound.ite (fun _ => Sound.emptySlot s i _) (fun _ => ?_))
  split
  · exact h _ s
  · exact Sound.refl s

theorem Sound.answerTag (s : State) (k : LinkIx) (tag : LinkTag) (kind : CmdKind) (st : Status)
    (owner : SlotIx → Entry → State → State) (h : ∀ i e t, Sound 0 t (owner i e t)) :
    Sound 0 s (s.answerTag k tag kind st owner) := by
  have hfreed : (s.link k).tag tag ≠ .lapsed → Sound 0 s (s.updLink k (fun x => x.setTag tag .free)) := fun hne =>
    Sound.setTag s k tag .free _ hne TagState.noConfusion
  refine Sound.ite (fun _ => Sound.refl s) (fun _ => ?_)
  split
  · exact Sound.count s _
  · next hlapsed =>
    refine Sound.trans ?_ (Sound.count _ _)
    rw [State.updLink_updLink]
    refine Sound.setLink s k _ fun hexact => ?_
    have hcount := Link.lapsedTags_setTag (s.link k) tag .free
    rw [if_pos hlapsed, if_neg TagState.noConfusion] at hcount
    show (s.link k).lapsed - 1 = ((s.link k).setTag tag .free).lapsedTags
    omega
  · next b htag =>
    exact Sound.ite (fun _ => Sound.count s _) (fun _ => (hfreed (by simp [htag])).trans
      ((Sound.boundAnswer _ b.slot tag st _ (h b.slot)).trans (Sound.close _)))
  · next b htag =>
    exact Sound.ite (fun _ => Sound.count s _) (fun _ => Sound.ite (fun _ => (hfreed (by simp [htag])).trans
      ((Sound.emptySlot _ b.slot _).trans (Sound.close _))) (fun _ => hfreed (by simp [htag])))
  · next b htag => exact Sound.ite (fun _ => Sound.count s _) (fun _ => hfreed (by simp [htag]))

theorem Sound.retryQual (s : State) (i : SlotIx) (e : Entry) : Sound 0 s (s.retryQual i e) :=
  Sound.ite (fun _ => Sound.updAlike s i _) (fun _ => Sound.failSlot s i _)

theorem Sound.qualMedium (s : State) (i : SlotIx) (e : Entry) : Sound 0 s (s.qualMedium i e) :=
  (Sound.countSlot s i _).trans (Sound.raiseTrouble _ i 4 _ fun t => Sound.retryQual t i e)

theorem Sound.qualError (s : State) (i : SlotIx) (e : Entry) (st : Status) : Sound 0 s (s.qualError i e st) := by
  unfold State.qualError
  split
  · exact Sound.raiseTrouble s i 2 _ fun t => Sound.retryQual t i e
  · split
    · exact Sound.qualMedium s i e
    · exact Sound.failSlot s i _
  · exact Sound.qualMedium s i e

theorem Sound.pieceDone (s : State) (i : SlotIx) (tag : LinkTag) (c n : Nat) : Sound 0 s (s.pieceDone i tag c n) := by
  have hcounted := Sound.countSlot s i ctrWritten
  have hdropped : Sound 0 (s.countSlot i ctrWritten) ((s.countSlot i ctrWritten).setSlot i
      ((((s.countSlot i ctrWritten).slot i).dropEntry tag).givePlaces 1)) :=
    Sound.setSlot _ i _ (fun h => h.dropPlace tag) (.inl rfl)
  refine Sound.ite (fun _ => hcounted.trans hdropped) (fun _ => Sound.ite (fun _ => ?_) (fun _ => ?_))
  · exact hcounted.trans (Sound.updAlike _ i _)
  · exact hcounted.trans (hdropped.trans (Sound.acknowledge _ i c))

theorem Sound.pieceAnswer (s : State) (i : SlotIx) (tag : LinkTag) (e : Entry) (c n : Nat) (st : Status) :
    Sound 0 s (s.pieceAnswer i tag e c n st) := by
  have hretry : ∀ t : State, Sound 0 t (t.retryEntry i tag e ⟨.writeFailed, some c, none, none⟩) := fun t =>
    Sound.retryEntry t i tag e _
  unfold State.pieceAnswer
  split
  · exact Sound.pieceDone s i tag c n
  · exact Sound.raiseTrouble s i 2 _ hretry
  · exact Sound.failSlot s i _
  all_goals exact (Sound.countSlot s i _).trans (Sound.raiseTrouble _ i 4 _ hretry)

theorem Sound.queueRewrite (s : State) (i : SlotIx) (c n : Nat) : Sound 0 s (s.queueRewrite i c n) :=
  Sound.ite (fun _ => Sound.updAlike s i _) (fun _ => Sound.failSlot s i _)

theorem Sound.inlineResult (s : State) (i : SlotIx) (tag : LinkTag) (c n : Nat) (same : Bool) :
    Sound 0 s (s.inlineResult i tag c n same) :=
  (Sound.endRead s i tag).trans (Sound.ite (fun _ => Sound.acknowledge _ i c) (fun _ =>
    (Sound.countSlot _ i _).trans (Sound.raiseTrouble _ i 6 _ fun t => Sound.queueRewrite t i c n)))

theorem Sound.trailingResult (s : State) (i : SlotIx) (tag : LinkTag) (c : Nat) (same : Bool) :
    Sound 0 s (s.trailingResult i tag c same) := by
  refine ((Sound.endRead s i tag).trans (Sound.waiting _ _)).trans (Sound.ite (fun _ => Sound.ite (fun _ => ?_)
    (fun _ => Sound.refl _)) (fun _ => (Sound.countSlot _ i _).trans (Sound.failSlot _ i _)))
  exact (Sound.updAlike _ i _).trans (Sound.moveSlot _ i _)

theorem Sound.readMedium (s : State) (i : SlotIx) (tag : LinkTag) (e : Entry) (c : Nat) :
    Sound 0 s (s.readMedium i tag e c) :=
  (Sound.countSlot s i _).trans (Sound.raiseTrouble _ i 4 _ fun t => Sound.retryEntry t i tag e _)

theorem Sound.verifyAnswer (s : State) (i : SlotIx) (tag : LinkTag) (e : Entry) (c n : Nat) (st : Status)
    (data : List Byte) : Sound 0 s (s.verifyAnswer i tag e c n st data) := by
  unfold State.verifyAnswer
  split
  · exact Sound.ite (fun _ => Sound.ite (fun _ => Sound.trailingResult s i tag c _)
      (fun _ => Sound.inlineResult s i tag c n _)) (fun _ => Sound.readMedium s i tag e c)
  · exact Sound.raiseTrouble s i 2 _ fun t => Sound.retryEntry t i tag e _
  all_goals exact Sound.readMedium s i tag e c

theorem Sound.writeOwner (tag : LinkTag) (st : Status) (i : SlotIx) (e : Entry) (s : State) :
    Sound 0 s (writeOwner tag st i e s) := by
  unfold Machine.writeOwner
  split
  · exact (Sound.dropEntry s i tag).trans (Sound.ite (fun _ => Sound.updAlike _ i _) (fun _ => Sound.qualError _ i e st))
  · exact Sound.pieceAnswer s i tag e _ _ st
  · exact Sound.refl s

theorem Sound.sized (s : State) (i : SlotIx) (c : Nat) : Sound 0 s (s.sized i c) :=
  (Sound.updAlike s i _).trans (Sound.ite (fun _ => Sound.failSlot _ i _) (fun _ => Sound.ite
    (fun _ => (Sound.updAlike _ i _).trans (Sound.moveSlot _ i _)) (fun _ => Sound.enterReady _ i)))

theorem Sound.capacityOwner (tag : LinkTag) (st : Status) (data : List Byte) (i : SlotIx) (e : Entry) (s : State) :
    Sound 0 s (capacityOwner tag st data i e s) :=
  (Sound.dropEntry s i tag).trans (Sound.ite (fun _ => Sound.ite (fun _ => Sound.sized _ i _)
    (fun _ => Sound.qualMedium _ i e)) (fun _ => Sound.qualError _ i e st))

theorem Sound.probeRead (s : State) (i : SlotIx) (j : Nat) (data : List Byte) : Sound 0 s (s.probeRead i j data) := by
  refine Sound.ite (fun _ => Sound.ite (fun _ => Sound.updAlike s i _) (fun _ => Sound.enterReady s i)) (fun _ => ?_)
  split
  all_goals exact Sound.failSlot s i _

theorem Sound.readOwner (tag : LinkTag) (st : Status) (data : List Byte) (i : SlotIx) (e : Entry) (s : State) :
    Sound 0 s (readOwner tag st data i e s) := by
  unfold Machine.readOwner
  split
  · exact (Sound.dropEntry s i tag).trans (Sound.ite (fun _ => Sound.ite (fun _ => Sound.probeRead _ i _ data)
      (fun _ => Sound.qualMedium _ i e)) (fun _ => Sound.qualError _ i e st))
  · exact Sound.verifyAnswer s i tag e _ _ st data
  · exact Sound.refl s

theorem Sound.timeout (s : State) (i : SlotIx) (tag : LinkTag) : Sound 0 s (s.timeout i tag) := by
  refine Sound.ite (fun _ => Sound.endRead s i tag) (fun _ => ?_)
  split
  · exact Sound.refl s
  · next e _ =>
    refine (Sound.countSlot s i ctrTimeouts).trans ?_
    dsimp only
    split
    · exact Sound.raiseTrouble _ i 8 _ fun t => Sound.retryEntry t i tag e _
    · exact Sound.raiseTrouble _ i 8 _ fun t => Sound.retryEntry t i tag e _
    all_goals exact (Sound.dropEntry _ i tag).trans (Sound.raiseTrouble _ i 8 _ fun t => Sound.retryQual t i e)

theorem Sound.lapse (s : State) (k : LinkIx) (tag : LinkTag) (b : Busy) (h : (s.link k).tag tag ≠ .lapsed) :
    Sound 0 s (s.lapse k tag b) := by
  refine (Sound.reach s b.deadline).trans (Sound.trans ?_ (Sound.count _ _))
  refine Sound.setLink _ k _ fun hexact => ?_
  have hcount := Link.lapsedTags_setTag (s.link k) tag .lapsed
  rw [if_neg h, if_pos rfl] at hcount
  rw [State.reach_link] at hexact
  show (s.link k).lapsed + 1 = ((s.link k).setTag tag .lapsed).lapsedTags
  omega

theorem Sound.afterLapse (s : State) (k : LinkIx) : Sound 0 s (s.afterLapse k) :=
  Sound.ite (fun _ => (Sound.loseLink s k _).trans (Sound.close _)) (fun _ => Sound.close s)

theorem soundOutcome_execTagLapse (k : LinkIx) (tag : LinkTag) (s : State) : SoundOutcome s (execTagLapse k tag s) := by
  refine .next ?_
  split
  · exact Sound.refl s
  · exact Sound.refl s
  · next b htag =>
    exact (Sound.lapse s k tag b (by simp [htag])).trans ((Sound.timeout _ b.slot tag).trans (Sound.afterLapse _ k))
  all_goals
    next b htag => exact (Sound.lapse s k tag b (by simp [htag])).trans (Sound.afterLapse _ k)

end Sys2Proof.Machine
end

section
/-! SUPPORT. The invariants along presence, the timers, the resets, the upstream lane and what reaches the image link but
segments. -/

set_option Elab.async false

namespace Sys2Proof.Machine

/-! ### Presence and settling -/

theorem Sound.startSettling (s : State) (i : SlotIx) : Sound 0 s (s.startSettling i) :=
  (Sound.updAlike s i _).trans (Sound.moveSlot _ i _)

theorem soundOutcome_execPresenceInserted (k : LinkIx) (j : Socket) (s : State) :
    SoundOutcome s (execPresenceInserted k j s) := by
  refine .next (Sound.ite (fun _ => Sound.refl s) (fun _ => ?_))
  split
  · exact Sound.startSettling s _
  · exact Sound.updAlike s _ _
  · exact (Sound.emptySlot s _ _).trans ((Sound.startSettling _ _).trans (Sound.close _))

theorem soundOutcome_execPresenceRemoved (k : LinkIx) (j : Socket) (s : State) :
    SoundOutcome s (execPresenceRemoved k j s) :=
  .next (Sound.ite (fun _ => Sound.refl s) (fun _ => Sound.ite (fun _ => Sound.refl s)
    (fun _ => (Sound.emptySlot s _ _).trans (Sound.close _))))

theorem Slot.newStick_inRange (sl : Slot) : sl.newStick.InRange :=
  ⟨Nat.zero_le _, Nat.zero_le _, Nat.zero_le _, Nat.zero_le _, rfl, fun _ h => nomatch h⟩

theorem soundOutcome_execSettleDeadline (i : SlotIx) (s : State) : SoundOutcome s (execSettleDeadline i s) := by
  refine .next ?_
  split
  · next d _ _ =>
    have hnew : Sound 0 s (((s.reach d).clearEntries i).updSlot i Slot.newStick) :=
      (Sound.reach s d).trans ((Sound.clearEntries _ i).trans
        (Sound.updSlot _ i _ (fun sl _ => sl.newStick_inRange) (fun _ => .inr rfl)))
    dsimp only
    split
    · exact hnew.trans (Sound.moveSlot _ i _)
    · exact hnew.trans (Sound.moveSlot _ i _)
    all_goals exact hnew.trans (Sound.enterSizing _ i)
  · exact Sound.refl s

/-! ### Timers -/

/-- The pace and decay timers moved on while one of them runs, which it does not in state NONE (R154, R166). -/
theorem Sound.timers (s : State) (pace decay : Option Nat) (h : s.wsc.paceAt ≠ none ∨ s.wsc.decayAt ≠ none) :
    Sound 0 s { s with wsc.paceAt := pace, wsc.decayAt := decay } :=
  Sound.frame fun hs n => absurd h (by simp [(hs n).pace, (hs n).decay])

theorem Slot.InRange.paced {sl : Slot} (h : sl.InRange) (free tail clearAt : Nat) :
    (sl.paced free tail clearAt).InRange := by
  unfold Slot.paced
  dsimp only
  split
  · split
    · exact ⟨h.trouble, h.residency, Nat.min_le_left _ _, Nat.zero_le _, h.throttled, h.depth⟩
    · exact ⟨h.trouble, h.residency, Nat.zero_le _, Nat.min_le_left _ _, h.throttled, h.depth⟩
  · exact h

theorem Slot.ordinal_paced (sl : Slot) (free tail clearAt : Nat) : (sl.paced free tail clearAt).ordinal = sl.ordinal := by
  unfold Slot.paced
  dsimp only
  split
  · split <;> rfl
  · rfl

theorem Sound.declareLaggard (s : State) (i : SlotIx) : Sound 0 s (s.declareLaggard i) := by
  unfold State.declareLaggard
  dsimp only
  split
  · exact (Sound.updAlike s i _).trans (Sound.raise _ _)
  · exact (Sound.updAlike s i _).trans ((Sound.raise _ _).trans (Sound.detachSlot _ i))
  · exact (Sound.updAlike s i _).trans ((Sound.raise _ _).trans (Sound.failSlot _ i _))

theorem Sound.paceEvaluate (s : State) : Sound 0 s s.paceEvaluate :=
  (Sound.mapSlots s _ (fun _ h => h.paced _ _ _) (fun sl => .inl (sl.ordinal_paced _ _ _))).trans
    ((Sound.foldl _ (fun t i => Sound.declareLaggard t i) _ _).trans (Sound.close _))

theorem soundOutcome_execPaceTick (s : State) : SoundOutcome s (execPaceTick s) := by
  refine .next ?_
  split
  · exact Sound.refl s
  · next d hd =>
    have hnext : Sound 0 s { s.reach d with
        wsc.paceAt := some ((s.reach d).now + (s.reach d).ses.tune.paceInterval) } :=
      (Sound.reach s d).trans (Sound.timers _ _ _ (.inl (by simp [hd])))
    exact Sound.ite (fun _ => hnext.trans (Sound.paceEvaluate _)) (fun _ => hnext)

theorem Slot.InRange.decayed {sl : Slot} (h : sl.InRange) (release rmin : Nat) : (sl.decayed release rmin).InRange := by
  have hscore : sl.trouble - 1 ≤ 63 := (Nat.sub_le _ _).trans h.trouble
  unfold Slot.decayed
  dsimp only
  split
  · split
    · exact ⟨hscore, Nat.zero_le _, h.pinCount, h.clearCount, rfl, fun _ h => nomatch h⟩
    · exact ⟨hscore, Nat.min_le_left _ _, h.pinCount, h.clearCount, h.throttled, h.depth⟩
  · exact ⟨hscore, h.residency, h.pinCount, h.clearCount, h.throttled, h.depth⟩

theorem Slot.ordinal_decayed (sl : Slot) (release rmin : Nat) : (sl.decayed release rmin).ordinal = sl.ordinal := by
  unfold Slot.decayed
  dsimp only
  split
  · split <;> rfl
  · rfl

theorem soundOutcome_execDecayTick (s : State) : SoundOutcome s (execDecayTick s) := by
  refine .next ?_
  split
  · exact Sound.refl s
  · next d hd =>
    have hnext := Sound.timers (s.reach d) s.wsc.paceAt
      (some ((s.reach d).now + 1000 * (s.reach d).ses.tune.decayInterval)) (.inr (by simp [hd]))
    refine (Sound.reach s d).trans (hnext.trans ?_)
    exact Sound.mapSlots _ _ (fun _ h => h.decayed _ _) (fun sl => .inl (sl.ordinal_decayed _ _))

theorem soundOutcome_execStallDeadline (i : SlotIx) (s : State) : SoundOutcome s (execStallDeadline i s) := by
  refine .next ?_
  split
  · exact Sound.refl s
  · exact (Sound.reach s _).trans (Sound.ite (fun _ => (Sound.failSlot _ i _).trans (Sound.close _))
      (fun _ => Sound.refl _))

theorem soundOutcome_execAutoSnapshotExpiry (s : State) : SoundOutcome s (execAutoSnapshotExpiry s) := by
  refine .next ?_
  split
  · exact Sound.refl s
  · exact (Sound.reach s _).trans ((Sound.takeSnapshot _).trans (Sound.ncu _ _))

/-! ### Resets -/

/-- What a reset puts in place of a state. -/
theorem Sound.reset {s t : State} (frames : t.win.frames = s.win.frames) (scratch : t.stu.scratch = s.stu.scratch)
    (session : t.session = none) (assembly : t.intake.assembly = none) (records : t.win.records = [])
    (slots : t.slots = State.reset.slots) (links : t.links = State.reset.links) (empty : t.NoneEmpty)
    (holdReply : t.wsc.holdReply = none) (queue : t.req.queue = []) (outbox : t.req.outbox = [])
    (flowOut : t.req.flowOut = []) (notices : t.ncu.notices = []) (down : s.downQuiet → t.downQuiet) : Sound 0 s t where
  memory h := ⟨by rw [frames]; exact h.1, by rw [scratch]; exact h.2⟩
  queue _ := by simp [queue]
  replies := by simp [State.replies, outbox, holdReply]
  flow _ := by simp [flowOut]
  notices _ := by simp [notices]
  slots _ i := by
    rw [State.slot, slots]
    exact State.reset_slotsInRange i
  lapsed _ k := by
    rw [State.link, links]
    exact State.reset_lapsedExact k
  down := down
  empty _ _ := empty
  hold _ h := by simp [holdReply] at h
  window _ := ⟨fun _ => ⟨records, assembly⟩, fun x hx => nomatch session.symm.trans hx⟩
  ordinals _ := ⟨fun _ i => by
    rw [State.slot, slots]
    exact State.reset_ordinalsDistinct.1 rfl i, fun x hx => nomatch session.symm.trans hx⟩

theorem soundOutcome_execPowerOnReset (s : State) : SoundOutcome s (execPowerOnReset s) :=
  .next (Sound.reset rfl rfl rfl rfl rfl rfl rfl (State.reset_noneEmpty rfl).of_eq rfl rfl rfl rfl rfl
    fun _ _ => ⟨rfl, rfl, rfl⟩)

theorem soundOutcome_execBufferInitComplete (s : State) : SoundOutcome s (execBufferInitComplete s) :=
  .next (Sound.ite (fun _ => Sound.frame fun hs n =>
    ⟨(hs n).assembly, (hs n).records, rfl, (hs n).sites, (hs n).regions, (hs n).hold, (hs n).pace, (hs n).decay⟩)
    (fun _ => Sound.refl s))

theorem Sound.afterEngineReset (s : State) : Sound 0 s s.afterEngineReset :=
  Sound.reset rfl rfl rfl rfl rfl rfl rfl (State.reset_noneEmpty rfl).of_eq rfl rfl rfl rfl rfl fun hs hdown => by
    obtain ⟨-, -, hlane⟩ := hs hdown
    refine ⟨rfl, rfl, ?_⟩
    show s.req.lane.map _ = none
    rw [hlane]
    rfl

/-- A FLOW frame placed on an UP link. -/
theorem Sound.sendFlow (s : State) (hup : s.intake.linkUp = true) : Sound 0 s s.sendFlow where
  memory := id
  queue := id
  replies := le_rfl
  flow := s.sendFlow_length
  notices := id
  slots := id
  lapsed := id
  down _ hdown := absurd (hup.symm.trans hdown) (by decide)
  empty hs n := (hs n).of_eq
  hold := id
  window := (Upkeep.same (s := s) (t := s.sendFlow) rfl rfl rfl rfl).window
  ordinals := (Upkeep.same (s := s) (t := s.sendFlow) rfl rfl rfl rfl).ordinals

theorem soundOutcome_execEngineResetTakesEffect (s : State) : SoundOutcome s (execEngineResetTakesEffect s) :=
  .next (Sound.ite (fun _ => Sound.ite (fun hup => (Sound.afterEngineReset s).trans (Sound.sendFlow _ hup))
    (fun _ => Sound.afterEngineReset s)) (fun _ => Sound.refl s))

/-! ### The image link and the upstream lane -/

/-- The flow state, the link's own state and the lane, on a link that is UP afterwards. -/
theorem Sound.onLink (s : State) (f : Intake) (l : Option LaneFrame) (b : Bool) (hup : f.linkUp = true)
    (hassembly : f.assembly = s.intake.assembly) :
    Sound 0 s { s with intake := f, req.lane := l, req.replyServed := b } where
  memory := id
  queue := id
  replies := le_rfl
  flow := id
  notices := id
  slots := id
  lapsed := id
  down _ hdown := absurd (hup.symm.trans hdown) (by decide)
  empty hs n := (hs n).of_eq (assembly := hassembly)
  hold := id
  window := (Upkeep.same (s := s) (t := { s with intake := f, req.lane := l, req.replyServed := b }) rfl hassembly rfl
    rfl).window
  ordinals := (Upkeep.same (s := s) (t := { s with intake := f, req.lane := l, req.replyServed := b }) rfl hassembly rfl
    rfl).ordinals

theorem soundOutcome_execImageLinkEstablished (s : State) : SoundOutcome s (execImageLinkEstablished s) :=
  .next (Sound.ite (fun _ => Sound.refl s)
    (fun _ => (Sound.onLink s ⟨s.intake.assembly, _, true⟩ s.req.lane s.req.replyServed rfl rfl).trans (Sound.sendFlow _ rfl)))

theorem soundOutcome_execUpstreamGrant (s : State) : SoundOutcome s (execUpstreamGrant s) := by
  refine .next (Sound.ite (fun h => ?_) (fun _ => Sound.refl s))
  have hlane : ∀ f b, Sound 0 s { s.laneSend f with req.replyServed := b } := fun f b =>
    Sound.onLink s s.intake _ b h.1 rfl
  split
  · exact hlane _ s.req.replyServed
  · exact hlane _ true
  · exact hlane _ false
  · exact Sound.ite (fun _ => hlane _ false) (fun _ => hlane _ true)
  · exact Sound.refl s

/-- Frames gone from the lane and from the front of the queues. -/
theorem Sound.sent {s t : State} (frames : t.win.frames = s.win.frames := by rfl)
    (scratch : t.stu.scratch = s.stu.scratch := by rfl) (session : t.session = s.session := by rfl)
    (intake : t.intake = s.intake := by rfl) (records : t.win.records = s.win.records := by rfl)
    (slots : t.slots = s.slots := by rfl) (links : t.links = s.links := by rfl) (wsc : t.wsc = s.wsc := by rfl)
    (empty : s.NoneEmpty → t.NoneEmpty := by exact fun h => h.of_eq)
    (queue : t.req.queue = s.req.queue := by rfl) (lane : t.req.lane = none := by rfl)
    (outbox : t.req.outbox.length ≤ s.req.outbox.length := by simp)
    (flowOut : t.req.flowOut = s.req.flowOut ∨ t.req.flowOut = s.req.flowOut.tail := by simp)
    (notices : t.ncu.notices.length ≤ s.ncu.notices.length := by simp) : Sound 0 s t where
  memory h := ⟨by rw [frames]; exact h.1, by rw [scratch]; exact h.2⟩
  queue h := by rw [queue]; exact h
  replies := by simp only [State.replies, wsc]; omega
  flow h := by
    rcases flowOut with e | e <;> rw [e]
    · exact h
    · rw [List.length_tail]; omega
  notices h := notices.trans h
  slots h i := by simpa only [State.slot, slots] using h i
  lapsed h k := by simpa only [State.link, links] using h k
  down h e := by
    rw [intake] at e ⊢
    obtain ⟨hflow, hout, -⟩ := h e
    exact ⟨hflow, by rcases flowOut with e | e <;> rw [e, hout]; rfl, lane⟩
  empty h n := empty (h (session ▸ n))
  hold h e := by
    rw [wsc] at e ⊢
    exact h e
  window := (Upkeep.same (s := s) session (by rw [intake]) records slots).window
  ordinals := (Upkeep.same (s := s) session (by rw [intake]) records slots).ordinals

theorem soundOutcome_execUpstreamFrameSent (s : State) : SoundOutcome s (execUpstreamFrameSent s) := by
  refine .next ?_
  split
  · exact Sound.refl s
  · refine Sound.ite (fun _ => ?_) (fun _ => Sound.sent)
    split
    all_goals exact Sound.sent

theorem soundOutcome_execBadFrame (s : State) : SoundOutcome s (execBadFrame s) :=
  .next (Sound.ite (fun _ => Sound.count s _) (fun _ => Sound.refl s))

theorem soundOutcome_execMalformedFrame (kind : Byte) (len : BitVec 16) (s : State) :
    SoundOutcome s (execMalformedFrame kind len s) :=
  .next (Sound.ite (fun _ => Sound.count s _) (fun _ => Sound.refl s))

theorem State.replies_le (s : State) : s.replies ≤ s.req.outbox.length + 1 := by
  unfold State.replies
  split <;> omega

theorem soundOutcome_execRequestFrame (tag : ReqTag) (code : Byte) (params : List Byte) (s : State) :
    SoundOutcome s (execRequestFrame tag code params s) := by
  have hreplies := s.replies_le
  unfold execRequestFrame
  simp only
  split
  · exact .next (Sound.refl s)
  · split
    · next h => exact .next (Sound.frame (fun hs n => (hs n).of_eq) (queue := fun _ => by simpa [Config.requestQueue] using h))
    · split
      · next h => exact .room (Sound.answer s _ _ _ _) (by simp only [Config.outboxBusy] at h; omega)
      · exact .next (Sound.count s _)

end Sys2Proof.Machine
end

section
/-! SUPPORT. An event run over every slot, and the invariants along the requests that leave the session record alone. -/

set_option Elab.async false

namespace Sys2Proof.Machine

/-! ### An event run over every slot -/

/-- A property that one round keeps holds after all of them. -/
theorem State.forSlots_keeps (Q : State → Prop) {f : SlotIx → State → State} (keep : ∀ i t, Q t → Q (f i t)) {s : State}
    (h : Q s) : Q (s.forSlots f) :=
  List.foldlRecOn _ _ h fun t ht i _ => keep i t ht

/-- Rounds that each touch their own slot alone, while `Q` holds, do to each slot what its own round does. -/
theorem State.forSlots_slot (Q : State → Prop) {f : SlotIx → State → State} (keep : ∀ i t, Q t → Q (f i t))
    (only : ∀ i j t, i ≠ j → (f i t).slot j = t.slot j) (P : SlotIx → Slot → Slot → Prop)
    (self : ∀ i t, Q t → P i (t.slot i) ((f i t).slot i)) {s : State} (h : Q s) (i : SlotIx) :
    P i (s.slot i) ((s.forSlots f).slot i) := by
  have key : ∀ (l : List SlotIx) (t : State), l.Nodup → Q t →
      (i ∉ l → (l.foldl (fun t i => f i t) t).slot i = t.slot i) ∧
      (i ∈ l → P i (t.slot i) ((l.foldl (fun t i => f i t) t).slot i)) := by
    intro l
    induction l with
    | nil => exact fun t _ _ => ⟨fun _ => rfl, fun h => absurd h List.not_mem_nil⟩
    | cons a l ih =>
      intro t nd ht
      obtain ⟨hal, nd⟩ := List.nodup_cons.mp nd
      obtain ⟨out, inn⟩ := ih (f a t) nd (keep a t ht)
      simp only [List.foldl_cons, List.mem_cons, not_or]
      refine ⟨fun hi => (out hi.2).trans (only a i t (Ne.symm hi.1)), fun hi => ?_⟩
      by_cases e : i = a
      · subst e
        rw [out hal]
        exact self i t ht
      · rw [← only a i t (Ne.symm e)]
        exact inn (hi.resolve_left e)
  exact (key _ s (List.nodup_finRange 192) h).2 (List.mem_finRange i)

theorem Sound.forSlots (s : State) (f : SlotIx → State → State) (hf : ∀ i t, Sound 0 t (f i t)) :
    Sound 0 s (s.forSlots f) := Sound.foldl _ (fun t i => hf i t) _ s

/-! ### Requests -/

/-- A request that REQ takes: at most two REPLY frames where at most four were built or owed. -/
theorem soundOutcome_takeRequest (s : State) (want : Option ReqKind) (owner : Request → State → State)
    (h : ∀ k r t, want = some k → k.takenIn t.phase = true → Sound 2 t (owner r t)) :
    SoundOutcome s (.next (s.takeRequest want owner)) := by
  have hreplies := s.replies_le
  unfold State.takeRequest
  split
  · exact .next (Sound.refl s)
  · next r rest htakes =>
    have hroom : s.req.outbox.length < 4 ∧ s.req.queue = r :: rest := by
      unfold State.takes at htakes
      split at htakes
      · cases htakes
      · next hq =>
        split at htakes
        · next hr => cases htakes; exact ⟨hr.1, hq⟩
        · cases htakes
    have htaken : Sound 0 s { s with req.queue := rest } :=
      Sound.frame (fun hs n => (hs n).of_eq) (queue := fun hq => by
        rw [hroom.2, List.length_cons] at hq
        exact Nat.le_of_succ_le hq)
    refine .room (n := 2) (htaken.trans ?_) (by omega)
    refine Sound.ite (fun _ => (Sound.answer _ _ _ _ _).mono) (fun _ => ?_)
    split
    · exact (Sound.answer _ _ _ _ _).mono
    · next k _ =>
      refine Sound.ite (fun _ => (Sound.answer _ _ _ _ _).mono) (fun hphase => Sound.ite
        (fun _ => (Sound.answer _ _ _ _ _).mono) (fun _ => ?_))
      exact h k r _ rfl (Bool.not_eq_false _ ▸ hphase)

/-- Every REQUEST that answers with one REPLY and does nothing else that an invariant sees. -/
theorem Sound.thenAccept {s t : State} (h : Sound 0 s t) (r : Request) (st : ReplyStatus) (data : List Byte) :
    Sound 2 s (t.accept r st data) := h.trans (Sound.accept t r st data).mono

theorem Sound.refuse (s : State) (r : Request) (st : ReplyStatus) (detail : Nat) : Sound 2 s (s.answer r st detail []) :=
  (Sound.answer s r st detail []).mono

theorem soundOutcome_execUnknownRequest (s : State) : SoundOutcome s (execUnknownRequest s) :=
  soundOutcome_takeRequest s none _ fun _ _ t _ _ => (Sound.refl t).mono

theorem soundOutcome_execIdentify (s : State) : SoundOutcome s (execIdentify s) :=
  soundOutcome_takeRequest s _ _ fun _ _ t _ _ => (Sound.refl t).thenAccept _ _ _

theorem soundOutcome_execEngineReset (s : State) : SoundOutcome s (execEngineReset s) :=
  soundOutcome_takeRequest s _ _ fun _ _ t _ _ =>
    ((Sound.settleHold t _ _).thenAccept _ _ _).andThen (Sound.frame fun hs n => (hs n).of_eq)

theorem soundOutcome_execSessionStatus (s : State) : SoundOutcome s (execSessionStatus s) :=
  soundOutcome_takeRequest s _ _ fun _ _ t _ _ => (Sound.refl t).thenAccept _ _ _

theorem soundOutcome_execSlotStatus (s : State) : SoundOutcome s (execSlotStatus s) :=
  soundOutcome_takeRequest s _ _ fun _ _ t _ _ =>
    Sound.ite (fun _ => Sound.refuse t _ _ _) (fun _ => (Sound.refl t).thenAccept _ _ _)

/-- The change marks of some slots cleared. -/
theorem Sound.clearMarks (s : State) (p : Nat → Prop) [DecidablePred p] :
    Sound 0 s { s with slots := s.slots.mapFinIdx (fun i sl _ => if p i then { sl with changeMark := false } else sl) } := by
  have hslot : ∀ i, State.slot { s with
      slots := s.slots.mapFinIdx (fun i sl _ => if p i then { sl with changeMark := false } else sl) } i =
      if p i.val then { s.slot i with changeMark := false } else s.slot i := fun i => by simp [State.slot]
  have hkeeps : Keeps s { s with
      slots := s.slots.mapFinIdx (fun i sl _ => if p i then { sl with changeMark := false } else sl) } :=
    { Keeps.refl s with
      slots := fun hs i => by
        rw [hslot]
        split
        · exact (hs i).of_eq rfl rfl rfl rfl rfl rfl
        · exact hs i
      replies := le_rfl, lapsed := id, down := id, hold := id
      empty := fun hs n => (hs n).of_eq }
  refine Sound.of hkeeps (Upkeep.of rfl rfl (Trimmed.refl _) fun i => .inl ?_)
  rw [hslot]
  split <;> rfl

theorem soundOutcome_execClearMarks (s : State) : SoundOutcome s (execClearMarks s) :=
  soundOutcome_takeRequest s _ _ fun _ _ t _ _ => Sound.ite (fun _ => Sound.refuse t _ _ _)
    (fun _ => ((Sound.clearMarks t _).trans (Sound.ncu _ _)).thenAccept _ _ _)

theorem soundOutcome_execSnapshot (s : State) : SoundOutcome s (execSnapshot s) :=
  soundOutcome_takeRequest s _ _ fun _ _ t _ _ =>
    ((Sound.ncu t _).trans ((Sound.takeSnapshot _).trans (Sound.ncu _ _))).thenAccept _ _ _

theorem soundOutcome_execReadSnapshot (s : State) : SoundOutcome s (execReadSnapshot s) :=
  soundOutcome_takeRequest s _ _ fun _ _ t _ _ =>
    Sound.ite (fun _ => Sound.refuse t _ _ _) (fun _ => (Sound.refl t).thenAccept _ _ _)

theorem soundOutcome_execSetNoticeMask (s : State) : SoundOutcome s (execSetNoticeMask s) :=
  soundOutcome_takeRequest s _ _ fun _ _ t _ _ => (Sound.ncu t _).thenAccept _ _ _

theorem Sound.withdrawSlot (s : State) (r : Request) (i : SlotIx) : Sound 2 s (s.withdrawSlot r i) :=
  ((Sound.failSlot s i _).thenAccept r _ _).andThen (Sound.close _)

theorem soundOutcome_execReleaseSlot (s : State) : SoundOutcome s (execReleaseSlot s) := by
  refine soundOutcome_takeRequest s _ _ fun _ r t _ _ => ?_
  dsimp only
  split
  · split
    · exact (Sound.moveSlot t _ _).thenAccept _ _ _
    · exact Sound.withdrawSlot t r _
    · exact Sound.withdrawSlot t r _
    · exact Sound.ite (fun _ => Sound.withdrawSlot t r _) (fun _ => Sound.refuse t _ _ _)
    · exact Sound.refuse t _ _ _
  · exact Sound.refuse t _ _ _

/-! ### Requests of the stamp unit -/

/-- Its tables changed, in a session. -/
theorem Sound.tables (s : State) (sites : List Site) (regions : List Region) (h : s.session ≠ none) :
    Sound 0 s { s with stu.sites := sites, stu.regions := regions } :=
  Sound.frame fun _ n => absurd n h

/-- R2: a request taken in OPEN or RUNNING alone finds a session. -/
theorem State.session_of_phase {t : State} {p : SessionPhase} (h : (t.phase == some p) = true) : t.session ≠ none :=
  fun n => by simp [State.phase, n] at h

theorem soundOutcome_execLoadPatchSite (s : State) : SoundOutcome s (execLoadPatchSite s) := by
  refine soundOutcome_takeRequest s _ _ fun k r t hk htaken => ?_
  cases hk
  dsimp only
  refine Sound.ite (fun _ => Sound.refuse t _ _ _) (fun _ => ?_)
  split
  · exact Sound.refuse t _ _ _
  · split
    · exact Sound.refuse t _ _ _
    · exact (Sound.tables t _ t.stu.regions (State.session_of_phase htaken)).thenAccept _ _ _

theorem soundOutcome_execLoadGuardRegion (s : State) : SoundOutcome s (execLoadGuardRegion s) := by
  refine soundOutcome_takeRequest s _ _ fun k r t hk htaken => ?_
  cases hk
  exact Sound.ite (fun _ => Sound.refuse t _ _ _) (fun _ => Sound.ite (fun _ => Sound.refuse t _ _ _)
    (fun _ => (Sound.tables t t.stu.sites _ (State.session_of_phase htaken)).thenAccept _ _ _))

theorem soundOutcome_execClearPatchTable (s : State) : SoundOutcome s (execClearPatchTable s) := by
  refine soundOutcome_takeRequest s _ _ fun k r t hk htaken => ?_
  cases hk
  exact (Sound.tables t [] [] (State.session_of_phase htaken)).thenAccept _ _ _

theorem Sound.supplyStall (s : State) (i : SlotIx) (c : Nat) : Sound 0 s (s.supplyStall i c) := by
  unfold State.supplyStall
  split
  · exact Sound.refl s
  · refine Sound.ite (fun _ => Sound.refl s) (fun _ => Sound.ite (fun _ => Sound.updAlike s i _) (fun _ => ?_))
    split
    · exact Sound.refl s
    · exact (Sound.updAlike s i _).trans (Sound.raise _ _)

theorem Sound.supply (s : State) (r : Request) (i : SlotIx) (site : Nat) (t : Site) : Sound 2 s (s.supply r i site t) := by
  unfold State.supply
  have hset := Sound.setEntry s i site (.supplied (r.params.drop 5))
  dsimp only
  split
  · exact (hset.trans ((Sound.attemptGuard _ i _).trans (Sound.supplyStall _ i _))).thenAccept _ _ _
  · exact (hset.trans (Sound.supplyStall _ i _)).thenAccept _ _ _

theorem soundOutcome_execStampSupply (s : State) : SoundOutcome s (execStampSupply s) := by
  refine soundOutcome_takeRequest s _ _ fun _ r t _ _ => ?_
  dsimp only
  split
  · split
    · exact Sound.refuse t _ _ _
    · exact Sound.ite (fun _ => Sound.refuse t _ _ _) (fun _ => Sound.ite (fun _ => Sound.refuse t _ _ _)
        (fun _ => Sound.ite (fun _ => Sound.refuse t _ _ _) (fun _ => Sound.supply t r _ _ _)))
  · exact Sound.refuse t _ _ _

end Sys2Proof.Machine
end

section
/-! SUPPORT. The invariants along the requests that write the session record. -/

set_option Elab.async false

namespace Sys2Proof.Machine

/-! ### The session record -/

/-- A session record put in place of another state of the session, the window and the ordinals looked after. -/
theorem Sound.session (s : State) (x : Session)
    (window : s.windowed → State.WindowOf { s with session := some x } x)
    (ordinals : s.ordinalsDistinct → x.nextOrdinal ≤ 65536 ∧ (∀ i n, (s.slot i).ordinal = some n → n < x.nextOrdinal) ∧
      ∀ i j n, (s.slot i).ordinal = some n → (s.slot j).ordinal = some n → i = j) :
    Sound 0 s { s with session := some x } where
  memory := id
  queue := id
  replies := le_rfl
  flow := id
  notices := id
  slots := id
  lapsed := id
  down := id
  empty _ := State.noneEmpty_of_session rfl
  hold := id
  window h := by
    refine ⟨(fun hn => nomatch hn), fun y hy => ?_⟩
    cases hy
    exact window h
  ordinals h := by
    refine ⟨(fun hn => nomatch hn), fun y hy => ?_⟩
    cases hy
    exact ordinals h

theorem State.exists_session_of_phase {t : State} {p : SessionPhase} (h : (t.phase == some p) = true) :
    ∃ x, t.session = some x ∧ x.phase = p := by
  cases hx : t.session with
  | none => simp [State.phase, hx] at h
  | some x => exact ⟨x, rfl, by simpa [State.phase, hx] using h⟩

theorem State.updSession_eq {s : State} {x : Session} (h : s.session = some x) (f : Session → Session) :
    s.updSession f = { s with session := some (f x) } := by
  rw [State.updSession, h, Option.map_some]

/-- OPEN SESSION's checks bound the window size (R3). -/
theorem openFailure_windowSize {ps : List Byte} (h : openFailure ps = none) : field ps 4 2 ≤ 4096 := by
  unfold openFailure at h
  dsimp only at h
  split at h
  · cases h
  · split at h
    · cases h
    · omega

/-- What OPEN SESSION puts in place of state NONE: the record and the two timers. -/
theorem Sound.openRecord (s : State) (ps : List Byte) (pace decay : Option Nat) (hnone : s.session = none)
    (hw : field ps 4 2 ≤ 4096) :
    Sound 0 s { s with session := some (openRecord ps), wsc.paceAt := pace, wsc.decayAt := decay } := by
  have hrecord : Sound 0 s { s with session := some (Machine.openRecord ps) } := by
    refine Sound.session s _ (fun h => ?_) (fun h => ⟨Nat.zero_le _, fun i n hi => ?_, fun i j n hi => ?_⟩)
    · obtain ⟨hr, ha⟩ := h.1 hnone
      exact {
        size := by simp [hr]
        pool := hw
        chunks := ⟨0, by simp [hr], by simp [hr, ha, Machine.openRecord]⟩
        frames := by simp [hr]
        frame := fun r hm => by simp [hr] at hm
        resident := fun _ r hm => by simp [hr] at hm
        assembling := fun a e => by simp [ha] at e
        head := Nat.zero_le _
        streaming := fun e => nomatch e
        draining := fun e => nomatch e
        idle := fun _ _ => hr }
    · rw [h.1 hnone i] at hi
      cases hi
    · rw [h.1 hnone i] at hi
      cases hi
  refine hrecord.trans ?_
  exact Sound.frame fun _ => State.noneEmpty_of_session rfl

theorem Sound.zeroCounters (s : State) : Sound 0 s s.zeroCounters :=
  (Sound.ncu s { s.ncu with counters := .replicate 10 Counter.zero }).trans
    (Sound.mapSlots _ (fun sl => { sl with counters := .replicate 5 Counter.zero })
      fun _ h => h.of_eq rfl rfl rfl rfl rfl rfl)

theorem soundOutcome_execOpenSession (s : State) : SoundOutcome s (execOpenSession s) := by
  refine soundOutcome_takeRequest s _ _ fun k r t hk htaken => ?_
  cases hk
  have hnone : t.session = none := by simpa [ReqKind.takenIn, State.phase] using htaken
  dsimp only
  split
  · exact Sound.refuse t _ _ _
  · next hopen =>
    refine Sound.thenAccept ?_ r _ _
    refine Sound.trans (Sound.trans ?_ (Sound.zeroCounters _)) (Sound.forSlots _ _ fun i u =>
      Sound.ite (fun _ => Sound.enterSizing u i) (fun _ => Sound.refl u))
    exact Sound.openRecord t r.params _ _ hnone (openFailure_windowSize hopen)

/-- START SESSION's change of the session state: a window and an assembly stay as they are (R6). -/
theorem Sound.startRunning {s : State} {x : Session} (h : s.session = some x) (hx : x.phase = .opened) :
    Sound 0 s (s.updSession (fun y => { y with phase := .running })) := by
  rw [State.updSession_eq h]
  refine Sound.session s _ (fun hw => ?_) (fun ho => ho.2 x h)
  have w := hw.2 x h
  refine w.session rfl rfl w.size w.pool rfl rfl (fun ha => ⟨rfl, ?_⟩) id id
    (fun _ hp => w.idle (by simp [hx]) hp)
  obtain ⟨a, e⟩ := Option.isSome_iff_exists.mp ha
  exact (w.assembling a e).2.2.2.2.1

@[simp] theorem State.enrol_session_isSome (s : State) (i : SlotIx) :
    (s.enrol i).session.isSome = s.session.isSome := by
  have hstamps : ∀ (t : State) n c, (t.renderStamps i n c).session = t.session := fun t n c => by
    rw [State.renderStamps_frame]
  unfold State.enrol
  dsimp only
  split
  · simp [hstamps]
  · split
    · rfl
    · simp

/-- START SESSION enrols in a session that stays. -/
theorem Sound.enrolReady (s : State) (h : s.session.isSome = true) :
    Sound 0 s (s.forSlots (fun i u => if (u.slot i).state = .ready then u.enrol i else u)) := by
  have hround : ∀ (i : SlotIx) (u : State), u.session.isSome = true →
      Sound 0 u (if (u.slot i).state = .ready then u.enrol i else u) := fun i u hu =>
    Sound.ite (fun _ => Sound.of (Keeps.enrol u i) (Upkeep.enrol u i hu)) (fun _ => Sound.refl u)
  refine (State.forSlots_keeps (fun u => u.session.isSome = true ∧ Sound 0 s u) (fun i u hu => ⟨?_, ?_⟩)
    ⟨h, Sound.refl s⟩).2
  · split
    · rw [State.enrol_session_isSome]; exact hu.1
    · exact hu.1
  · exact hu.2.trans (hround i u hu.1)

theorem soundOutcome_execStartSession (s : State) : SoundOutcome s (execStartSession s) := by
  refine soundOutcome_takeRequest s _ _ fun k r t hk htaken => ?_
  cases hk
  obtain ⟨x, hx, hphase⟩ := State.exists_session_of_phase htaken
  exact ((Sound.startRunning hx hphase).trans (Sound.enrolReady _ (by simp [hx]))).thenAccept r _ _

/-- PASS START on an empty window (R9). -/
theorem Sound.startPass {s : State} {x : Session} (h : s.session = some x) (hrun : x.phase = .running)
    (hpass : x.pass = .noPass) {c : Nat} (hc : c < x.imageLength) (n : Nat) :
    Sound 0 s (s.updSession (fun y =>
      { y with startChunk := c, nextChunk := c, passNumber := n, pass := .streaming })) := by
  rw [State.updSession_eq h]
  refine Sound.session s _ (fun hw => ?_) (fun ho => ho.2 x h)
  have w := hw.2 x h
  have hr := w.idle (by simp [hrun]) hpass
  have ha := w.no_assembly hr
  exact {
    size := by simp [hr]
    pool := w.pool
    chunks := ⟨c, by simp [hr], by simp [hr, ha]⟩
    frames := by simp [hr]
    frame := fun r hm => by simp [hr] at hm
    resident := fun _ r hm => by simp [hr] at hm
    assembling := fun a e => by simp [ha] at e
    head := hc.le
    streaming := fun _ => hc
    draining := fun e => nomatch e
    idle := fun _ e => nomatch e }

theorem soundOutcome_execPassStart (s : State) : SoundOutcome s (execPassStart s) := by
  refine soundOutcome_takeRequest s _ _ fun k r t hk htaken => ?_
  cases hk
  obtain ⟨x, hx, hphase⟩ := State.exists_session_of_phase htaken
  refine Sound.ite (fun _ => Sound.refuse t _ _ _) (fun hpass => Sound.ite (fun _ => Sound.refuse t _ _ _)
    (fun hc => Sound.ite (fun _ => Sound.refuse t _ _ _) (fun _ => ?_)))
  rw [State.ses_eq hx] at hpass hc
  refine Sound.andThen (Sound.thenAccept ?_ r _ _) (Sound.evalFlow _)
  have hstart := Sound.startPass hx hphase (not_not.mp hpass) (Nat.lt_of_not_le hc) (x.passNumber + 1)
  rw [State.updSession_eq hx] at hstart ⊢
  refine hstart.trans (Sound.mapSlots _ _ (fun sl h => ?_) (fun sl => .inl ?_))
  · split
    · exact h.of_eq rfl rfl rfl rfl rfl rfl
    · exact h
  · split <;> rfl

/-! ### Hold -/

/-- The hold state and the pending reply changed in a session. -/
theorem Sound.scheduler (s : State) (w : Scheduler) (n : Nat) (hsession : s.session ≠ none)
    (hreply : (if w.holdReply.isSome then 1 else 0) ≤ (if s.wsc.holdReply.isSome then 1 else 0) + n)
    (hhold : w.holdReply.isSome = true → w.hold = .holding) : Sound n s { s with wsc := w } where
  memory := id
  queue := id
  replies := by
    simp only [State.replies]
    omega
  flow := id
  notices := id
  slots := id
  lapsed := id
  down := id
  empty _ n := absurd n hsession
  hold _ := hhold
  window := (Upkeep.same (s := s) (t := { s with wsc := w }) rfl rfl rfl rfl).window
  ordinals := (Upkeep.same (s := s) (t := { s with wsc := w }) rfl rfl rfl rfl).ordinals

theorem soundOutcome_execHold (s : State) : SoundOutcome s (execHold s) := by
  refine soundOutcome_takeRequest s _ _ fun k r t hk htaken => ?_
  cases hk
  have hsession := State.session_of_phase htaken
  dsimp only
  split
  · have hhold : Sound 2 t { t with wsc.hold := .holding, wsc.holdReply := some r.tag } :=
      Sound.scheduler t _ 2 hsession (by simp) (fun _ => rfl)
    exact (hhold.andThen (Sound.evalFlow _)).andThen (Sound.testHeld _)
  all_goals exact (Sound.refl t).thenAccept _ _ _

theorem State.settleHold_holdReply (s : State) (st : ReplyStatus) (h : HoldState) :
    (s.settleHold st h).wsc.holdReply = none := by rw [State.settleHold_spec]

theorem State.settleHold_session (s : State) (st : ReplyStatus) (h : HoldState) :
    (s.settleHold st h).session = s.session := by rw [State.settleHold_spec]

theorem soundOutcome_execReleaseHold (s : State) : SoundOutcome s (execReleaseHold s) := by
  refine soundOutcome_takeRequest s _ _ fun k r t hk htaken => ?_
  cases hk
  have hsession := State.session_of_phase htaken
  refine Sound.ite (fun _ => (Sound.refl t).thenAccept _ _ _) (fun _ => ?_)
  have hrun := Sound.settleHold t .ok .run
  refine Sound.andThen (Sound.thenAccept (hrun.trans ?_) _ _ _) (Sound.evalFlow _)
  exact Sound.scheduler _ _ 0 (by rw [State.settleHold_session]; exact hsession)
    (by rw [State.settleHold_holdReply]; exact le_rfl) (by rw [State.settleHold_holdReply]; exact fun h => nomatch h)

/-! ### SESSION TUNE -/

/-- SESSION TUNE's checks keep the window within the new size, and that within the pool (R113). -/
theorem tuneFailure_windowSize {ps : List Byte} {x : Session} {n : Nat} (h : tuneFailure ps x n = none)
    (hn : n ≤ x.windowSize) (hx : x.windowSize ≤ 4096) :
    n ≤ (tuneRecord ps x).windowSize ∧ (tuneRecord ps x).windowSize ≤ 4096 := by
  show n ≤ given ps 0 (field ps 0 2) x.windowSize ∧ given ps 0 (field ps 0 2) x.windowSize ≤ 4096
  unfold tuneFailure at h
  dsimp only at h
  split at h
  · cases h
  · next hw =>
    by_cases hm : member (field ps 22 2) 0 = true
    · simp only [hm, true_and] at hw
      omega
    · rw [given, if_neg hm]
      exact ⟨hn, hx⟩

theorem soundOutcome_execSessionTune (s : State) : SoundOutcome s (execSessionTune s) := by
  refine soundOutcome_takeRequest s _ _ fun k r t hk htaken => ?_
  cases hk
  obtain ⟨x, hx, -⟩ := State.exists_session_of_phase htaken
  refine Sound.ite (fun _ => Sound.refuse t _ _ _) (fun _ => ?_)
  rw [State.ses_eq hx]
  split
  · exact Sound.refuse t _ _ _
  · next htune =>
    refine Sound.thenAccept (Sound.session t (tuneRecord r.params x) (fun hw => ?_) (fun ho => ho.2 x hx)) r _ _
    have w := hw.2 x hx
    obtain ⟨hsize, hpool⟩ := tuneFailure_windowSize htune w.size w.pool
    refine w.session rfl rfl hsize hpool rfl rfl (fun ha => ?_) id id w.idle
    obtain ⟨a, e⟩ := Option.isSome_iff_exists.mp ha
    obtain ⟨-, -, -, hrun, hpass, -⟩ := w.assembling a e
    exact ⟨hrun, hpass⟩

/-! ### CLOSE SESSION -/

theorem Slot.closed_inRange (sl : Slot) : sl.closed.InRange :=
  ⟨Nat.zero_le _, Nat.zero_le _, Nat.zero_le _, Nat.zero_le _, rfl, fun _ h => nomatch h⟩

theorem Sound.closeSlot (s : State) (i : SlotIx) : Sound 0 s (s.closeSlot i) := by
  have hclosed : Sound 0 s ((s.leave i false).updSlot i Slot.closed) :=
    (Sound.leave s i false).trans (Sound.updSlot _ i _ (fun sl _ => sl.closed_inRange) (fun _ => .inr rfl))
  exact Sound.ite (fun _ => hclosed.trans ((Sound.updAlike _ i _).trans (Sound.moveSlot _ i _)))
    (fun _ => Sound.ite (fun _ => hclosed.trans (Sound.moveSlot _ i _)) (fun _ => hclosed))

@[simp] theorem State.closeSlot_wsc (s : State) (i : SlotIx) : (s.closeSlot i).wsc = s.wsc := by
  unfold State.closeSlot
  dsimp only
  split
  · simp
  · split <;> simp

theorem State.closeSlot_ne (s : State) {i j : SlotIx} (h : i ≠ j) : (s.closeSlot i).slot j = s.slot j := by
  unfold State.closeSlot
  dsimp only
  split
  · simp [h, State.leave_ne]
  · split <;> simp [h, State.leave_ne]

theorem State.closeSlot_ordinal (s : State) (i : SlotIx) : ((s.closeSlot i).slot i).ordinal = none := by
  unfold State.closeSlot
  dsimp only
  split
  · simp [Slot.moved, Slot.withOutcome, Slot.closed]
  · split <;> simp [Slot.moved, Slot.closed]

/-- CLOSE SESSION leaves state NONE with nothing of a session (R20), where no slot holds an ordinal and no HOLD reply is
pending. -/
theorem Sound.clearShared (s : State) (ordinals : ∀ i, (s.slot i).ordinal = none) (reply : s.wsc.holdReply = none) :
    Sound 0 s s.clearShared where
  memory := id
  queue := id
  replies := le_rfl
  flow := id
  notices := id
  slots := id
  lapsed := id
  down := id
  empty _ _ := ⟨rfl, rfl, rfl, rfl, rfl, rfl, rfl, rfl⟩
  hold _ h := by
    rw [show s.clearShared.wsc.holdReply = none from reply] at h
    cases h
  window _ := ⟨fun _ => ⟨rfl, rfl⟩, fun _ h => nomatch h⟩
  ordinals _ := ⟨fun _ => ordinals, fun _ h => nomatch h⟩

theorem soundOutcome_execCloseSession (s : State) : SoundOutcome s (execCloseSession s) := by
  refine soundOutcome_takeRequest s _ _ fun k r t hk htaken => ?_
  cases hk
  have hslots := Sound.forSlots (t.settleHold .ok .run) (fun i u => u.closeSlot i) (fun i u => Sound.closeSlot u i)
  refine Sound.thenAccept (((Sound.settleHold t _ _).trans hslots).trans ((Sound.clearShared _ ?_ ?_).trans
    (Sound.evalFlow _))) r _ _
  · exact State.forSlots_slot (fun _ => True) (fun _ _ _ => trivial) (fun i j u h => u.closeSlot_ne h)
      (fun _ _ sl => sl.ordinal = none) (fun i u _ => u.closeSlot_ordinal i) trivial
  · exact State.forSlots_keeps (fun u => u.wsc.holdReply = none) (fun i u h => by rw [State.closeSlot_wsc, h])
      (State.settleHold_holdReply t .ok .run)

end Sys2Proof.Machine
end

section
/-! SUPPORT. The invariants along the intake of segments, and with them along every command. Then the statements about
every step. -/

set_option Elab.async false

namespace Sys2Proof.Machine

/-! ### The assembly -/

/-- The window of a session less its ASSEMBLING record, if it has one (R29). -/
theorem State.WindowOf.abandon {s t : State} {x : Session} (h : s.WindowOf x) (ha : t.intake.assembly = none)
    (hr : t.win.records = s.win.records.filter (fun r => r.resident.isSome)) : t.WindowOf x := by
  have keep : ∀ {rs : List ChunkRecord}, (∀ r ∈ rs, r.resident ≠ none) → rs.filter (fun r => r.resident.isSome) = rs :=
    fun hrs => List.filter_eq_self.mpr fun r hm => Option.isSome_iff_ne_none.mpr (hrs r hm)
  cases hopen : s.intake.assembly with
  | none =>
    rw [keep (h.resident hopen)] at hr
    exact h.session (ha.trans hopen.symm) hr h.size h.pool rfl rfl (by rw [hopen]; exact fun e => nomatch e) id id h.idle
  | some a =>
    obtain ⟨-, -, -, -, hpass, pre, hpre, hres⟩ := h.assembling a hopen
    have hkept : t.win.records = pre := by rw [hr, hpre, List.filter_append, keep hres]; simp
    obtain ⟨tail, hchunks, hlen⟩ := h.chunks
    have hsize := h.size
    rw [hpre] at hsize hchunks hlen
    rw [hopen] at hlen
    simp only [List.length_append, List.length_singleton, Option.isSome_some, if_true] at hsize hlen
    exact {
      size := by rw [hkept]; omega
      pool := h.pool
      chunks := ⟨tail, by
        rw [hkept]
        rw [List.map_append, List.length_append, ← List.range'_append] at hchunks
        exact (List.append_inj hchunks (by simp)).1, by
        rw [hkept, ha]
        simp
        omega⟩
      frames := by
        have hnodup := h.frames
        rw [hpre, List.map_append] at hnodup
        rw [hkept]
        exact (List.nodup_append.mp hnodup).1
      frame := fun r hm => h.frame r (by rw [hpre]; exact List.mem_append_left _ (hkept ▸ hm))
      resident := fun _ => by rw [hkept]; exact hres
      assembling := fun b e => nomatch ha.symm.trans e
      head := h.head
      streaming := h.streaming
      draining := h.draining
      idle := fun _ e => nomatch hpass.symm.trans e }

theorem Upkeep.abandonAssembly (s : State) : Upkeep s s.abandonAssembly where
  window h := by
    refine ⟨fun hn => ?_, fun x hx => (h.2 x hx).abandon rfl rfl⟩
    obtain ⟨hr, -⟩ := h.1 hn
    exact ⟨by simp [State.abandonAssembly, hr], rfl⟩
  ordinals := id

theorem Sound.abandonAssembly (s : State) : Sound 0 s s.abandonAssembly := by
  refine Sound.of { Keeps.refl s with replies := le_rfl, slots := id, lapsed := id, down := id, hold := id,
                                      empty := fun hs n => ?_ } (Upkeep.abandonAssembly s)
  have h := hs n
  exact ⟨rfl, by simp [State.abandonAssembly, h.records], h.digest, h.sites, h.regions, h.hold, h.pace, h.decay⟩

/-- The image link lost: PAUSED, with nothing in the FLOW outbox or on the lane (R46, R179). -/
theorem Sound.quiet (s : State) (i : Intake) (hassembly : i.assembly = s.intake.assembly) (hflow : i.flow = .paused) :
    Sound 0 s { s with intake := i, req.flowOut := [], req.lane := none } where
  memory := id
  queue := id
  replies := le_rfl
  flow _ := Nat.zero_le _
  notices := id
  slots := id
  lapsed := id
  down _ _ := ⟨hflow, rfl, rfl⟩
  empty hs n := (hs n).of_eq (assembly := hassembly)
  hold := id
  window := (Upkeep.same (s := s) (t := { s with intake := i, req.flowOut := [], req.lane := none }) rfl hassembly rfl
    rfl).window
  ordinals := (Upkeep.same (s := s) (t := { s with intake := i, req.flowOut := [], req.lane := none }) rfl hassembly rfl
    rfl).ordinals

theorem soundOutcome_execImageLinkLost (s : State) : SoundOutcome s (execImageLinkLost s) := by
  refine .next (Sound.ite (fun _ => ?_) (fun _ => Sound.refl s))
  have habandoned : Sound 0 s (if s.intake.assembly.isSome then s.abandonAssembly else s) :=
    Sound.ite (fun _ => Sound.abandonAssembly s) (fun _ => Sound.refl s)
  exact habandoned.trans (Sound.quiet _ ⟨_, .paused, false⟩ rfl rfl)

theorem Sound.sequenceDiscard (s : State) : Sound 0 s s.sequenceDiscard :=
  (Sound.count s _).trans (Sound.ite (fun _ => (Sound.abandonAssembly _).trans (Sound.evalFlow _))
    (fun _ => Sound.refl _))

/-! ### Segments that are kept -/

theorem Sound.fill (s : State) (frame index : Nat) (bytes : List Byte) : Sound 0 s (s.fill frame index bytes) :=
  Sound.frame (fun hs n => (hs n).of_eq) (memory := fun h => ⟨Memory.write_wf h.1 _ _, h.2⟩)

/-- R24: with fewer records than frames there is a free one, and the lowest is taken. -/
theorem lowestFree_spec {rs : List ChunkRecord} (h : rs.length < Config.frames) :
    lowestFree rs < Config.frames ∧ lowestFree rs ∉ rs.map ChunkRecord.frame := by
  have hfind : ((List.range Config.frames).find? (fun f => rs.all (fun r => r.frame != f))).isSome = true := by
    rw [Option.isSome_iff_ne_none]
    intro hnone
    have hall : ∀ f ∈ List.range Config.frames, f ∈ rs.map ChunkRecord.frame := fun f hf => by
      have := List.find?_eq_none.mp hnone f hf
      simpa using this
    have hle := (List.nodup_range.subperm hall).length_le
    rw [List.length_range, List.length_map] at hle
    omega
  obtain ⟨f, hf⟩ := Option.isSome_iff_exists.mp hfind
  have hfree := List.find?_some hf
  rw [lowestFree, hf, Option.getD_some]
  exact ⟨List.mem_range.mp (List.mem_of_find?_eq_some hf), by simpa using hfree⟩

/-- An ASSEMBLING record for chunk H, with its assembly record (R28, R49). -/
theorem Sound.beginAssembly {s : State} {x : Session} (hx : s.session = some x) (hrun : x.phase = .running)
    (hpass : x.pass = .streaming) (hopen : s.intake.assembly = none)
    (hfree : s.win.records.length < x.windowSize) {f : Nat}
    (hf : s.win.records.length < Config.frames → f < Config.frames ∧ f ∉ s.win.records.map ChunkRecord.frame)
    (v : Word32) :
    Sound 0 s { s with
      win.records := s.win.records ++ [⟨x.nextChunk, f, none⟩]
      intake.assembly := some ⟨x.nextChunk, 1, f, v⟩ } where
  memory := id
  queue := id
  replies := le_rfl
  flow := id
  notices := id
  slots := id
  lapsed := id
  down := id
  empty _ := State.noneEmpty_of_session hx
  hold := id
  ordinals := id
  window h := by
    refine ⟨(fun hn => nomatch hx.symm.trans hn), fun y hy => ?_⟩
    obtain rfl : x = y := Option.some.inj (hx.symm.trans hy)
    have w := h.2 x hx
    obtain ⟨hlt, hnew⟩ := hf (lt_of_lt_of_le hfree w.pool)
    obtain ⟨tail, hchunks, hlen⟩ := w.chunks
    rw [hopen] at hlen
    simp only [Option.isSome_none, Bool.false_eq_true, if_false, Nat.add_zero] at hlen
    exact {
      size := by simpa using hfree
      pool := w.pool
      chunks := ⟨tail, by simp [hchunks, hlen, List.range'_concat], by simp; omega⟩
      frames := by
        rw [List.map_append, List.nodup_append]
        exact ⟨w.frames, List.nodup_singleton _, fun a ha b hb => by
          rw [List.map_singleton, List.mem_singleton] at hb
          rintro rfl
          subst hb
          exact hnew ha⟩
      frame := fun r hm => by
        rcases List.mem_append.mp hm with hm | hm
        · exact w.frame r hm
        · rw [List.mem_singleton.mp hm]; exact hlt
      resident := fun hn => nomatch hn
      assembling := fun a e => by
        cases e
        exact ⟨rfl, le_rfl, by simp, hrun, hpass, _, rfl, w.resident hopen⟩
      head := w.head
      streaming := w.streaming
      draining := w.draining
      idle := fun _ e => nomatch hpass.symm.trans e }

theorem Sound.openAssembly {s : State} {x : Session} (hx : s.session = some x) (hrun : x.phase = .running)
    (hpass : x.pass = .streaming) (hopen : s.intake.assembly = none) (hfree : s.free.getD 0 ≠ 0) (bytes : List Byte) :
    Sound 0 s (s.openAssembly x.nextChunk bytes) := by
  rw [State.free_eq hx, Option.getD_some] at hfree
  unfold State.openAssembly
  have hf := fun h => lowestFree_spec (rs := s.win.records) h
  dsimp only [State.openAssembly]
  generalize lowestFree s.win.records = f at hf ⊢
  exact (Sound.beginAssembly hx hrun hpass hopen (by omega) hf _).trans
    ((Sound.fill _ _ 0 bytes).trans (Sound.evalFlow _))

/-- Segments 1 to 14 (R50). -/
theorem Sound.appendSegment {s : State} {a : Assembly} (ha : s.intake.assembly = some a) (hlt : a.nextSegment < 15)
    (bytes : List Byte) : Sound 0 s (s.appendSegment a bytes) := by
  have hnext : Sound 0 s { s with
      intake.assembly := some { a with nextSegment := a.nextSegment + 1, crc := crcRun a.crc bytes } } :=
    { Sound.refl s with
      replies := le_rfl, slots := id, lapsed := id, down := id, hold := id, ordinals := id
      empty := fun hs n => nomatch ((hs n).assembly).symm.trans ha
      window := fun h => by
        refine ⟨(fun hn => nomatch (h.1 hn).2.symm.trans ha), fun x hx => ?_⟩
        have w := h.2 x hx
        obtain ⟨hchunk, hone, -, hrun, hpass, hpre⟩ := w.assembling a ha
        exact {
          size := w.size
          pool := w.pool
          chunks := by
            have hchunks := w.chunks
            rw [ha] at hchunks
            exact hchunks
          frames := w.frames
          frame := w.frame
          resident := fun hn => nomatch hn
          assembling := fun b e => by
            cases e
            exact ⟨hchunk, by simp, by simpa using hlt, hrun, hpass, hpre⟩
          head := w.head
          streaming := w.streaming
          draining := w.draining
          idle := w.idle } }
  exact hnext.trans (Sound.fill _ _ _ bytes)

/-! ### Chunk completion -/

theorem State.goLive_slot (s : State) (i j : SlotIx) : ((s.goLive i).slot j).ordinal = (s.slot j).ordinal := by
  unfold State.goLive
  rw [State.moveSlot_slot, State.updSlot_slot]
  split <;> rfl

theorem State.rosterLive_keeps (s : State) (c : Nat) :
    (s.rosterLive c).win = s.win ∧ (s.rosterLive c).session = s.session ∧
      ∀ j, ((s.rosterLive c).slot j).ordinal = (s.slot j).ordinal := by
  refine State.forSlots_keeps
    (fun u => u.win = s.win ∧ u.session = s.session ∧ ∀ j, (u.slot j).ordinal = (s.slot j).ordinal)
    (fun i u hu => ?_) ⟨rfl, rfl, fun _ => rfl⟩
  obtain ⟨hw, hs, ho⟩ := hu
  split
  · exact ⟨by simpa [State.goLive] using hw, by simpa [State.goLive] using hs,
      fun j => (State.goLive_slot u i j).trans (ho j)⟩
  · exact ⟨hw, hs, ho⟩

theorem Keeps.rosterLive (s : State) (c : Nat) : Keeps s (s.rosterLive c) :=
  Keeps.forSlots s _ fun i u => Keeps.ite (fun _ => Keeps.goLive u i) (fun _ => Keeps.refl u)

/-- The window once its ASSEMBLING record is RESIDENT and H one higher (R53, R56). -/
theorem Upkeep.completed {s t : State} {x : Session} {a : Assembly} (hx : s.session = some x)
    (ha : s.intake.assembly = some a) (session : t.session = some x.advanced) (assembly : t.intake.assembly = none)
    (chunks : t.win.records.map ChunkRecord.chunk = s.win.records.map ChunkRecord.chunk)
    (frames : t.win.records.map ChunkRecord.frame = s.win.records.map ChunkRecord.frame)
    (resident : ∀ r ∈ t.win.records, r.resident ≠ none) (ordinals : ∀ i, (t.slot i).ordinal = (s.slot i).ordinal) :
    Upkeep s t where
  window h := by
    refine ⟨(fun hn => nomatch session.symm.trans hn), fun y hy => ?_⟩
    obtain rfl : x.advanced = y := Option.some.inj (session.symm.trans hy)
    have w := h.2 x hx
    obtain ⟨-, -, -, -, hpass, -⟩ := w.assembling a ha
    have hlt := w.streaming hpass
    have hlen : t.win.records.length = s.win.records.length := by simpa using congrArg List.length chunks
    obtain ⟨tail, hchunks, hsum⟩ := w.chunks
    rw [ha] at hsum
    exact {
      size := by rw [hlen]; exact w.size
      pool := w.pool
      chunks := ⟨tail, by rw [chunks, hlen, hchunks], by rw [hlen, assembly]; exact hsum⟩
      frames := by rw [frames]; exact w.frames
      frame := fun r hm => by
        have hmem : r.frame ∈ s.win.records.map ChunkRecord.frame := frames ▸ List.mem_map_of_mem hm
        obtain ⟨q, hq, e⟩ := List.mem_map.mp hmem
        rw [← e]
        exact w.frame q hq
      resident := fun _ => resident
      assembling := fun b e => nomatch assembly.symm.trans e
      head := hlt
      streaming := fun e => by
        simp only [Session.advanced] at e ⊢
        split at e
        · cases e
        · omega
      draining := fun e => by
        simp only [Session.advanced] at e ⊢
        split at e
        · next hend => exact hend
        · rw [hpass] at e; cases e
      idle := fun _ e => by
        simp only [Session.advanced] at e
        split at e
        · cases e
        · rw [hpass] at e; cases e }
  ordinals h := by
    refine ⟨(fun hn => nomatch session.symm.trans hn), fun y hy => ?_⟩
    obtain rfl : x.advanced = y := Option.some.inj (session.symm.trans hy)
    simp only [ordinals]
    exact h.2 x hx

/-- Step 1 of R56: the record RESIDENT. -/
def State.withResident (s : State) (c : Nat) (v : Word32) : State :=
  { s with win.records := makeResident ⟨v, 0, s.stu.sites.any (fun t => t.chunk == c)⟩ s.win.records }

/-- Steps 3 and 4 of R56: the pending count, H and the assembly. -/
def State.counted (s : State) (c : Nat) : State :=
  { ({ s with win.records := setOwed c (s.liveOn c) s.win.records }).updSession Session.advanced with
    intake.assembly := none }

/-- Steps 1 to 4 of R56: the record RESIDENT, the rostered slots LIVE, the pending count, H and the assembly. -/
def State.completed (s : State) (c : Nat) (v : Word32) : State :=
  ((s.withResident c v).rosterLive c).counted c

theorem State.finishChunk_eq (s : State) (c : Nat) (v : Word32) :
    s.finishChunk c v = (((s.completed c v).count ctrChunks).retire).evalFlow := by
  unfold State.finishChunk State.completed State.counted State.withResident
  rfl

theorem State.counted_session {s : State} {x : Session} (h : s.session = some x) (c : Nat) :
    (s.counted c).session = some x.advanced := by
  simp [State.counted, State.updSession, h]

theorem State.completed_session {s : State} {x : Session} (h : s.session = some x) (c : Nat) (v : Word32) :
    (s.completed c v).session = some x.advanced := by
  obtain ⟨-, hsession, -⟩ := State.rosterLive_keeps (s.withResident c v) c
  unfold State.completed
  exact State.counted_session (hsession.trans h) c

theorem State.completed_assembly (s : State) (c : Nat) (v : Word32) :
    (s.completed c v).intake.assembly = none := by
  unfold State.completed
  generalize (s.withResident c v).rosterLive c = u
  rfl

theorem State.completed_records (s : State) (c : Nat) (v : Word32) : ∃ n, (s.completed c v).win.records =
    setOwed c n (makeResident ⟨v, 0, s.stu.sites.any (fun t => t.chunk == c)⟩ s.win.records) := by
  obtain ⟨hwin, -, -⟩ := State.rosterLive_keeps (s.withResident c v) c
  unfold State.completed
  generalize (s.withResident c v).rosterLive c = u at hwin ⊢
  exact ⟨u.liveOn c, congrArg (fun w => setOwed c (u.liveOn c) (Window.records w)) hwin⟩

theorem State.completed_ordinal (s : State) (c : Nat) (v : Word32) (i : SlotIx) :
    ((s.completed c v).slot i).ordinal = (s.slot i).ordinal := by
  obtain ⟨-, -, hordinal⟩ := State.rosterLive_keeps (s.withResident c v) c
  unfold State.completed
  generalize (s.withResident c v).rosterLive c = u at hordinal ⊢
  exact hordinal i

theorem Keeps.withResident {s : State} {x : Session} (h : s.session = some x) (c : Nat) (v : Word32) :
    Keeps s (s.withResident c v) :=
  { Keeps.refl s with
    replies := le_rfl, slots := id, lapsed := id, down := id, hold := id
    empty := fun _ => State.noneEmpty_of_session h }

theorem Keeps.counted {s : State} {x : Session} (h : s.session = some x) (c : Nat) : Keeps s (s.counted c) :=
  { Keeps.refl s with
    replies := le_rfl, slots := id, lapsed := id, down := id, hold := id
    empty := fun _ => State.noneEmpty_of_session (State.counted_session h c) }

theorem Keeps.completed {s : State} {x : Session} (h : s.session = some x) (c : Nat) (v : Word32) :
    Keeps s (s.completed c v) := by
  obtain ⟨-, hsession, -⟩ := State.rosterLive_keeps (s.withResident c v) c
  unfold State.completed
  exact (Keeps.withResident h c v).trans ((Keeps.rosterLive _ c).trans (Keeps.counted (hsession.trans h) c))

theorem makeResident_resident (x : Resident) (rs : List ChunkRecord) (c n : Nat) :
    ∀ r ∈ setOwed c n (makeResident x rs), r.resident ≠ none := by
  simp only [setOwed, makeResident, List.mem_map]
  rintro _ ⟨_, ⟨r, -, rfl⟩, rfl⟩
  by_cases hc : r.chunk = c <;> cases hr : r.resident <;> simp [hr, hc]

theorem setOwed_makeResident_shape (x : Resident) (rs : List ChunkRecord) (c n : Nat) :
    (setOwed c n (makeResident x rs)).map ChunkRecord.chunk = rs.map ChunkRecord.chunk ∧
    (setOwed c n (makeResident x rs)).map ChunkRecord.frame = rs.map ChunkRecord.frame := by
  simp only [setOwed, makeResident, List.map_map]
  constructor <;>
    · refine List.map_congr_left fun r _ => ?_
      simp only [Function.comp_apply, apply_ite ChunkRecord.chunk, apply_ite ChunkRecord.frame, ite_self]

/-- Completion of a chunk in a state `u` that differs from `s` in the assembly and in what no invariant sees. -/
theorem Sound.finishChunk {s u : State} {x : Session} {a : Assembly} (hx : s.session = some x)
    (ha : s.intake.assembly = some a) (hu : Sound 0 s { u with intake.assembly := s.intake.assembly })
    (session : u.session = s.session) (c : Nat) (v : Word32) : Sound 0 s (u.finishChunk c v) := by
  have hux : u.session = some x := session.trans hx
  obtain ⟨n, hrecords⟩ := State.completed_records u c v
  obtain ⟨hchunks, hframes⟩ := setOwed_makeResident_shape ⟨v, 0, u.stu.sites.any (fun t => t.chunk == c)⟩
    u.win.records c n
  have hassembly := { Keeps.refl u with
    replies := le_rfl, slots := id, lapsed := id, down := id, hold := id
    empty := fun _ => State.noneEmpty_of_session hux : Keeps { u with intake.assembly := s.intake.assembly } u }
  have hcompleted : Upkeep { u with intake.assembly := s.intake.assembly } (u.completed c v) :=
    Upkeep.completed hux ha (State.completed_session hux c v) (State.completed_assembly u c v)
      (by rw [hrecords]; exact hchunks) (by rw [hrecords]; exact hframes)
      (by rw [hrecords]; exact makeResident_resident _ _ c n) (State.completed_ordinal u c v)
  rw [State.finishChunk_eq]
  exact hu.trans ((Sound.of (hassembly.trans (Keeps.completed hux c v)) hcompleted).trans
    ((Sound.count _ ctrChunks).trans ((Sound.retire _).trans (Sound.evalFlow _))))

/-! ### A digest mismatch -/

/-- R17: the session FAULTED, its assembly gone. -/
theorem Sound.faultSession {s : State} {x : Session} (hx : s.session = some x) (ha : s.intake.assembly = none) (c : Nat) :
    Sound 0 s (s.updSession (fun y => { y with phase := .faulted, faultChunk := some c, pass := .noPass })) := by
  rw [State.updSession_eq hx]
  refine Sound.session s _ (fun hw => ?_) (fun ho => ho.2 x hx)
  have w := hw.2 x hx
  exact w.session rfl rfl w.size w.pool rfl rfl (by rw [ha]; exact fun e => nomatch e) (fun e => nomatch e)
    (fun e => nomatch e) (fun e => absurd rfl e)

theorem Upkeep.stopRead (s : State) (i : SlotIx) : Upkeep s (s.stopRead i) := by
  refine Upkeep.same (by simp) ?_ (by simp) (by simp)
  rw [State.stopRead_frame]

theorem Sound.stopGranted (s : State) (i : SlotIx) : Sound 0 s (s.stopGranted i) :=
  Sound.ite (fun _ => (Sound.updSlot s i _ fun _ h => h.givePlaces _).trans
    (Sound.of (Keeps.stopRead _ i) (Upkeep.stopRead _ i))) (fun _ => Sound.refl s)

theorem Slot.InRange.faulted {sl : Slot} (h : sl.InRange) : sl.faulted.InRange := by
  unfold Slot.faulted
  dsimp only
  split
  · exact (h.givePlaces _).of_eq rfl rfl rfl rfl rfl rfl
  · exact h.of_eq rfl rfl rfl rfl rfl rfl

theorem Slot.ordinal_faulted (sl : Slot) : sl.faulted.ordinal = sl.ordinal := by
  unfold Slot.faulted
  dsimp only
  split <;> rfl

/-- R54 in a state `u` that differs from `s` in the assembly, the frames and the waiting transfers. -/
theorem Sound.mismatch {s u : State} {x : Session} (hx : u.session = some x) (hu : Sound 0 s u.abandonAssembly) (c : Nat)
    (recorded received : Word32) : Sound 0 s (u.mismatch c recorded received) := by
  have hraised := hu.trans (Sound.raise u.abandonAssembly (.imageMismatch c recorded received u.ses.passNumber))
  have hfaulted := hraised.trans (Sound.faultSession (x := x)
    (by rw [State.raise_session]; exact hx) (by simp [State.abandonAssembly]) c)
  have hstopped := hfaulted.trans (Sound.forSlots _ (fun i t => t.stopGranted i) fun i t => Sound.stopGranted t i)
  exact (hstopped.trans (Sound.mapSlots _ Slot.faulted (fun _ h => h.faulted) (fun sl => .inl sl.ordinal_faulted))).trans
    ((Sound.evalFlow _).trans (Sound.testHeld _))

/-! ### SEGMENT -/

/-- `u` is `s` but for an assembly that has moved on, the frames and the waiting transfers. -/
def Sound.upToAssembly (s u : State) : Prop :=
  Sound 0 s { u with intake.assembly := s.intake.assembly } ∧ u.session = s.session

theorem Sound.upToAssembly_append (s : State) (a : Assembly) (bytes : List Byte) :
    Sound.upToAssembly s (s.appendSegment a bytes) :=
  ⟨Sound.fill s a.frame a.nextSegment bytes, rfl⟩

theorem Sound.upToAssembly.transfers {s u : State} {x : Session} (hx : s.session = some x) (h : Sound.upToAssembly s u)
    (digest : List (Nat × Word32)) (waiting : List Transfer) :
    Sound.upToAssembly s { u with win.digest := digest, win.waiting := waiting } :=
  ⟨h.1.trans (Sound.frame fun _ => State.noneEmpty_of_session (h.2.trans hx)), h.2⟩

theorem Sound.upToAssembly.capture {s u : State} {x : Session} (hx : s.session = some x) (h : Sound.upToAssembly s u)
    (c frame : Nat) : Sound.upToAssembly s (u.captureChunk c frame) :=
  ⟨h.1.trans (Sound.frame fun _ => State.noneEmpty_of_session (h.2.trans hx)), h.2⟩

/-- Segment 15 (R53 to R56). -/
theorem Sound.complete {s u : State} {x : Session} {a : Assembly} (hx : s.session = some x)
    (ha : s.intake.assembly = some a) (hu : Sound.upToAssembly s u) (c frame : Nat) (v : Word32) :
    Sound 0 s (u.complete c frame v) := by
  unfold State.complete
  split
  · next d _ =>
    have hread := hu.transfers hx u.win.digest (u.win.waiting ++ [.digest])
    refine Sound.ite (fun _ => ?_) (fun _ => ?_)
    · obtain ⟨hsound, hsession⟩ := hread.capture hx c frame
      exact Sound.finishChunk hx ha hsound hsession c v
    · obtain ⟨hsound, hsession⟩ := hread
      exact Sound.mismatch (hsession.trans hx) (hsound.trans (Sound.abandonAssembly _)) c d v
  · obtain ⟨hsound, hsession⟩ :=
      (hu.transfers hx (digestPut u.win.digest c v) (u.win.waiting ++ [.digest, .digest])).capture hx c frame
    exact Sound.finishChunk hx ha hsound hsession c v

theorem Sound.segmentOfH {s : State} {x : Session} (hx : s.session = some x) (hrun : x.phase = .running)
    (hpass : x.pass = .streaming) (index : Nat) (bytes : List Byte) :
    Sound 0 s (s.segmentOfH x.nextChunk index bytes) := by
  unfold State.segmentOfH
  split
  · next hopen =>
    exact Sound.ite (fun _ => Sound.sequenceDiscard s) (fun _ => Sound.ite (fun _ => Sound.count s _)
      (fun hfree => Sound.openAssembly hx hrun hpass hopen hfree bytes))
  · next a ha =>
    refine Sound.ite (fun _ => Sound.sequenceDiscard s) (fun hindex => Sound.ite
      (fun _ => Sound.complete hx ha (Sound.upToAssembly_append s a bytes) _ _ _)
      (fun hlast => Sound.appendSegment ha (by omega) bytes))

theorem soundOutcome_execSegment (chunk : Word32) (index : Byte) (bytes : List Byte) (s : State) :
    SoundOutcome s (execSegment chunk index bytes s) := by
  refine .next (Sound.ite (fun _ => Sound.refl s) (fun _ => Sound.ite (fun _ => Sound.count s _)
    (fun _ => Sound.ite (fun _ => Sound.count s _) (fun hpass => Sound.ite (fun _ => Sound.count s _)
    (fun hlow => Sound.ite (fun _ => Sound.count s _) (fun hhigh => ?_))))))
  simp only [not_or, Bool.not_eq_false] at hpass
  obtain ⟨hrunning, hstreaming⟩ := hpass
  obtain ⟨x, hx, hrun⟩ := State.exists_session_of_phase hrunning
  rw [State.ses_eq hx] at hlow hhigh
  rw [show chunk.toNat = x.nextChunk by omega]
  exact Sound.segmentOfH hx hrun ((State.streaming_iff hx).mp hstreaming) _ _

/-! ### Every command -/

theorem soundOutcome_exec (c : Instr) (s : State) : SoundOutcome s (exec c s) := by
  cases c with
  | powerOnReset => exact soundOutcome_execPowerOnReset s
  | bufferInitComplete => exact soundOutcome_execBufferInitComplete s
  | imageLinkEstablished => exact soundOutcome_execImageLinkEstablished s
  | imageLinkLost => exact soundOutcome_execImageLinkLost s
  | badFrame => exact soundOutcome_execBadFrame s
  | malformedFrame kind len => exact soundOutcome_execMalformedFrame kind len s
  | segment chunk index bytes => exact soundOutcome_execSegment chunk index bytes s
  | requestFrame tag code params => exact soundOutcome_execRequestFrame tag code params s
  | unknownRequest => exact soundOutcome_execUnknownRequest s
  | identify => exact soundOutcome_execIdentify s
  | engineReset => exact soundOutcome_execEngineReset s
  | engineResetTakesEffect => exact soundOutcome_execEngineResetTakesEffect s
  | openSession => exact soundOutcome_execOpenSession s
  | loadPatchSite => exact soundOutcome_execLoadPatchSite s
  | loadGuardRegion => exact soundOutcome_execLoadGuardRegion s
  | clearPatchTable => exact soundOutcome_execClearPatchTable s
  | startSession => exact soundOutcome_execStartSession s
  | passStart => exact soundOutcome_execPassStart s
  | hold => exact soundOutcome_execHold s
  | releaseHold => exact soundOutcome_execReleaseHold s
  | sessionTune => exact soundOutcome_execSessionTune s
  | releaseSlot => exact soundOutcome_execReleaseSlot s
  | stampSupply => exact soundOutcome_execStampSupply s
  | slotStatus => exact soundOutcome_execSlotStatus s
  | sessionStatus => exact soundOutcome_execSessionStatus s
  | clearMarks => exact soundOutcome_execClearMarks s
  | snapshot => exact soundOutcome_execSnapshot s
  | readSnapshot => exact soundOutcome_execReadSnapshot s
  | setNoticeMask => exact soundOutcome_execSetNoticeMask s
  | closeSession => exact soundOutcome_execCloseSession s
  | upstreamGrant => exact soundOutcome_execUpstreamGrant s
  | autoSnapshotExpiry => exact soundOutcome_execAutoSnapshotExpiry s
  | bufferTransferGrant => exact soundOutcome_execBufferTransferGrant s
  | presenceInserted k j => exact soundOutcome_execPresenceInserted k j s
  | presenceRemoved k j => exact soundOutcome_execPresenceRemoved k j s
  | settleDeadline i => exact soundOutcome_execSettleDeadline i s
  | pong k => exact soundOutcome_execPong k s
  | pingDue k => exact soundOutcome_execPingDue k s
  | bridgeMessageMalformed k bytes => exact .next (Sound.refl s)
  | transmitGrant k => exact soundOutcome_execTransmitGrant k s
  | commandSend k => exact soundOutcome_execCommandSend k s
  | writeAck k tag st => exact .next (Sound.answerTag s k tag _ _ _ fun i e t => Sound.writeOwner tag _ i e t)
  | capacity k tag st data => exact .next (Sound.answerTag s k tag _ _ _ fun i e t => Sound.capacityOwner tag _ data i e t)
  | readData k tag st data => exact .next (Sound.answerTag s k tag _ _ _ fun i e t => Sound.readOwner tag _ data i e t)
  | tagLapse k tag => exact soundOutcome_execTagLapse k tag s
  | stallDeadline i => exact soundOutcome_execStallDeadline i s
  | paceTick => exact soundOutcome_execPaceTick s
  | decayTick => exact soundOutcome_execDecayTick s
  | upstreamFrameSent => exact soundOutcome_execUpstreamFrameSent s

/-- A step is the command at the front of the queue on the state without it, or a millisecond of idling. -/
theorem soundOutcome_step (s : State) : SoundOutcome s (step s) := by
  unfold step
  split
  · exact .next (Sound.frame fun hs n => (hs n).of_eq)
  · next c rest _ =>
    intro t ht
    obtain ⟨n, hsound, hroom⟩ := soundOutcome_exec c { s with pending := rest } t ht
    have hstart : Sound 0 s { s with pending := rest } := Sound.frame fun hs n => (hs n).of_eq
    exact ⟨n, hstart.trans hsound, hroom⟩

theorem Sound.queuesBounded {n : Nat} {s t : State} (h : Sound n s t) (hn : n = 0 ∨ s.replies + n ≤ 16)
    (hs : s.QueuesBounded) : t.QueuesBounded where
  requests := h.queue hs.requests
  replies := by
    have hafter := h.replies
    have hbefore := hs.replies
    omega
  flow := h.flow hs.flow
  notices := h.notices hs.notices

/-- An invariant that every `Sound` change keeps is kept by every step. -/
theorem step_keeps {P : State → Prop} (h : ∀ {n s t}, Sound n s t → P s → P t) (s t : State) (hs : P s)
    (ht : step s = .next t) : P t := by
  obtain ⟨n, hsound, -⟩ := soundOutcome_step s t ht
  exact h hsound hs

/-- Settles O5: by `Sound`, the room for REPLY frames being what R172 and R173 leave. -/
theorem everyStepKeepsMemoryAndQueues : Obligations.EveryStepKeepsMemoryAndQueues := by
  refine ⟨step_keeps Sound.memory, fun s t hs ht => ?_⟩
  obtain ⟨n, hsound, hroom⟩ := soundOutcome_step s t ht
  exact hsound.queuesBounded hroom hs

/-- Settles O6. -/
theorem everyStepKeepsSlotAndTagCounts : Obligations.EveryStepKeepsSlotAndTagCounts :=
  ⟨step_keeps Sound.slots, step_keeps Sound.lapsed⟩

/-- Settles O7. -/
theorem everyStepKeepsLinkAndSessionState : Obligations.EveryStepKeepsLinkAndSessionState :=
  ⟨step_keeps Sound.down, step_keeps Sound.empty, step_keeps Sound.hold, step_keeps Sound.window,
    step_keeps Sound.ordinals⟩

end Sys2Proof.Machine
end

section
/-! SUPPORT. A request taken, by the request that heads the queue and by what step of R173 answers it. Then the statements
about ENGINE RESET, the upstream lane and the queue of requests. -/

set_option Elab.async false

namespace Sys2Proof.Machine

/-! ### Replies -/

/-- The request at the head of the queue has been taken, and nothing of it done. -/
def State.took (s : State) (rest : List Request) : State := { s with req.queue := rest }

@[simp] theorem State.took_pending (s : State) (rest : List Request) : (s.took rest).pending = s.pending := rfl
@[simp] theorem State.took_now (s : State) (rest : List Request) : (s.took rest).now = s.now := rfl
@[simp] theorem State.took_session (s : State) (rest : List Request) : (s.took rest).session = s.session := rfl
@[simp] theorem State.took_intake (s : State) (rest : List Request) : (s.took rest).intake = s.intake := rfl
@[simp] theorem State.took_win (s : State) (rest : List Request) : (s.took rest).win = s.win := rfl
@[simp] theorem State.took_slots (s : State) (rest : List Request) : (s.took rest).slots = s.slots := rfl
@[simp] theorem State.took_slot (s : State) (rest : List Request) (i : SlotIx) : (s.took rest).slot i = s.slot i := rfl
@[simp] theorem State.took_wsc (s : State) (rest : List Request) : (s.took rest).wsc = s.wsc := rfl
@[simp] theorem State.took_links (s : State) (rest : List Request) : (s.took rest).links = s.links := rfl
@[simp] theorem State.took_link (s : State) (rest : List Request) (k : LinkIx) : (s.took rest).link k = s.link k := rfl
@[simp] theorem State.took_stu (s : State) (rest : List Request) : (s.took rest).stu = s.stu := rfl
@[simp] theorem State.took_ncu (s : State) (rest : List Request) : (s.took rest).ncu = s.ncu := rfl
@[simp] theorem State.took_ses (s : State) (rest : List Request) : (s.took rest).ses = s.ses := rfl
@[simp] theorem State.took_phase (s : State) (rest : List Request) : (s.took rest).phase = s.phase := rfl
@[simp] theorem State.took_outbox (s : State) (rest : List Request) : (s.took rest).req.outbox = s.req.outbox := rfl
@[simp] theorem State.took_queue (s : State) (rest : List Request) : (s.took rest).req.queue = rest := rfl
@[simp] theorem State.took_flowOut (s : State) (rest : List Request) : (s.took rest).req.flowOut = s.req.flowOut := rfl
@[simp] theorem State.took_entry (s : State) (rest : List Request) (i : SlotIx) (n : Nat) :
    (s.took rest).entry i n = s.entry i n := rfl

theorem State.took_accept (s : State) (rest : List Request) (r : Request) (data : List Byte) :
    (s.took rest).accept r .ok data = s.replied rest (r.ok data) := rfl

theorem State.took_answer (s : State) (rest : List Request) (r : Request) (st : ReplyStatus) (detail : Nat)
    (data : List Byte) : (s.took rest).answer r st detail data = s.replied rest (r.reply st detail data) := rfl

theorem State.settleHold_of_none {s : State} (h : s.wsc.holdReply = none) (st : ReplyStatus) (hs : HoldState) :
    s.settleHold st hs = s := by
  rw [State.settleHold, h]

theorem State.settleHold_of_some {s : State} {tag : ReqTag} (h : s.wsc.holdReply = some tag) (st : ReplyStatus)
    (hs : HoldState) :
    s.settleHold st hs = { s with wsc.holdReply := none }.pushReply (acceptance tag holdCode st (leBytes 1 hs.code)) := by
  rw [State.settleHold, h]

/-! ### ENGINE RESET -/

theorem exec_engineReset_of_serves {s : State} {r : Request} {rest : List Request} (h : s.Serves .engineReset r rest) :
    exec .engineReset s = .next { ((s.took rest).settleHold .ok .run).accept r .ok [] with req.resetWaiting := true } :=
  congrArg Host.Outcome.next (State.takeRequest_serves h _)

theorem exec_engineResetTakesEffect (s : State) : exec .engineResetTakesEffect s = execEngineResetTakesEffect s := rfl

theorem exec_engineResetTakesEffect_of_empty {s : State} (hwait : s.req.resetWaiting = true) (hout : s.req.outbox = [])
    (hqueue : s.req.queue = []) : exec .engineResetTakesEffect s = .next
      (if s.intake.linkUp = true then s.afterEngineReset.sendFlow else s.afterEngineReset) := by
  rw [exec_engineResetTakesEffect, execEngineResetTakesEffect, if_pos ⟨hwait, hout, hqueue⟩]
  rfl

/-- Settles O3: by whether a HOLD reply is pending, and for the reset by the image link. -/
theorem engineResetWaitsAndTakesEffect : Obligations.EngineResetWaitsAndTakesEffect := by
  refine ⟨fun s r rest h hnone => ?_, fun s r rest tag h hsome => ?_, fun s hwait hout hqueue => ?_⟩
  · rw [exec_engineReset_of_serves h, State.settleHold_of_none (s := s.took rest) hnone, State.took_accept]
  · rw [exec_engineReset_of_serves h, State.settleHold_of_some (s := s.took rest) hsome]
    simp [State.took, State.accept, State.pushReply, Request.ok, runReply, holdCode, HoldState.code, leBytes]
  · rw [exec_engineResetTakesEffect_of_empty hwait hout hqueue]
    cases hup : s.intake.linkUp with
    | false => simp [State.afterEngineReset, hup, State.reset]
    | true => simp [State.afterEngineReset, hup, State.sendFlow_eq, State.reset, flowRoom_nil, State.head, State.free]

/-! ### The upstream lane -/

theorem exec_upstreamGrant (s : State) : exec .upstreamGrant s = execUpstreamGrant s := rfl

theorem exec_upstreamFrameSent (s : State) : exec .upstreamFrameSent s = execUpstreamFrameSent s := rfl

theorem State.afterEngineReset_replyServed (s : State) : s.afterEngineReset.req.replyServed = false := rfl

/-- Settles O15: by the sources with a frame waiting, and for a frame sent by its kind. -/
theorem upstreamLaneTakesTurns : Obligations.UpstreamLaneTakesTurns := by
  refine ⟨fun s t h => ?_, fun s h => ?_, fun s hup hlane => ⟨fun f fs hf => ?_, fun r rs hf hr hturn => ?_,
    fun e es hf he hturn => ?_⟩, fun s l hl hq => ⟨fun f hf => ?_, fun r hr => ?_, fun e he => ?_⟩⟩
  · rcases h with h | ⟨hwait, hout, hqueue, h⟩
    · cases h; rfl
    · rw [exec_engineResetTakesEffect_of_empty hwait hout hqueue] at h
      cases h
      split <;> simp [State.afterEngineReset_replyServed]
  · rw [exec_upstreamGrant, execUpstreamGrant]
    rcases h with hdown | hbusy | ⟨hf, ho, hn⟩
    · simp [hdown]
    · simp [Option.ne_none_iff_isSome.mpr hbusy]
    · simp [hf, ho, hn]
  · simp [exec_upstreamGrant, execUpstreamGrant, hup, hlane, hf, State.laneSend]
  · rw [exec_upstreamGrant, execUpstreamGrant, if_pos ⟨hup, hlane⟩, hf, hr]
    cases hn : s.ncu.notices with
    | nil => rfl
    | cons e es =>
      have hserved : s.req.replyServed = false := hturn.resolve_left (by simp [hn])
      simp [hserved, State.laneSend]
  · rw [exec_upstreamGrant, execUpstreamGrant, if_pos ⟨hup, hlane⟩, hf, he]
    cases ho : s.req.outbox with
    | nil => rfl
    | cons r rs =>
      have hserved : s.req.replyServed = true := hturn.resolve_left (by simp [ho])
      simp [hserved, State.laneSend]
  · simp [exec_upstreamFrameSent, execUpstreamFrameSent, hl, hq, hf]
  · simp [exec_upstreamFrameSent, execUpstreamFrameSent, hl, hq, hr]
  · simp [exec_upstreamFrameSent, execUpstreamFrameSent, hl, hq, he]

/-! ### Frames and queued requests -/

theorem exec_requestFrame (tag : ReqTag) (code : Byte) (ps : List Byte) (s : State) :
    exec (.requestFrame tag code ps) s = execRequestFrame tag code ps s := rfl

theorem exec_unknownRequest (s : State) : exec .unknownRequest s = execUnknownRequest s := rfl

/-- A request command takes the request of its kind from the queue. -/
theorem exec_command (k : ReqKind) (s : State) :
    ∃ owner, exec k.command s = .next (s.takeRequest (some k) owner) := by
  cases k <;> exact ⟨_, rfl⟩

theorem State.takes_of_heads {s : State} {k : ReqKind} {r : Request} {rest : List Request} (h : s.Heads k r rest) :
    s.takes (some k) = some (r, rest) := by
  simp [State.takes, h.queue, h.room, h.code, Config.outboxTake]

/-- The four steps of R173, for a request whose code names one (R173). -/
theorem State.takeRequest_of_heads {s : State} {k : ReqKind} {r : Request} {rest : List Request} (h : s.Heads k r rest)
    (owner : Request → State → State) : s.takeRequest (some k) owner =
      if s.notReady = true ∧ k ≠ .identify then s.replied rest (r.reply .notReady 0 [])
      else if k.takenIn s.phase = false then s.replied rest (r.reply .refusedState 0 [])
      else if k.lengthOk r.params = false then s.replied rest (r.reply .refusedRange 0 [])
      else owner r (s.took rest) := by
  simp only [State.takeRequest, State.takes_of_heads h, ne_eq, Option.some.injEq]
  rfl

theorem State.takeRequest_none {s : State} {r : Request} {rest : List Request} (h : s.takes none = some (r, rest))
    (owner : Request → State → State) : s.takeRequest none owner =
      s.replied rest (r.reply (if s.notReady = true then .notReady else .unknown) 0 []) := by
  rw [State.takeRequest, h]
  cases s.notReady <;> simp <;> rfl

/-- Settles O16: the queue's room by cases, steps 1 to 4 of R173 in order, and the tables by evaluation. -/
theorem requestsAreQueuedAndExamined : Obligations.RequestsAreQueuedAndExamined := by
  refine ⟨fun s tag code ps hup => ⟨fun hq => ?_, fun hq ho => ?_, fun hq ho => ?_⟩,
    ⟨fun s k r rest h => ⟨fun hnot hk => ?_, fun hready htable => ?_, fun hready htable hlen => ?_⟩,
     fun s r rest hq ho hcode => ?_⟩, ⟨by decide, by decide⟩, fun k row h => ?_, fun k n ps h => ?_, fun ps => ?_⟩
  · simp [exec_requestFrame, execRequestFrame, hup, hq, Config.requestQueue]
  · simp [exec_requestFrame, execRequestFrame, hup, hq, ho, Config.requestQueue, Config.outboxBusy, State.answer,
      State.pushReply]
  · simp [exec_requestFrame, execRequestFrame, hup, hq, not_lt.mpr ho, Config.requestQueue, Config.outboxBusy,
      State.count, ctrBadFrames]
  · obtain ⟨owner, hexec⟩ := exec_command k s
    rw [hexec, State.takeRequest_of_heads h, if_pos ⟨hnot, hk⟩]
  · obtain ⟨owner, hexec⟩ := exec_command k s
    simp [hexec, State.takeRequest_of_heads h, hready, htable]
  · obtain ⟨owner, hexec⟩ := exec_command k s
    simp [hexec, State.takeRequest_of_heads h, hready, htable, hlen]
  · have htakes : s.takes none = some (r, rest) := by simp [State.takes, hq, ho, hcode, Config.outboxTake]
    rw [exec_unknownRequest, execUnknownRequest, State.takeRequest_none htakes]
  · exact (by decide : ∀ p ∈ _, [none, some SessionPhase.opened, some .running, some .faulted].map
      (ReqKind.takenIn p.1) = p.2) (k, row) h
  · simp only [List.mem_cons, Prod.mk.injEq, List.not_mem_nil, or_false] at h
    rcases h with ⟨rfl, rfl⟩ | ⟨rfl, rfl⟩ | ⟨rfl, rfl⟩ | ⟨rfl, rfl⟩ | ⟨rfl, rfl⟩ | ⟨rfl, rfl⟩ | ⟨rfl, rfl⟩ | ⟨rfl, rfl⟩ |
      ⟨rfl, rfl⟩ | ⟨rfl, rfl⟩ | ⟨rfl, rfl⟩ | ⟨rfl, rfl⟩ | ⟨rfl, rfl⟩ | ⟨rfl, rfl⟩ | ⟨rfl, rfl⟩ | ⟨rfl, rfl⟩ | ⟨rfl, rfl⟩ |
      ⟨rfl, rfl⟩ | ⟨rfl, rfl⟩ <;> exact beq_iff_eq
  · simp [ReqKind.lengthOk]

end Sys2Proof.Machine
end

section
/-! SUPPORT. Byte lists written as runs of little-endian fields, and with them the reports field by field. Then the
statement about the reports. -/

set_option Elab.async false

namespace Sys2Proof.Machine

/-! ### Runs of fields -/

/-- The bytes of little-endian fields, each a length and a value (R184). -/
def layout (fs : List (Nat × Nat)) : List Byte := fs.flatMap (fun f => leBytes f.1 f.2)

theorem layout_cons (n v : Nat) (fs : List (Nat × Nat)) : layout ((n, v) :: fs) = leBytes n v ++ layout fs := by
  simp [layout]

theorem layout_nil : layout [] = [] := rfl

theorem layout_append (fs gs : List (Nat × Nat)) : layout (fs ++ gs) = layout fs ++ layout gs := by simp [layout]

theorem layout_length (fs : List (Nat × Nat)) : (layout fs).length = (fs.map Prod.fst).sum := by
  simp [layout, List.length_flatMap]

/-- Where field `k` begins, counted on from `start`. -/
def fieldStart : Nat → Nat → List (Nat × Nat) → Nat
  | start, 0, _ => start
  | start, _ + 1, [] => start
  | start, k + 1, f :: fs => fieldStart (start + f.1) k fs

theorem fieldStart_eq : ∀ (k start : Nat) (fs : List (Nat × Nat)),
    fieldStart start k fs = start + ((fs.take k).map Prod.fst).sum
  | 0, _, _ => by simp [fieldStart]
  | _ + 1, _, [] => by simp [fieldStart]
  | k + 1, start, f :: fs => by
    rw [fieldStart, fieldStart_eq k, List.take_succ_cons, List.map_cons, List.sum_cons, Nat.add_assoc]

/-- A field is read back where the ones before it end. -/
theorem field_layout {fs : List (Nat × Nat)} (k : Nat) {off n v : Nat} (hoff : fieldStart 0 k fs = off)
    (hk : fs[k]? = some (n, v)) (rest : List Byte) : field (layout fs ++ rest) off n = v % 256 ^ n := by
  obtain ⟨hlt, hget⟩ := List.getElem?_eq_some_iff.mp hk
  have hsplit : fs = fs.take k ++ (n, v) :: fs.drop (k + 1) := by
    rw [← hget, List.getElem_cons_drop, List.take_append_drop]
  have hlen : (layout (fs.take k)).length = off := by
    rw [layout_length, ← hoff, fieldStart_eq, Nat.zero_add]
  rw [hsplit, layout_append, layout_cons, List.append_assoc, List.append_assoc, field_skip _ _ _ _ hlen.le, hlen,
    Nat.sub_self, field_head]

/-- A field of the last run of a byte list. -/
theorem field_layout_last {fs : List (Nat × Nat)} (k : Nat) {off n v m : Nat}
    (hoff : fieldStart 0 k fs = off) (hk : fs[k]? = some (n, v)) (hm : 256 ^ n = m := by norm_num) :
    field (layout fs) off n = v % m := by
  simpa [hm] using field_layout k hoff hk []

/-- The same for a value that its field holds whole. -/
theorem field_layout_whole {fs : List (Nat × Nat)} (k : Nat) {off n v : Nat}
    (hoff : fieldStart 0 k fs = off) (hk : fs[k]? = some (n, v)) (hv : v < 256 ^ n) :
    field (layout fs) off n = v :=
  (field_layout_last k hoff hk).trans (Nat.mod_eq_of_lt hv)

theorem allOnes_one : allOnes 1 = 255 := by norm_num [allOnes]
theorem allOnes_two : allOnes 2 = 65535 := by norm_num [allOnes]
theorem allOnes_four : allOnes 4 = 4294967295 := by norm_num [allOnes]

theorem leBytes_zero : ∀ n : Nat, leBytes n 0 = List.replicate n 0
  | 0 => rfl
  | n + 1 => by rw [leBytes, Nat.zero_div, leBytes_zero n, List.replicate_succ]; rfl

/-! ### Codes fit their byte -/

theorem OutcomeKind.code_lt (k : OutcomeKind) : k.code < 256 := by cases k <;> decide

theorem outcomeCode_lt (o : Option OutcomeKind) : outcomeCode o < 256 := by
  cases o with
  | none => decide
  | some k => exact k.code_lt

theorem SlotState.code_lt (s : SlotState) : s.code < 11 := by cases s <;> decide

theorem QualPhase.code_lt (p : QualPhase) : p.code < 256 := by cases p <;> decide

theorem LampPattern.code_lt (p : LampPattern) : p.code < 256 := by cases p <;> decide

/-! ### IDENTIFY -/

def State.identityFields (s : State) : List (Nat × Nat) :=
  [(2, 0x0101), (2, 0x00C0), (1, 1), (1, if s.req.initialising then 0 else 1), (1, s.req.cause.code), (4, s.now), (1, 192),
   (1, 12), (2, 4096), (1, 32), (1, 4), (1, 8), (1, 32)]

theorem State.identity_eq (s : State) : s.identity = layout s.identityFields := by
  simp [State.identity, State.identityFields, layout]

/-! ### SLOT STATUS -/

def slotEntryFields (i : SlotIx) (sl : Slot) (now : Nat) : List (Nat × Nat) :=
  [(1, i.val), (1, sl.state.code),
   (2, setOf [sl.outcome.isSome, sl.capacity.isSome, sl.ordinal.isSome, sl.span.isSome, sl.deferred.isSome,
     sl.ackPoint.isSome, sl.issueCursor.isSome, sl.verifyCursor.isSome, sl.qual.isSome, sl.settleDeadline.isSome,
     sl.stall.isSome]),
   (1, outcomeCode (sl.outcome.map Outcome.kind)),
   (4, (sl.outcome.map (fun o => o.chunk.getD (allOnes 4))).getD 0),
   (1, (sl.outcome.map (fun o => o.probe.getD (allOnes 1))).getD 0),
   (1, (sl.outcome.map (fun o => o.other.getD (allOnes 1))).getD 0),
   (8, sl.capacity.getD 0), (2, sl.ordinal.getD 0),
   (4, (sl.span.map Span.lo).getD 0), (4, (sl.span.map Span.hi).getD 0),
   (4, (sl.deferred.map Span.lo).getD 0), (4, (sl.deferred.map Span.hi).getD 0),
   (4, sl.ackPoint.getD 0), (4, sl.issueCursor.getD 0), (4, sl.verifyCursor.getD 0),
   (1, sl.ahead.length), (1, sl.inFlight.length),
   (1, (sl.qual.map (fun q => q.phase.code)).getD 0), (1, (sl.qual.map Qualification.probe).getD 0),
   (2, (sl.settleDeadline.map (fun t => t - now)).getD 0),
   (1, setOf [sl.rostered, sl.throttled, sl.laggard, sl.changeMark]),
   (1, sl.trouble), (1, sl.residency), (1, sl.pinCount), (1, sl.clearCount),
   (1, (sl.stall.map Stall.site).getD 0), (4, (sl.stall.map Stall.chunk).getD 0),
   (2, (sl.stall.map (fun t => t.deadline - now)).getD 0), (1, sl.lamp.shown.code)]

theorem outcomeDetail_eq (n : Nat) (o : Option Outcome) (f : Outcome → Option Nat) :
    outcomeDetail n o f = leBytes n ((o.map (fun r => (f r).getD (allOnes n))).getD 0) := by
  cases o <;> rfl

theorem slotEntry_eq (i : SlotIx) (sl : Slot) (now : Nat) : slotEntry i sl now = layout (slotEntryFields i sl now) := by
  unfold slotEntry
  simp only [slotEntryFields, layout_cons, layout_nil, spanBytes, outcomeDetail_eq, List.append_assoc, List.append_nil]

theorem slotEntry_length (i : SlotIx) (sl : Slot) (now : Nat) : (slotEntry i sl now).length = 68 := by
  simp [slotEntry_eq, layout_length, slotEntryFields]

theorem field_set {fs : List (Nat × Nat)} (k : Nat) {off n : Nat} {bs : List Bool}
    (hoff : fieldStart 0 k fs = off) (hk : fs[k]? = some (n, setOf bs)) (hbs : 2 ^ bs.length ≤ 256 ^ n)
    (m : Nat) : (field (layout fs) off n).testBit m = bs.getD m false := by
  rw [field_layout_whole k hoff hk (lt_of_lt_of_le (setOf_lt bs) hbs), setOf_testBit]


theorem slotEntry_reads (i : SlotIx) (sl : Slot) (now : Nat) : let d := slotEntry i sl now
    let held := [sl.outcome.isSome, sl.capacity.isSome, sl.ordinal.isSome, sl.span.isSome, sl.deferred.isSome,
      sl.ackPoint.isSome, sl.issueCursor.isSome, sl.verifyCursor.isSome, sl.qual.isSome, sl.settleDeadline.isSome,
      sl.stall.isSome]
    let flags := [sl.rostered, sl.throttled, sl.laggard, sl.changeMark]
    d.length = 68 ∧ field d 0 1 = i.val ∧ field d 1 1 = sl.state.code ∧
    (∀ m, (field d 2 2).testBit m = held.getD m false) ∧
    field d 4 1 = (sl.outcome.map (fun o => o.kind.code)).getD 0 ∧
    field d 5 4 = (sl.outcome.map (fun o => o.chunk.getD 4294967295)).getD 0 % 2 ^ 32 ∧
    field d 9 1 = (sl.outcome.map (fun o => o.probe.getD 255)).getD 0 % 256 ∧
    field d 10 1 = (sl.outcome.map (fun o => o.other.getD 255)).getD 0 % 256 ∧
    field d 11 8 = sl.capacity.getD 0 % 2 ^ 64 ∧ field d 19 2 = sl.ordinal.getD 0 % 2 ^ 16 ∧
    field d 21 4 = (sl.span.map Span.lo).getD 0 % 2 ^ 32 ∧ field d 25 4 = (sl.span.map Span.hi).getD 0 % 2 ^ 32 ∧
    field d 29 4 = (sl.deferred.map Span.lo).getD 0 % 2 ^ 32 ∧
    field d 33 4 = (sl.deferred.map Span.hi).getD 0 % 2 ^ 32 ∧ field d 37 4 = sl.ackPoint.getD 0 % 2 ^ 32 ∧
    field d 41 4 = sl.issueCursor.getD 0 % 2 ^ 32 ∧ field d 45 4 = sl.verifyCursor.getD 0 % 2 ^ 32 ∧
    field d 49 1 = sl.ahead.length % 256 ∧ field d 50 1 = sl.inFlight.length % 256 ∧
    field d 51 1 = (sl.qual.map (fun q => q.phase.code)).getD 0 ∧
    field d 52 1 = (sl.qual.map Qualification.probe).getD 0 % 256 ∧
    field d 53 2 = (sl.settleDeadline.map (fun t => t - now)).getD 0 % 2 ^ 16 ∧
    (∀ m, (field d 55 1).testBit m = flags.getD m false) ∧ field d 56 1 = sl.trouble % 256 ∧
    field d 57 1 = sl.residency % 256 ∧ field d 58 1 = sl.pinCount % 256 ∧ field d 59 1 = sl.clearCount % 256 ∧
    field d 60 1 = (sl.stall.map Stall.site).getD 0 % 256 ∧ field d 61 4 = (sl.stall.map Stall.chunk).getD 0 % 2 ^ 32 ∧
    field d 65 2 = (sl.stall.map (fun t => t.deadline - now)).getD 0 % 2 ^ 16 ∧ field d 67 1 = sl.lamp.shown.code := by
  intro d held flags
  have hcode : outcomeCode (sl.outcome.map Outcome.kind) = (sl.outcome.map (fun o => o.kind.code)).getD 0 := by
    cases sl.outcome <;> rfl
  have hphase : (sl.qual.map (fun q => q.phase.code)).getD 0 < 256 := by
    cases sl.qual with
    | none => decide
    | some q => exact q.phase.code_lt
  have hstate := sl.state.code_lt
  refine ⟨slotEntry_length i sl now, ?_⟩
  simp only [d, slotEntry_eq]
  rw [← allOnes_four, ← allOnes_one]
  exact ⟨field_layout_whole 0 rfl rfl (by omega), field_layout_whole 1 rfl rfl (by omega),
    field_set 2 rfl rfl (by simp [held]), hcode ▸ field_layout_whole 3 rfl rfl (outcomeCode_lt _),
    field_layout_last 4 rfl rfl, field_layout_last 5 rfl rfl, field_layout_last 6 rfl rfl, field_layout_last 7 rfl rfl,
    field_layout_last 8 rfl rfl, field_layout_last 9 rfl rfl, field_layout_last 10 rfl rfl, field_layout_last 11 rfl rfl,
    field_layout_last 12 rfl rfl, field_layout_last 13 rfl rfl, field_layout_last 14 rfl rfl, field_layout_last 15 rfl rfl,
    field_layout_last 16 rfl rfl, field_layout_last 17 rfl rfl, field_layout_whole 18 rfl rfl hphase,
    field_layout_last 19 rfl rfl, field_layout_last 20 rfl rfl, field_set 21 rfl rfl (by simp [flags]),
    field_layout_last 22 rfl rfl, field_layout_last 23 rfl rfl, field_layout_last 24 rfl rfl, field_layout_last 25 rfl rfl,
    field_layout_last 26 rfl rfl, field_layout_last 27 rfl rfl, field_layout_last 28 rfl rfl,
    field_layout_whole 29 rfl rfl sl.lamp.shown.code_lt⟩

/-! ### SESSION STATUS -/

def paramFields (x : Session) : List (Nat × Nat) :=
  [(4, x.imageLength), (2, x.windowSize), (2, x.pauseMark), (2, x.resumeMark), (1, x.probeCount), (1, x.join.code),
   (1, x.laggard.code), (1, x.verify.code), (1, x.qualify.code), (4, x.sessionTag.toNat), (1, x.tune.depth),
   (2, x.tune.commandTimeout), (1, x.tune.retryLimit), (2, x.tune.settleTime), (2, x.tune.paceInterval),
   (1, x.tune.declareCount), (1, x.tune.clearCount), (1, x.tune.decayInterval), (1, x.tune.throttle), (1, x.tune.eject),
   (1, x.tune.residencyMin), (1, x.tune.stampWait)]

theorem paramBlock_eq (x : Session) : paramBlock x = layout (paramFields x) := by
  unfold paramBlock
  simp only [paramFields, layout_cons, layout_nil, List.append_assoc, List.append_nil]

/-- The fields of SESSION STATUS that do not depend on a session, from the window on. -/
def State.engineFields (s : State) : List (Nat × Nat) :=
  [(4, s.tail.getD (allOnes 4)), (2, s.win.records.length), (2, s.free.getD (allOnes 2)), (1, s.wsc.hold.code),
   (1, s.intake.flow.code), (1, s.intake.linkUp.toNat), (1, s.countIn .empty), (1, s.countIn .settling),
   (1, s.countIn .present), (1, s.countIn .sizing), (1, s.countIn .probing), (1, s.countIn .ready),
   (1, s.countIn .waiting), (1, s.countIn .live), (1, s.countIn .verifying), (1, s.countIn .done), (1, s.countIn .failed),
   (2, s.ncu.seen.toNat), (1, s.ncu.noticesLost.toNat)]

def State.sessionFields (s : State) (x : Session) : List (Nat × Nat) :=
  (1, phaseCode s.phase) :: paramFields x ++ [(4, x.nextOrdinal), (1, x.exhausted.toNat),
    (4, x.faultChunk.getD (allOnes 4)), (2, x.passNumber), (1, x.pass.code), (4, x.startChunk), (4, x.nextChunk)] ++
    s.engineFields

def State.idleFields (s : State) : List (Nat × Nat) :=
  [(1, phaseCode s.phase), (34, 0), (5, 0), (4, allOnes 4), (11, 0)] ++ s.engineFields

theorem State.sessionReport_eq {s : State} {x : Session} (h : s.session = some x) :
    s.sessionReport = layout (s.sessionFields x) := by
  unfold State.sessionReport
  simp only [h, paramBlock_eq, State.sessionFields, State.engineFields, slotStates, layout_append, layout_cons, layout_nil,
    leOption, Option.bind_some, List.flatMap_cons, List.flatMap_nil, List.append_assoc, List.append_nil, List.nil_append,
    List.cons_append]

theorem State.sessionReport_idle {s : State} (h : s.session = none) : s.sessionReport = layout s.idleFields := by
  unfold State.sessionReport
  simp only [h, State.idleFields, State.engineFields, slotStates, layout_cons, layout_nil, leBytes_zero,
    leOption, Option.bind_none, Option.getD_none, List.flatMap_cons, List.flatMap_nil, List.append_assoc, List.append_nil,
    List.nil_append, List.cons_append]

theorem State.slots_toList (s : State) : s.slots.toList = (List.finRange 192).map s.slot := by
  refine List.ext_getElem (by simp) fun n h1 h2 => ?_
  simp [State.slot]

theorem State.countIn_eq (s : State) (st : SlotState) :
    s.countIn st = (List.finRange 192).countP (fun i => decide ((s.slot i).state = st)) := by
  rw [State.countIn, State.slots_toList, ← List.countP_eq_length_filter, List.countP_map]
  rfl

theorem State.countIn_lt (s : State) (st : SlotState) : s.countIn st < 256 ^ 1 := by
  have h := List.countP_le_length (p := fun i => decide ((s.slot i).state = st)) (l := List.finRange 192)
  rw [State.countIn_eq]
  simp only [List.length_finRange] at h
  omega

/-- Fields behind a run of 55 bytes. -/
theorem field_behind {pre fs : List (Nat × Nat)} {a : Nat} (h : (layout pre).length = a) (off n : Nat) :
    field (layout (pre ++ fs)) (a + off) n = field (layout fs) off n := by
  rw [layout_append, field_skip _ _ _ _ (by omega), h, Nat.add_sub_cancel_left]

theorem State.engineFields_reads (s : State) : let d := layout s.engineFields
    field d 4 2 = s.win.records.length % 2 ^ 16 ∧ field d 8 1 = s.wsc.hold.code ∧ field d 9 1 = s.intake.flow.code ∧
    field d 10 1 = s.intake.linkUp.toNat ∧
    (∀ st : SlotState, field d (11 + st.code) 1 =
      (List.finRange 192).countP (fun i => decide ((s.slot i).state = st))) ∧
    field d 22 2 = s.ncu.seen.toNat ∧ field d 24 1 = s.ncu.noticesLost.toNat := by
  have hhold : s.wsc.hold.code < 256 := by cases s.wsc.hold <;> decide
  have hflow : s.intake.flow.code < 256 := by cases s.intake.flow <;> decide
  have hup := Bool.toNat_lt s.intake.linkUp
  have hlost := Bool.toNat_lt s.ncu.noticesLost
  have hseen := s.ncu.seen.isLt
  have hcount : ∀ st : SlotState, fieldStart 0 (6 + st.code) s.engineFields = 11 + st.code ∧
      s.engineFields[6 + st.code]? = some (1, s.countIn st) := fun st => by cases st <;> exact ⟨rfl, rfl⟩
  refine ⟨field_layout_last 1 rfl rfl, field_layout_whole 3 rfl rfl hhold, field_layout_whole 4 rfl rfl hflow,
    field_layout_whole 5 rfl rfl (by omega), fun st => ?_, field_layout_whole 17 rfl rfl (by omega),
    field_layout_whole 18 rfl rfl (by omega)⟩
  obtain ⟨hstart, hget⟩ := hcount st
  rw [field_layout_whole _ hstart hget (s.countIn_lt st), State.countIn_eq]

theorem phaseCode_lt (p : Option SessionPhase) : phaseCode p < 256 := by
  rcases p with _ | p
  · decide
  · cases p <;> decide

/-- The fields of SESSION STATUS before the window's: those of the session, or their values without one. -/
def State.leadFields (s : State) : List (Nat × Nat) :=
  match s.session with
  | some x => (1, phaseCode s.phase) :: paramFields x ++ [(4, x.nextOrdinal), (1, x.exhausted.toNat),
      (4, x.faultChunk.getD (allOnes 4)), (2, x.passNumber), (1, x.pass.code), (4, x.startChunk), (4, x.nextChunk)]
  | none => [(1, phaseCode s.phase), (34, 0), (5, 0), (4, allOnes 4), (11, 0)]

theorem State.leadFields_length (s : State) : (layout s.leadFields).length = 55 := by
  rw [layout_length, State.leadFields]
  split <;> simp [paramFields]

theorem State.sessionReport_layout (s : State) : s.sessionReport = layout (s.leadFields ++ s.engineFields) := by
  cases h : s.session with
  | none => rw [State.sessionReport_idle h, State.idleFields, State.leadFields, h]
  | some x => rw [State.sessionReport_eq h, State.sessionFields, State.leadFields, h]

theorem State.sessionReport_length (s : State) : s.sessionReport.length = 80 := by
  rw [State.sessionReport_layout, layout_append, List.length_append, State.leadFields_length, layout_length]
  simp [State.engineFields]

theorem State.sessionReport_phase (s : State) : field s.sessionReport 0 1 = phaseCode s.phase := by
  cases h : s.session with
  | none => rw [State.sessionReport_idle h]; exact field_layout_whole 0 rfl rfl (phaseCode_lt _)
  | some x => rw [State.sessionReport_eq h]; exact field_layout_whole 0 rfl rfl (phaseCode_lt _)

theorem State.sessionReport_engine (s : State) (off n : Nat) :
    field s.sessionReport (55 + off) n = field (layout s.engineFields) off n := by
  rw [State.sessionReport_layout, field_behind s.leadFields_length]

theorem State.sessionReport_reads_idle {s : State} (h : s.session = none) : let d := s.sessionReport
    field d 1 34 = 0 ∧ field d 35 5 = 0 ∧ field d 40 4 = 4294967295 ∧ field d 44 11 = 0 ∧ field d 55 4 = 4294967295 ∧
    field d 61 2 = 65535 := by
  have htail : s.tail = none := by simp [State.tail, h]
  have hfree : s.free = none := by simp [State.free, h]
  simp only [State.sessionReport_idle h, State.idleFields, State.engineFields, htail, hfree, Option.getD_none, allOnes_four,
    allOnes_two]
  exact ⟨field_layout_whole 1 rfl rfl (by norm_num), field_layout_whole 2 rfl rfl (by norm_num),
    field_layout_whole 3 rfl rfl (by norm_num), field_layout_whole 4 rfl rfl (by norm_num),
    field_layout_whole 5 rfl rfl (by norm_num), field_layout_whole 7 rfl rfl (by norm_num)⟩

theorem State.sessionReport_reads {s : State} {x : Session} (h : s.session = some x) : let d := s.sessionReport
    (field d 1 4 = x.imageLength % 2 ^ 32 ∧ field d 5 2 = x.windowSize % 2 ^ 16 ∧ field d 7 2 = x.pauseMark % 2 ^ 16 ∧
     field d 9 2 = x.resumeMark % 2 ^ 16 ∧ field d 11 1 = x.probeCount % 256 ∧ field d 12 1 = x.join.code ∧
     field d 13 1 = x.laggard.code ∧ field d 14 1 = x.verify.code ∧ field d 15 1 = x.qualify.code ∧
     field d 16 4 = x.sessionTag.toNat ∧ field d 20 1 = x.tune.depth % 256 ∧
     field d 21 2 = x.tune.commandTimeout % 2 ^ 16 ∧ field d 23 1 = x.tune.retryLimit % 256 ∧
     field d 24 2 = x.tune.settleTime % 2 ^ 16 ∧ field d 26 2 = x.tune.paceInterval % 2 ^ 16 ∧
     field d 28 1 = x.tune.declareCount % 256 ∧ field d 29 1 = x.tune.clearCount % 256 ∧
     field d 30 1 = x.tune.decayInterval % 256 ∧ field d 31 1 = x.tune.throttle % 256 ∧
     field d 32 1 = x.tune.eject % 256 ∧ field d 33 1 = x.tune.residencyMin % 256 ∧
     field d 34 1 = x.tune.stampWait % 256) ∧
    field d 35 4 = x.nextOrdinal % 2 ^ 32 ∧ field d 39 1 = x.exhausted.toNat ∧
    field d 40 4 = x.faultChunk.getD 4294967295 % 2 ^ 32 ∧ field d 44 2 = x.passNumber % 2 ^ 16 ∧
    field d 46 1 = x.pass.code ∧ field d 47 4 = x.startChunk % 2 ^ 32 ∧ field d 51 4 = x.nextChunk % 2 ^ 32 ∧
    field d 55 4 = ((s.win.records.head?).map ChunkRecord.chunk).getD x.nextChunk % 2 ^ 32 ∧
    field d 61 2 = (x.windowSize - s.win.records.length) % 2 ^ 16 := by
  have hjoin : x.join.code < 256 := by cases x.join <;> decide
  have hlaggard : x.laggard.code < 256 := by cases x.laggard <;> decide
  have hverify : x.verify.code < 256 := by cases x.verify <;> decide
  have hqualify : x.qualify.code < 256 := by cases x.qualify <;> decide
  have hpass : x.pass.code < 256 := by cases x.pass <;> decide
  have htag := x.sessionTag.isLt
  have hexhausted := Bool.toNat_lt x.exhausted
  have htail : s.tail.getD 4294967295 = ((s.win.records.head?).map ChunkRecord.chunk).getD x.nextChunk := by
    simp [State.tail, h]
  have hfree : s.free.getD (allOnes 2) = x.windowSize - s.win.records.length := by simp [State.free, h]
  simp only [State.sessionReport_eq h, State.sessionFields, State.engineFields, allOnes_four, htail, hfree]
  exact ⟨⟨field_layout_last 1 rfl rfl, field_layout_last 2 rfl rfl, field_layout_last 3 rfl rfl,
      field_layout_last 4 rfl rfl, field_layout_last 5 rfl rfl, field_layout_whole 6 rfl rfl hjoin,
      field_layout_whole 7 rfl rfl hlaggard, field_layout_whole 8 rfl rfl hverify, field_layout_whole 9 rfl rfl hqualify,
      field_layout_whole 10 rfl rfl (by omega), field_layout_last 11 rfl rfl, field_layout_last 12 rfl rfl,
      field_layout_last 13 rfl rfl, field_layout_last 14 rfl rfl, field_layout_last 15 rfl rfl,
      field_layout_last 16 rfl rfl, field_layout_last 17 rfl rfl, field_layout_last 18 rfl rfl,
      field_layout_last 19 rfl rfl, field_layout_last 20 rfl rfl, field_layout_last 21 rfl rfl,
      field_layout_last 22 rfl rfl⟩, field_layout_last 23 rfl rfl, field_layout_whole 24 rfl rfl (by omega),
    field_layout_last 25 rfl rfl, field_layout_last 26 rfl rfl, field_layout_whole 27 rfl rfl hpass,
    field_layout_last 28 rfl rfl, field_layout_last 29 rfl rfl, field_layout_last 30 rfl rfl, field_layout_last 32 rfl rfl⟩

/-! ### READ SNAPSHOT -/

theorem counterBlock_length (cs : List Counter) (n : Nat) : (counterBlock cs n).length = 4 * cs.length + n := by
  rw [counterBlock, List.length_append, flatMap_length _ 4 (fun c => leBytes_length 4 _), leBytes_length]

/-- An entry of a run of entries of equal length, read from within. -/
theorem field_flatMap {α : Type} {f : α → List Byte} {len : Nat} (h : ∀ a, (f a).length = len) {l : List α} {n : Nat}
    {a : α} (ha : l[n]? = some a) {off k : Nat} (hk : off + k ≤ len) :
    field (l.flatMap f) (len * n + off) k = field (f a) off k := by
  have hentry := flatMap_entry f len h l n a ha
  rw [field, field, ← hentry, List.drop_take, List.take_take, List.drop_drop, Nat.min_eq_left (by omega)]

theorem counterBlock_value {cs : List Counter} {n m : Nat} {c : Counter} (hc : cs[m]? = some c) :
    field (counterBlock cs n) (4 * m) 4 = c.value.toNat := by
  have hlt := (List.getElem?_eq_some_iff.mp hc).1
  have hv := c.value.isLt
  rw [counterBlock, field_within _ _ _ _ (by rw [flatMap_length _ 4 (fun c => leBytes_length 4 _)]; omega)]
  have hread := field_flatMap (f := fun c : Counter => leBytes 4 c.value.toNat) (len := 4) (fun c => leBytes_length 4 _) hc
    (off := 0) (k := 4) le_rfl
  rw [Nat.add_zero] at hread
  rw [hread, field_last, Nat.mod_eq_of_lt (by norm_num; omega)]

theorem counterBlock_saturated {cs : List Counter} (len n : Nat) {m : Nat} {c : Counter} (hcs : cs.length = len)
    (hc : cs[m]? = some c) (hn : 2 ^ len ≤ 256 ^ n) :
    (field (counterBlock cs n) (4 * len) n).testBit m = c.saturated := by
  subst hcs
  have hlen : (cs.flatMap (fun c => leBytes 4 c.value.toNat)).length = 4 * cs.length :=
    flatMap_length _ 4 (fun c => leBytes_length 4 _) cs
  have hlt := setOf_lt (cs.map Counter.saturated)
  rw [List.length_map] at hlt
  rw [counterBlock, field_skip _ _ _ _ hlen.le, hlen, Nat.sub_self, field_last, Nat.mod_eq_of_lt (by omega), setOf_testBit]
  simp [List.getD_eq_getElem?_getD, hc]

/-- A slot's block in READ SNAPSHOT (R188). -/
def slotBlock (b : Bank) (i : SlotIx) : List Byte := leBytes 1 i.val ++ counterBlock (b.slots[i]).toList 1

theorem slotBlock_length (b : Bank) (i : SlotIx) : (slotBlock b i).length = 22 := by
  simp [slotBlock, counterBlock_length]

theorem slotBlock_reads (b : Bank) (i : SlotIx) : field (slotBlock b i) 0 1 = i.val ∧
    ∀ m : Fin 5, field (slotBlock b i) (1 + 4 * m.val) 4 = b.slots[i][m].value.toNat ∧
      (field (slotBlock b i) 21 1).testBit m.val = b.slots[i][m].saturated := by
  have hlen : (b.slots[i]).toList.length = 5 := by simp
  refine ⟨?_, fun m => ?_⟩
  · rw [slotBlock, field_head, Nat.mod_eq_of_lt (by omega)]
  · have hget : (b.slots[i]).toList[m.val]? = some b.slots[i][m] := by simp
    constructor
    · rw [slotBlock, field_skip _ _ _ _ (by simp), leBytes_length, Nat.add_sub_cancel_left, counterBlock_value hget]
    · rw [slotBlock, field_skip _ _ _ _ (by simp), leBytes_length]
      exact counterBlock_saturated 5 1 hlen hget (by norm_num)

/-- The bank's part of READ SNAPSHOT, before the slots' blocks. -/
def bankBlock (b : Bank) (count : Nat) : List Byte :=
  leBytes 4 b.number.toNat ++ (leBytes 4 b.time.toNat ++ (counterBlock b.engine.toList 2 ++ leBytes 1 count))

theorem bankBlock_length (b : Bank) (count : Nat) : (bankBlock b count).length = 51 := by
  simp [bankBlock, counterBlock_length]

theorem Bank.report_eq (b : Bank) (first count : Nat) :
    b.report first count = bankBlock b count ++ (slotRange first count).flatMap (slotBlock b) := by
  simp only [Bank.report, bankBlock, List.append_assoc]
  rfl

theorem bankBlock_reads (b : Bank) (count : Nat) (hcount : count < 256) : let d := bankBlock b count
    field d 0 4 = b.number.toNat ∧ field d 4 4 = b.time.toNat ∧
    (∀ n : Fin 10, field d (8 + 4 * n.val) 4 = b.engine[n].value.toNat ∧
      (field d 48 2).testBit n.val = b.engine[n].saturated) ∧ field d 50 1 = count := by
  have hnumber := b.number.isLt
  have htime := b.time.isLt
  have hlen : b.engine.toList.length = 10 := by simp
  have hblock : (counterBlock b.engine.toList 2).length = 42 := by simp [counterBlock_length]
  refine ⟨?_, ?_, fun n => ?_, ?_⟩
  · rw [bankBlock, field_head, Nat.mod_eq_of_lt (by norm_num; omega)]
  · rw [bankBlock, field_skip _ _ _ _ (by simp), leBytes_length, field_head, Nat.mod_eq_of_lt (by norm_num; omega)]
  · have hget : b.engine.toList[n.val]? = some b.engine[n] := by simp
    have hskip : ∀ off k, off + k ≤ 42 → field (bankBlock b count) (8 + off) k = field (counterBlock b.engine.toList 2) off k :=
      fun off k h => by
        rw [bankBlock, field_skip _ _ _ _ (by rw [leBytes_length]; omega), leBytes_length,
          field_skip _ _ _ _ (by rw [leBytes_length]; omega), leBytes_length,
          show 8 + off - 4 - 4 = off by omega, field_within _ _ _ _ (by omega)]
    exact ⟨(hskip _ 4 (by omega)).trans (counterBlock_value hget),
      (congrArg (fun v => v.testBit n.val) (hskip 40 2 (by omega))).trans
        (counterBlock_saturated 10 2 hlen hget (by norm_num))⟩
  · rw [bankBlock, field_skip _ _ _ _ (by simp), leBytes_length, field_skip _ _ _ _ (by simp), leBytes_length,
      field_skip _ _ _ _ (by rw [hblock]), hblock, field_last, Nat.mod_eq_of_lt (by omega)]

theorem Bank.report_reads (b : Bank) (first count : Nat) (hrange : first + count ≤ 192) : let d := b.report first count
    d.length = 51 + 22 * count ∧ field d 0 4 = b.number.toNat ∧ field d 4 4 = b.time.toNat ∧
    (∀ n : Fin 10, field d (8 + 4 * n.val) 4 = b.engine[n].value.toNat ∧
      (field d 48 2).testBit n.val = b.engine[n].saturated) ∧ field d 50 1 = count ∧
    ∀ (n : Nat) (i : SlotIx), n < count → i.val = first + n → field d (51 + 22 * n) 1 = i.val ∧
      ∀ m : Fin 5, field d (51 + 22 * n + 1 + 4 * m.val) 4 = b.slots[i][m].value.toNat ∧
        (field d (51 + 22 * n + 21) 1).testBit m.val = b.slots[i][m].saturated := by
  obtain ⟨hnumber, htime, hengine, hcount⟩ := bankBlock_reads b count (by omega)
  have hlen := bankBlock_length b count
  have within : ∀ off k, off + k ≤ 51 → field (b.report first count) off k = field (bankBlock b count) off k :=
    fun off k h => by rw [Bank.report_eq, field_within _ _ _ _ (by omega)]
  refine ⟨?_, (within 0 4 (by omega)).trans hnumber, (within 4 4 (by omega)).trans htime, fun n => ?_,
    (within 50 1 le_rfl).trans hcount, fun n i hn hi => ?_⟩
  · rw [Bank.report_eq, List.length_append, hlen, flatMap_length _ 22 (slotBlock_length b), slotRange_length _ _ hrange]
  · rw [within _ _ (by omega), within _ _ (by omega)]
    exact hengine n
  · have hget := slotRange_get first count n i hrange hn hi
    have inside : ∀ off k, off + k ≤ 22 → field (b.report first count) (51 + 22 * n + off) k = field (slotBlock b i) off k :=
      fun off k h => by
        rw [Bank.report_eq, field_skip _ _ _ _ (by omega), hlen, Nat.add_assoc, Nat.add_sub_cancel_left]
        exact field_flatMap (slotBlock_length b) hget h
    obtain ⟨hslot, hcounters⟩ := slotBlock_reads b i
    refine ⟨(inside 0 1 (by omega)).trans hslot, fun m => ?_⟩
    rw [Nat.add_assoc (51 + 22 * n), inside _ _ (by omega), inside _ _ (by omega)]
    exact hcounters m

/-! ### The requests -/

theorem exec_sessionStatus_of_serves {s : State} {r : Request} {rest : List Request} (h : s.Serves .sessionStatus r rest) :
    exec .sessionStatus s = .next (s.replied rest (r.ok s.sessionReport)) :=
  congrArg Host.Outcome.next (State.takeRequest_serves h _)

theorem exec_slotStatus_of_serves {s : State} {r : Request} {rest : List Request} (h : s.Serves .slotStatus r rest) :
    exec .slotStatus s = .next (if field r.params 1 1 = 0 ∨ 32 < field r.params 1 1 ∨ 191 < field r.params 0 1 ∨
        192 < field r.params 0 1 + field r.params 1 1 then s.replied rest (r.reply .refusedRange 0 [])
      else s.replied rest (r.ok (leBytes 1 (field r.params 1 1) ++
        (slotRange (field r.params 0 1) (field r.params 1 1)).flatMap (fun i => slotEntry i (s.slot i) s.now)))) :=
  congrArg Host.Outcome.next (State.takeRequest_serves h _)

theorem exec_readSnapshot_of_serves {s : State} {r : Request} {rest : List Request} (h : s.Serves .readSnapshot r rest) :
    exec .readSnapshot s = .next (if slotsBad (field r.params 0 1) (field r.params 1 1) 32 = true then
        s.replied rest (r.reply .refusedRange (slotsDetail 203 (field r.params 0 1) (field r.params 1 1) 32 r.params) [])
      else s.replied rest (r.ok (s.ncu.bank.report (field r.params 0 1) (field r.params 1 1)))) :=
  congrArg Host.Outcome.next (State.takeRequest_serves h _)

theorem exec_identify_of_heads {s : State} {r : Request} {rest : List Request} (h : s.Heads .identify r rest)
    (hps : r.params = []) : exec .identify s = .next (s.replied rest (r.ok s.identity)) := by
  refine congrArg Host.Outcome.next ((State.takeRequest_of_heads h _).trans ?_)
  rw [if_neg (by simp), if_neg (by simp [ReqKind.takenIn]), if_neg (by simp [ReqKind.lengthOk, hps])]
  rfl

/-- The data of an accepted SLOT STATUS: the count, and an entry for each slot of the range in order. -/
theorem slotEntries_reads (s : State) (first count : Nat) (hcount : count ≤ 32) (hrange : first + count ≤ 192) :
    let d := leBytes 1 count ++ (slotRange first count).flatMap (fun i => slotEntry i (s.slot i) s.now)
    d.length = 1 + 68 * count ∧ field d 0 1 = count ∧ ∀ (n : Nat) (i : SlotIx), n < count → i.val = first + n →
      (d.drop (1 + 68 * n)).take 68 = slotEntry i (s.slot i) s.now := by
  have hlen : ∀ i, (slotEntry i (s.slot i) s.now).length = 68 := fun i => slotEntry_length _ _ _
  refine ⟨?_, ?_, fun n i hn hi => ?_⟩
  · rw [List.length_append, leBytes_length, flatMap_length _ 68 hlen, slotRange_length _ _ hrange]
  · rw [field_head, Nat.mod_eq_of_lt (by omega)]
  · rw [List.drop_append, leBytes_length, List.drop_eq_nil_of_le (by simp), List.nil_append, Nat.add_sub_cancel_left]
    exact flatMap_entry _ 68 hlen _ n i (slotRange_get first count n i hrange hn hi)

/-- Settles O17: the requests by their outcomes, the reports by their fields, the codes by evaluation. -/
theorem reportsChangeNoState : Obligations.ReportsChangeNoState := by
  refine ⟨fun s r rest h hps => exec_identify_of_heads h hps, fun s r rest h => exec_sessionStatus_of_serves h,
    fun s r rest h => ⟨fun hbad => ?_, fun hzero hcount hrange => ?_⟩,
    fun s r rest h => ⟨fun hcount hfirst hsum => ?_, fun hfirst hcount => ?_, fun hfirst hcount => ?_, fun hbad => ?_⟩,
    fun s => ?_, fun s => ?_, slotEntry_reads, Bank.report_reads, by decide⟩
  · rw [exec_slotStatus_of_serves h, if_pos hbad]
  · obtain ⟨hlen, hhead, hentries⟩ := slotEntries_reads s _ _ hcount hrange
    refine ⟨_, ?_, hlen, hhead, hentries⟩
    rw [exec_slotStatus_of_serves h, if_neg (by omega)]
  · rw [exec_readSnapshot_of_serves h, if_neg (by rw [slotsBad_iff]; omega)]
  · obtain ⟨hone, -, -⟩ := slotsDetail_spec 203 (field r.params 0 1) (field r.params 1 1) 32 r.params
    rw [exec_readSnapshot_of_serves h, if_pos (by rw [slotsBad_iff]; omega), hone hfirst hcount]
  · obtain ⟨-, htwo, -⟩ := slotsDetail_spec 203 (field r.params 0 1) (field r.params 1 1) 32 r.params
    rw [exec_readSnapshot_of_serves h, if_pos (by rw [slotsBad_iff]; omega), htwo hfirst hcount]
  · obtain ⟨-, -, hany⟩ := slotsDetail_spec 203 (field r.params 0 1) (field r.params 1 1) 32 r.params
    refine ⟨_, hany, ?_⟩
    rw [exec_readSnapshot_of_serves h, if_pos (by rw [slotsBad_iff]; omega)]
  · have hcause : s.req.cause.code < 256 := by cases s.req.cause <;> decide
    simp only [State.identity_eq]
    refine ⟨by simp [layout_length, State.identityFields], field_layout_whole 0 rfl rfl (by norm_num),
      field_layout_whole 1 rfl rfl (by norm_num), field_layout_whole 2 rfl rfl (by norm_num),
      field_layout_whole 3 rfl rfl (by split <;> norm_num), field_layout_whole 4 rfl rfl hcause,
      field_layout_last 5 rfl rfl, field_layout_whole 6 rfl rfl (by norm_num), field_layout_whole 7 rfl rfl (by norm_num),
      field_layout_whole 8 rfl rfl (by norm_num), field_layout_whole 9 rfl rfl (by norm_num),
      field_layout_whole 10 rfl rfl (by norm_num), field_layout_whole 11 rfl rfl (by norm_num),
      field_layout_whole 12 rfl rfl (by norm_num)⟩
  · obtain ⟨hlen, hhold, hflow, hup, hcounts, hseen, hlost⟩ := s.engineFields_reads
    exact ⟨s.sessionReport_length, s.sessionReport_phase, (s.sessionReport_engine 4 2).trans hlen,
      (s.sessionReport_engine 8 1).trans hhold, (s.sessionReport_engine 9 1).trans hflow,
      (s.sessionReport_engine 10 1).trans hup,
      fun st => by rw [show 66 + st.code = 55 + (11 + st.code) by omega]; exact (s.sessionReport_engine _ 1).trans (hcounts st),
      (s.sessionReport_engine 22 2).trans hseen, (s.sessionReport_engine 24 1).trans hlost,
      State.sessionReport_reads_idle, fun x => State.sessionReport_reads⟩

end Sys2Proof.Machine
end

section
/-! SUPPORT. The values of OPEN SESSION: the policies' codes, the ranges of R4, and the first structural value that fails.
Then the statements about OPEN SESSION. -/

set_option Elab.async false

namespace Sys2Proof.Machine

/-! ### Codes of the policies -/

theorem JoinPolicy.ofCode_eq_none : ∀ {n : Nat}, JoinPolicy.ofCode n = none ↔ ¬n ≤ 1
  | 0 | 1 => by simp [JoinPolicy.ofCode]
  | n + 2 => by simp [JoinPolicy.ofCode]

theorem LaggardPolicy.ofCode_eq_none : ∀ {n : Nat}, LaggardPolicy.ofCode n = none ↔ ¬n ≤ 2
  | 0 | 1 | 2 => by simp [LaggardPolicy.ofCode]
  | n + 3 => by simp [LaggardPolicy.ofCode]

theorem VerifyMode.ofCode_eq_none : ∀ {n : Nat}, VerifyMode.ofCode n = none ↔ ¬n ≤ 2
  | 0 | 1 | 2 => by simp [VerifyMode.ofCode]
  | n + 3 => by simp [VerifyMode.ofCode]

theorem QualifyMode.ofCode_eq_none : ∀ {n : Nat}, QualifyMode.ofCode n = none ↔ ¬n ≤ 1
  | 0 | 1 => by simp [QualifyMode.ofCode]
  | n + 2 => by simp [QualifyMode.ofCode]

theorem JoinPolicy.code_ofCode (d : JoinPolicy) : ∀ {n : Nat}, n ≤ 1 → ((JoinPolicy.ofCode n).getD d).code = n
  | 0, _ | 1, _ => rfl

theorem LaggardPolicy.code_ofCode (d : LaggardPolicy) :
    ∀ {n : Nat}, n ≤ 2 → ((LaggardPolicy.ofCode n).getD d).code = n
  | 0, _ | 1, _ | 2, _ => rfl

theorem VerifyMode.code_ofCode (d : VerifyMode) : ∀ {n : Nat}, n ≤ 2 → ((VerifyMode.ofCode n).getD d).code = n
  | 0, _ | 1, _ | 2, _ => rfl

theorem QualifyMode.code_ofCode (d : QualifyMode) : ∀ {n : Nat}, n ≤ 1 → ((QualifyMode.ofCode n).getD d).code = n
  | 0, _ | 1, _ => rfl

/-! ### The ranges of R4 -/

theorem clamp_eq {lo hi : Nat} (h : lo ≤ hi) (v : Nat) : clamp lo hi v = max lo (min hi v) := by
  unfold clamp
  split_ifs <;> omega

/-- R4: the default where it is asked for, the value brought into its range otherwise. -/
theorem TuneRange.value_eq {r : TuneRange} (h : r.lo ≤ r.hi) (dflt : Bool) (v : Nat) :
    r.value dflt v = if dflt = true then r.dflt else max r.lo (min r.hi v) := by
  rw [TuneRange.value, clamp_eq h]

/-- R4: a tunable value lies in its range. -/
theorem TuneRange.value_mem {r : TuneRange} (h : r.lo ≤ r.dflt ∧ r.dflt ≤ r.hi) (dflt : Bool) (v : Nat) :
    r.lo ≤ r.value dflt v ∧ r.value dflt v ≤ r.hi := by
  rw [TuneRange.value_eq (h.1.trans h.2)]
  split_ifs <;> omega

/-! ### The first structural value that fails -/

theorem openFailure_eq (ps : List Byte) :
    openFailure ps =
      if ¬(1 ≤ field ps 0 4 ∧ field ps 0 4 ≤ 1048576) then some 1
      else if ¬(32 ≤ field ps 4 2 ∧ field ps 4 2 ≤ 4096) then some 2
      else if ¬(field ps 6 2 < field ps 8 2 ∧ field ps 8 2 ≤ field ps 4 2) then some 3
      else if ¬(4 ≤ openProbeCount ps ∧ openProbeCount ps ≤ 16) then some 5
      else if ¬field ps 11 1 ≤ 1 then some 6
      else if ¬field ps 12 1 ≤ 2 then some 7
      else if ¬field ps 13 1 ≤ 2 then some 8
      else if ¬field ps 14 1 ≤ 1 then some 9
      else none := by
  have hL : (field ps 0 4 = 0 ∨ Config.maxChunks < field ps 0 4) ↔ ¬(1 ≤ field ps 0 4 ∧ field ps 0 4 ≤ 1048576) := by
    rw [Config.maxChunks]; omega
  have hW : (field ps 4 2 < 32 ∨ 4096 < field ps 4 2) ↔ ¬(32 ≤ field ps 4 2 ∧ field ps 4 2 ≤ 4096) := by omega
  have hK : (openProbeCount ps < 4 ∨ 16 < openProbeCount ps) ↔ ¬(4 ≤ openProbeCount ps ∧ openProbeCount ps ≤ 16) := by
    omega
  have hPQ : marksOk (field ps 4 2) (field ps 6 2) (field ps 8 2) = false ↔
      ¬(field ps 6 2 < field ps 8 2 ∧ field ps 8 2 ≤ field ps 4 2) := by
    rw [marksOk, ← Bool.not_eq_true, Bool.and_eq_true, decide_eq_true_iff, decide_eq_true_iff]
  simp only [openFailure, hL, hW, hPQ, hK, JoinPolicy.ofCode_eq_none, LaggardPolicy.ofCode_eq_none,
    VerifyMode.ofCode_eq_none, QualifyMode.ofCode_eq_none]

/-- Eight checks in a row name the first that fails, by its position. -/
theorem first_failing {c1 c2 c3 c4 c5 c6 c7 c8 : Prop} [Decidable c1] [Decidable c2] [Decidable c3] [Decidable c4]
    [Decidable c5] [Decidable c6] [Decidable c7] [Decidable c8] {f : Option Nat}
    (hf : f = if ¬c1 then some 1 else if ¬c2 then some 2 else if ¬c3 then some 3 else if ¬c4 then some 5
      else if ¬c5 then some 6 else if ¬c6 then some 7 else if ¬c7 then some 8 else if ¬c8 then some 9 else none) :
    (f = some 1 ↔ ¬c1) ∧ (f = some 2 ↔ c1 ∧ ¬c2) ∧ (f = some 3 ↔ c1 ∧ c2 ∧ ¬c3) ∧ (f = some 5 ↔ c1 ∧ c2 ∧ c3 ∧ ¬c4) ∧
    (f = some 6 ↔ c1 ∧ c2 ∧ c3 ∧ c4 ∧ ¬c5) ∧ (f = some 7 ↔ c1 ∧ c2 ∧ c3 ∧ c4 ∧ c5 ∧ ¬c6) ∧
    (f = some 8 ↔ c1 ∧ c2 ∧ c3 ∧ c4 ∧ c5 ∧ c6 ∧ ¬c7) ∧ (f = some 9 ↔ c1 ∧ c2 ∧ c3 ∧ c4 ∧ c5 ∧ c6 ∧ c7 ∧ ¬c8) ∧
    (f = none ↔ c1 ∧ c2 ∧ c3 ∧ c4 ∧ c5 ∧ c6 ∧ c7 ∧ c8) := by
  subst hf
  split_ifs <;> simp [*]

theorem openProbeCount_eq (ps : List Byte) :
    openProbeCount ps = if (field ps 34 2).testBit 0 = true then 8 else field ps 10 1 := rfl

theorem openRecord_reads {ps : List Byte} (hjoin : field ps 11 1 ≤ 1) (hlaggard : field ps 12 1 ≤ 2)
    (hverify : field ps 13 1 ≤ 2) (hqualify : field ps 14 1 ≤ 1) :
    (openRecord ps).join.code = field ps 11 1 ∧ (openRecord ps).laggard.code = field ps 12 1 ∧
    (openRecord ps).verify.code = field ps 13 1 ∧ (openRecord ps).qualify.code = field ps 14 1 :=
  ⟨JoinPolicy.code_ofCode _ hjoin, LaggardPolicy.code_ofCode _ hlaggard, VerifyMode.code_ofCode _ hverify,
    QualifyMode.code_ofCode _ hqualify⟩

/-- Settles O19: the checks by `first_failing`, the tunable values range by range. -/
theorem openSessionValuesAreChecked : Obligations.OpenSessionValuesAreChecked := by
  intro ps
  have hfirst := first_failing (openFailure_eq ps)
  refine ⟨hfirst, fun hnone => ?_, ?_⟩
  · obtain ⟨-, -, -, -, -, -, -, -, hall⟩ := hfirst
    obtain ⟨-, -, -, -, hjoin, hlaggard, hverify, hqualify⟩ := hall.mp hnone
    obtain ⟨join, laggard, verify, qualify⟩ := openRecord_reads hjoin hlaggard hverify hqualify
    exact ⟨rfl, rfl, rfl, rfl, rfl, rfl, join, laggard, verify, qualify, rfl, rfl, rfl, rfl, rfl, rfl, rfl, rfl, rfl⟩
  · have eq := fun (r : TuneRange) (h : r.lo ≤ r.hi) m v => TuneRange.value_eq h (member (field ps 34 2) m) v
    have mem := fun (r : TuneRange) (h : r.lo ≤ r.dflt ∧ r.dflt ≤ r.hi) m v =>
      TuneRange.value_mem h (member (field ps 34 2) m) v
    have heject := mem ejectRange (by decide) 10 (field ps 31 1)
    have hthrottle := mem throttleRange (by decide) 9 (field ps 30 1)
    refine ⟨eq depthRange (by decide) 1 _, eq commandTimeoutRange (by decide) 2 _, eq retryLimitRange (by decide) 3 _,
      eq settleTimeRange (by decide) 4 _, eq paceIntervalRange (by decide) 5 _, eq declareCountRange (by decide) 6 _,
      eq clearCountRange (by decide) 7 _, eq decayIntervalRange (by decide) 8 _,
      congrArg₂ min (eq throttleRange (by decide) 9 _) (eq ejectRange (by decide) 10 _), eq ejectRange (by decide) 10 _,
      eq residencyMinRange (by decide) 11 _, eq stampWaitRange (by decide) 12 _, ?_⟩
    exact ⟨(mem depthRange (by decide) 1 _).1, (mem depthRange (by decide) 1 _).2,
      (mem commandTimeoutRange (by decide) 2 _).1, (mem commandTimeoutRange (by decide) 2 _).2,
      (mem retryLimitRange (by decide) 3 _).2,
      (mem settleTimeRange (by decide) 4 _).1, (mem settleTimeRange (by decide) 4 _).2,
      (mem paceIntervalRange (by decide) 5 _).1, (mem paceIntervalRange (by decide) 5 _).2,
      (mem declareCountRange (by decide) 6 _).1, (mem declareCountRange (by decide) 6 _).2,
      (mem clearCountRange (by decide) 7 _).1, (mem clearCountRange (by decide) 7 _).2,
      (mem decayIntervalRange (by decide) 8 _).1, (mem decayIntervalRange (by decide) 8 _).2,
      le_min hthrottle.1 heject.1, min_le_right _ _, heject.2,
      (mem residencyMinRange (by decide) 11 _).1, (mem residencyMinRange (by decide) 11 _).2,
      (mem stampWaitRange (by decide) 12 _).1, (mem stampWaitRange (by decide) 12 _).2⟩

end Sys2Proof.Machine
end

section
/-! SUPPORT. What sizing every PRESENT slot leaves as it was. Then the statement that OPEN SESSION fills the record. -/

set_option Elab.async false

namespace Sys2Proof.Machine

/-! ### Sizing -/

theorem State.enterSizing_self (s : State) (i : SlotIx) : (s.enterSizing i).slot i =
    { s.slot i with
      state := .sizing, qual := some ⟨.size, s.sizeProbe i, 0⟩, inFlight := [], capacity := none, changeMark := true
      lamp := (s.slot i).lamp.eval .amberSteady } := by
  simp [State.enterSizing, Slot.moved, SlotState.lamp]

theorem State.enterSizing_ne (s : State) {i j : SlotIx} (h : i ≠ j) : (s.enterSizing i).slot j = s.slot j := by
  simp [State.enterSizing, h]

/-- R5: the probe index of phase SIZE is one of 0 to K - 1. -/
theorem State.sizeProbe_lt {s : State} (i : SlotIx) (h : 0 < s.ses.probeCount) : s.sizeProbe i < s.ses.probeCount :=
  Nat.mod_lt _ h

/-- What an event that changes slot records and raises their changes leaves as it was: everything but the slots, the
notices, the seen flags and the lost notices. -/
structure OnlySlots (s t : State) : Prop where
  session : t.session = s.session
  now : t.now = s.now
  intake : t.intake = s.intake
  win : t.win = s.win
  wsc : t.wsc = s.wsc
  links : t.links = s.links
  stu : t.stu = s.stu
  req : t.req = s.req
  mask : t.ncu.mask = s.ncu.mask
  bank : t.ncu.bank = s.ncu.bank
  counters : ∀ n : Fin 10, n ≠ 9 → t.ncu.counters[n] = s.ncu.counters[n]

theorem OnlySlots.refl (s : State) : OnlySlots s s :=
  ⟨rfl, rfl, rfl, rfl, rfl, rfl, rfl, rfl, rfl, rfl, fun _ _ => rfl⟩

theorem OnlySlots.trans {s t u : State} (h : OnlySlots s t) (k : OnlySlots t u) : OnlySlots s u :=
  ⟨k.session.trans h.session, k.now.trans h.now, k.intake.trans h.intake, k.win.trans h.win, k.wsc.trans h.wsc,
    k.links.trans h.links, k.stu.trans h.stu, k.req.trans h.req, k.mask.trans h.mask, k.bank.trans h.bank,
    fun n hn => (k.counters n hn).trans (h.counters n hn)⟩

theorem OnlySlots.updSlot (s : State) (i : SlotIx) (f : Slot → Slot) : OnlySlots s (s.updSlot i f) :=
  ⟨rfl, rfl, rfl, rfl, rfl, rfl, rfl, rfl, rfl, rfl, fun _ _ => rfl⟩

theorem OnlySlots.raise (s : State) (e : Event) : OnlySlots s (s.raise e) :=
  ⟨by simp, by simp, by simp, by simp, by simp, by simp, by simp, by simp, by simp, by simp, s.raise_counters e⟩

theorem OnlySlots.moveSlot (s : State) (i : SlotIx) (new : SlotState) : OnlySlots s (s.moveSlot i new) :=
  ⟨by simp, by simp, by simp, by simp, by simp, by simp, by simp, by simp, by simp, by simp,
    fun n hn => s.moveSlot_counters i new n hn⟩

theorem OnlySlots.enterSizing (s : State) (i : SlotIx) : OnlySlots s (s.enterSizing i) :=
  (OnlySlots.updSlot s i _).trans (OnlySlots.moveSlot _ i _)

theorem OnlySlots.forSlots (s : State) {f : SlotIx → State → State} (hf : ∀ i t, OnlySlots t (f i t)) :
    OnlySlots s (s.forSlots f) :=
  State.forSlots_keeps (OnlySlots s) (fun i t h => h.trans (hf i t)) (OnlySlots.refl s)

/-- Every PRESENT slot enters SIZING. -/
def State.sizePresent (s : State) : State :=
  s.forSlots (fun i u => if (u.slot i).state = .present then u.enterSizing i else u)

theorem OnlySlots.sizePresent (s : State) : OnlySlots s s.sizePresent :=
  OnlySlots.forSlots s fun i t => by
    split
    · exact OnlySlots.enterSizing t i
    · exact OnlySlots.refl t

theorem State.sizePresent_slot {s : State} {x : Session} (hx : s.session = some x) (hk : 0 < x.probeCount) (i : SlotIx) :
    ((s.slot i).state = .present → ∃ j, j < x.probeCount ∧ s.sizePresent.slot i = { s.slot i with
      state := .sizing, qual := some ⟨.size, j, 0⟩, inFlight := [], capacity := none, changeMark := true
      lamp := (s.slot i).lamp.eval .amberSteady }) ∧
    ((s.slot i).state ≠ .present → s.sizePresent.slot i = s.slot i) := by
  refine State.forSlots_slot (fun u => u.session = some x) (fun i t ht => ?_) (fun i j t hij => ?_)
    (fun _ old new => (old.state = .present → ∃ j, j < x.probeCount ∧ new = { old with
      state := .sizing, qual := some ⟨.size, j, 0⟩, inFlight := [], capacity := none, changeMark := true
      lamp := old.lamp.eval .amberSteady }) ∧ (old.state ≠ .present → new = old)) (fun i t ht => ?_) hx i
  · split
    · exact (OnlySlots.enterSizing t i).session.trans ht
    · exact ht
  · split
    · exact t.enterSizing_ne hij
    · rfl
  · have hlt := State.sizeProbe_lt (s := t) i (by rwa [State.ses_eq ht])
    rw [State.ses_eq ht] at hlt
    split
    · next h => exact ⟨fun _ => ⟨_, hlt, t.enterSizing_self i⟩, fun hn => absurd h hn⟩
    · next h => exact ⟨fun hp => absurd hp h, fun _ => rfl⟩

/-! ### OPEN SESSION -/

/-- The record filled, the timers started and the live counters zeroed (R5 steps 1 to 4, R200). -/
def State.sessionOpened (s : State) (x : Session) : State :=
  State.zeroCounters { s with
    session := some x
    wsc.paceAt := some (s.now + x.tune.paceInterval)
    wsc.decayAt := some (s.now + 1000 * x.tune.decayInterval) }

theorem State.sessionOpened_slot (s : State) (x : Session) (i : SlotIx) :
    (s.sessionOpened x).slot i = { s.slot i with counters := .replicate 5 ⟨0, false⟩ } := by
  simp [State.sessionOpened, State.zeroCounters, State.slot, Counter.zero]

theorem exec_openSession_of_serves {s : State} {r : Request} {rest : List Request} (h : s.Serves .openSession r rest) :
    (∀ p, openFailure r.params = some p →
      exec .openSession s = .next (s.replied rest (r.reply .refusedRange p []))) ∧
    (openFailure r.params = none → exec .openSession s = .next
      (((s.took rest).sessionOpened (openRecord r.params)).sizePresent.accept r .ok (paramBlock (openRecord r.params)))) := by
  constructor <;> intro
  · intro hp
    refine congrArg Host.Outcome.next ((State.takeRequest_serves h _).trans ?_)
    simp only [hp]
    rfl
  · next hp =>
    refine congrArg Host.Outcome.next ((State.takeRequest_serves h _).trans ?_)
    simp only [hp]
    rfl

/-- Settles O18: the refusal by its value, the record by `OnlySlots.sizePresent` and slot by slot. -/
theorem openSessionFillsTheRecord : Obligations.OpenSessionFillsTheRecord := by
  intro s r rest h
  obtain ⟨hbad, hok⟩ := exec_openSession_of_serves h
  refine ⟨hbad, fun hnone => ⟨_, hok hnone, ?_⟩⟩
  obtain ⟨-, -, -, -, -, -, -, -, hall⟩ := first_failing (openFailure_eq r.params)
  obtain ⟨-, -, -, ⟨hk, -⟩, -⟩ := hall.mp hnone
  have hk : 0 < (openRecord r.params).probeCount := Nat.lt_of_lt_of_le (by decide) hk
  have hslot := fun i => State.sizePresent_slot (s := (s.took rest).sessionOpened (openRecord r.params)) rfl hk i
  simp only [State.sessionOpened_slot] at hslot
  have hsize := OnlySlots.sizePresent ((s.took rest).sessionOpened (openRecord r.params))
  simp only [State.accept_session, State.accept_wsc, State.accept_ncu, State.accept_intake, State.accept_win,
    State.accept_links, State.accept_stu, State.accept_now, State.accept_slot]
  generalize State.sizePresent _ = t at hsize hslot ⊢
  refine ⟨hsize.session, ?_, hsize.wsc, fun n hn => ?_, hsize.bank, hsize.mask, hsize.intake, hsize.win, hsize.links,
    hsize.stu, hsize.now, fun i => ?_⟩
  · simp only [State.accept, State.pushReply, hsize.req]
    rfl
  · refine (hsize.counters n hn).trans ?_
    simp [State.sessionOpened, State.zeroCounters, Counter.zero]
  · exact hslot i

end Sys2Proof.Machine
end

section
/-! SUPPORT. Runs of bytes that meet or lie within each other, and the checks of LOAD PATCH SITE and LOAD GUARD REGION read
with them. Then the statements about the patch table. -/

set_option Elab.async false

namespace Sys2Proof.Machine

/-! ### Runs of bytes -/

theorem runs_meet {a la b lb : Nat} (ha : 1 ≤ la) (hb : 1 ≤ lb) :
    (a < b + lb ∧ b < a + la) ↔ ∃ x, (a ≤ x ∧ x < a + la) ∧ (b ≤ x ∧ x < b + lb) :=
  ⟨fun h => ⟨max a b, by omega⟩, fun ⟨x, h⟩ => by omega⟩

theorem run_within {a la b lb : Nat} (ha : 1 ≤ la) :
    (b ≤ a ∧ a + la ≤ b + lb) ↔ ∀ x, a ≤ x ∧ x < a + la → b ≤ x ∧ x < b + lb := by
  refine ⟨fun h x hx => by omega, fun h => ?_⟩
  have hfirst := h a (by omega)
  have hlast := h (a + la - 1) (by omega)
  omega

theorem Site.overlaps_iff {t u : Site} (ht : 1 ≤ t.width) (hu : 1 ≤ u.width) : t.overlaps u = true ↔
    u.chunk = t.chunk ∧ ∃ x, (t.offset ≤ x ∧ x < t.offset + t.width) ∧ (u.offset ≤ x ∧ x < u.offset + u.width) := by
  rw [Site.overlaps, Bool.and_eq_true, Bool.and_eq_true, beq_iff_eq, decide_eq_true_eq, decide_eq_true_eq, and_assoc, runs_meet ht hu,
    eq_comm (a := t.chunk)]

theorem Site.touches_iff {t : Site} {g : Region} (ht : 1 ≤ t.width) (hg : 1 ≤ g.length) : t.touches g = true ↔
    g.chunk = t.chunk ∧ ∃ x, (t.offset ≤ x ∧ x < t.offset + t.width) ∧ (g.start ≤ x ∧ x < g.start + g.length) := by
  rw [Site.touches, Bool.and_eq_true, Bool.and_eq_true, beq_iff_eq, decide_eq_true_eq, decide_eq_true_eq, and_assoc, runs_meet ht hg,
    eq_comm (a := t.chunk)]

theorem Site.inside_iff {t : Site} {g : Region} (ht : 1 ≤ t.width) : t.inside g = true ↔
    g.chunk = t.chunk ∧ ∀ x, t.offset ≤ x ∧ x < t.offset + t.width → g.start ≤ x ∧ x < g.start + g.length := by
  rw [Site.inside, Bool.and_eq_true, Bool.and_eq_true, beq_iff_eq, decide_eq_true_eq, decide_eq_true_eq, and_assoc, run_within ht,
    eq_comm (a := t.chunk)]

theorem Region.overlaps_iff {g h : Region} (hg : 1 ≤ g.length) (hh : 1 ≤ h.length) : g.overlaps h = true ↔
    h.chunk = g.chunk ∧ ∃ x, (g.start ≤ x ∧ x < g.start + g.length) ∧ (h.start ≤ x ∧ x < h.start + h.length) := by
  rw [Region.overlaps, Bool.and_eq_true, Bool.and_eq_true, beq_iff_eq, decide_eq_true_eq, decide_eq_true_eq, and_assoc, runs_meet hg hh,
    eq_comm (a := g.chunk)]

/-- A site cuts a region: it has a byte inside and one outside. -/
theorem Site.cuts_iff {t : Site} {g : Region} (ht : 1 ≤ t.width) (hg : 1 ≤ g.length) :
    (t.touches g && !t.inside g) = true ↔ t.chunk = g.chunk ∧
      (∃ x, (t.offset ≤ x ∧ x < t.offset + t.width) ∧ (g.start ≤ x ∧ x < g.start + g.length)) ∧
      ∃ x, (t.offset ≤ x ∧ x < t.offset + t.width) ∧ ¬(g.start ≤ x ∧ x < g.start + g.length) := by
  rw [Bool.and_eq_true, Bool.not_eq_true', ← Bool.not_eq_true, Site.touches_iff ht hg, Site.inside_iff ht]
  constructor
  · rintro ⟨⟨hchunk, hmeet⟩, hout⟩
    exact ⟨hchunk.symm, hmeet, by by_contra hn; exact hout ⟨hchunk, fun x hx => by_contra fun hg => hn ⟨x, hx, hg⟩⟩⟩
  · rintro ⟨hchunk, hmeet, x, hx, hg⟩
    exact ⟨⟨hchunk.symm, hmeet⟩, fun h => hg (h.2 x hx)⟩

/-! ### The checks of R117 -/

theorem regionRefused_iff {g : Region} {l : Nat} {sites : List Site} {regions : List Region} (hs : ∀ t ∈ sites, 1 ≤ t.width)
    (hr : ∀ h ∈ regions, 1 ≤ h.length) : regionRefused g l sites regions = true ↔
      l ≤ g.chunk ∨ g.length < 8 ∨ 65536 < g.length ∨ 65536 < g.start + g.length ∨
      (∃ h ∈ regions, h.chunk = g.chunk ∧
        ∃ b, (g.start ≤ b ∧ b < g.start + g.length) ∧ (h.start ≤ b ∧ b < h.start + h.length)) ∨
      (∃ t ∈ sites, t.chunk = g.chunk ∧
        (∃ b, (t.offset ≤ b ∧ b < t.offset + t.width) ∧ (g.start ≤ b ∧ b < g.start + g.length)) ∧
        ∃ b, (t.offset ≤ b ∧ b < t.offset + t.width) ∧ ¬(g.start ≤ b ∧ b < g.start + g.length)) := by
  by_cases hg : g.length < 8
  · simp [regionRefused, hg]
  · have hone : 1 ≤ g.length := by omega
    have hregions : regions.any g.overlaps = true ↔ ∃ h ∈ regions, h.chunk = g.chunk ∧
        ∃ b, (g.start ≤ b ∧ b < g.start + g.length) ∧ (h.start ≤ b ∧ b < h.start + h.length) := by
      rw [List.any_eq_true]
      exact exists_congr fun h => and_congr_right fun hm => Region.overlaps_iff hone (hr h hm)
    have hsites := List.any_eq_true (l := sites) (p := fun t => t.touches g && !t.inside g) |>.trans
      (exists_congr fun t => and_congr_right fun hm => Site.cuts_iff (hs t hm) hone)
    simp only [regionRefused, Bool.or_eq_true, decide_eq_true_eq, hregions, hsites, or_assoc]
    rfl

theorem exec_loadGuardRegion_of_serves {s : State} {x : Session} {r : Request} {rest : List Request}
    (h : s.Serves .loadGuardRegion r rest) (hx : s.session = some x) : exec .loadGuardRegion s = .next (
      if 4 ≤ s.stu.regions.length then s.replied rest (r.reply .refusedFull 0 [])
      else if regionRefused (regionOf r.params) x.imageLength s.stu.sites s.stu.regions = true then
        s.replied rest (r.reply .refusedRange 0 [])
      else { s.replied rest (r.ok (leBytes 1 s.stu.regions.length)) with
        stu.regions := s.stu.regions ++ [regionOf r.params] }) := by
  refine congrArg Host.Outcome.next ((State.takeRequest_serves h _).trans ?_)
  rw [← State.ses_eq hx]
  rfl

theorem exec_clearPatchTable_of_serves {s : State} {r : Request} {rest : List Request}
    (h : s.Serves .clearPatchTable r rest) : exec .clearPatchTable s =
      .next { s.replied rest (r.ok []) with stu.sites := [], stu.regions := [] } :=
  congrArg Host.Outcome.next (State.takeRequest_serves h _)

/-- Settles O22. -/
theorem guardRegionsAndClearing : Obligations.GuardRegionsAndClearing := by
  refine ⟨fun s x r rest h hx => ⟨fun hfull => ?_, fun hroom hbad => ?_, fun hroom hok => ⟨rfl, ?_⟩⟩,
    fun s r rest => exec_clearPatchTable_of_serves, fun _ => rfl, fun g l sites regions => regionRefused_iff⟩
  · rw [exec_loadGuardRegion_of_serves h hx, if_pos hfull]
  · rw [exec_loadGuardRegion_of_serves h hx, if_neg (by omega), if_pos hbad]
  · rw [exec_loadGuardRegion_of_serves h hx, if_neg (by omega), if_neg (by simp [hok])]

/-! ### The placement checks of R116 -/

/-- A GUARD's region check (R116 check 5). -/
def guardOutside (t : Site) (regions : List Region) : Bool :=
  match t.kind with
  | .guard n => (regions[n]?).any (fun g => !t.inside g)
  | _ => false

/-- A GUARD's region has a GUARD already (R116 check 6). -/
def guardTaken (t : Site) (sites : List Site) : Bool :=
  match t.kind with
  | .guard n => (guardSiteOf sites n).isSome
  | _ => false

theorem placementFailure_eq (t : Site) (l : Nat) (sites : List Site) (regions : List Region) :
    placementFailure t l sites regions =
      if l ≤ t.chunk then some 1
      else if 65536 < t.offset + t.width then some 2
      else if sites.any t.overlaps = true then some 3
      else if regions.any (fun g => t.touches g && !t.inside g) = true then some 4
      else if guardOutside t regions = true then some 5
      else if guardTaken t sites = true then some 6
      else none := by
  unfold placementFailure guardOutside guardTaken
  cases t.kind <;> simp [Config.chunkBytes]

theorem guardOutside_iff {t : Site} {regions : List Region} (ht : 1 ≤ t.width) : guardOutside t regions = false ↔
    ∀ n g, t.kind = .guard n → regions[n]? = some g → g.chunk = t.chunk ∧
      ∀ x, t.offset ≤ x ∧ x < t.offset + t.width → g.start ≤ x ∧ x < g.start + g.length := by
  unfold guardOutside
  cases hk : t.kind with
  | guard n =>
    simp only [← Site.inside_iff ht]
    constructor
    · rintro h _ g ⟨rfl⟩ hg
      simpa [hg] using h
    · intro h
      cases hg : regions[n]? with
      | none => rfl
      | some g => simp [h n g rfl hg]
  | _ => simp

theorem guardTaken_iff {t : Site} {sites : List Site} : guardTaken t sites = false ↔
    ∀ n, t.kind = .guard n → ∀ u ∈ sites, u.kind ≠ .guard n := by
  unfold guardTaken
  cases hk : t.kind <;> simp [guardSiteOf, List.findIdx?_isSome]

/-- Six checks in a row, each the failure of what it asks for: the first that fails is named. -/
theorem six_checks {b1 b2 b3 b4 b5 b6 c1 c2 c3 c4 c5 c6 : Prop} [Decidable b1] [Decidable b2] [Decidable b3]
    [Decidable b4] [Decidable b5] [Decidable b6] (h1 : b1 ↔ ¬c1) (h2 : b2 ↔ ¬c2) (h3 : b3 ↔ ¬c3) (h4 : b4 ↔ ¬c4)
    (h5 : b5 ↔ ¬c5) (h6 : b6 ↔ ¬c6) {f : Option Nat}
    (hf : f = if b1 then some 1 else if b2 then some 2 else if b3 then some 3 else if b4 then some 4
      else if b5 then some 5 else if b6 then some 6 else none) :
    (f = some 1 ↔ ¬c1) ∧ (f = some 2 ↔ c1 ∧ ¬c2) ∧ (f = some 3 ↔ c1 ∧ c2 ∧ ¬c3) ∧ (f = some 4 ↔ c1 ∧ c2 ∧ c3 ∧ ¬c4) ∧
    (f = some 5 ↔ c1 ∧ c2 ∧ c3 ∧ c4 ∧ ¬c5) ∧ (f = some 6 ↔ c1 ∧ c2 ∧ c3 ∧ c4 ∧ c5 ∧ ¬c6) ∧
    (f = none ↔ c1 ∧ c2 ∧ c3 ∧ c4 ∧ c5 ∧ c6) := by
  subst hf
  rw [← not_iff_not, not_not] at h1 h2 h3 h4 h5 h6
  rw [← h1, ← h2, ← h3, ← h4, ← h5, ← h6]
  split_ifs <;> simp [*]

theorem placementFailure_checks {t : Site} (l : Nat) {sites : List Site} {regions : List Region} (ht : 1 ≤ t.width)
    (hs : ∀ u ∈ sites, 1 ≤ u.width) (hr : ∀ g ∈ regions, 1 ≤ g.length) :
    let has := fun (start length b : Nat) => start ≤ b ∧ b < start + length
    let ok1 := t.chunk < l
    let ok2 := t.offset + t.width ≤ 65536
    let ok3 := ∀ u ∈ sites, u.chunk = t.chunk → ∀ b, has t.offset t.width b → ¬has u.offset u.width b
    let ok4 := ∀ g ∈ regions, g.chunk = t.chunk → (∀ b, has t.offset t.width b → has g.start g.length b) ∨
      (∀ b, has t.offset t.width b → ¬has g.start g.length b)
    let ok5 := ∀ n g, t.kind = .guard n → regions[n]? = some g →
      g.chunk = t.chunk ∧ ∀ b, has t.offset t.width b → has g.start g.length b
    let ok6 := ∀ n, t.kind = .guard n → ∀ u ∈ sites, u.kind ≠ .guard n
    let f := placementFailure t l sites regions
    (f = some 1 ↔ ¬ok1) ∧ (f = some 2 ↔ ok1 ∧ ¬ok2) ∧ (f = some 3 ↔ ok1 ∧ ok2 ∧ ¬ok3) ∧
    (f = some 4 ↔ ok1 ∧ ok2 ∧ ok3 ∧ ¬ok4) ∧ (f = some 5 ↔ ok1 ∧ ok2 ∧ ok3 ∧ ok4 ∧ ¬ok5) ∧
    (f = some 6 ↔ ok1 ∧ ok2 ∧ ok3 ∧ ok4 ∧ ok5 ∧ ¬ok6) ∧ (f = none ↔ ok1 ∧ ok2 ∧ ok3 ∧ ok4 ∧ ok5 ∧ ok6) := by
  intro has ok1 ok2 ok3 ok4 ok5 ok6 f
  refine six_checks ?_ ?_ ?_ ?_ ?_ ?_ (placementFailure_eq t l sites regions)
  · exact not_lt.symm
  · exact not_le.symm
  · rw [List.any_eq_true]
    constructor
    · rintro ⟨u, hu, h⟩ hok
      obtain ⟨hchunk, x, hx, hux⟩ := (Site.overlaps_iff ht (hs u hu)).mp h
      exact hok u hu hchunk x hx hux
    · intro hn
      by_contra hall
      exact hn fun u hu hchunk x hx hux => hall ⟨u, hu, (Site.overlaps_iff ht (hs u hu)).mpr ⟨hchunk, x, hx, hux⟩⟩
  · rw [List.any_eq_true]
    constructor
    · rintro ⟨g, hg, h⟩ hok
      obtain ⟨hchunk, ⟨x, hx, hgx⟩, y, hy, hgy⟩ := (Site.cuts_iff ht (hr g hg)).mp h
      rcases hok g hg hchunk.symm with hin | hout
      · exact hgy (hin y hy)
      · exact hout x hx hgx
    · intro hn
      by_contra hall
      refine hn fun g hg hchunk => or_iff_not_imp_left.mpr fun hin x hx hgx => hall ⟨g, hg, ?_⟩
      obtain ⟨y, hy⟩ := not_forall.mp hin
      exact (Site.cuts_iff ht (hr g hg)).mpr ⟨hchunk.symm, ⟨x, hx, hgx⟩, y, Classical.not_imp.mp hy⟩
  · rw [← Bool.not_eq_false]; exact not_congr (guardOutside_iff ht)
  · rw [← Bool.not_eq_false]; exact not_congr guardTaken_iff

/-! ### The value checks of R115 -/

theorem kindWidths_of_le {code : Nat} (h : code ≤ 8) : kindWidths code =
    some (if code = 3 then 2 else if code = 8 then 4 else 1, [8, 8, 20, 20, 16, 8, 8, 32, 4].getD code 0) := by
  interval_cases code <;> rfl

theorem kindWidths_of_gt {code : Nat} (h : 8 < code) : kindWidths code = none := by
  obtain ⟨n, rfl⟩ := Nat.exists_eq_add_of_lt h
  rw [show 8 + n + 1 = n + 9 by omega]
  rfl

theorem OverflowMode.ofCode_eq_none : ∀ {n : Nat}, OverflowMode.ofCode n = none ↔ 2 < n
  | 0 | 1 | 2 => by simp [OverflowMode.ofCode]
  | n + 3 => by simp [OverflowMode.ofCode]

theorem OverflowMode.ofCode_getD : ∀ {n : Nat}, n ≤ 2 →
    (OverflowMode.ofCode n).getD .wrap = [OverflowMode.wrap, .clamp, .defer].getD n .wrap
  | 0, _ | 1, _ | 2, _ => rfl

/-- Of two values that fail a check, the one named is one of the two; of one, it is that one. -/
theorem namedAmong_failing (rule check : Nat) (ps : List Byte) (p q : Nat) (a b : Bool) :
    (a = true → b = false → namedAmong rule check ps (failing [(p, a), (q, b)]) = p) ∧
    (a = false → b = true → namedAmong rule check ps (failing [(p, a), (q, b)]) = q) ∧
    (a = true → b = true → namedAmong rule check ps (failing [(p, a), (q, b)]) = p ∨
      namedAmong rule check ps (failing [(p, a), (q, b)]) = q) := by
  refine ⟨?_, ?_, ?_⟩ <;> rintro rfl rfl
  · exact namedAmong_one _ _ _ _
  · exact namedAmong_one _ _ _ _
  · simpa [failing] using namedAmong_mem rule check ps (ps := [p, q]) (by simp)

/-- The value checks of a known kind code, its width range given (R115). -/
theorem siteValueFailure_of_le {ps : List Byte} (l regions : Nat) (h : field ps 7 1 ≤ 8) :
    siteValueFailure ps l regions =
      if field ps 6 1 < (if field ps 7 1 = 3 then 2 else if field ps 7 1 = 8 then 4 else 1) ∨
          [8, 8, 20, 20, 16, 8, 8, 32, 4].getD (field ps 7 1) 0 < field ps 6 1 then some 3
      else if field ps 7 1 ≤ 6 ∧ 2 < field ps 8 1 then some 5
      else if field ps 7 1 ≤ 4 ∧ (baseBad ps = true ∨ strideBad ps = true) then
        some (namedAmong 115 4 ps (failing [(6, baseBad ps), (7, strideBad ps)]))
      else if (field ps 7 1 = 5 ∨ field ps 7 1 = 6) ∧ (offsetBad ps l = true ∨ alignBad ps = true) then
        some (namedAmong 115 5 ps (failing [(8, offsetBad ps l), (9, alignBad ps)]))
      else if field ps 7 1 = 8 ∧ regions ≤ field ps 31 1 then some 10
      else none := by
  simp only [siteValueFailure, kindWidths_of_le h, OverflowMode.ofCode_eq_none]

theorem baseBad_iff (ps : List Byte) : baseBad ps = true ↔ 2 ^ 48 ≤ field ps 9 8 := by
  simp only [baseBad, decide_eq_true_eq]
  omega

theorem strideBad_iff (ps : List Byte) : strideBad ps = true ↔ field ps 17 2 = 0 := by
  rw [strideBad, beq_iff_eq]

theorem offsetBad_iff (ps : List Byte) (l : Nat) : offsetBad ps l = true ↔ 128 * l ≤ field ps 19 8 := by
  rw [offsetBad, decide_eq_true_eq]

theorem alignBad_iff (ps : List Byte) : alignBad ps = true ↔ field ps 27 4 = 0 ∨ 65536 < field ps 27 4 := by
  rw [alignBad, Bool.or_eq_true, beq_iff_eq, decide_eq_true_eq]

section
variable {ps : List Byte} (l regions : Nat) (hcode : field ps 7 1 ≤ 8)
  (hlo : (if field ps 7 1 = 3 then 2 else if field ps 7 1 = 8 then 4 else 1) ≤ field ps 6 1)
  (hhi : field ps 6 1 ≤ [8, 8, 20, 20, 16, 8, 8, 32, 4].getD (field ps 7 1) 0)
  (hmode : field ps 7 1 ≤ 6 → field ps 8 1 ≤ 2)
include hcode hlo hhi hmode

/-- R115 from check 4 on. -/
theorem siteValueFailure_of_width : siteValueFailure ps l regions =
      if field ps 7 1 ≤ 4 ∧ (baseBad ps = true ∨ strideBad ps = true) then
        some (namedAmong 115 4 ps (failing [(6, baseBad ps), (7, strideBad ps)]))
      else if (field ps 7 1 = 5 ∨ field ps 7 1 = 6) ∧ (offsetBad ps l = true ∨ alignBad ps = true) then
        some (namedAmong 115 5 ps (failing [(8, offsetBad ps l), (9, alignBad ps)]))
      else if field ps 7 1 = 8 ∧ regions ≤ field ps 31 1 then some 10
      else none := by
  rw [siteValueFailure_of_le l regions hcode, if_neg (by omega), if_neg (by omega)]

theorem siteValueFailure_ordinal (hkind : field ps 7 1 ≤ 4) :
    (2 ^ 48 ≤ field ps 9 8 → 0 < field ps 17 2 → siteValueFailure ps l regions = some 6) ∧
    (field ps 9 8 < 2 ^ 48 → field ps 17 2 = 0 → siteValueFailure ps l regions = some 7) ∧
    (2 ^ 48 ≤ field ps 9 8 → field ps 17 2 = 0 →
      siteValueFailure ps l regions = some 6 ∨ siteValueFailure ps l regions = some 7) ∧
    (field ps 9 8 < 2 ^ 48 → 0 < field ps 17 2 → siteValueFailure ps l regions = none) := by
  have hb := baseBad_iff ps
  have hd := strideBad_iff ps
  have hf := siteValueFailure_of_width l regions hcode hlo hhi hmode
  obtain ⟨hone, htwo, hboth⟩ := namedAmong_failing 115 4 ps 6 7 (baseBad ps) (strideBad ps)
  refine ⟨fun hbase hstride => ?_, fun hbase hstride => ?_, fun hbase hstride => ?_, fun hbase hstride => ?_⟩
  · rw [hf, if_pos ⟨hkind, .inl (hb.mpr hbase)⟩, hone (hb.mpr hbase) (by rw [← Bool.not_eq_true, hd]; omega)]
  · rw [hf, if_pos ⟨hkind, .inr (hd.mpr hstride)⟩, htwo (by rw [← Bool.not_eq_true, hb]; omega) (hd.mpr hstride)]
  · rw [hf, if_pos ⟨hkind, .inl (hb.mpr hbase)⟩, Option.some.injEq, Option.some.injEq]
    exact hboth (hb.mpr hbase) (hd.mpr hstride)
  · rw [hf, if_neg (by rw [hb, hd]; omega), if_neg (by omega), if_neg (by omega)]

theorem siteValueFailure_capacity (hkind : field ps 7 1 = 5 ∨ field ps 7 1 = 6) :
    (128 * l ≤ field ps 19 8 → 0 < field ps 27 4 → field ps 27 4 ≤ 65536 → siteValueFailure ps l regions = some 8) ∧
    (field ps 19 8 < 128 * l → field ps 27 4 = 0 ∨ 65536 < field ps 27 4 →
      siteValueFailure ps l regions = some 9) ∧
    (128 * l ≤ field ps 19 8 → field ps 27 4 = 0 ∨ 65536 < field ps 27 4 →
      siteValueFailure ps l regions = some 8 ∨ siteValueFailure ps l regions = some 9) ∧
    (field ps 19 8 < 128 * l → 0 < field ps 27 4 → field ps 27 4 ≤ 65536 →
      siteValueFailure ps l regions = none) := by
  have ho := offsetBad_iff ps l
  have ha := alignBad_iff ps
  have hf := siteValueFailure_of_width l regions hcode hlo hhi hmode
  rw [if_neg (by omega)] at hf
  obtain ⟨hone, htwo, hboth⟩ := namedAmong_failing 115 5 ps 8 9 (offsetBad ps l) (alignBad ps)
  refine ⟨fun hoff hal hal' => ?_, fun hoff hal => ?_, fun hoff hal => ?_, fun hoff hal hal' => ?_⟩
  · rw [hf, if_pos ⟨hkind, .inl (ho.mpr hoff)⟩, hone (ho.mpr hoff) (by rw [← Bool.not_eq_true, ha]; omega)]
  · rw [hf, if_pos ⟨hkind, .inr (ha.mpr hal)⟩, htwo (by rw [← Bool.not_eq_true, ho]; omega) (ha.mpr hal)]
  · rw [hf, if_pos ⟨hkind, .inl (ho.mpr hoff)⟩, Option.some.injEq, Option.some.injEq]
    exact hboth (ho.mpr hoff) (ha.mpr hal)
  · rw [hf, if_neg (by rw [ho, ha]; omega), if_neg (by omega)]

end

theorem siteValueFailure_of_kind {ps : List Byte} (l regions : Nat) (h : 8 < field ps 7 1) :
    siteValueFailure ps l regions = some 4 := by
  simp only [siteValueFailure, kindWidths_of_gt h]

theorem kindOf_ordinal {ps : List Byte} (h : field ps 7 1 ≤ 4) (hmode : field ps 8 1 ≤ 2) :
    kindOf ps = .ordinal ([OrdinalForm.le, .be, .dec, .decCheck, .hex].getD (field ps 7 1) .le)
      ([OverflowMode.wrap, .clamp, .defer].getD (field ps 8 1) .wrap) (field ps 9 8) (field ps 17 2) := by
  rw [← OverflowMode.ofCode_getD hmode]
  unfold kindOf
  generalize field ps 7 1 = code at h
  interval_cases code <;> rfl

theorem kindOf_capacity {ps : List Byte} (h : field ps 7 1 = 5 ∨ field ps 7 1 = 6) (hmode : field ps 8 1 ≤ 2) :
    kindOf ps = .capacity (field ps 7 1 == 6) ([OverflowMode.wrap, .clamp, .defer].getD (field ps 8 1) .wrap)
      (field ps 19 8) (field ps 27 4) := by
  rw [← OverflowMode.ofCode_getD hmode]
  unfold kindOf
  rcases h with h | h <;> rw [h] <;> rfl

/-- Settles O21: the value checks by the kind's code, the placement checks by `six_checks`. -/
theorem siteChecksAreOrdered : Obligations.SiteChecksAreOrdered := by
  refine ⟨fun ps l regions => ⟨siteValueFailure_of_kind l regions, fun hcode hwidth => ?_, fun hcode hlo hhi hmode => ?_,
    fun hcode hlo hhi hmode => ⟨siteValueFailure_ordinal l regions hcode hlo hhi hmode,
      siteValueFailure_capacity l regions hcode hlo hhi hmode, fun hkind => ?_, fun hkind => ⟨fun hr => ?_, fun hr => ?_⟩⟩,
    rfl, rfl, rfl, kindOf_ordinal, kindOf_capacity, fun hkind => ?_, fun hkind => ?_⟩,
    fun t l sites regions => placementFailure_checks l⟩
  · rw [siteValueFailure_of_le l regions hcode, if_pos hwidth]
  · rw [siteValueFailure_of_le l regions (by omega), if_neg (by omega), if_pos ⟨hcode, hmode⟩]
  · rw [siteValueFailure_of_width l regions hcode hlo hhi hmode, if_neg (by omega), if_neg (by omega), if_neg (by omega)]
  · rw [siteValueFailure_of_width l regions hcode hlo hhi hmode, if_neg (by omega), if_neg (by omega), if_pos ⟨hkind, hr⟩]
  · rw [siteValueFailure_of_width l regions hcode hlo hhi hmode, if_neg (by omega), if_neg (by omega), if_neg (by omega)]
  · show kindOf ps = _
    unfold kindOf
    rw [hkind]
    rfl
  · show kindOf ps = _
    unfold kindOf
    rw [hkind]
    rfl

/-! ### LOAD PATCH SITE -/

section
variable {s : State} {x : Session} {r : Request} {rest : List Request} (h : s.Serves .loadPatchSite r rest)
  (hx : s.session = some x)
include h hx

theorem exec_loadPatchSite_of_full (hfull : 32 ≤ s.stu.sites.length) :
    exec .loadPatchSite s = .next (s.replied rest (r.reply .refusedFull 0 [])) := by
  refine congrArg Host.Outcome.next ((State.takeRequest_serves h _).trans ?_)
  exact if_pos hfull

variable (hroom : s.stu.sites.length < 32)
include hroom

theorem exec_loadPatchSite_of_value {p : Nat}
    (hp : siteValueFailure r.params x.imageLength s.stu.regions.length = some p) :
    exec .loadPatchSite s = .next (s.replied rest (r.reply .refusedRange p [])) := by
  rw [← State.ses_eq hx] at hp
  refine congrArg Host.Outcome.next ((State.takeRequest_serves h _).trans ?_)
  refine (if_neg (not_le.mpr hroom)).trans ?_
  simp only [show State.ses { s with req.queue := rest } = s.ses from rfl, hp]
  rfl

variable (hvalues : siteValueFailure r.params x.imageLength s.stu.regions.length = none)
include hvalues

theorem exec_loadPatchSite_of_placement {n : Nat}
    (hn : placementFailure (siteOf r.params) x.imageLength s.stu.sites s.stu.regions = some n) :
    exec .loadPatchSite s = .next (s.replied rest (r.reply .refusedRange (placementDetail n r.params) [])) := by
  rw [← State.ses_eq hx] at hvalues hn
  refine congrArg Host.Outcome.next ((State.takeRequest_serves h _).trans ?_)
  refine (if_neg (not_le.mpr hroom)).trans ?_
  simp only [show State.ses { s with req.queue := rest } = s.ses from rfl, hvalues, hn]
  rfl

theorem exec_loadPatchSite_of_passed
    (hnone : placementFailure (siteOf r.params) x.imageLength s.stu.sites s.stu.regions = none) :
    exec .loadPatchSite s = .next { s.replied rest (r.ok (leBytes 1 s.stu.sites.length)) with
      stu.sites := s.stu.sites ++ [siteOf r.params] } := by
  rw [← State.ses_eq hx] at hvalues hnone
  refine congrArg Host.Outcome.next ((State.takeRequest_serves h _).trans ?_)
  refine (if_neg (not_le.mpr hroom)).trans ?_
  simp only [show State.ses { s with req.queue := rest } = s.ses from rfl, hvalues, hnone]
  rfl

end

theorem placementDetail_mem (n : Nat) (ps : List Byte) : placementDetail n ps ∈ placementParams n :=
  namedAmong_mem _ _ _ (by unfold placementParams; split <;> simp)

/-- A site that passes R116 is in a chunk of the image and within it, apart from every loaded site, and inside or apart
from every loaded region. -/
theorem placement_sound {t : Site} {l : Nat} {sites : List Site} {regions : List Region}
    (h : placementFailure t l sites regions = none) :
    t.chunk < l ∧ t.offset + t.width ≤ 65536 ∧
    (∀ u ∈ sites, u.chunk = t.chunk → ∀ b, t.offset ≤ b → b < t.offset + t.width →
      ¬(u.offset ≤ b ∧ b < u.offset + u.width)) ∧
    (∀ g ∈ regions, g.chunk = t.chunk →
      (∀ b, t.offset ≤ b → b < t.offset + t.width → g.start ≤ b ∧ b < g.start + g.length) ∨
      (∀ b, t.offset ≤ b → b < t.offset + t.width → ¬(g.start ≤ b ∧ b < g.start + g.length))) := by
  rw [placementFailure_eq] at h
  split_ifs at h with hchunk hend hsites hregions
  refine ⟨by omega, by omega, fun u hu hc b hb hb' hub => ?_, fun g hg hc => or_iff_not_imp_right.mpr fun hmeets => ?_⟩
  · refine hsites (List.any_eq_true.mpr ⟨u, hu, ?_⟩)
    simp only [Site.overlaps, Bool.and_eq_true, beq_iff_eq, decide_eq_true_eq]
    exact ⟨⟨hc.symm, by omega⟩, by omega⟩
  · simp only [not_forall, not_not] at hmeets
    obtain ⟨b, hb, hb', hgb⟩ := hmeets
    have hin : t.inside g = true := by
      by_contra hout
      refine hregions (List.any_eq_true.mpr ⟨g, hg, ?_⟩)
      refine Bool.and_eq_true_iff.mpr ⟨?_, by simpa using hout⟩
      simp only [Site.touches, Bool.and_eq_true, beq_iff_eq, decide_eq_true_eq]
      exact ⟨⟨hc.symm, by omega⟩, by omega⟩
    simp only [Site.inside, Bool.and_eq_true, beq_iff_eq, decide_eq_true_eq] at hin
    exact fun x hx hx' => by omega

/-- Settles O20. -/
theorem patchSitesAreLoadedInOrder : Obligations.PatchSitesAreLoadedInOrder := by
  refine ⟨fun s x r rest h hx => ⟨exec_loadPatchSite_of_full h hx, fun p hroom hp => exec_loadPatchSite_of_value h hx hroom hp,
    fun hroom hvalues hchunk => ?_, fun n hroom hvalues hn => ⟨_, exec_loadPatchSite_of_placement h hx hroom hvalues hn, ?_⟩,
    fun hroom hvalues hnone => ⟨rfl, exec_loadPatchSite_of_passed h hx hroom hvalues hnone⟩⟩,
    fun t l sites regions => placement_sound⟩
  · have hone : placementFailure (siteOf r.params) x.imageLength s.stu.sites s.stu.regions = some 1 := by
      rw [placementFailure_eq]; exact if_pos hchunk
    rw [exec_loadPatchSite_of_placement h hx hroom hvalues hone, placementDetail, placementParams, namedAmong_one]
  · have hmem := placementDetail_mem n r.params
    refine ⟨?_, ?_, ?_, ?_, ?_⟩
    · rintro rfl; simpa [placementParams] using hmem
    · rintro rfl; simpa [placementParams] using hmem
    · rintro (rfl | rfl) <;> simpa [placementParams] using hmem
    · rintro rfl; simpa [placementParams] using hmem
    · rintro rfl; simpa [placementParams] using hmem

end Sys2Proof.Machine
end

section
/-! SUPPORT. The meanings of PASS START, HOLD, RELEASE HOLD, SESSION TUNE and RELEASE SLOT for a request taken, and the test
for HELD read slot by slot. Then the statements about them. -/

set_option Elab.async false

namespace Sys2Proof.Machine

/-- A request that passes R173 is handed to its owner. -/
theorem State.takeRequest_took {s : State} {k : ReqKind} {r : Request} {rest : List Request} (h : s.Serves k r rest)
    (owner : Request → State → State) : s.takeRequest (some k) owner = owner r (s.took rest) :=
  State.takeRequest_serves h owner

/-! ### PASS START -/

theorem exec_passStart_of_serves {s : State} {x : Session} {r : Request} {rest : List Request}
    (h : s.Serves .passStart r rest) (hx : s.session = some x) :
    let c := field r.params 0 4
    let taken := s.slots.toList.countP (fun sl => sl.rosterable c)
    exec .passStart s = .next (
      if x.pass ≠ .noPass then s.replied rest (r.reply .refusedState 0 [])
      else if x.imageLength ≤ c then s.replied rest (r.reply .refusedRange 0 [])
      else if 65535 ≤ x.passNumber then s.replied rest (r.reply .refusedFull 0 [])
      else State.evalFlow { s.replied rest (r.ok (leBytes 2 (x.passNumber + 1) ++
          leBytes 1 taken ++ leBytes 1 (s.slots.toList.countP (fun sl => sl.state == .waiting) - taken))) with
        session := some { x with
          startChunk := c, nextChunk := c, passNumber := x.passNumber + 1, pass := .streaming }
        slots := s.slots.map (fun (sl : Slot) => if sl.rosterable c then { sl with rostered := true } else sl) }) := by
  refine congrArg Host.Outcome.next ((State.takeRequest_serves h _).trans ?_)
  rw [← State.ses_eq hx, List.countP_eq_length_filter, List.countP_eq_length_filter]
  have hupd : ∀ f : Session → Session, State.updSession { s with req.queue := rest } f =
      { s with req.queue := rest, session := some (f s.ses) } := fun f => by rw [State.updSession, hx, State.ses_eq hx]; rfl
  simp only [hupd]
  rfl

theorem Slot.rosterable_iff (sl : Slot) (c : Nat) : sl.rosterable c = true ↔
    sl.state = .waiting ∧ sl.span.any (fun sp => decide (c ≤ sp.lo)) = true := by
  rw [Slot.rosterable, Bool.and_eq_true, beq_iff_eq]

/-- Settles O25: by the order of the checks. -/
theorem passStartRostersSlots : Obligations.PassStartRostersSlots := by
  intro s x r rest h hx c taken
  have hexec := exec_passStart_of_serves h hx
  refine ⟨fun hpass => ?_, fun hpass hc => ?_, fun hpass hc hn => ?_, fun hpass hc hn => ?_⟩
  · rw [hexec, if_pos hpass]
  · rw [hexec, if_neg (not_not.mpr hpass), if_pos hc]
  · rw [hexec, if_neg (not_not.mpr hpass), if_neg (not_le.mpr hc), if_pos hn.ge]
  · rw [hexec, if_neg (not_not.mpr hpass), if_neg (not_le.mpr hc), if_neg (not_le.mpr hn)]
    simp only [Slot.rosterable_iff]
    rfl

/-! ### HOLD and RELEASE HOLD -/

theorem exec_hold_of_serves {s : State} {r : Request} {rest : List Request} (h : s.Serves .hold r rest) :
    (s.wsc.hold = .run → exec .hold s = .next ((State.evalFlow { s with
      req.queue := rest, wsc.hold := .holding, wsc.holdReply := some r.tag }).testHeld)) ∧
    (s.wsc.hold = .holding → exec .hold s = .next (s.replied rest (r.ok [1]))) ∧
    (s.wsc.hold = .held → exec .hold s = .next (s.replied rest (acceptance r.tag r.code .okHeld [2]))) := by
  refine ⟨fun hh => ?_, fun hh => ?_, fun hh => ?_⟩ <;>
    refine congrArg Host.Outcome.next ((State.takeRequest_serves h _).trans ?_) <;> simp only [hh] <;> rfl

theorem exec_releaseHold_of_serves {s : State} {r : Request} {rest : List Request} (h : s.Serves .releaseHold r rest) :
    exec .releaseHold s = .next (if s.wsc.hold = .run then s.replied rest (r.ok [0])
      else State.evalFlow (({ (s.took rest).settleHold .ok .run with wsc.hold := .run } : State).accept r .ok [0])) :=
  congrArg Host.Outcome.next (State.takeRequest_serves h _)

/-- What stands in the way of HELD for one slot (R109, R144). -/
theorem State.atRest_iff {s : State} {x : Session} (hx : s.session = some x) (hp : x.phase ≠ .opened) (i : SlotIx) :
    s.atRest i = true ↔ ((s.slot i).state.enrolled = true → (s.slot i).inFlight = [] ∧
      (∀ g, (s.link (linkOf i)).path = some g → g.slot ≠ i) ∧
      (x.phase = .running → (s.slot i).rewrites = [] ∧
        ((s.slot i).piecesSent = 0 ∨ ∃ st, (s.slot i).stall = some st ∧ (s.slot i).issueCursor = some st.chunk))) := by
  have hgrants : (s.link (linkOf i)).grants i = false ↔ ∀ g, (s.link (linkOf i)).path = some g → g.slot ≠ i := by
    unfold Link.grants
    cases (s.link (linkOf i)).path <;> simp
  have hfaulted : s.faulted = true ↔ ¬x.phase = .running := by
    simp only [State.faulted, State.phase, hx, Option.map_some, beq_iff_eq, Option.some.injEq]
    cases hx' : x.phase <;> simp_all
  have hstall : (s.slot i).stall.any (fun y => (s.slot i).issueCursor == some y.chunk) = true ↔
      ∃ st, (s.slot i).stall = some st ∧ (s.slot i).issueCursor = some st.chunk := by
    cases (s.slot i).stall <;> simp
  simp only [State.atRest, Bool.or_eq_true, Bool.and_eq_true, Bool.not_eq_true', List.isEmpty_iff, beq_iff_eq, hgrants,
    hfaulted, hstall, ← imp_iff_not_or, and_assoc]
  cases (s.slot i).state.enrolled <;> simp

theorem State.all_atRest_iff {s : State} {x : Session} (hx : s.session = some x) (hp : x.phase ≠ .opened) :
    (List.finRange 192).all s.atRest = true ↔ ∀ i, (s.slot i).state.enrolled = true → (s.slot i).inFlight = [] ∧
      (∀ g, (s.link (linkOf i)).path = some g → g.slot ≠ i) ∧
      (x.phase = .running → (s.slot i).rewrites = [] ∧
        ((s.slot i).piecesSent = 0 ∨ ∃ st, (s.slot i).stall = some st ∧ (s.slot i).issueCursor = some st.chunk)) := by
  simp only [List.all_eq_true, List.mem_finRange, forall_const, State.atRest_iff hx hp]

theorem State.running_or_faulted {s : State} {x : Session} (hx : s.session = some x) (hp : x.phase ≠ .opened) :
    (s.running || s.faulted) = true := by
  simp only [State.running, State.faulted, State.phase, hx, Option.map_some]
  cases h : x.phase <;> simp_all

/-- Settles O26: the requests by the hold state, the test for HELD by `State.all_atRest_iff`. -/
theorem holdReachesHeldAndIsReleased : Obligations.HoldReachesHeldAndIsReleased := by
  refine ⟨⟨fun s r rest => exec_hold_of_serves, fun s r rest h => ⟨fun hh => ?_, fun tag hh hp => ?_, fun hh hp => ?_⟩⟩,
    fun s x hx hphase => ?_⟩
  · rw [exec_releaseHold_of_serves h, if_pos hh]
  · rw [exec_releaseHold_of_serves h, if_neg hh, State.settleHold_of_some (s := s.took rest) hp]
    simp [State.took, State.accept, State.pushReply, Request.ok, runReply, holdCode, HoldState.code, leBytes]
  · rw [exec_releaseHold_of_serves h, if_neg hh, State.settleHold_of_none (s := s.took rest) hp]
    simp [State.took, State.accept, State.pushReply, Request.ok, State.replied]
  · have hall := State.all_atRest_iff hx hphase
    have hin := State.running_or_faulted hx hphase
    refine ⟨State.testHeld_not s, fun hrest => ?_, fun hh hrest hp => ?_, fun tag hh hrest hp => ?_⟩
    · rw [State.testHeld, if_neg fun h => hrest (hall.mp h.2.2)]
    · rw [State.testHeld, if_pos ⟨hh, hin, hall.mpr hrest⟩,
        State.settleHold_of_none (s := { s with wsc.hold := .held }) hp]
    · rw [State.testHeld, if_pos ⟨hh, hin, hall.mpr hrest⟩,
        State.settleHold_of_some (s := { s with wsc.hold := .held }) hp]
      rfl

/-! ### SESSION TUNE -/

theorem exec_sessionTune_of_serves {s : State} {x : Session} {r : Request} {rest : List Request}
    (h : s.Serves .sessionTune r rest) (hx : s.session = some x) :
    (s.wsc.hold ≠ .held → exec .sessionTune s = .next (s.replied rest (r.reply .notHeld 0 []))) ∧
    (∀ p, s.wsc.hold = .held → tuneFailure r.params x s.win.records.length = some p →
      exec .sessionTune s = .next (s.replied rest (r.reply .refusedRange p []))) ∧
    (s.wsc.hold = .held → tuneFailure r.params x s.win.records.length = none →
      exec .sessionTune s = .next { s.replied rest (r.ok (paramBlock (tuneRecord r.params x))) with
        session := some (tuneRecord r.params x) }) := by
  have hses : (s.took rest).ses = x := State.ses_eq hx
  refine ⟨fun hh => ?_, fun p hh hp => ?_, fun hh hp => ?_⟩ <;>
    refine congrArg Host.Outcome.next ((State.takeRequest_took h _).trans ?_)
  · exact if_pos hh
  · simp only [State.took_wsc, State.took_win, hses, hh, hp, ne_eq, not_true_eq_false, if_false]
    rfl
  · simp only [State.took_wsc, State.took_win, hses, hh, hp, ne_eq, not_true_eq_false, if_false]
    rfl

/-- The checks of R113 in order, each by what it asks for. -/
theorem tuneFailure_eq (ps : List Byte) (x : Session) (records : Nat) : tuneFailure ps x records =
    if ¬((field ps 22 2).testBit 0 = true → 32 ≤ given ps 0 (field ps 0 2) x.windowSize ∧
        given ps 0 (field ps 0 2) x.windowSize ≤ 4096 ∧ records ≤ given ps 0 (field ps 0 2) x.windowSize) then some 1
    else if ¬(given ps 1 (field ps 2 2) x.pauseMark < given ps 2 (field ps 4 2) x.resumeMark ∧
        given ps 2 (field ps 4 2) x.resumeMark ≤ given ps 0 (field ps 0 2) x.windowSize) then some 2
    else if ¬((field ps 22 2).testBit 3 = true → field ps 6 1 ≤ 2) then some 4
    else none := by
  unfold tuneFailure
  refine ite_congr (propext ?_) (fun _ => rfl) fun _ => ite_congr (propext ?_) (fun _ => rfl) fun _ =>
    ite_congr (propext ?_) (fun _ => rfl) fun _ => rfl
  · rw [member, Classical.not_imp]
    exact and_congr_right fun _ => by omega
  · rw [marksOk, ← Bool.not_eq_true, Bool.and_eq_true, decide_eq_true_eq, decide_eq_true_eq]
  · rw [member, Classical.not_imp, LaggardPolicy.ofCode_eq_none]

/-- Three checks in a row name the first that fails, by its position. -/
theorem three_checks {c1 c2 c3 : Prop} [Decidable c1] [Decidable c2] [Decidable c3] {f : Option Nat}
    (hf : f = if ¬c1 then some 1 else if ¬c2 then some 2 else if ¬c3 then some 4 else none) :
    (f = some 1 ↔ ¬c1) ∧ (f = some 2 ↔ c1 ∧ ¬c2) ∧ (f = some 4 ↔ c1 ∧ c2 ∧ ¬c3) ∧ (f = none ↔ c1 ∧ c2 ∧ c3) := by
  subst hf
  split_ifs <;> simp [*]

/-- One tunable value of SESSION TUNE (R113). -/
theorem tuneValue_eq {r : TuneRange} (h : r.lo ≤ r.hi) (d g : Bool) (v old : Nat) :
    (if d = true then r.dflt else if g = true then clamp r.lo r.hi v else old) =
      if d = true then r.dflt else if g = true then max r.lo (min r.hi v) else old := by
  rw [clamp_eq h]

theorem State.depth_of_enrolled {s : State} {x : Session} (hx : s.session = some x) {i : SlotIx}
    (henrolled : (s.slot i).state.enrolled = true) (hthrottled : (s.slot i).throttled = false) :
    s.depth i = x.tune.depth := by
  simp [State.depth, henrolled, hthrottled, State.ses_eq hx]

/-- Settles O27: the outcome by the checks, the values field by field. -/
theorem sessionTuneRequiresHeld : Obligations.SessionTuneRequiresHeld := by
  refine ⟨fun s x r rest h hx => ?_, fun ps x records => ?_⟩
  · obtain ⟨hnot, hbad, hok⟩ := exec_sessionTune_of_serves h hx
    refine ⟨hnot, hbad, fun hh hnone => ?_⟩
    obtain ⟨-, -, -, hall⟩ := three_checks (tuneFailure_eq r.params x s.win.records.length)
    obtain ⟨hw, ⟨hmarks, hresume⟩, -⟩ := hall.mp hnone
    refine ⟨hok hh hnone, hmarks, hresume, fun hfits => ?_, min_le_right _ _, fun i henrolled hthrottled => ?_⟩
    · show s.win.records.length ≤ given r.params 0 (field r.params 0 2) x.windowSize
      unfold given at hw ⊢
      split_ifs with hgiven
      · obtain ⟨-, -, hrecords⟩ := hw hgiven
        rwa [if_pos hgiven] at hrecords
      · exact hfits
    · exact State.depth_of_enrolled rfl henrolled hthrottled
  · obtain ⟨hone, htwo, hfour, hall⟩ := three_checks (tuneFailure_eq ps x records)
    refine ⟨hone, htwo, hfour, hall, rfl, fun hgiven hcode => ?_, fun hgiven => ?_, ?_⟩
    · simp only [tuneRecord, member, hgiven, if_true]
      exact LaggardPolicy.code_ofCode _ hcode
    · simp only [tuneRecord, member, hgiven, Bool.false_eq_true, if_false]
    · simp only [tuneRecord, tuneTunables, readTunables, Tunables.capped, Tunables.mk.injEq]
      refine ⟨tuneValue_eq (r := depthRange) (by decide) _ _ _ _, tuneValue_eq (r := commandTimeoutRange) (by decide) _ _ _ _,
        tuneValue_eq (r := retryLimitRange) (by decide) _ _ _ _, tuneValue_eq (r := settleTimeRange) (by decide) _ _ _ _,
        tuneValue_eq (r := paceIntervalRange) (by decide) _ _ _ _, tuneValue_eq (r := declareCountRange) (by decide) _ _ _ _,
        tuneValue_eq (r := clearCountRange) (by decide) _ _ _ _, tuneValue_eq (r := decayIntervalRange) (by decide) _ _ _ _,
        congrArg₂ min (tuneValue_eq (r := throttleRange) (by decide) _ _ _ _)
          (tuneValue_eq (r := ejectRange) (by decide) _ _ _ _), tuneValue_eq (r := ejectRange) (by decide) _ _ _ _,
        tuneValue_eq (r := residencyMinRange) (by decide) _ _ _ _, tuneValue_eq (r := stampWaitRange) (by decide) _ _ _ _⟩

/-! ### RELEASE SLOT -/

theorem exec_releaseSlot_of_range {s : State} {r : Request} {rest : List Request} (h : s.Serves .releaseSlot r rest)
    (hbad : 191 < field r.params 0 1) : exec .releaseSlot s = .next (s.replied rest (r.reply .refusedRange 0 [])) := by
  refine congrArg Host.Outcome.next ((State.takeRequest_serves h _).trans ?_)
  exact dif_neg (by omega)

theorem exec_releaseSlot_of_serves {s : State} {r : Request} {rest : List Request} {i : SlotIx}
    (h : s.Serves .releaseSlot r rest) (hi : field r.params 0 1 = i.val) :
    ((s.slot i).state = .ready → exec .releaseSlot s = .next (((s.took rest).moveSlot i .present).accept r .ok [])) ∧
    ((s.slot i).state = .waiting ∨ (s.slot i).state = .verifying ∨ ((s.slot i).state = .live ∧ s.wsc.hold = .held) →
      exec .releaseSlot s = .next ((s.took rest).withdrawSlot r i)) ∧
    ((s.slot i).state = .live → s.wsc.hold ≠ .held →
      exec .releaseSlot s = .next (s.replied rest (r.reply .notHeld 0 []))) ∧
    ((s.slot i).state ∈ [.empty, .settling, .present, .sizing, .probing, .done, .failed] →
      exec .releaseSlot s = .next (s.replied rest (r.reply .refusedState 0 []))) := by
  have hslot : ∀ hn : field r.params 0 1 < 192, (⟨field r.params 0 1, hn⟩ : SlotIx) = i := fun hn => Fin.ext hi
  have hlt : field r.params 0 1 < 192 := hi ▸ i.isLt
  have hstate : State.slot { s with req.queue := rest } i = s.slot i := rfl
  have htake := State.takeRequest_serves h
  refine ⟨fun hs => ?_, fun hs => ?_, fun hs hh => ?_, fun hs => ?_⟩
  · refine congrArg Host.Outcome.next ((htake _).trans ((dif_pos hlt).trans ?_))
    simp only [hslot hlt, hstate, hs]
    rfl
  · refine congrArg Host.Outcome.next ((htake _).trans ((dif_pos hlt).trans ?_))
    rcases hs with hs | hs | ⟨hs, hh⟩
    · simp only [hslot hlt, hstate, hs]; rfl
    · simp only [hslot hlt, hstate, hs]; rfl
    · simp only [hslot hlt, hstate, hs, hh]; rfl
  · refine congrArg Host.Outcome.next ((htake _).trans ((dif_pos hlt).trans ?_))
    simp only [hslot hlt, hstate, hs, hh, if_false]
    rfl
  · refine congrArg Host.Outcome.next ((htake _).trans ((dif_pos hlt).trans ?_))
    simp only [hslot hlt, hstate]
    cases hcase : (s.slot i).state <;> simp [hcase] at hs <;> rfl

theorem Elsewhere.withdrawSlot (s : State) (r : Request) (i : SlotIx) : Elsewhere s (s.withdrawSlot r i) (· = i) :=
  ((Elsewhere.failSlot s (mine := (· = i)) _ rfl).trans (Elsewhere.accept _ r _ _ _)).trans (Elsewhere.close _ _)

theorem State.withdrawSlot_self (s : State) (r : Request) (i : SlotIx) : (s.withdrawSlot r i).slot i =
    Slot.moved { ((s.slot i).left (s.places i)).withOutcome ⟨.withdrawn, none, none, none⟩ with qual := none } .failed := by
  rw [State.withdrawSlot, State.close_slot_of_unrostered, State.accept_slot, State.failSlot_self]
  rw [State.accept_slot, State.failSlot_self]
  rfl

theorem State.withdrawSlot_records (s : State) (r : Request) (i : SlotIx) :
    (s.withdrawSlot r i).win.records = retired (s.recordsWithout i) := by
  rw [State.withdrawSlot, State.close_records, State.accept_win, State.failSlot_records]

theorem State.withdrawSlot_tag (s : State) (r : Request) (i : SlotIx) (tag : LinkTag) :
    ((s.withdrawSlot r i).link (linkOf i)).tag tag = ((s.link (linkOf i)).tag tag).abandon i false := by
  rw [State.withdrawSlot, State.close_link, State.accept_link, State.failSlot_tag]

theorem State.withdrawSlot_outbox (s : State) (r : Request) (i : SlotIx) :
    r.ok [] ∈ (s.withdrawSlot r i).req.outbox :=
  State.close_outbox _ (by rw [State.accept_outbox]; exact List.mem_append_right _ (List.mem_singleton_self _))

/-- Settles O28: by the state of the slot. -/
theorem releaseSlotFollowsTheTable : Obligations.ReleaseSlotFollowsTheTable := by
  intro s r rest i h
  refine ⟨exec_releaseSlot_of_range h, fun hi => ?_⟩
  obtain ⟨hready, hleaves, hlive, hrefused⟩ := exec_releaseSlot_of_serves h hi
  refine ⟨hready, fun hs => ⟨_, hleaves hs, ?_⟩, hlive, hrefused⟩
  simp only [State.withdrawSlot_self, State.withdrawSlot_records, State.withdrawSlot_tag]
  refine ⟨rfl, rfl, rfl, rfl, rfl, rfl, rfl, rfl, State.withdrawSlot_outbox _ r i, fun _ => rfl,
    Elsewhere.withdrawSlot (s.took rest) r i, fun hst => ?_, fun hst => ?_⟩
  · exact congrArg retired (if_pos hst)
  · exact congrArg retired (if_neg hst)

end Sys2Proof.Machine
end

section
/-! SUPPORT. The stamp entries, the rendering of a slot's stamps site by site, and the enrolment of the READY slots one after
another. Then the statements about enrolment and START SESSION. -/

set_option Elab.async false

namespace Sys2Proof.Machine

/-! ### Entries -/

theorem State.setEntry_entry (s : State) (i j : SlotIx) (site m : Nat) (e : StampEntry) :
    (s.setEntry i site e).entry j m = if i = j ∧ site = m ∧ m < 32 then e else s.entry j m := by
  unfold State.setEntry State.entry
  by_cases hm : m < 32
  · by_cases hsite : site < 32
    · by_cases hij : i = j
      · subst hij
        by_cases hs : site = m
        · subst hs; simp [hm]
        · simp [hm, hsite, hs]
      · have hne : i.val ≠ j.val := fun h => hij (Fin.ext h)
        simp [hm, hsite, hij, Vector.getElem_set_ne _ _ hne]
    · have hne : site ≠ m := by omega
      simp [hm, hsite, hne]
  · simp [hm]

theorem State.clearEntries_entry (s : State) (i j : SlotIx) (m : Nat) :
    (s.clearEntries i).entry j m = if i = j then .unrendered else s.entry j m := by
  unfold State.clearEntries State.entry
  by_cases hij : i = j
  · subst hij; simp
  · have hne : i.val ≠ j.val := fun h => hij (Fin.ext h)
    simp [hij, Vector.getElem_set_ne _ _ hne]

/-! ### Rendering -/

theorem State.renderOne_guard (s : State) (i : SlotIx) (n c site : Nat) {t : Site} {g : Nat} (h : t.kind = .guard g) :
    s.renderOne i n c site t = s := by
  rw [State.renderOne, h]

theorem State.renderOne_of_not_guard (s : State) (i : SlotIx) (n c site : Nat) {t : Site} (h : ∀ g, t.kind ≠ .guard g) :
    s.renderOne i n c site t =
      if (renderSite t n c).1 = .deferred then
        (s.setEntry i site (renderSite t n c).1).raise (.stampDeferred i n site (renderSite t n c).2)
      else s.setEntry i site (renderSite t n c).1 := by
  unfold State.renderOne
  split
  · next g hg => exact absurd hg (h g)
  · rfl

theorem State.renderOne_entry (s : State) (i j : SlotIx) (n c site m : Nat) (t : Site) :
    ((∃ g, t.kind = .guard g) → (s.renderOne i n c site t).entry j m = s.entry j m) ∧
    ((∀ g, t.kind ≠ .guard g) → (s.renderOne i n c site t).entry j m =
      if i = j ∧ site = m ∧ m < 32 then (renderSite t n c).1 else s.entry j m) := by
  refine ⟨fun ⟨g, hg⟩ => by rw [State.renderOne_guard _ _ _ _ _ hg], fun h => ?_⟩
  rw [State.renderOne_of_not_guard _ _ _ _ _ h, ← State.setEntry_entry]
  split
  · rw [State.raise_entry]
  · rfl

/-- The STAMP-DEFERRED that rendering a site raises, if it raises one (R120). -/
def deferral (i : SlotIx) (n c : Nat) (p : Site × Nat) : Option Event :=
  if p.1.kind.mode.isSome || p.1.kind == .supplied then
    (if (renderSite p.1 n c).1 = .deferred then some (Event.stampDeferred i n p.2 (renderSite p.1 n c).2) else none)
  else none

theorem notGuard_iff (t : Site) : (t.kind.mode.isSome || t.kind == .supplied) = true ↔ ∀ g, t.kind ≠ .guard g := by
  cases t.kind <;> simp [SiteKind.mode]

@[simp] theorem State.setEntry_ncu (s : State) (i : SlotIx) (site : Nat) (e : StampEntry) :
    (s.setEntry i site e).ncu = s.ncu := by
  unfold State.setEntry
  split <;> rfl

theorem State.renderOne_ncu (s : State) (i : SlotIx) (n c : Nat) (p : Site × Nat) :
    (s.renderOne i n c p.2 p.1).ncu =
      match deferral i n c p with
      | some e => (s.raise e).ncu
      | none => s.ncu := by
  unfold deferral
  by_cases h : ∀ g, p.1.kind ≠ .guard g
  · rw [State.renderOne_of_not_guard _ _ _ _ _ h, if_pos ((notGuard_iff _).mpr h)]
    by_cases hd : (renderSite p.1 n c).1 = .deferred
    · simp only [hd, if_true]
      exact State.raise_ncu_congr _ (State.setEntry_ncu _ _ _ _)
    · simp only [hd, if_false]
      exact State.setEntry_ncu _ _ _ _
  · have hnot : ¬(p.1.kind.mode.isSome || p.1.kind == .supplied) = true := fun k => h ((notGuard_iff _).mp k)
    obtain ⟨g, hg⟩ := not_forall_not.mp h
    rw [State.renderOne_guard _ _ _ _ _ hg, if_neg hnot]

theorem State.renderOne_stu (s : State) (i : SlotIx) (n c site : Nat) (t : Site) :
    (s.renderOne i n c site t).stu = { s.stu with entries := (s.renderOne i n c site t).stu.entries } := by
  have hset : ∀ e, (s.setEntry i site e).stu = { s.stu with entries := (s.setEntry i site e).stu.entries } := fun e => by
    unfold State.setEntry
    split <;> rfl
  by_cases h : ∀ g, t.kind ≠ .guard g
  · rw [State.renderOne_of_not_guard _ _ _ _ _ h]
    split
    · rw [State.raise_stu, ← hset]
    · exact hset _
  · obtain ⟨g, hg⟩ := not_forall_not.mp h
    rw [State.renderOne_guard _ _ _ _ _ hg]

/-- With every kind enabled and room in the queue an event joins it (R194). -/
theorem State.raise_notices {s : State} (hmask : s.ncu.mask = BitVec.allOnes 10) (hroom : s.ncu.notices.length < 32)
    (e : Event) : (s.raise e).ncu.notices = s.ncu.notices ++ [e] := by
  rw [State.raise_spec]
  exact if_pos ⟨by rw [hmask]; exact (BitVec.getLsbD_allOnes).trans (decide_eq_true e.member.isLt), hroom⟩

section
variable (i : SlotIx) (n c : Nat)

/-- The rendering of sites one after another. -/
def State.renderAll (s : State) (l : List (Site × Nat)) : State := l.foldl (fun t p => t.renderOne i n c p.2 p.1) s

theorem State.renderStamps_eq (s : State) : s.renderStamps i n c = (s.clearEntries i).renderAll i n c s.stu.sites.zipIdx :=
  rfl

theorem State.renderAll_entry_out (j : SlotIx) (m : Nat) : ∀ (l : List (Site × Nat)) (s : State),
    (∀ p ∈ l, i ≠ j ∨ p.2 ≠ m ∨ ∃ g, p.1.kind = .guard g) → (s.renderAll i n c l).entry j m = s.entry j m
  | [], _, _ => rfl
  | p :: l, s, h => by
    refine (State.renderAll_entry_out j m l _ fun q hq => h q (List.mem_cons_of_mem _ hq)).trans ?_
    obtain ⟨hguard, hother⟩ := s.renderOne_entry i j n c p.2 m p.1
    by_cases hp : ∃ g, p.1.kind = .guard g
    · exact hguard hp
    · rw [hother (not_exists.mp hp), if_neg]
      rintro ⟨hij, hpm, -⟩
      rcases h p List.mem_cons_self with hne | hne | hg
      · exact hne hij
      · exact hne hpm
      · exact hp hg

theorem State.renderAll_entry_in {m : Nat} (hm : m < 32) {q : Site} (hq : ∀ g, q.kind ≠ .guard g) :
    ∀ (l : List (Site × Nat)) (s : State), (l.map Prod.snd).Nodup → (q, m) ∈ l →
      (s.renderAll i n c l).entry i m = (renderSite q n c).1
  | [], _, _, h => absurd h List.not_mem_nil
  | p :: l, s, hnodup, h => by
    obtain ⟨hout, hnodup⟩ := List.nodup_cons.mp hnodup
    rcases List.mem_cons.mp h with rfl | hmem
    · refine (State.renderAll_entry_out i n c i m l _ fun p hp => .inr (.inl fun hpm => ?_)).trans ?_
      · exact hout (List.mem_map.mpr ⟨p, hp, hpm⟩)
      · rw [(s.renderOne_entry i i n c m m q).2 hq, if_pos ⟨rfl, rfl, hm⟩]
    · exact State.renderAll_entry_in hm hq l _ hnodup hmem

theorem State.renderAll_notices : ∀ (l : List (Site × Nat)) (s : State), s.ncu.mask = BitVec.allOnes 10 →
    s.ncu.notices.length + (l.filterMap (deferral i n c)).length ≤ 32 →
    (s.renderAll i n c l).ncu.notices = s.ncu.notices ++ l.filterMap (deferral i n c) ∧
      (s.renderAll i n c l).ncu.mask = BitVec.allOnes 10
  | [], s, hmask, _ => ⟨(List.append_nil _).symm, hmask⟩
  | p :: l, s, hmask, hroom => by
    have hncu := s.renderOne_ncu i n c p
    rw [List.filterMap_cons] at hroom ⊢
    cases hd : deferral i n c p with
    | none =>
      rw [hd] at hncu hroom
      obtain ⟨hnotices, hmask'⟩ := State.renderAll_notices l (s.renderOne i n c p.2 p.1) (by rw [hncu]; exact hmask)
        (by rw [hncu]; exact hroom)
      exact ⟨hnotices.trans (by rw [hncu]), hmask'⟩
    | some e =>
      rw [hd] at hncu hroom
      simp only [List.length_cons] at hroom
      have hraise := State.raise_notices hmask (by omega) e
      obtain ⟨hnotices, hmask'⟩ := State.renderAll_notices l (s.renderOne i n c p.2 p.1)
        (by rw [hncu, State.raise_mask]; exact hmask)
        (by rw [hncu, hraise, List.length_append, List.length_singleton]; omega)
      exact ⟨hnotices.trans (by rw [hncu, hraise, List.append_assoc]; rfl), hmask'⟩

theorem State.renderAll_stu (l : List (Site × Nat)) (s : State) :
    (s.renderAll i n c l).stu = { s.stu with entries := (s.renderAll i n c l).stu.entries } :=
  List.foldlRecOn (motive := fun t : State => t.stu = { s.stu with entries := t.stu.entries }) l _ rfl
    fun t ht p _ => by rw [State.renderOne_stu, ht]

theorem State.renderAll_counters (l : List (Site × Nat)) (s : State) (k : Fin 10) (hk : k ≠ 9) :
    (s.renderAll i n c l).ncu.counters[k] = s.ncu.counters[k] :=
  List.foldlRecOn (motive := fun t : State => t.ncu.counters[k] = s.ncu.counters[k]) l _ rfl
    fun t ht p _ => by
      rw [State.renderOne_ncu]
      split
      · rw [t.raise_counters _ k hk, ht]
      · exact ht

end

/-! ### Enrolment -/

@[simp] theorem State.renderStamps_slot (s : State) (i j : SlotIx) (n c : Nat) :
    (s.renderStamps i n c).slot j = s.slot j := by
  rw [State.renderStamps_frame]
  rfl

theorem mem_zipIdx_iff {sites : List Site} {q : Site} {m : Nat} : (q, m) ∈ sites.zipIdx ↔ sites[m]? = some q :=
  List.mem_zipIdx_iff_getElem?

theorem State.renderStamps_entry (s : State) (i : SlotIx) (n c : Nat) :
    (∀ j, j ≠ i → ∀ m, (s.renderStamps i n c).entry j m = s.entry j m) ∧
    (∀ m, s.stu.sites[m]? = none → (s.renderStamps i n c).entry i m = .unrendered) ∧
    (∀ m q, m < 32 → s.stu.sites[m]? = some q →
      ((∃ g, q.kind = .guard g) → (s.renderStamps i n c).entry i m = .unrendered) ∧
      ((∀ g, q.kind ≠ .guard g) → (s.renderStamps i n c).entry i m = (renderSite q n c).1)) := by
  have hclear : ∀ m, (s.clearEntries i).entry i m = .unrendered := fun m => by
    rw [State.clearEntries_entry, if_pos rfl]
  rw [State.renderStamps_eq]
  refine ⟨fun j hj m => ?_, fun m hnone => ?_, fun m q hm hq => ⟨fun hguard => ?_, fun hother => ?_⟩⟩
  · rw [State.renderAll_entry_out i n c j m _ _ fun p _ => .inl (Ne.symm hj), State.clearEntries_entry,
      if_neg (Ne.symm hj)]
  · refine (State.renderAll_entry_out i n c i m _ _ fun p hp => .inr (.inl ?_)).trans (hclear m)
    rintro rfl
    exact nomatch hnone.symm.trans (mem_zipIdx_iff.mp hp)
  · refine (State.renderAll_entry_out i n c i m _ _ fun p hp => ?_).trans (hclear m)
    by_cases hpm : p.2 = m
    · obtain rfl : q = p.1 := Option.some.inj (hq.symm.trans (hpm ▸ mem_zipIdx_iff.mp hp))
      exact .inr (.inr hguard)
    · exact .inr (.inl hpm)
  · refine State.renderAll_entry_in i n c hm hother _ _ ?_ (mem_zipIdx_iff.mpr hq)
    rw [List.zipIdx_map_snd]
    exact List.nodup_range'

/-- The session with the next ordinal given (R7). -/
def State.ordinalGiven (s : State) (x : Session) : State :=
  { s with session := some { x with nextOrdinal := x.nextOrdinal + 1 } }

section
variable {s : State} {x : Session} (hx : s.session = some x) (i : SlotIx)
include hx

theorem State.enrol_of_room (hroom : x.nextOrdinal < 65536) : s.enrol i =
    (((s.ordinalGiven x).renderStamps i x.nextOrdinal ((s.slot i).capacity.getD 0)).updSlot i
      (fun sl => sl.enrolled x)).moveSlot i .waiting := by
  have hupd := State.updSession_eq hx fun y => { y with nextOrdinal := y.nextOrdinal + 1 }
  rw [State.enrol, State.ses_eq hx, hupd]
  exact if_pos hroom

theorem State.enrol_of_exhausted (hfull : 65536 ≤ x.nextOrdinal) (h : x.exhausted = true) : s.enrol i = s := by
  rw [State.enrol, State.ses_eq hx]
  exact (if_neg (not_lt.mpr hfull)).trans (if_pos h)

theorem State.enrol_of_full (hfull : 65536 ≤ x.nextOrdinal) (h : x.exhausted = false) : s.enrol i =
    State.raise { s with session := some { x with exhausted := true } } (.ordinalsExhausted i) := by
  have hupd := State.updSession_eq hx fun y => { y with exhausted := true }
  rw [State.enrol, State.ses_eq hx, hupd]
  exact (if_neg (not_lt.mpr hfull)).trans (if_neg (by simp [h]))

theorem State.enrol_slot (hroom : x.nextOrdinal < 65536) : (s.enrol i).slot i = { s.slot i with
    state := .waiting, ordinal := some x.nextOrdinal, span := some x.enrolSpans.1, deferred := x.enrolSpans.2.1
    rostered := x.enrolSpans.2.2, ackPoint := some x.enrolSpans.1.lo, issueCursor := some x.enrolSpans.1.lo
    ahead := [], piecesSent := 0, throttledDepth := if (s.slot i).throttled then some 1 else none
    pinCount := 0, clearCount := 0, laggard := false, changeMark := true
    lamp := (s.slot i).lamp.eval .amberBlink } := by
  rw [State.enrol_of_room hx i hroom, State.moveSlot_self, State.updSlot_self, State.renderStamps_slot]
  rfl

theorem State.enrol_slot_ne (hroom : x.nextOrdinal < 65536) {j : SlotIx} (hj : j ≠ i) :
    (s.enrol i).slot j = s.slot j := by
  rw [State.enrol_of_room hx i hroom, State.moveSlot_ne _ _ (Ne.symm hj), State.updSlot_slot_ne _ _ (Ne.symm hj),
    State.renderStamps_slot]
  rfl

theorem State.enrol_entry (hroom : x.nextOrdinal < 65536) (j : SlotIx) (m : Nat) : (s.enrol i).entry j m =
    ((s.ordinalGiven x).renderStamps i x.nextOrdinal ((s.slot i).capacity.getD 0)).entry j m := by
  rw [State.enrol_of_room hx i hroom, State.moveSlot_entry]
  rfl

theorem State.enrol_stu (hroom : x.nextOrdinal < 65536) :
    (s.enrol i).stu = { s.stu with entries := (s.enrol i).stu.entries } := by
  rw [State.enrol_of_room hx i hroom, State.moveSlot_stu, State.updSlot_stu, State.renderStamps_eq, State.renderAll_stu]
  rfl

theorem State.enrol_frame (hroom : x.nextOrdinal < 65536) : s.enrol i = { s with
    session := some { x with nextOrdinal := x.nextOrdinal + 1 }, slots := (s.enrol i).slots, stu := (s.enrol i).stu
    ncu := (s.enrol i).ncu } := by
  rw [State.enrol_of_room hx i hroom, State.moveSlot_spec, State.raise_spec]
  rw [State.renderStamps_frame]
  rfl

theorem State.enrol_counters (hroom : x.nextOrdinal < 65536) (m : Fin 10) (hm : m ≠ 9) :
    (s.enrol i).ncu.counters[m] = s.ncu.counters[m] := by
  rw [State.enrol_of_room hx i hroom, State.moveSlot_counters _ _ _ m hm, State.updSlot_ncu, State.renderStamps_eq,
    State.renderAll_counters _ _ _ _ _ m hm]
  rfl

theorem State.enrol_notices (hroom : x.nextOrdinal < 65536) (hmask : s.ncu.mask = BitVec.allOnes 10)
    (hqueue : s.ncu.notices.length +
      (s.stu.sites.zipIdx.filterMap (deferral i x.nextOrdinal ((s.slot i).capacity.getD 0))).length < 32) :
    (s.enrol i).ncu.notices = s.ncu.notices ++
      s.stu.sites.zipIdx.filterMap (deferral i x.nextOrdinal ((s.slot i).capacity.getD 0)) ++
      [.slotChanged i (s.slot i).state .waiting ((s.slot i).outcome.map Outcome.kind)] := by
  obtain ⟨hnotices, hmask'⟩ := State.renderAll_notices i x.nextOrdinal ((s.slot i).capacity.getD 0)
    (s.ordinalGiven x).stu.sites.zipIdx ((s.ordinalGiven x).clearEntries i) hmask hqueue.le
  rw [← State.renderStamps_eq] at hnotices hmask'
  rw [State.enrol_of_room hx i hroom, State.moveSlot_spec, State.raise_notices, State.setSlot_ncu, State.updSlot_ncu,
    hnotices, State.updSlot_self, State.renderStamps_slot]
  · rfl
  · exact hmask'
  · rw [State.setSlot_ncu, State.updSlot_ncu, hnotices, List.length_append]
    exact hqueue

end

theorem State.running_iff {s : State} {x : Session} (hx : s.session = some x) :
    s.running = true ↔ x.phase = .running := by
  simp [State.running, State.phase, hx]

theorem State.enterReady_eq {s : State} {x : Session} (hx : s.session = some x) (i : SlotIx) : s.enterReady i =
    if x.phase = .running then ((s.updSlot i (fun sl => { sl with qual := none })).moveSlot i .ready).enrol i
    else (s.updSlot i (fun sl => { sl with qual := none })).moveSlot i .ready := by
  have hready : ((s.updSlot i (fun sl => { sl with qual := none })).moveSlot i .ready).session = some x := by simpa using hx
  simp only [State.enterReady, State.running_iff hready]

/-- Settles O24: by the phase, the ordinals left and the exhausted flag. -/
theorem enrolmentGivesOrdinalAndStamps : Obligations.EnrolmentGivesOrdinalAndStamps := by
  intro s i x hx
  refine ⟨fun hphase => ?_, fun hphase => ?_, State.enrol_of_exhausted hx i, State.enrol_of_full hx i, fun hroom => ?_⟩
  · rw [State.enterReady_eq hx, if_neg hphase]
  · rw [State.enterReady_eq hx, if_pos hphase]
  · obtain ⟨hothers, hnone, hsites⟩ :=
      (s.ordinalGiven x).renderStamps_entry i x.nextOrdinal ((s.slot i).capacity.getD 0)
    have hentry := State.enrol_entry hx i hroom
    refine ⟨State.enrol_frame hx i hroom, State.enrol_slot hx i hroom,
      fun j hj => ⟨State.enrol_slot_ne hx i hroom hj, fun m => (hentry j m).trans (hothers j hj m)⟩,
      State.enrol_stu hx i hroom, fun m hm => (hentry i m).trans (hnone m hm), fun m q hm hq => ?_,
      State.enrol_counters hx i hroom, State.enrol_notices hx i hroom⟩
    obtain ⟨hguard, hother⟩ := hsites m q hm hq
    exact ⟨fun h => (hentry i m).trans (hguard h), fun h => (hentry i m).trans (hother h)⟩

end Sys2Proof.Machine
end

section
/-! SUPPORT. The enrolment of every READY slot, taken slot by slot in ascending number. Then the statement about START
SESSION. -/

set_option Elab.async false

namespace Sys2Proof.Machine

/-- Enrol the READY slots of a list, in its order. -/
def State.enrolReady (s : State) (l : List SlotIx) : State :=
  l.foldl (fun u i => if (u.slot i).state = .ready then u.enrol i else u) s

/-- A slot enrolled outside a pass: the whole image is its span (R8). -/
def Slot.enrolledWhole (sl : Slot) (ordinal imageLength : Nat) : Slot := { sl with
  state := .waiting, ordinal := some ordinal, span := some ⟨0, imageLength⟩, deferred := none, rostered := false
  ackPoint := some 0, issueCursor := some 0, ahead := [], piecesSent := 0
  throttledDepth := if sl.throttled then some 1 else none, pinCount := 0, clearCount := 0, laggard := false
  changeMark := true, lamp := sl.lamp.eval .amberBlink }

theorem Session.enrolSpans_of_noPass {x : Session} (h : x.pass = .noPass) :
    x.enrolSpans = (⟨0, x.imageLength⟩, none, false) := by
  cases hj : x.join <;> simp [Session.enrolSpans, h, hj]

theorem State.enrol_slot_whole {s : State} {x : Session} (hx : s.session = some x) (hpass : x.pass = .noPass) (i : SlotIx)
    (hroom : x.nextOrdinal < 65536) : (s.enrol i).slot i = (s.slot i).enrolledWhole x.nextOrdinal x.imageLength := by
  rw [State.enrol_slot hx i hroom, Session.enrolSpans_of_noPass hpass]
  rfl

theorem State.enrolReady_cons (s : State) (k : SlotIx) (l : List SlotIx) : s.enrolReady (k :: l) =
    (if (s.slot k).state = .ready then s.enrol k else s).enrolReady l := rfl

/-- Rounds over an ascending list: each READY slot of it takes the ordinal after those of the READY slots before it. -/
theorem State.enrolReady_ascending : ∀ (l : List SlotIx) (s : State) (x : Session), l.Pairwise (· < ·) →
    s.session = some x → x.pass = .noPass → x.nextOrdinal + l.length ≤ 65536 →
    (s.enrolReady l).session =
      some { x with nextOrdinal := x.nextOrdinal + (l.filter (fun i => (s.slot i).state == .ready)).length } ∧
    ∀ i, ((i ∉ l ∨ (s.slot i).state ≠ .ready) → (s.enrolReady l).slot i = s.slot i) ∧
      (i ∈ l → (s.slot i).state = .ready → (s.enrolReady l).slot i = (s.slot i).enrolledWhole (x.nextOrdinal +
        (l.filter (fun i => (s.slot i).state == .ready)).countP (fun j => decide (j < i))) x.imageLength)
  | [], s, x, _, hx, _, _ => ⟨hx, fun i => ⟨fun _ => rfl, fun h => absurd h List.not_mem_nil⟩⟩
  | k :: l, s, x, hasc, hx, hpass, hroom => by
    obtain ⟨hfirst, hasc'⟩ := List.pairwise_cons.mp hasc
    rw [List.length_cons] at hroom
    rw [State.enrolReady_cons]
    by_cases hk : (s.slot k).state = .ready
    · have hroom' : x.nextOrdinal < 65536 := by omega
      have hlater : ∀ j ∈ l, (s.enrol k).slot j = s.slot j := fun j hj =>
        State.enrol_slot_ne hx k hroom' (hfirst j hj).ne'
      have hready : l.filter (fun i => ((s.enrol k).slot i).state == .ready) =
          l.filter (fun i => (s.slot i).state == .ready) := List.filter_congr fun j hj => by rw [hlater j hj]
      have hself := State.enrol_slot_whole hx hpass k hroom'
      have hsession : (s.enrol k).session = some { x with nextOrdinal := x.nextOrdinal + 1 } := by
        rw [State.enrol_frame hx k hroom']
      obtain ⟨hses, hslots⟩ := State.enrolReady_ascending l (s.enrol k) _ hasc' hsession hpass
        (by change x.nextOrdinal + 1 + l.length ≤ 65536; omega)
      rw [if_pos hk, List.filter_cons_of_pos (by simp [hk])]
      rw [hready] at hses hslots
      refine ⟨by rw [hses, List.length_cons, Nat.add_assoc, Nat.add_comm 1], fun i => ⟨fun h => ?_, fun hi hr => ?_⟩⟩
      · have hne : i ≠ k := fun e => by simp_all
        have hsame := State.enrol_slot_ne hx k hroom' hne
        rw [(hslots i).1 (h.imp (fun hm hin => hm (List.mem_cons_of_mem k hin)) (by rw [hsame]; exact id)), hsame]
      · rcases List.mem_cons.mp hi with rfl | hin
        · have hcount : (l.filter (fun j => (s.slot j).state == .ready)).countP (fun j => decide (j < i)) = 0 :=
            List.countP_eq_zero.mpr fun j hj => by simpa using (hfirst j (List.mem_of_mem_filter hj)).le
          rw [(hslots i).1 (.inl fun hin => lt_irrefl _ (hfirst i hin)), hself, List.countP_cons, hcount]
          simp
        · rw [(hslots i).2 hin (by rw [hlater i hin]; exact hr), hlater i hin, List.countP_cons,
            if_pos (by simpa using hfirst i hin), Nat.add_assoc, Nat.add_comm 1]
    · rw [if_neg hk, List.filter_cons_of_neg (by simp [hk])]
      obtain ⟨hses, hslots⟩ := State.enrolReady_ascending l s x hasc' hx hpass (by omega)
      refine ⟨hses, fun i => ⟨fun h => (hslots i).1 (h.imp_left fun hm hin => hm (List.mem_cons_of_mem k hin)),
        fun hi hr => (hslots i).2 (List.mem_of_ne_of_mem (by rintro rfl; exact hk hr) hi) hr⟩⟩

/-- What the enrolment of a slot in a session that stands leaves as it was. -/
def EnrolKeeps (s t : State) : Prop :=
  t.req = s.req ∧ t.intake = s.intake ∧ t.win = s.win ∧ t.wsc = s.wsc ∧ t.links = s.links ∧ t.stu.sites = s.stu.sites ∧
    t.stu.regions = s.stu.regions ∧ t.stu.scratch = s.stu.scratch ∧ t.now = s.now

theorem State.enrolReady_frame : ∀ (l : List SlotIx) (s : State) (x : Session), s.session = some x →
    x.nextOrdinal + l.length ≤ 65536 → EnrolKeeps s (s.enrolReady l)
  | [], s, _, _, _ => ⟨rfl, rfl, rfl, rfl, rfl, rfl, rfl, rfl, rfl⟩
  | k :: l, s, x, hx, hroom => by
    rw [List.length_cons] at hroom
    rw [State.enrolReady_cons]
    split
    · have hframe := State.enrol_frame hx k (by omega)
      have hstu := State.enrol_stu hx k (by omega)
      obtain ⟨h1, h2, h3, h4, h5, h6, h7, h8, h9⟩ := State.enrolReady_frame l (s.enrol k)
        { x with nextOrdinal := x.nextOrdinal + 1 } (by rw [hframe])
        (by change x.nextOrdinal + 1 + l.length ≤ 65536; omega)
      exact ⟨h1.trans (by rw [hframe]), h2.trans (by rw [hframe]), h3.trans (by rw [hframe]), h4.trans (by rw [hframe]),
        h5.trans (by rw [hframe]), h6.trans (by rw [hstu]), h7.trans (by rw [hstu]), h8.trans (by rw [hstu]),
        h9.trans (by rw [hframe])⟩
    · exact State.enrolReady_frame l s x hx (by omega)

/-- The request taken and the session RUNNING, before a slot is enrolled. -/
def State.started (s : State) (x : Session) (rest : List Request) : State :=
  { s.took rest with session := some { x with phase := .running } }

theorem exec_startSession_of_serves {s : State} {x : Session} {r : Request} {rest : List Request}
    (h : s.Serves .startSession r rest) (hx : s.session = some x) :
    exec .startSession s = .next (((s.started x rest).enrolReady (List.finRange 192)).accept r .ok
      (leBytes 1 (((s.started x rest).enrolReady (List.finRange 192)).ses.nextOrdinal - x.nextOrdinal))) := by
  refine congrArg Host.Outcome.next ((State.takeRequest_took h _).trans ?_)
  have hupd : (s.took rest).updSession (fun y => { y with phase := .running }) = s.started x rest :=
    State.updSession_eq (s := s.took rest) hx _
  unfold State.forSlots
  rw [hupd]
  rfl

/-- Settles O23: the READY slots are enrolled one after the other, and 192 of them leave room for every ordinal. -/
theorem startSessionEnrolsReadySlots : Obligations.StartSessionEnrolsReadySlots := by
  refine ⟨fun s x r rest h hx hord hpass => ?_, fun x => ⟨fun hj => ?_, fun hj hp => ?_, fun hj hp hc => ?_,
    fun hj hp hc => ?_, fun hj hp => ?_⟩⟩
  · intro ready
    have hexec := exec_startSession_of_serves h hx
    have hroom : x.nextOrdinal + (List.finRange 192).length ≤ 65536 := by rw [List.length_finRange, hord]; omega
    obtain ⟨hses, hslots⟩ := State.enrolReady_ascending (List.finRange 192) (s.started x rest)
      { x with phase := .running } (List.pairwise_lt_finRange 192) rfl hpass hroom
    obtain ⟨h1, h2, h3, h4, h5, h6, h7, h8, h9⟩ := State.enrolReady_frame (List.finRange 192) (s.started x rest)
      { x with phase := .running } rfl hroom
    generalize (s.started x rest).enrolReady (List.finRange 192) = t at *
    simp only [hord, Nat.zero_add] at hses hslots
    have hnext : t.ses.nextOrdinal = ready.length := by rw [State.ses_eq hses]; rfl
    rw [hnext, hord, Nat.sub_zero] at hexec
    refine ⟨_, hexec, hses, ?_, h2, h3, h4, h5, h6, h7, h8, h9, fun i => ⟨fun hr => (hslots i).1 (.inr hr),
      fun hr => (hslots i).2 (List.mem_finRange i) hr⟩⟩
    have hreq := congrArg (fun q : ReqUnit => { q with outbox := q.outbox ++ [r.ok (leBytes 1 ready.length)] }) h1
    exact hreq
  · simp [Session.enrolSpans, hj]
  · simp [Session.enrolSpans, hj, hp]
  · simp [Session.enrolSpans, hj, hp, hc]
  · simp [Session.enrolSpans, hj, hp, hc]
  · simp [Session.enrolSpans, hj, hp]

end Sys2Proof.Machine
end

section
/-! SUPPORT. What an accepted STAMP SUPPLY does, by the GUARD site over its site, and the order of its checks. Then the
statement about it. -/

set_option Elab.async false

namespace Sys2Proof.Machine

theorem findIdx?_some_iff {α : Type} {p : α → Bool} {xs : List α} {n : Nat} : xs.findIdx? p = some n ↔
    (∃ a, xs[n]? = some a ∧ p a = true) ∧ ∀ m a, m < n → xs[m]? = some a → p a = false := by
  rw [List.findIdx?_eq_some_iff_getElem]
  constructor
  · rintro ⟨hn, hp, hfirst⟩
    refine ⟨⟨xs[n], List.getElem?_eq_getElem hn, hp⟩, fun m a hm ha => ?_⟩
    obtain ⟨hm', rfl⟩ := List.getElem?_eq_some_iff.mp ha
    simpa using hfirst m hm
  · rintro ⟨⟨a, ha, hp⟩, hfirst⟩
    obtain ⟨hn, rfl⟩ := List.getElem?_eq_some_iff.mp ha
    exact ⟨hn, hp, fun m hm => by simp [hfirst m _ hm (List.getElem?_eq_getElem (hm.trans hn))]⟩

/-- No GUARD site is over a site that lies in no region with one. -/
theorem guardOver_eq_none {sites : List Site} {regions : List Region} {t : Site}
    (h : ∀ (q : Nat) (g : Region), regions[q]? = some g → t.inside g = true →
      (∀ q' g', q' < q → regions[q']? = some g' → t.inside g' = false) → ∀ v ∈ sites, v.kind ≠ .guard q) :
    guardOver sites regions t = none := by
  cases hq : regions.findIdx? t.inside with
  | none => rw [guardOver, hq]; rfl
  | some q =>
    obtain ⟨⟨g, hg, hin⟩, hfirst⟩ := findIdx?_some_iff.mp hq
    rw [guardOver, hq, Option.bind_some, guardSiteOf, List.findIdx?_eq_none_iff]
    exact fun v hv => by simpa using h q g hg hin hfirst v hv

theorem guardOver_eq_some {sites : List Site} {regions : List Region} {t v : Site} {q m : Nat} {g : Region}
    (hg : regions[q]? = some g) (hin : t.inside g = true)
    (hfirst : ∀ q' g', q' < q → regions[q']? = some g' → t.inside g' = false) (hv : sites[m]? = some v)
    (hk : v.kind = .guard q) (hfirst' : ∀ m' v', m' < m → sites[m']? = some v' → v'.kind ≠ .guard q) :
    guardOver sites regions t = some m := by
  rw [guardOver, findIdx?_some_iff.mpr ⟨⟨g, hg, hin⟩, hfirst⟩, Option.bind_some, guardSiteOf, findIdx?_some_iff]
  exact ⟨⟨v, hv, by simpa using hk⟩, fun m' v' hm' hv' => by simpa using hfirst' m' v' hm' hv'⟩

theorem State.setEntry_spec (s : State) (i : SlotIx) (n : Nat) (e : StampEntry) :
    s.setEntry i n e = { s with stu.entries := (s.setEntry i n e).stu.entries } := by
  unfold State.setEntry
  split <;> rfl

/-- An entry that is DEFERRED is one of the 32 of its slot. -/
theorem State.lt_of_entry_deferred {s : State} {i : SlotIx} {n : Nat} (h : s.entry i n = .deferred) : n < 32 := by
  by_contra hn
  rw [State.entry, dif_neg hn] at h
  cases h

theorem State.supply_of_noGuard {s : State} {t : Site} (h : guardOver s.stu.sites s.stu.regions t = none) (r : Request)
    (i : SlotIx) (n : Nat) :
    let u := (s.setEntry i n (.supplied (r.params.drop 5))).supplyStall i t.chunk
    s.supply r i n t = u.accept r .ok ([BitVec.ofNat 8 i.val, BitVec.ofNat 8 n] ++
      stallReport (s.slot i).stall (u.slot i).stall) := by
  have hguard : guardOver (s.setEntry i n (.supplied (r.params.drop 5))).stu.sites
    (s.setEntry i n (.supplied (r.params.drop 5))).stu.regions t = none := by
    rw [State.setEntry_spec]
    exact h
  rw [State.supply, hguard]
  rfl

theorem State.supply_of_guard {s : State} {t : Site} {m : Nat} (h : guardOver s.stu.sites s.stu.regions t = some m)
    (r : Request) (i : SlotIx) (n : Nat) :
    let u := ((s.setEntry i n (.supplied (r.params.drop 5))).attemptGuard i m).supplyStall i t.chunk
    s.supply r i n t = u.accept r .ok ([BitVec.ofNat 8 i.val, BitVec.ofNat 8 n] ++
      stallReport (s.slot i).stall (u.slot i).stall) := by
  have hguard : guardOver (s.setEntry i n (.supplied (r.params.drop 5))).stu.sites
    (s.setEntry i n (.supplied (r.params.drop 5))).stu.regions t = some m := by
    rw [State.setEntry_spec]
    exact h
  rw [State.supply, hguard]
  rfl

theorem State.supplyStall_of_none {s : State} {i : SlotIx} (h : (s.slot i).stall = none) (c : Nat) :
    s.supplyStall i c = s := by
  rw [State.supplyStall, h]

section
variable {s : State} {i : SlotIx} {st : Stall} (h : (s.slot i).stall = some st)
include h

theorem State.supplyStall_elsewhere {c : Nat} (hc : st.chunk ≠ c) : s.supplyStall i c = s := by
  rw [State.supplyStall, h]
  exact if_pos hc

theorem State.supplyStall_lifted {c : Nat} (hc : st.chunk = c) (hready : s.chunkReady i c = true) :
    s.supplyStall i c = s.updSlot i (fun sl => { sl with stall := none }) := by
  rw [State.supplyStall, h]
  exact (if_neg (not_not.mpr hc)).trans (if_pos hready)

theorem State.supplyStall_moved {c n : Nat} (hc : st.chunk = c) (hready : s.chunkReady i c = false)
    (hlowest : s.lowestDeferred i c = some n) :
    s.supplyStall i c = (s.updSlot i (fun sl => { sl with stall := some ⟨n, c, st.deadline⟩ })).raise
      (.stampStalled i ((s.slot i).ordinal.getD 0) n c) := by
  subst hc
  rw [State.supplyStall, h]
  refine (if_neg (not_not.mpr rfl)).trans ((if_neg (by simp [hready])).trans ?_)
  rw [hlowest]

end

section
variable {s : State} {r : Request} {rest : List Request} (h : s.Serves .stampSupply r rest)
include h

theorem exec_stampSupply_of_high (hi : 191 < field r.params 0 1) :
    exec .stampSupply s = .next (s.replied rest (r.reply .refusedRange 1 [])) := by
  refine congrArg Host.Outcome.next ((State.takeRequest_took h _).trans ?_)
  exact (dif_neg (by omega)).trans rfl

/-- The meaning of a STAMP SUPPLY for slot `i`, by the site its second field names. -/
theorem exec_stampSupply_of_slot (i : SlotIx) (hi : field r.params 0 1 = i.val) :
    exec .stampSupply s = .next (match s.stu.sites[field r.params 1 1]? with
      | none => s.replied rest (r.reply .refusedRange 2 [])
      | some t =>
        if t.kind matches .guard _ then s.replied rest (r.reply .refusedRange 2 [])
        else if field r.params 4 1 ≠ t.width then s.replied rest (r.reply .refusedRange 4 [])
        else if (s.slot i).state.enrolled = false ∨ (s.slot i).ordinal ≠ some (field r.params 2 2) ∨
            s.entry i (field r.params 1 1) ≠ .deferred then s.replied rest (r.reply .stale 0 [])
        else (s.took rest).supply r i (field r.params 1 1) t) := by
  refine congrArg Host.Outcome.next ((State.takeRequest_took h _).trans ?_)
  refine (dif_pos (show field r.params 0 1 < 192 by omega)).trans ?_
  have hix : (⟨field r.params 0 1, show field r.params 0 1 < 192 by omega⟩ : SlotIx) = i := Fin.ext hi
  rw [hix]
  rfl

end

theorem SiteKind.matches_guard_iff (k : SiteKind) : (k matches .guard _) = true ↔ ∃ g, k = .guard g := by
  cases k <;> simp

theorem State.entry_of_req (s : State) (q : ReqUnit) (i : SlotIx) (n : Nat) :
    ({ s with req := q } : State).entry i n = s.entry i n := rfl

/-- Settles O29: the checks in order; then by the GUARD site over the site supplied. -/
theorem stampSupplyChecksAndSupplies : Obligations.StampSupplyChecksAndSupplies := by
  refine ⟨fun s r rest h => ⟨exec_stampSupply_of_high h, fun i n hi hn => ?_⟩, ⟨rfl, fun _ => rfl, fun b st => ?_⟩,
    fun s i c hst => State.supplyStall_of_none hst c, fun s i c st hst => ⟨State.supplyStall_elsewhere hst,
      State.supplyStall_lifted hst, fun n => State.supplyStall_moved hst⟩⟩
  · have hexec := exec_stampSupply_of_slot h i hi
    rw [hn] at hexec
    refine ⟨fun hsite => by rw [hexec, hsite], fun t hsite => ⟨fun hguard => ?_, fun hguard => ⟨fun hw => ?_, fun hw =>
      ⟨fun hstale => ?_, ?_⟩⟩⟩⟩
    all_goals rw [hsite] at hexec
    · rw [hexec]
      exact congrArg Host.Outcome.next (if_pos ((SiteKind.matches_guard_iff _).mpr hguard))
    · have hplain := fun hk => (SiteKind.matches_guard_iff t.kind).mp hk |>.elim hguard
      rw [hexec]
      exact congrArg Host.Outcome.next ((if_neg hplain).trans (if_pos hw))
    · have hplain := fun hk => (SiteKind.matches_guard_iff t.kind).mp hk |>.elim hguard
      rw [hexec]
      exact congrArg Host.Outcome.next ((if_neg hplain).trans ((if_neg (not_not.mpr hw)).trans (if_pos hstale)))
    · have hplain := fun hk => (SiteKind.matches_guard_iff t.kind).mp hk |>.elim hguard
      have hsupply : (s.slot i).state.enrolled = true → (s.slot i).ordinal = some (field r.params 2 2) →
          s.entry i n = .deferred → exec .stampSupply s = .next ((s.took rest).supply r i n t) := fun he ho hd => by
        rw [hexec]
        refine congrArg Host.Outcome.next ((if_neg hplain).trans ((if_neg (not_not.mpr hw)).trans (if_neg ?_)))
        simp [he, ho, hd]
      refine ⟨fun he ho hd hout hst => ?_, fun he ho hd hnone => ?_, fun q g m v he ho hd hg hin hfirst hv hk hfirst' => ?_⟩
      · have hnone : guardOver (s.took rest).stu.sites (s.took rest).stu.regions t = none := guardOver_eq_none
          fun q g hg hin => absurd (hout g (List.mem_of_getElem? hg)) (by simp [hin])
        refine ⟨_, hsupply he ho hd, ?_⟩
        have hstall : (((s.took rest).setEntry i n (.supplied (r.params.drop 5))).slot i).stall = none := by
          rw [State.setEntry_spec]
          exact hst
        rw [State.supply_of_noGuard hnone, State.supplyStall_of_none hstall, hstall, State.took_slot, hst]
        refine ⟨?_, fun j m hjm => ?_, ?_, ?_⟩
        · exact (State.setEntry_entry _ _ _ _ _ _).trans (if_pos ⟨rfl, rfl, State.lt_of_entry_deferred hd⟩)
        · exact (State.setEntry_entry _ _ _ _ _ _).trans (if_neg (by tauto))
        · rw [State.setEntry_spec]
          rfl
        · rw [State.setEntry_spec]
          rfl
      · rw [hsupply he ho hd]
        exact congrArg Host.Outcome.next
          (State.supply_of_noGuard (s := s.took rest) (guardOver_eq_none hnone) r i n)
      · rw [hsupply he ho hd]
        exact congrArg Host.Outcome.next
          (State.supply_of_guard (s := s.took rest) (guardOver_eq_some hg hin hfirst hv hk hfirst') r i n)
  · cases b <;> rfl

end Sys2Proof.Machine
end

section
/-! SUPPORT. CLEAR MARKS, SET NOTICE MASK, the snapshots and CLOSE SESSION for a request taken: what the settling of one
slot leaves, and of all of them. Then the statements about them. -/

set_option Elab.async false

namespace Sys2Proof.Machine

/-! ### Marks and the mask -/

theorem exec_clearMarks_of_serves {s : State} {r : Request} {rest : List Request} (h : s.Serves .clearMarks r rest) :
    exec .clearMarks s = .next (
      if slotsBad (field r.params 0 1) (field r.params 1 1) 192 = true then
        s.replied rest (r.reply .refusedRange (slotsDetail 197 (field r.params 0 1) (field r.params 1 1) 192 r.params) [])
      else { s.replied rest (r.ok []) with
        slots := s.slots.mapFinIdx (fun i sl _ =>
          if field r.params 0 1 ≤ i ∧ i < field r.params 0 1 + field r.params 1 1 then { sl with changeMark := false }
          else sl)
        ncu.seen := s.ncu.seen &&& ~~~BitVec.ofNat 10 (field r.params 2 2)
        ncu.noticesLost := s.ncu.noticesLost && field r.params 4 1 == 0 }) :=
  congrArg Host.Outcome.next (State.takeRequest_serves h _)

theorem exec_setNoticeMask_of_serves {s : State} {r : Request} {rest : List Request}
    (h : s.Serves .setNoticeMask r rest) : exec .setNoticeMask s = .next { s.replied rest
      (r.ok (leBytes 2 (BitVec.ofNat 10 (field r.params 0 2)).toNat)) with
        ncu.mask := BitVec.ofNat 10 (field r.params 0 2) } :=
  congrArg Host.Outcome.next (State.takeRequest_serves h _)

theorem getLsbD_ofNat_ten (v : Nat) (n : Fin 10) : (BitVec.ofNat 10 v).getLsbD n = v.testBit n := by
  rw [BitVec.getLsbD_ofNat]
  simp

theorem State.appendNotice_of_full {s : State} (h : s.ncu.notices.length = 32) (e : Event) : s.appendNotice e =
    { s with ncu.noticesLost := true, ncu.counters := s.ncu.counters.set 9 s.ncu.counters[9].bump } := by
  rw [State.appendNotice, if_neg (by rw [h, Config.noticeQueue]; omega)]
  rfl

theorem State.raise_eq (s : State) (e : Event) : s.raise e =
    if s.ncu.mask.getLsbD e.member.val then State.appendNotice { s with ncu.seen := s.ncu.seen ||| e.bit } e
    else { s with ncu.seen := s.ncu.seen ||| e.bit } := rfl

/-- Settles O30: the requests by their checks, an event by its mask bit and the room of the queue. -/
theorem eventsMarksAndMask : Obligations.EventsMarksAndMask := by
  refine ⟨⟨fun s r rest h => ?_, fun s r rest h => ⟨_, getLsbD_ofNat_ten _, exec_setNoticeMask_of_serves h⟩⟩,
    fun s e => ⟨fun hmask => ?_, fun hmask hroom => ?_, fun hmask hfull => ?_, ?_⟩⟩
  · have hexec := exec_clearMarks_of_serves h
    obtain ⟨hone, htwo, hany⟩ := slotsDetail_spec 197 (field r.params 0 1) (field r.params 1 1) 192 r.params
    refine ⟨fun hfirst hcount => ?_, fun hbad => ⟨_, hany, ?_⟩, fun hfirst hcount => ?_, fun hfirst hsum =>
      ⟨_, hexec.trans (congrArg Host.Outcome.next (if_neg (by rw [slotsBad_iff]; omega))), rfl, rfl, fun i => ?_,
        fun n => ?_, rfl⟩⟩
    · rw [hexec, if_pos (by rw [slotsBad_iff]; omega), hone hfirst hcount]
    · rw [hexec, if_pos (by rw [slotsBad_iff]; omega)]
    · rw [hexec, if_pos (by rw [slotsBad_iff]; omega), htwo hfirst hcount]
    · simp only [State.slot, Fin.getElem_fin, Vector.getElem_mapFinIdx]
      split
      · next hin => simp [hin]
      · next hout => simp [hout]
    · rw [BitVec.getLsbD_and, BitVec.getLsbD_not, getLsbD_ofNat_ten, decide_eq_true n.isLt, Bool.true_and]
  · rw [State.raise_eq, if_neg (Bool.eq_false_iff.mp hmask)]
    rfl
  · rw [State.raise_eq, if_pos hmask]
    exact if_pos hroom
  · rw [State.raise_eq, if_pos hmask]
    exact State.appendNotice_of_full (s := { s with ncu.seen := s.ncu.seen ||| e.bit }) hfull e
  · rw [State.raise_seen, BitVec.getLsbD_or, Event.bit_getLsbD, decide_eq_true rfl, Bool.or_true]

/-! ### Snapshots -/

/-- The bank a snapshot takes (R201). -/
def State.snapshotBank (s : State) : Bank :=
  ⟨s.ncu.bank.number + 1, BitVec.ofNat 32 s.now, s.ncu.counters, s.slots.map Slot.counters⟩

theorem State.takeSnapshot_frame (s : State) : s.takeSnapshot = { s with ncu := s.takeSnapshot.ncu } := by
  unfold State.takeSnapshot
  rw [State.raise_spec]

theorem State.takeSnapshot_bank (s : State) : s.takeSnapshot.ncu.bank = s.snapshotBank := State.raise_bank _ _
theorem State.takeSnapshot_autoInterval (s : State) : s.takeSnapshot.ncu.autoInterval = s.ncu.autoInterval :=
  State.raise_autoInterval _ _
theorem State.takeSnapshot_now (s : State) : s.takeSnapshot.now = s.now := State.raise_now _ _
theorem State.takeSnapshot_seen (s : State) : s.takeSnapshot.ncu.seen.getLsbD 9 = true := by
  unfold State.takeSnapshot
  rw [State.raise_seen, BitVec.getLsbD_or]
  exact Bool.or_eq_true_iff.mpr (.inr (Event.bit_getLsbD (.snapshotTaken _) 9))

/-- Settles O31: the snapshot by its parts, the timer by the interval. -/
theorem snapshotsCopyEveryCounter : Obligations.SnapshotsCopyEveryCounter := by
  refine ⟨fun s r rest h => ?_, fun s d hd => ?_⟩
  · intro v n
    have hexec : exec .snapshot s = .next (State.accept { (State.takeSnapshot { s.took rest with ncu.autoInterval := n }) with
        ncu.autoAt := if n = 0 then none
          else some ((State.takeSnapshot { s.took rest with ncu.autoInterval := n }).now + 1000 * n) } r .ok
        (leBytes 4 (State.takeSnapshot { s.took rest with ncu.autoInterval := n }).ncu.bank.number.toNat)) :=
      congrArg Host.Outcome.next (State.takeRequest_took h _)
    rw [State.takeSnapshot_now, State.takeSnapshot_bank] at hexec
    refine ⟨_, hexec, State.takeSnapshot_bank _, State.takeSnapshot_autoInterval _, rfl, State.takeSnapshot_seen _, ?_⟩
    rw [State.takeSnapshot_frame]
    rfl
  · have hexec : exec .autoSnapshotExpiry s = .next { (s.reach d).takeSnapshot with
        ncu.autoAt := some ((s.reach d).takeSnapshot.now + 1000 * (s.reach d).takeSnapshot.ncu.autoInterval) } := by
      change execAutoSnapshotExpiry s = _
      rw [execAutoSnapshotExpiry, hd]
    rw [State.takeSnapshot_now, State.takeSnapshot_autoInterval] at hexec
    refine ⟨_, hexec, State.takeSnapshot_bank _, rfl, State.takeSnapshot_autoInterval _, State.takeSnapshot_seen _, ?_⟩
    rw [State.takeSnapshot_frame]
    rfl

/-! ### CLOSE SESSION: one slot -/

/-- The record of a slot settled at the close of its session (R19). -/
def Slot.settled (sl : Slot) : Slot :=
  let c := Slot.closed { sl with inFlight := [] }
  if sl.state.enrolled then (c.withOutcome ⟨.incomplete, none, none, none⟩).moved .failed
  else if sl.state = .sizing ∨ sl.state = .probing ∨ sl.state = .ready then c.moved .present
  else c

theorem State.closeSlot_self (s : State) (i : SlotIx) : (s.closeSlot i).slot i = (s.slot i).settled := by
  have hclosed : ((s.slot i).left (s.places i)).closed = Slot.closed { s.slot i with inFlight := [] } := rfl
  unfold State.closeSlot Slot.settled
  dsimp only
  rw [← hclosed]
  split
  · rw [State.moveSlot_self, State.updSlot_self, State.updSlot_self, State.leave_self]
  · split
    · rw [State.moveSlot_self, State.updSlot_self, State.leave_self]
    · rw [State.updSlot_self, State.leave_self]

/-- What CLOSE SESSION settles in a slot. -/
def Slot.SettledAs (sl t : Slot) : Prop :=
  t.state = (if sl.state.enrolled then .failed
    else if sl.state ∈ [.sizing, .probing, .ready] then .present else sl.state) ∧
  t.outcome = (if sl.state.enrolled then some (sl.outcome.getD ⟨.incomplete, none, none, none⟩) else sl.outcome) ∧
  t.inFlight = [] ∧ t.rewrites = [] ∧ t.ahead = [] ∧ t.stall = none ∧ t.rostered = false ∧ t.laggard = false ∧
  t.pinCount = 0 ∧ t.clearCount = 0 ∧ t.throttled = false ∧ t.residency = 0 ∧ t.trouble = 0 ∧ t.ordinal = none ∧
  t.span = none ∧ t.deferred = none ∧ t.ackPoint = none ∧ t.issueCursor = none ∧ t.verifyCursor = none ∧
  t.qual = none ∧ t.capacity = sl.capacity ∧ t.settleDeadline = sl.settleDeadline ∧ t.counters = sl.counters

theorem Slot.settledAs (sl : Slot) : sl.SettledAs sl.settled := by
  unfold Slot.SettledAs Slot.settled
  cases h : sl.state <;>
    simp [SlotState.enrolled, Slot.closed, Slot.moved, Slot.withOutcome, h]

/-- What the settling of a slot leaves of the rest of the state. -/
structure CloseFrame (s t : State) : Prop where
  rest : t = { s with
    win.records := t.win.records, win.waiting := t.win.waiting, links := t.links, slots := t.slots, ncu := t.ncu }
  mask : t.ncu.mask = s.ncu.mask
  bank : t.ncu.bank = s.ncu.bank
  counters : ∀ n : Fin 10, n ≠ 9 → t.ncu.counters[n] = s.ncu.counters[n]

theorem CloseFrame.refl (s : State) : CloseFrame s s := ⟨rfl, rfl, rfl, fun _ _ => rfl⟩

theorem CloseFrame.trans {s t u : State} (a : CloseFrame s t) (b : CloseFrame t u) : CloseFrame s u :=
  ⟨b.rest.trans (by rw [a.rest]), b.mask.trans a.mask, b.bank.trans a.bank,
    fun n hn => (b.counters n hn).trans (a.counters n hn)⟩

theorem CloseFrame.updSlot (s : State) (i : SlotIx) (f : Slot → Slot) : CloseFrame s (s.updSlot i f) :=
  ⟨rfl, rfl, rfl, fun _ _ => rfl⟩

theorem CloseFrame.moveSlot (s : State) (i : SlotIx) (n : SlotState) : CloseFrame s (s.moveSlot i n) :=
  ⟨by rw [State.moveSlot_spec, State.raise_spec]; rfl, State.moveSlot_mask _ _ _, State.moveSlot_bank _ _ _,
    fun m hm => State.moveSlot_counters _ _ _ m hm⟩

theorem CloseFrame.leave (s : State) (i : SlotIx) (e : Bool) : CloseFrame s (s.leave i e) :=
  ⟨by rw [State.leave_frame], by simp, by simp, fun _ _ => by simp⟩

theorem CloseFrame.closeSlot (s : State) (i : SlotIx) : CloseFrame s (s.closeSlot i) := by
  have hclosed : CloseFrame s ((s.leave i false).updSlot i Slot.closed) :=
    (CloseFrame.leave s i false).trans (CloseFrame.updSlot _ i _)
  unfold State.closeSlot
  dsimp only
  split
  · exact hclosed.trans ((CloseFrame.updSlot _ i _).trans (CloseFrame.moveSlot _ i _))
  · split
    · exact hclosed.trans (CloseFrame.moveSlot _ i _)
    · exact hclosed

/-! ### CLOSE SESSION: the links -/

/-- A link record after the settling of a slot: the slot's path given up, its tags ABANDONED (R94, R97). -/
def Link.closing (l : Link) (k : LinkIx) (i : SlotIx) : Link :=
  if k = linkOf i then { l with path := l.path.filter (fun g => g.slot != i), tags := l.tags.map (TagState.abandon i false) }
  else l

theorem State.closeSlot_link (s : State) (i : SlotIx) (k : LinkIx) :
    (s.closeSlot i).link k = (s.link k).closing k i := by
  have hleave : (s.leave i false).link k = (s.link k).closing k i := by
    obtain ⟨hself, hne⟩ := s.leave_links i false
    unfold Link.closing
    split
    · next h => rw [h, hself]
    · next h => exact hne k h
  unfold State.closeSlot
  dsimp only
  split
  · simpa using hleave
  · split <;> simpa using hleave

/-- A tag of link `k` once the slots of a list are settled. -/
def TagState.closed (t : TagState) (k : LinkIx) (l : List SlotIx) : TagState :=
  match t with
  | .bound b => if linkOf b.slot = k ∧ b.slot ∈ l then .abandoned b else t
  | _ => t

theorem TagState.closed_closing (t : TagState) (k : LinkIx) (i : SlotIx) (l : List SlotIx) :
    TagState.closed (if k = linkOf i then t.abandon i false else t) k l = t.closed k (i :: l) := by
  cases t with
  | bound b =>
    by_cases hi : b.slot = i
    · subst hi
      by_cases hk : k = linkOf b.slot
      · simp [TagState.closed, TagState.abandon, hk]
      · simp [TagState.closed, hk, Ne.symm hk]
    · simp [TagState.closed, TagState.abandon, hi]
  | free => simp [TagState.closed, TagState.abandon]
  | lapsed => simp [TagState.closed, TagState.abandon]
  | abandoned b => simp [TagState.closed, TagState.abandon]
  | orphaned b => simp [TagState.closed, TagState.abandon]

theorem Link.closing_path (l : Link) (k : LinkIx) (i : SlotIx) (is : List SlotIx) :
    (l.closing k i).path.filter (fun g => !decide (linkOf g.slot = k ∧ g.slot ∈ is)) =
      l.path.filter (fun g => !decide (linkOf g.slot = k ∧ g.slot ∈ i :: is)) := by
  have hpath : (l.closing k i).path = if k = linkOf i then l.path.filter (fun g => g.slot != i) else l.path := by
    unfold Link.closing
    split <;> rfl
  rw [hpath]
  cases l.path with
  | none => split <;> rfl
  | some g =>
    by_cases hg : g.slot = i
    · subst hg
      by_cases hk : k = linkOf g.slot
      · simp [Option.filter, ← hk]
      · simp [Option.filter, hk, Ne.symm hk]
    · by_cases hk : k = linkOf i <;> simp [Option.filter, hg, hk]

theorem State.closeSlots_link : ∀ (l : List SlotIx) (s : State) (k : LinkIx),
    let t := l.foldl (fun u i => u.closeSlot i) s
    t.link k = { s.link k with
      tags := (t.link k).tags, path := (s.link k).path.filter (fun g => !decide (linkOf g.slot = k ∧ g.slot ∈ l)) } ∧
    ∀ tag, (t.link k).tag tag = ((s.link k).tag tag).closed k l
  | [], s, k => by
    have hnil : ∀ t : TagState, t.closed k [] = t := fun t => by cases t <;> simp [TagState.closed]
    have hall : (s.link k).path.filter (fun g => !decide (linkOf g.slot = k ∧ g.slot ∈ ([] : List SlotIx))) =
        (s.link k).path := by cases (s.link k).path <;> simp
    exact ⟨by rw [hall]; rfl, fun tag => (hnil _).symm⟩
  | i :: l, s, k => by
    obtain ⟨hlink, htag⟩ := State.closeSlots_link l (s.closeSlot i) k
    refine ⟨hlink.trans ?_, fun tag => (htag tag).trans ?_⟩
    · rw [← Link.closing_path, State.closeSlot_link, Link.closing]
      split <;> rfl
    · rw [← TagState.closed_closing, State.closeSlot_link, Link.closing]
      split
      · simp [Link.tag]
      · rfl

/-! ### CLOSE SESSION: the shared state -/

theorem State.flowNext_of_none {s : State} (h : s.session = none) : s.flowNext = .paused := by
  unfold State.flowNext
  cases s.intake.flow <;> simp [State.streaming, h]

/-- The flow state evaluated outside a session: PAUSED on an UP link, with a FLOW frame if it was OPEN (R58, R60). -/
theorem State.evalFlow_of_none {s : State} (h : s.session = none) : s.evalFlow = { s with
    intake.flow := if s.intake.linkUp then .paused else s.intake.flow
    req.flowOut := if s.intake.linkUp = true ∧ s.intake.flow = .opened then
        (if s.req.flowOut.length < 8 then s.req.flowOut else s.req.flowOut.dropLast) ++ [⟨.paused, none, none⟩]
      else s.req.flowOut } := by
  have hhead : s.head = none := by rw [State.head, h]; rfl
  have hfree : s.free = none := by rw [State.free, h]; rfl
  rw [State.evalFlow, State.flowNext_of_none h]
  by_cases hup : s.intake.linkUp = true
  · cases hf : s.intake.flow with
    | opened =>
      rw [if_pos ⟨hup, by simp⟩, if_pos hup, if_pos ⟨hup, rfl⟩]
      unfold State.sendFlow Config.flowOutbox
      rw [show State.head { s with intake.flow := .paused } = none from hhead,
        show State.free { s with intake.flow := .paused } = none from hfree]
    | paused =>
      rw [if_neg (by simp), if_pos hup, if_neg (by simp), ← hf]
  · rw [if_neg (fun h => hup h.1), if_neg hup, if_neg (fun h => hup h.1)]

/-- The request taken and a pending HOLD reply settled (R111). -/
def State.holdSettled (s : State) (rest : List Request) : State := { s with
  req.queue := rest
  req.outbox := s.req.outbox ++ (match s.wsc.holdReply with
    | some tag => [runReply tag]
    | none => [])
  wsc.holdReply := none }

theorem State.settleHold_took (s : State) (rest : List Request) :
    (s.took rest).settleHold .ok .run = s.holdSettled rest := by
  cases h : s.wsc.holdReply with
  | none =>
    rw [State.settleHold_of_none (s := s.took rest) h, State.holdSettled, h, List.append_nil, ← h]
    rfl
  | some tag =>
    rw [State.settleHold_of_some (s := s.took rest) h, State.holdSettled, h]
    rfl

theorem exec_closeSession_of_serves {s : State} {r : Request} {rest : List Request}
    (h : s.Serves .closeSession r rest) : exec .closeSession s = .next
      ((((s.holdSettled rest).forSlots (fun i u => u.closeSlot i)).clearShared.evalFlow).accept r .ok []) := by
  refine congrArg Host.Outcome.next ((State.takeRequest_took h _).trans ?_)
  rw [State.settleHold_took]

/-- Settles O32: the slots by their own settling, the links by the settling of all, the rest by its parts. -/
theorem closeSessionSettlesAndClears : Obligations.CloseSessionSettlesAndClears := by
  intro s r rest h
  have hframe : CloseFrame (s.holdSettled rest) ((s.holdSettled rest).forSlots (fun i u => u.closeSlot i)) :=
    State.forSlots_keeps (CloseFrame (s.holdSettled rest)) (fun i t ht => ht.trans (CloseFrame.closeSlot t i))
      (CloseFrame.refl _)
  have hslots : ∀ i, ((s.holdSettled rest).slot i).SettledAs
      (((s.holdSettled rest).forSlots (fun i u => u.closeSlot i)).slot i) :=
    State.forSlots_slot (fun _ => True) (fun _ _ _ => trivial) (fun i j u hij => u.closeSlot_ne hij)
      (fun _ => Slot.SettledAs) (fun i u _ => by rw [State.closeSlot_self]; exact Slot.settledAs _) trivial
  have hlinks := fun k => State.closeSlots_link (List.finRange 192) (s.holdSettled rest) k
  have hexec := exec_closeSession_of_serves h
  unfold State.forSlots at hexec hframe hslots
  dsimp only at hlinks
  generalize (List.finRange 192).foldl (fun u i => u.closeSlot i) (s.holdSettled rest) = v at *
  have hflow := State.evalFlow_of_none (s := v.clearShared) rfl
  rw [hflow] at hexec
  have hintake : v.intake = s.intake := by rw [hframe.rest]; rfl
  have hreq : v.req = (s.holdSettled rest).req := by rw [hframe.rest]
  refine ⟨_, hexec, rfl, ⟨rfl, rfl, rfl, rfl, rfl, rfl, rfl, rfl⟩, rfl, ?_, ?_, ?_, ?_, ?_, fun i n => ?_, hframe.mask,
    hframe.bank, hframe.counters, ?_, fun k => ?_, fun k tag => ?_, ?_, ?_, hslots⟩
  · change v.wsc.holdReply = none
    rw [hframe.rest]
    rfl
  · change v.req.queue = rest
    rw [hreq]
    rfl
  · change v.req.outbox ++ [_] = _
    rw [hreq]
    rfl
  · change v.win.frames = _
    rw [hframe.rest]
    rfl
  · change v.stu.scratch = _
    rw [hframe.rest]
    rfl
  · unfold State.entry
    split
    · simp [State.clearShared, State.accept, State.pushReply]
    · rfl
  · change v.now = _
    rw [hframe.rest]
    rfl
  · obtain ⟨hlink, -⟩ := hlinks k
    refine hlink.trans ?_
    have hpath : (fun g : Grant => !decide (linkOf g.slot = k ∧ g.slot ∈ List.finRange 192)) =
        (fun g : Grant => linkOf g.slot != k) := funext fun g => by simp [bne, beq_eq_decide]
    rw [hpath]
    rfl
  · obtain ⟨-, htags⟩ := hlinks k
    refine ⟨fun b hb hk => (htags tag).trans ?_, fun hother => (htags tag).trans ?_⟩
    · change TagState.closed ((s.link k).tag tag) k _ = _
      rw [hb]
      exact if_pos ⟨hk, List.mem_finRange _⟩
    · change TagState.closed ((s.link k).tag tag) k _ = _
      revert hother
      cases (s.link k).tag tag with
      | bound b => exact fun hother => if_neg fun hin => hother b rfl hin.1
      | free => exact fun _ => rfl
      | lapsed => exact fun _ => rfl
      | abandoned b => exact fun _ => rfl
      | orphaned b => exact fun _ => rfl
  · change (⟨none, if v.intake.linkUp then .paused else v.intake.flow, v.intake.linkUp⟩ : Intake) = _
    rw [hintake]
  · change (if v.intake.linkUp = true ∧ v.intake.flow = .opened then
      (if v.req.flowOut.length < 8 then v.req.flowOut else v.req.flowOut.dropLast) ++ [⟨.paused, none, none⟩]
      else v.req.flowOut) = _
    rw [hintake, hreq]
    rfl

end Sys2Proof.Machine
end

section
/-! SUPPORT. The settle deadline, the rises and decays of trouble, the stall deadline, and the closing of an event:
retirement, a pass end, the lowest place a WAITING slot goes on from. Then the statements about them. -/

set_option Elab.async false

namespace Sys2Proof.Machine

/-! ### The settle deadline -/

/-- The time reached and what the previous stick left cleared (R66, R119). -/
def State.newStick (s : State) (i : SlotIx) (d : Nat) : State :=
  (((s.reach d).clearEntries i).updSlot i Slot.newStick)

theorem exec_settleDeadline {s : State} {i : SlotIx} {d : Nat} (hstate : (s.slot i).state = .settling)
    (hd : (s.slot i).settleDeadline = some d) : exec (.settleDeadline i) s = .next (
      if s.phase = none ∨ s.phase = some .faulted then (s.newStick i d).moveSlot i .present
      else (s.newStick i d).enterSizing i) := by
  change execSettleDeadline i s = _
  unfold execSettleDeadline
  rw [hstate, hd]
  cases s.phase with
  | none => rfl
  | some p => cases p <;> rfl

theorem State.newStick_entry (s : State) (i j : SlotIx) (d n : Nat) :
    (s.newStick i d).entry j n = if i = j then .unrendered else s.entry j n :=
  (State.clearEntries_entry (s.reach d) i j n)

theorem State.newStick_self (s : State) (i : SlotIx) (d : Nat) : (s.newStick i d).slot i = (s.slot i).newStick :=
  State.updSlot_self ((s.reach d).clearEntries i) i Slot.newStick

theorem State.newStick_ne (s : State) {i j : SlotIx} (d : Nat) (h : i ≠ j) : (s.newStick i d).slot j = s.slot j :=
  State.updSlot_slot_ne ((s.reach d).clearEntries i) Slot.newStick h

/-- What a slot change after the settle deadline leaves of the rest of the state. -/
def SettleFrame (s t : State) (d : Nat) : Prop :=
  t.now = max s.now d ∧ t = { s with now := t.now, slots := t.slots, stu := t.stu, ncu := t.ncu } ∧
    t.stu = { s.stu with entries := t.stu.entries }

theorem SettleFrame.newStick (s : State) (i : SlotIx) (d : Nat) : SettleFrame s (s.newStick i d) d := ⟨rfl, rfl, rfl⟩

theorem SettleFrame.updSlot {s t : State} {d : Nat} (h : SettleFrame s t d) (i : SlotIx) (f : Slot → Slot) :
    SettleFrame s (t.updSlot i f) d :=
  ⟨h.1, by rw [h.2.1]; rfl, h.2.2⟩

theorem SettleFrame.moveSlot {s t : State} {d : Nat} (h : SettleFrame s t d) (i : SlotIx) (n : SlotState) :
    SettleFrame s (t.moveSlot i n) d := by
  obtain ⟨hnow, hrest, hstu⟩ := h
  refine ⟨by rw [State.moveSlot_now, hnow], ?_, by rw [State.moveSlot_stu, hstu]⟩
  rw [State.moveSlot_spec, State.raise_spec, hrest]
  rfl

/-- Settles O34: by the phase. -/
theorem settleDeadlineSeatsANewStick : Obligations.SettleDeadlineSeatsANewStick := by
  intro s i d hstate hd
  rw [exec_settleDeadline hstate hd]
  refine ⟨_, rfl, ?_⟩
  by_cases hp : s.phase = none ∨ s.phase = some .faulted
  · have hself : (State.moveSlot (s.newStick i d) i .present).slot i = ((s.slot i).newStick).moved .present := by
      rw [State.moveSlot_self, State.newStick_self]
    obtain ⟨hnow, hrest, hstu⟩ := (SettleFrame.newStick s i d).moveSlot i .present
    rw [if_pos hp, if_pos hp, hself]
    refine ⟨hnow, rfl, fun x hx hphase => ?_, rfl, rfl, rfl, rfl, rfl, rfl, rfl, rfl, rfl, rfl, rfl, rfl, rfl, rfl, rfl,
      rfl, rfl, rfl, rfl, rfl, fun n => ?_, fun j n hj => ?_, fun j hj => ?_, hrest, hstu⟩
    · exact absurd hp (by simpa [State.phase, hx] using hphase)
    · rw [State.moveSlot_entry, State.newStick_entry, if_pos rfl]
    · rw [State.moveSlot_entry, State.newStick_entry, if_neg (Ne.symm hj)]
    · rw [State.moveSlot_ne _ _ (Ne.symm hj), State.newStick_ne _ _ (Ne.symm hj)]
  · obtain ⟨hnow, hrest, hstu⟩ := ((SettleFrame.newStick s i d).updSlot i (fun sl =>
      { sl with qual := some ⟨.size, (s.newStick i d).sizeProbe i, 0⟩, inFlight := [], capacity := none })).moveSlot i
      .sizing
    rw [if_neg hp, if_neg hp, State.enterSizing_self, State.newStick_self]
    refine ⟨hnow, rfl, fun x hx _ => ⟨rfl, _, rfl, fun hk => ?_⟩, rfl, rfl, rfl, rfl, rfl, rfl, rfl, rfl, rfl, rfl, rfl,
      rfl, rfl, rfl, rfl, rfl, rfl, rfl, rfl, rfl, fun n => ?_, fun j n hj => ?_, fun j hj => ?_, hrest, hstu⟩
    · have hses : (s.newStick i d).ses = x := State.ses_eq hx
      have hlt := State.sizeProbe_lt (s := s.newStick i d) i (by rwa [hses])
      rwa [hses] at hlt
    · exact (State.moveSlot_entry _ _ _ _ _).trans ((s.newStick_entry i i d n).trans (if_pos rfl))
    · exact (State.moveSlot_entry _ _ _ _ _).trans ((s.newStick_entry i j d n).trans (if_neg (Ne.symm hj)))
    · rw [State.enterSizing_ne _ (Ne.symm hj), State.newStick_ne _ _ (Ne.symm hj)]

/-! ### Trouble -/

section
variable {s : State} {x : Session} (hx : s.session = some x) (i : SlotIx) (w : Nat) (go : State → State)
include hx

theorem State.raiseTrouble_ejected (h : x.tune.eject ≤ min 63 ((s.slot i).trouble + w)) : s.raiseTrouble i w go =
    (s.updSlot i (fun sl => { sl with trouble := min 63 ((s.slot i).trouble + w) })).failSlot i
      ⟨.trouble, none, none, none⟩ := by
  rw [State.raiseTrouble, State.ses_eq hx]
  exact if_pos h

theorem State.raiseTrouble_gone (h : min 63 ((s.slot i).trouble + w) < x.tune.eject)
    (ht : min 63 ((s.slot i).trouble + w) < x.tune.throttle) : s.raiseTrouble i w go =
    go (s.updSlot i (fun sl => { sl with trouble := min 63 ((s.slot i).trouble + w) })) := by
  rw [State.raiseTrouble, State.ses_eq hx]
  exact (if_neg (not_le.mpr h)).trans (congrArg go (if_neg (not_le.mpr ht)))

theorem State.raiseTrouble_throttled (h : min 63 ((s.slot i).trouble + w) < x.tune.eject)
    (ht : x.tune.throttle ≤ min 63 ((s.slot i).trouble + w)) : s.raiseTrouble i w go =
    go ((s.updSlot i (fun sl => { sl with trouble := min 63 ((s.slot i).trouble + w) })).throttleSlot i) := by
  rw [State.raiseTrouble, State.ses_eq hx]
  exact (if_neg (not_le.mpr h)).trans (congrArg go (if_pos ht))

end

theorem State.updSlot_updSlot (s : State) (i : SlotIx) (f g : Slot → Slot) :
    (s.updSlot i f).updSlot i g = s.updSlot i (fun sl => g (f sl)) := by
  unfold State.updSlot
  simp only [State.setSlot_self, State.setSlot_setSlot]

/-- The places of a slot do not turn on its trouble. -/
theorem State.places_updTrouble (s : State) (i : SlotIx) (n : Nat) :
    (s.updSlot i (fun sl => { sl with trouble := n })).places i = s.places i := by
  unfold State.places State.grantPlace
  rw [State.updSlot_self]
  rfl

theorem Slot.decayed_of_free {sl : Slot} (h : sl.throttled = false) (release rmin : Nat) :
    sl.decayed release rmin = { sl with trouble := sl.trouble - 1 } := by
  simp [Slot.decayed, h]

theorem exec_decayTick {s : State} {x : Session} {d : Nat} (hx : s.session = some x) (hd : s.wsc.decayAt = some d) :
    exec .decayTick s = .next { s with
      now := max s.now d, wsc.decayAt := some (max s.now d + 1000 * x.tune.decayInterval)
      slots := s.slots.map (fun (sl : Slot) => sl.decayed (x.tune.throttle - 8) x.tune.residencyMin) } := by
  change execDecayTick s = _
  unfold execDecayTick
  rw [hd, ← State.ses_eq hx]
  rfl

/-- Settles O36: a rise by the thresholds, a decay by the throttled flag. -/
theorem troubleRisesAndDecays : Obligations.TroubleRisesAndDecays := by
  refine ⟨fun s x i w go hx => ?_, fun s x d hx hd => ⟨_, exec_decayTick hx hd, rfl, fun i => ?_⟩⟩
  · intro score
    refine ⟨fun h => ⟨_, rfl, ?_⟩, fun h ht hfree => ?_, fun h ht hthrottled => ?_, fun h ht => ?_⟩
    · rw [State.raiseTrouble_ejected hx i w go h]
      have hfailed := State.failSlot_failed (s.updSlot i (fun sl => { sl with trouble := score })) i
        ⟨.trouble, none, none, none⟩
      rw [hfailed.own, State.updSlot_self]
      exact ⟨rfl, rfl, rfl, (Elsewhere.updSlot (mine := (· = i)) s _ rfl).trans (Elsewhere.failSlot _ _ rfl)⟩
    · rw [State.raiseTrouble_throttled hx i w go h ht, State.throttleSlot, State.updSlot_updSlot, State.places_updTrouble]
      exact congrArg (fun v => go (s.setSlot i v)) (if_neg (by simp [hfree]))
    · rw [State.raiseTrouble_throttled hx i w go h ht, State.throttleSlot, State.updSlot_updSlot]
      exact congrArg (fun v => go (s.setSlot i v)) (if_pos hthrottled)
    · exact State.raiseTrouble_gone hx i w go h ht
  · intro sl
    have hslot : ∀ f : Slot → Slot, State.slot { s with
        now := max s.now d, wsc.decayAt := some (max s.now d + 1000 * x.tune.decayInterval), slots := s.slots.map f } i =
        f sl := fun f => Vector.getElem_map _ _
    rw [hslot]
    refine ⟨fun hfree => Slot.decayed_of_free hfree _ _, fun hthrottled => ⟨fun h => ?_, fun h => ?_⟩⟩
    · rw [Slot.decayed, if_pos hthrottled]
      exact if_pos h
    · rw [Slot.decayed, if_pos hthrottled]
      exact if_neg (by omega)

/-! ### The stall deadline -/

theorem exec_stallDeadline {s : State} {x : Session} {i : SlotIx} {st : Stall} (hx : s.session = some x)
    (hst : (s.slot i).stall = some st) : exec (.stallDeadline i) s = .next (
      if x.phase = .running then ((s.reach st.deadline).failSlot i ⟨.stampTimeout, some st.chunk, none, none⟩).close
      else s.reach st.deadline) := by
  change execStallDeadline i s = _
  have hrun := State.running_iff (s := s.reach st.deadline) hx
  unfold execStallDeadline
  rw [hst]
  simp only [hrun]

/-- Settles O38: by the phase. -/
theorem stallDeadlineFailsTheSlot : Obligations.StallDeadlineFailsTheSlot := by
  intro s x i st hx hst
  rw [exec_stallDeadline hx hst]
  refine ⟨fun hphase => ⟨_, by rw [if_pos hphase], ?_⟩, fun hphase => by rw [if_neg (by simp [hphase])]; rfl⟩
  have hfailed := State.failSlot_failed (s.reach st.deadline) i ⟨.stampTimeout, some st.chunk, none, none⟩
  obtain ⟨hself, -⟩ := State.close_slot_eq ((s.reach st.deadline).failSlot i ⟨.stampTimeout, some st.chunk, none, none⟩) i
  rw [hfailed.own] at hself
  rw [hself, State.close_records, hfailed.records, State.head_eq (s := s.reach st.deadline) hx]
  exact ⟨rfl, rfl, rfl, rfl, rfl, (Elsewhere.failSlot (mine := (· = i)) _ _ rfl).trans (Elsewhere.close _ _), rfl⟩

/-! ### The closing of an event -/

theorem retired_split : ∀ rs : List ChunkRecord, ∃ gone, rs = gone ++ retired rs ∧
    (∀ r ∈ gone, ∃ y, r.resident = some y ∧ y.owed = 0) ∧
    ∀ r rest, retired rs = r :: rest → ∀ y, r.resident = some y → y.owed ≠ 0
  | [] => ⟨[], rfl, fun r h => absurd h List.not_mem_nil, fun r rest h => nomatch h⟩
  | r :: rs => by
    cases hr : r.resident with
    | none =>
      have hkept : retired (r :: rs) = r :: rs := by simp [retired, hr]
      rw [hkept]
      refine ⟨[], rfl, fun q h => absurd h List.not_mem_nil, fun q rest h y hy => ?_⟩
      cases h
      rw [hr] at hy
      cases hy
    | some x =>
      by_cases hx : x.owed = 0
      · obtain ⟨gone, hsplit, hgone, hfirst⟩ := retired_split rs
        have hkept : retired (r :: rs) = retired rs := by simp [retired, hr, hx]
        rw [hkept]
        refine ⟨r :: gone, congrArg (r :: ·) hsplit, fun q hq => ?_, hfirst⟩
        rcases List.mem_cons.mp hq with rfl | hq
        · exact ⟨x, hr, hx⟩
        · exact hgone q hq
      · have hkept : retired (r :: rs) = r :: rs := by simp [retired, hr, hx]
        rw [hkept]
        refine ⟨[], rfl, fun q h => absurd h List.not_mem_nil, fun q rest h y hy => ?_⟩
        cases h
        rw [hr, Option.some.injEq] at hy
        rwa [← hy]

theorem retired_length_iff (rs : List ChunkRecord) : (retired rs).length = rs.length ↔ retired rs = rs := by
  refine ⟨fun h => ?_, congrArg List.length⟩
  obtain ⟨gone, hsplit, -, -⟩ := retired_split rs
  have hlen := congrArg List.length hsplit
  rw [List.length_append] at hlen
  have hnil : gone = [] := List.eq_nil_of_length_eq_zero (by omega)
  rw [hnil, List.nil_append] at hsplit
  exact hsplit.symm

theorem State.retireFlow_of_gone {s : State} (h : retired s.win.records ≠ s.win.records) :
    s.retireFlow = s.retire.evalFlow := by
  refine if_neg ?_
  rw [State.retire_records, retired_length_iff]
  exact h

theorem State.retire_of_kept {s : State} (h : retired s.win.records = s.win.records) : s.retire = s := by
  unfold State.retire
  rw [h]
  exact if_neg fun e => e.2.1 e.1

theorem State.retireFlow_of_kept {s : State} (h : retired s.win.records = s.win.records) : s.retireFlow = s := by
  rw [State.retireFlow, State.retire_of_kept h]
  exact if_pos rfl

theorem State.waiting_length (s : State) :
    s.waitingSlots.length = (List.finRange 192).countP (fun i => decide ((s.slot i).state = .waiting)) := by
  rw [State.waitingSlots, ← List.countP_eq_length_filter, State.slots_toList, List.countP_map]
  exact List.countP_congr fun i _ => by simp

theorem State.mem_waitingFroms (s : State) (n : Nat) : n ∈ (s.waitingSlots.filterMap Slot.span).map Span.lo ↔
    ∃ i sp, (s.slot i).state = .waiting ∧ (s.slot i).span = some sp ∧ sp.lo = n := by
  simp only [State.waitingSlots, State.slots_toList, List.mem_map, List.mem_filterMap, List.mem_filter, beq_iff_eq]
  constructor
  · rintro ⟨sp, ⟨sl, ⟨⟨i, -, rfl⟩, hw⟩, hsp⟩, hlo⟩
    exact ⟨i, sp, hw, hsp, hlo⟩
  · rintro ⟨i, sp, hw, hsp, hlo⟩
    exact ⟨sp, ⟨s.slot i, ⟨⟨i, List.mem_finRange i, rfl⟩, hw⟩, hsp⟩, hlo⟩

theorem State.lowestFrom_eq_none_iff (s : State) :
    s.lowestFrom = none ↔ ∀ i, (s.slot i).state = .waiting → (s.slot i).span = none := by
  rw [State.lowestFrom, List.min?_eq_none_iff, List.eq_nil_iff_forall_not_mem]
  simp only [State.mem_waitingFroms]
  constructor
  · intro h i hw
    by_contra hsp
    obtain ⟨sp, hsp⟩ := Option.ne_none_iff_exists'.mp hsp
    exact h sp.lo ⟨i, sp, hw, hsp, rfl⟩
  · rintro h n ⟨i, sp, hw, hsp, -⟩
    rw [h i hw] at hsp
    cases hsp

theorem State.lowestFrom_eq_some_iff (s : State) (n : Nat) : s.lowestFrom = some n ↔
    (∃ i sp, (s.slot i).state = .waiting ∧ (s.slot i).span = some sp ∧ sp.lo = n) ∧
      ∀ i sp, (s.slot i).state = .waiting → (s.slot i).span = some sp → n ≤ sp.lo := by
  rw [State.lowestFrom, List.min?_eq_some_iff]
  simp only [State.mem_waitingFroms]
  exact and_congr_right fun _ => ⟨fun h i sp hw hsp => h _ ⟨i, sp, hw, hsp, rfl⟩,
    fun h m ⟨i, sp, hw, hsp, hlo⟩ => hlo ▸ h i sp hw hsp⟩

theorem State.retire_of_open {s : State} {x : Session} (hx : s.session = some x)
    (h : ¬(x.pass = .draining ∧ retired s.win.records = [] ∧ s.win.records ≠ [])) :
    s.retire = { s with win.records := retired s.win.records } := by
  unfold State.retire
  rw [State.ses_eq hx]
  exact if_neg fun ⟨hk, hr, hp⟩ => h ⟨hp, hk, hr⟩

theorem State.retire_of_ended {s : State} {x : Session} (hx : s.session = some x)
    (h : x.pass = .draining ∧ retired s.win.records = [] ∧ s.win.records ≠ []) : s.retire = State.raise { s with
        win.records := [], session := some { x with pass := .noPass }
        slots := s.slots.map (fun (sl : Slot) => { sl with rostered := false }) }
      (.passEnded x.passNumber ((List.finRange 192).countP (fun i => decide ((s.slot i).state = .waiting)))
        s.lowestFrom) := by
  obtain ⟨hp, hk, hr⟩ := h
  rw [← State.waiting_length]
  unfold State.retire
  rw [hk, State.ses_eq hx]
  refine (if_pos ⟨rfl, hr, hp⟩).trans ?_
  have hupd := State.updSession_eq (s := { s with win.records := [] }) hx (fun y => { y with pass := .noPass })
  have hses : State.ses { s with win.records := [] } = x := State.ses_eq hx
  unfold State.passEnd
  rw [hupd, hses]
  rfl

/-- What a LIVE slot owes of a chunk, read from its span (R32). -/
theorem Slot.owes_iff {sl : Slot} {a : Nat} {sp : Span} (ha : sl.ackPoint = some a) (hsp : sl.span = some sp) (h c : Nat) :
    sl.owes h c = true ↔ a ≤ c ∧ c < min sp.hi h ∧ c ∉ sl.ahead := by
  simp [Slot.owes, ha, hsp, and_assoc]

/-- Settles O35: each operation by its cases. -/
theorem pendingIsReleasedAndRetired : Obligations.PendingIsReleasedAndRetired := by
  refine ⟨fun s i x a sp hx ha hsp => ⟨fun hlive => ?_, fun hlive => if_neg hlive⟩, retired_split,
    fun s x hx => ⟨State.retire_of_open hx, State.retire_of_ended hx⟩,
    fun s => ⟨s.lowestFrom_eq_none_iff, s.lowestFrom_eq_some_iff⟩, fun s => ⟨fun h => ?_, fun h => ?_⟩⟩
  · have hrel : s.releaseOwed i = { s with win.records := lowerOwed ((s.slot i).owes (s.head.getD 0)) s.win.records } :=
      if_pos hlive
    rw [hrel, State.head_eq hx]
    simp only [lowerOwed, Option.getD_some, Slot.owes_iff ha hsp]
  · rw [State.close, State.retireFlow_of_gone h]
  · rw [State.close, State.retireFlow_of_kept h]

end Sys2Proof.Machine
end

section
/-! SUPPORT. What the bytes of a frame and of a bridge message are read as, and a SEGMENT by its class. Then the statements
about what arrives. -/

set_option Elab.async false

namespace Sys2Proof.Machine

/-! ### Downstream frames -/

theorem downstreamFrame_cons (kind : Byte) (body : List Byte) (h : body.length < 65536) :
    downstreamFrame (kind :: (leBytes 2 body.length ++ body)) =
      if kind = 0x01#8 ∧ body.length = 4101 then
        some (.segment (BitVec.ofNat 32 (field body 0 4)) (BitVec.ofNat 8 (field body 4 1)) (body.drop 5))
      else if kind = 0x02#8 ∧ 3 ≤ body.length then
        some (.requestFrame (BitVec.ofNat 16 (field body 0 2)) (BitVec.ofNat 8 (field body 2 1)) (body.drop 3))
      else some (.malformedFrame kind (BitVec.ofNat 16 body.length)) := by
  have hlen : leValue (leBytes 2 body.length) = body.length := (leValue_leBytes _ _).trans (Nat.mod_eq_of_lt h)
  have hshape : downstreamFrame (kind :: (leBytes 2 body.length ++ body)) =
      if body.length ≠ leValue (leBytes 2 body.length) then none
      else if kind = 0x01#8 ∧ leValue (leBytes 2 body.length) = 4101 then
        some (.segment (BitVec.ofNat 32 (field body 0 4)) (BitVec.ofNat 8 (field body 4 1)) (body.drop 5))
      else if kind = 0x02#8 ∧ 3 ≤ leValue (leBytes 2 body.length) then
        some (.requestFrame (BitVec.ofNat 16 (field body 0 2)) (BitVec.ofNat 8 (field body 2 1)) (body.drop 3))
      else some (.malformedFrame kind (BitVec.ofNat 16 (leValue (leBytes 2 body.length)))) := rfl
  rw [hshape, hlen, if_neg (not_not.mpr rfl)]

theorem ofNat_toNat_mod (n : Nat) (v : BitVec n) : BitVec.ofNat n (v.toNat % 2 ^ n) = v := by
  rw [Nat.mod_eq_of_lt v.isLt, BitVec.ofNat_toNat, BitVec.setWidth_eq]

theorem field_byte (a : List Byte) (b : Byte) (c : List Byte) : BitVec.ofNat 8 (field (a ++ b :: c) a.length 1) = b := by
  rw [field_skip _ _ _ _ le_rfl, Nat.sub_self]
  simp [field, leValue]

theorem downstreamFrame_segment (chunk : Word32) (index : Byte) (bytes : List Byte) (h : bytes.length = 4096) :
    downstreamFrame (0x01#8 :: (leBytes 2 4101 ++ (leBytes 4 chunk.toNat ++ index :: bytes))) =
      some (.segment chunk index bytes) := by
  have hlen : (leBytes 4 chunk.toNat ++ index :: bytes).length = 4101 := by simp [h]
  have hread := downstreamFrame_cons 0x01#8 (leBytes 4 chunk.toNat ++ index :: bytes) (by omega)
  rw [if_pos ⟨rfl, hlen⟩, hlen] at hread
  have hindex : BitVec.ofNat 8 (field (leBytes 4 chunk.toNat ++ index :: bytes) 4 1) = index := by
    simpa using field_byte (leBytes 4 chunk.toNat) index bytes
  have hchunk : BitVec.ofNat 32 (field (leBytes 4 chunk.toNat ++ index :: bytes) 0 4) = chunk := by
    rw [field_head]
    exact ofNat_toNat_mod 32 chunk
  have hdata : (leBytes 4 chunk.toNat ++ index :: bytes).drop 5 = bytes := rfl
  rw [hread, hindex, hchunk, hdata]

theorem downstreamFrame_request (tag : ReqTag) (code : Byte) (ps : List Byte) (h : ps.length + 3 < 65536) :
    downstreamFrame (0x02#8 :: (leBytes 2 (ps.length + 3) ++ (leBytes 2 tag.toNat ++ code :: ps))) =
      some (.requestFrame tag code ps) := by
  have hlen : (leBytes 2 tag.toNat ++ code :: ps).length = ps.length + 3 := by
    rw [List.length_append, leBytes_length, List.length_cons]
    omega
  have hread := downstreamFrame_cons 0x02#8 (leBytes 2 tag.toNat ++ code :: ps) (by omega)
  rw [hlen, if_neg (fun h => absurd h.1 (by decide)), if_pos ⟨rfl, by omega⟩] at hread
  have hcode : BitVec.ofNat 8 (field (leBytes 2 tag.toNat ++ code :: ps) 2 1) = code := by
    simpa using field_byte (leBytes 2 tag.toNat) code ps
  have htag : BitVec.ofNat 16 (field (leBytes 2 tag.toNat ++ code :: ps) 0 2) = tag := by
    rw [field_head]
    exact ofNat_toNat_mod 16 tag
  have hdata : (leBytes 2 tag.toNat ++ code :: ps).drop 3 = ps := rfl
  rw [hread, hcode, htag, hdata]

/-- Two bytes are the layout of the value they give. -/
theorem leBytes_leValue_two (lo hi : Byte) : leBytes 2 (leValue [lo, hi]) = [lo, hi] := by
  have hlo := lo.isLt
  have hhi := hi.isLt
  have hvalue : leValue [lo, hi] = lo.toNat + 256 * hi.toNat := by simp [leValue]
  have hdiv : (lo.toNat + 256 * hi.toNat) / 256 = hi.toNat := by omega
  have hfirst : BitVec.ofNat 8 (lo.toNat + 256 * hi.toNat) = lo := BitVec.eq_of_toNat_eq (by simp; omega)
  rw [hvalue]
  simp [leBytes, hdiv, hfirst]

/-- Bytes that are read as a command are a kind, a body's length and the body. -/
theorem exists_frame_of_downstreamFrame {bytes : List Byte} (h : downstreamFrame bytes ≠ none) :
    ∃ kind body, body.length < 65536 ∧ bytes = kind :: (leBytes 2 body.length ++ body) := by
  match bytes with
  | [] => exact absurd rfl h
  | [_] => exact absurd rfl h
  | [_, _] => exact absurd rfl h
  | kind :: lo :: hi :: body =>
    have hlen : body.length = leValue [lo, hi] := by
      by_contra hne
      exact h (if_pos hne)
    refine ⟨kind, body, ?_, ?_⟩
    · have hlo := lo.isLt
      have hhi := hi.isLt
      have hvalue : leValue [lo, hi] = lo.toNat + 256 * hi.toNat := by simp [leValue]
      omega
    · rw [hlen, leBytes_leValue_two]
      rfl

/-! ### Bridge messages -/

theorem bridgeMessage_short (k : LinkIx) {kind : Byte} (hkind : kind ≠ 0x24#8) {fields : List Byte}
    (h : fields.length < 2) : bridgeMessage k (kind :: fields) = .bridgeMessageMalformed k (kind :: fields) := by
  match fields, h with
  | [], _ => exact if_neg hkind
  | [_], _ => exact if_neg hkind
  | _ :: _ :: _, h => exact absurd h (by simp)

theorem bridgeMessage_fields (k : LinkIx) {kind : Byte} (hkind : kind ≠ 0x24#8) (a b : Byte) (data : List Byte) :
    bridgeMessage k (kind :: a :: b :: data) =
      if kind = 0x20#8 then .writeAck k a b
      else if kind = 0x21#8 then .readData k a b data
      else if kind = 0x22#8 then .capacity k a b data
      else if h : kind = 0x23#8 ∧ a.toNat < 16 ∧ b.toNat ≤ 1 then
        if b = 0 then .presenceRemoved k ⟨a.toNat, h.2.1⟩ else .presenceInserted k ⟨a.toNat, h.2.1⟩
      else .bridgeMessageMalformed k (kind :: a :: b :: data) := if_neg hkind

theorem bridgeMessage_presence (k : LinkIx) (j : Socket) (b : Byte) (hb : b.toNat ≤ 1) (data : List Byte) :
    bridgeMessage k (0x23#8 :: BitVec.ofNat 8 j.val :: b :: data) =
      if b = 0 then .presenceRemoved k j else .presenceInserted k j := by
  have hj := j.isLt
  have hsocket : (BitVec.ofNat 8 j.val).toNat = j.val := by
    rw [BitVec.toNat_ofNat]
    exact Nat.mod_eq_of_lt (by omega)
  have hfin : ∀ h, (⟨(BitVec.ofNat 8 j.val).toNat, h⟩ : Socket) = j := fun h => Fin.ext hsocket
  have hpos : (0x23#8 : Byte) = 0x23#8 ∧ (BitVec.ofNat 8 j.val).toNat < 16 ∧ b.toNat ≤ 1 := ⟨rfl, by omega, hb⟩
  rw [bridgeMessage_fields k (by decide), if_neg (by decide), if_neg (by decide), if_neg (by decide), dif_pos hpos]
  simp only [hfin]

theorem bridgeMessage_malformed_iff (k : LinkIx) (kind : Byte) (fields : List Byte) :
    bridgeMessage k (kind :: fields) = .bridgeMessageMalformed k (kind :: fields) ↔
      kind ∉ [0x20#8, 0x21#8, 0x22#8, 0x23#8, 0x24#8] ∨ (kind ≠ 0x24#8 ∧ fields.length < 2) ∨
      (kind = 0x23#8 ∧ ∃ a b more, fields = a :: b :: more ∧ (15 < a.toNat ∨ 1 < b.toNat)) := by
  by_cases h24 : kind = 0x24#8
  · subst h24
    simp [bridgeMessage]
  by_cases hshort : fields.length < 2
  · exact iff_of_true (bridgeMessage_short k h24 hshort) (.inr (.inl ⟨h24, hshort⟩))
  match fields, hshort with
  | [], hshort => exact absurd (by simp) hshort
  | [_], hshort => exact absurd (by simp) hshort
  | a :: b :: more, _ =>
    rw [bridgeMessage_fields k h24]
    by_cases h20 : kind = 0x20#8
    · simp [h20]
    by_cases h21 : kind = 0x21#8
    · simp [h21]
    by_cases h22 : kind = 0x22#8
    · simp [h22]
    by_cases h23 : kind = 0x23#8
    · subst h23
      rw [if_neg h20, if_neg h21, if_neg h22]
      by_cases hok : a.toNat < 16 ∧ b.toNat ≤ 1
      · rw [dif_pos ⟨rfl, hok⟩]
        refine iff_of_false (by split <;> exact fun h => nomatch h) ?_
        rintro (hkind | ⟨-, hlen⟩ | ⟨-, a', b', more', hfields, hbad⟩)
        · simp at hkind
        · simp at hlen
        · cases hfields
          omega
      · rw [dif_neg fun h => hok h.2]
        exact iff_of_true rfl (.inr (.inr ⟨rfl, a, b, more, rfl, by omega⟩))
    · rw [if_neg h20, if_neg h21, if_neg h22, dif_neg fun h => h23 h.1]
      exact iff_of_true rfl (.inl (by simp [h20, h21, h22, h23, h24]))

/-- Settles O10: each layout read back. -/
theorem framesAndMessagesAreRead : Obligations.FramesAndMessagesAreRead := by
  refine ⟨⟨downstreamFrame_segment, downstreamFrame_request, fun kind body hlen hsegment hrequest => ?_,
    fun bytes h => ?_, fun bytes c h => downstreamFrame_wf h⟩,
    fun k => ⟨fun tag status data => ⟨rfl, rfl, rfl, rfl⟩, fun j more => ⟨?_, ?_⟩, rfl, bridgeMessage_malformed_iff k,
      bridgeMessage_wf k⟩, fun r => ?_, fun e => ?_, fun f => ?_⟩
  · rw [downstreamFrame_cons kind body hlen, if_neg hsegment, if_neg hrequest]
  · by_contra hne
    obtain ⟨kind, body, hlen, hbytes⟩ := exists_frame_of_downstreamFrame hne
    exact h kind body hlen hbytes
  · rw [bridgeMessage_presence k j 0 (by decide), if_pos rfl]
  · rw [bridgeMessage_presence k j 1 (by decide), if_neg (by decide)]
  · simp [UpFrame.bytes, UpFrame.body, leBytes]
  · simp [UpFrame.bytes, UpFrame.body, leBytes]
  · simp [UpFrame.bytes, UpFrame.body, leBytes, leOption, allOnes]

/-! ### Segments -/

section
variable {s : State} (hup : s.intake.linkUp = true) {bytes : List Byte} (hlen : bytes.length = 4096) (chunk : Word32)
  (index : Byte)
include hup hlen

theorem exec_segment_eq : exec (.segment chunk index bytes) s = .next (
    if s.running = false ∨ s.streaming = false then s.count ctrNoPass
    else if chunk.toNat < s.ses.nextChunk then s.count ctrDuplicate
    else if s.ses.nextChunk < chunk.toNat then s.count ctrOutOfOrder
    else s.segmentOfH chunk.toNat index.toNat bytes) := by
  have hbody : ¬bytes.length ≠ Config.segmentBytes := by simp [hlen, Config.segmentBytes]
  exact congrArg Host.Outcome.next ((if_neg (by simp [hup])).trans (if_neg hbody))

theorem exec_segment_noPass (h : ∀ x, s.session = some x → ¬(x.phase = .running ∧ x.pass = .streaming)) :
    exec (.segment chunk index bytes) s =
      .next { s with ncu.counters := s.ncu.counters.set 1 s.ncu.counters[1].bump } := by
  rw [exec_segment_eq hup hlen]
  refine congrArg Host.Outcome.next ((if_pos ?_).trans rfl)
  cases hx : s.session with
  | none => exact .inr (State.streaming_of_no_session hx)
  | some x =>
    rw [← Bool.not_eq_true, State.running_iff hx, State.streaming_eq_false_iff hx]
    exact not_and_or.mp (h x hx)

variable {x : Session} (hx : s.session = some x) (hrun : x.phase = .running) (hpass : x.pass = .streaming)
include hx hrun hpass

theorem exec_segment_in_pass : exec (.segment chunk index bytes) s = .next (
    if chunk.toNat < x.nextChunk then s.count ctrDuplicate
    else if x.nextChunk < chunk.toNat then s.count ctrOutOfOrder
    else s.segmentOfH chunk.toNat index.toNat bytes) := by
  rw [exec_segment_eq hup hlen, State.ses_eq hx]
  refine congrArg Host.Outcome.next (if_neg ?_)
  rw [← Bool.not_eq_true, State.running_iff hx, State.streaming_eq_false_iff hx]
  simp [hrun, hpass]

/-- A segment of chunk H is handed to its assembly (R49 to R51). -/
theorem exec_segment_of_head (hchunk : chunk.toNat = x.nextChunk) :
    exec (.segment chunk index bytes) s = .next (s.segmentOfH x.nextChunk index.toNat bytes) := by
  rw [exec_segment_in_pass hup hlen chunk index hx hrun hpass, if_neg (by omega), if_neg (by omega), hchunk]

end

theorem State.segmentOfH_of_assembly {s : State} {a : Assembly} (ha : s.intake.assembly = some a) (c index : Nat)
    (bytes : List Byte) : s.segmentOfH c index bytes =
      if index ≠ a.nextSegment ∨ 15 < index then s.sequenceDiscard
      else if index = 15 then (s.appendSegment a bytes).complete c a.frame (~~~ crcRun a.crc bytes)
      else s.appendSegment a bytes := by
  rw [State.segmentOfH, ha]

theorem State.segmentOfH_of_none {s : State} {x : Session} (hx : s.session = some x) (ha : s.intake.assembly = none)
    (c index : Nat) (bytes : List Byte) : s.segmentOfH c index bytes =
      if index ≠ 0 then s.sequenceDiscard
      else if x.windowSize - s.win.records.length = 0 then s.count ctrOverrun
      else s.openAssembly c bytes := by
  rw [State.segmentOfH, ha, State.free_eq hx]
  rfl

theorem State.sequenceDiscard_of_assembly {s : State} {a : Assembly} (ha : s.intake.assembly = some a) :
    s.sequenceDiscard = State.evalFlow { s with
      ncu.counters := s.ncu.counters.set 5 s.ncu.counters[5].bump
      intake.assembly := none
      win.records := s.win.records.filter (fun r => r.resident.isSome) } :=
  if_pos (show (s.count ctrSequence).intake.assembly.isSome = true by
    change s.intake.assembly.isSome = true
    rw [ha]
    rfl)

theorem State.sequenceDiscard_of_none {s : State} (ha : s.intake.assembly = none) :
    s.sequenceDiscard = s.count ctrSequence :=
  if_neg (show ¬(s.count ctrSequence).intake.assembly.isSome = true by
    change ¬s.intake.assembly.isSome = true
    simp [ha])

theorem State.openAssembly_eq (s : State) (c : Nat) (bytes : List Byte) :
    s.openAssembly c bytes = State.evalFlow { s with
      win.records := s.win.records ++ [⟨c, lowestFree s.win.records, none⟩]
      win.frames := s.win.frames.write (65536 * lowestFree s.win.records) bytes
      win.waiting := s.win.waiting ++ [.fill]
      intake.assembly := some ⟨c, 1, lowestFree s.win.records, crcRun 0xFFFFFFFF#32 bytes⟩ } := by
  have haddr : frameAddr (lowestFree s.win.records) (Config.segmentBytes * 0) = 65536 * lowestFree s.win.records := by
    rw [Nat.mul_zero]
    exact Nat.add_zero _
  unfold State.openAssembly State.fill
  dsimp only
  rw [haddr]
  rfl

/-- Settles O11: by the class of the segment and the assembly it meets. -/
theorem segmentsAreClassifiedAndAssembled : Obligations.SegmentsAreClassifiedAndAssembled := by
  refine ⟨fun s chunk index bytes hup hlen => ⟨exec_segment_noPass hup hlen chunk index,
      fun x hx hrun hpass => ⟨fun hlt => ?_, fun hlt => ?_⟩⟩,
    fun s x chunk index bytes hup hlen hx hrun hpass hchunk => ⟨fun a ha hindex hlast => ?_, fun a ha hindex => ?_,
      fun ha hindex => ?_⟩,
    fun s x chunk bytes hup hlen hx hrun hpass hchunk ha => ⟨fun hroom => ?_, fun hfull => ?_⟩⟩
  · rw [exec_segment_in_pass hup hlen chunk index hx hrun hpass, if_pos hlt]
    rfl
  · rw [exec_segment_in_pass hup hlen chunk index hx hrun hpass, if_neg (by omega), if_pos hlt]
    rfl
  · rw [exec_segment_of_head hup hlen chunk index hx hrun hpass hchunk, State.segmentOfH_of_assembly ha,
      if_neg (by omega), if_neg (by omega)]
    rfl
  · rw [exec_segment_of_head hup hlen chunk index hx hrun hpass hchunk, State.segmentOfH_of_assembly ha,
      if_pos hindex, State.sequenceDiscard_of_assembly ha]
  · have hne : index.toNat ≠ 0 := fun h => hindex (BitVec.eq_of_toNat_eq h)
    rw [exec_segment_of_head hup hlen chunk index hx hrun hpass hchunk, State.segmentOfH_of_none hx ha, if_pos hne,
      State.sequenceDiscard_of_none ha]
    rfl
  · rw [exec_segment_of_head hup hlen chunk 0 hx hrun hpass hchunk, State.segmentOfH_of_none hx ha,
      if_neg (by simp), if_neg (by omega), State.openAssembly_eq]
  · rw [exec_segment_of_head hup hlen chunk 0 hx hrun hpass hchunk, State.segmentOfH_of_none hx ha,
      if_neg (by simp), if_pos (by omega)]
    rfl

end Sys2Proof.Machine
end

section
/-! SUPPORT. An answer by the state of its tag, and a BOUND answer handed to the owner of its command. Then the statements
about late answers, GONE, image pieces, sizing, probes and verify reads. -/

set_option Elab.async false

namespace Sys2Proof.Machine

/-! ### An answer by its tag -/

/-- A tag of a link is made FREE (R93). -/
def State.freed (s : State) (k : LinkIx) (tag : LinkTag) : State := s.setLink k ((s.link k).setTag tag .free)

@[simp] theorem State.freed_slot (s : State) (k : LinkIx) (tag : LinkTag) (i : SlotIx) :
    (s.freed k tag).slot i = s.slot i := rfl
@[simp] theorem State.freed_session (s : State) (k : LinkIx) (tag : LinkTag) : (s.freed k tag).session = s.session := rfl

section
variable {s : State} {k : LinkIx} {tag : LinkTag} (kind : CmdKind) (st : Status)
  (owner : SlotIx → Entry → State → State)

theorem State.answerTag_of_down (h : (s.link k).up = false) : s.answerTag k tag kind st owner = s := if_pos h

variable (hup : (s.link k).up = true)
include hup

theorem State.answerTag_of_up : s.answerTag k tag kind st owner =
    match (s.link k).tag tag with
    | .free => s.count ctrLate
    | .lapsed => ((s.freed k tag).updLink k (fun x => { x with lapsed := x.lapsed - 1 })).count ctrLate
    | .bound b =>
      if b.kind ≠ kind then s.count ctrLate else ((s.freed k tag).boundAnswer b.slot tag st (owner b.slot)).close
    | .abandoned b =>
      if b.kind ≠ kind then s.count ctrLate
      else if st = .gone then ((s.freed k tag).emptySlot b.slot .removedEarly).close
      else s.freed k tag
    | .orphaned b => if b.kind ≠ kind then s.count ctrLate else s.freed k tag :=
  if_neg (by simp [hup])

theorem State.answerTag_of_free (h : (s.link k).tag tag = .free) :
    s.answerTag k tag kind st owner = s.count ctrLate := by
  rw [State.answerTag_of_up kind st owner hup, h]

theorem State.answerTag_of_lapsed (h : (s.link k).tag tag = .lapsed) : s.answerTag k tag kind st owner =
    State.count (s.setLink k { (s.link k).setTag tag .free with lapsed := (s.link k).lapsed - 1 }) ctrLate := by
  rw [State.answerTag_of_up kind st owner hup, h]
  exact congrArg (State.count · ctrLate)
    (State.updLink_updLink s k (fun x => x.setTag tag .free) (fun x => { x with lapsed := x.lapsed - 1 }))

theorem State.answerTag_of_other {b : Busy} (h : (s.link k).tag tag = .bound b ∨ (s.link k).tag tag = .abandoned b ∨
    (s.link k).tag tag = .orphaned b) (hkind : b.kind ≠ kind) :
    s.answerTag k tag kind st owner = s.count ctrLate := by
  rw [State.answerTag_of_up kind st owner hup]
  rcases h with h | h | h <;> rw [h] <;> exact if_pos hkind

theorem State.answerTag_of_abandoned {b : Busy} (h : (s.link k).tag tag = .abandoned b) (hkind : b.kind = kind) :
    s.answerTag k tag kind st owner =
      if st = .gone then ((s.freed k tag).emptySlot b.slot .removedEarly).close else s.freed k tag := by
  rw [State.answerTag_of_up kind st owner hup, h]
  exact if_neg (not_not.mpr hkind)

theorem State.answerTag_of_orphaned {b : Busy} (h : (s.link k).tag tag = .orphaned b) (hkind : b.kind = kind) :
    s.answerTag k tag kind st owner = s.freed k tag := by
  rw [State.answerTag_of_up kind st owner hup, h]
  exact if_neg (not_not.mpr hkind)

theorem State.answerTag_of_bound {b : Busy} (h : (s.link k).tag tag = .bound b) (hkind : b.kind = kind) :
    s.answerTag k tag kind st owner = ((s.freed k tag).boundAnswer b.slot tag st (owner b.slot)).close := by
  rw [State.answerTag_of_up kind st owner hup, h]
  exact if_neg (not_not.mpr hkind)

end

theorem exec_writeAck (k : LinkIx) (tag : LinkTag) (status : Byte) (s : State) : exec (.writeAck k tag status) s =
    .next (s.answerTag k tag .write (Status.ofCode status) (writeOwner tag (Status.ofCode status))) := rfl

theorem exec_capacity (k : LinkIx) (tag : LinkTag) (status : Byte) (data : List Byte) (s : State) :
    exec (.capacity k tag status data) s =
      .next (s.answerTag k tag .size (Status.ofCode status) (capacityOwner tag (Status.ofCode status) data)) := rfl

theorem exec_readData (k : LinkIx) (tag : LinkTag) (status : Byte) (data : List Byte) (s : State) :
    exec (.readData k tag status data) s =
      .next (s.answerTag k tag .read (Status.ofCode status) (readOwner tag (Status.ofCode status) data)) := rfl

/-- The three answers look up their tag for a kind of command, with an owner of its own each. -/
theorem exec_answer {k : LinkIx} {tag : LinkTag} {status : Byte} {data : List Byte} {c : Instr} {kind : CmdKind}
    (h : (c = .writeAck k tag status ∧ kind = .write) ∨ (c = .capacity k tag status data ∧ kind = .size) ∨
      (c = .readData k tag status data ∧ kind = .read)) (s : State) :
    ∃ owner, exec c s = .next (s.answerTag k tag kind (Status.ofCode status) owner) := by
  rcases h with ⟨rfl, rfl⟩ | ⟨rfl, rfl⟩ | ⟨rfl, rfl⟩
  · exact ⟨_, exec_writeAck k tag status s⟩
  · exact ⟨_, exec_capacity k tag status data s⟩
  · exact ⟨_, exec_readData k tag status data s⟩

theorem Status.ofCode_eq_gone_iff (status : Byte) : Status.ofCode status = .gone ↔ status = 4 := by
  unfold Status.ofCode
  have h : status = 4 ↔ status.toNat = 4 := ⟨fun h => by rw [h]; rfl, fun h => BitVec.eq_of_toNat_eq h⟩
  rw [h]
  split <;> simp_all

/-- Settles O46: by the state of the tag. -/
theorem lateAnswersAreDiscarded : Obligations.LateAnswersAreDiscarded := by
  intro s k tag status data c kind h
  obtain ⟨owner, hexec⟩ := exec_answer h s
  intro late freed
  rw [hexec]
  refine ⟨fun hdown => ?_, fun hup => ⟨fun hfree => ?_, fun hlapsed => ?_, fun b hb hkind => ?_, fun b hb hkind hst => ?_,
    fun b hb hkind => ?_⟩⟩
  · rw [State.answerTag_of_down _ _ _ hdown]
  · rw [State.answerTag_of_free _ _ _ hup hfree]
    rfl
  · rw [State.answerTag_of_lapsed _ _ _ hup hlapsed]
    rfl
  · rw [State.answerTag_of_other _ _ _ hup hb hkind]
    rfl
  · rw [State.answerTag_of_abandoned _ _ _ hup hb hkind, if_neg (by rwa [Status.ofCode_eq_gone_iff])]
    rfl
  · rw [State.answerTag_of_orphaned _ _ _ hup hb hkind]
    rfl

/-! ### BOUND answers -/

theorem State.faulted_iff {s : State} {x : Session} (hx : s.session = some x) : s.faulted = true ↔ x.phase = .faulted := by
  simp [State.faulted, State.phase, hx]

section
variable {s : State} {x : Session} (hx : s.session = some x) {i : SlotIx} {tag : LinkTag} (st : Status)
  (owner : Entry → State → State)
include hx

/-- R18: in FAULTED the answer for an enrolled slot only leaves the list. -/
theorem State.boundAnswer_of_faulted (hphase : x.phase = .faulted) (he : (s.slot i).state.enrolled = true) :
    s.boundAnswer i tag st owner = s.updSlot i (fun sl => (sl.dropEntry tag).givePlaces 1) :=
  if_pos ⟨(State.faulted_iff hx).mpr hphase, he⟩

variable (hlive : x.phase ≠ .faulted ∨ (s.slot i).state.enrolled = false)
include hlive

theorem State.boundAnswer_of_gone : s.boundAnswer i tag .gone owner = s.emptySlot i .removedEarly := by
  refine (if_neg fun ⟨hfaulted, he⟩ => ?_).trans (if_pos rfl)
  rcases hlive with h | h
  · exact h ((State.faulted_iff hx).mp hfaulted)
  · rw [he] at h
    cases h

variable {st}

theorem State.boundAnswer_of_entry {e : Entry} (he : (s.slot i).entry tag = some e) (hst : st ≠ .gone) :
    s.boundAnswer i tag st owner = owner e s := by
  have hskip : ¬(s.faulted = true ∧ (s.slot i).state.enrolled = true) := fun ⟨hfaulted, he⟩ => by
    rcases hlive with h | h
    · exact h ((State.faulted_iff hx).mp hfaulted)
    · rw [he] at h
      cases h
  rw [State.boundAnswer, if_neg hskip, if_neg hst, he]

end

/-- What a slot taken to EMPTY, by an event that then closes, holds (R64, R83, R32). -/
theorem State.emptySlot_close {s : State} {i : SlotIx} (w : OutcomeKind) (h : (s.slot i).state ≠ .empty) :
    let t := (s.emptySlot i w).close
    (t.slot i).state = .empty ∧ (t.slot i).inFlight = [] ∧ (t.slot i).changeMark = true ∧
      (t.slot i).outcome = (if (s.slot i).state.enrolled then some ((s.slot i).outcome.getD ⟨w, none, none, none⟩)
        else (s.slot i).outcome) ∧
      t.win.records = retired (s.recordsWithout i) ∧ Elsewhere s t (· = i) ∧
      ∀ k tag, (s.link k).tag tag = .free → (t.link k).tag tag = .free := by
  intro t
  have hself : t.slot i = { (s.emptySlot i w).slot i with rostered := (t.slot i).rostered } :=
    (State.close_slot_eq (s.emptySlot i w) i).1
  rw [State.emptySlot_self s i w h] at hself
  refine ⟨by rw [hself]; rfl, by rw [hself]; rfl, by rw [hself]; rfl, by rw [hself]; rfl, ?_,
    (Elsewhere.emptySlot (mine := (· = i)) s w rfl).trans (Elsewhere.close _ _), fun k tag hfree => ?_⟩
  · rw [State.close_records, State.emptySlot_records]
  · rw [State.close_link]
    by_cases hk : linkOf i = k
    · subst hk
      rw [State.emptySlot_tag _ _ _ h, hfree]
      rfl
    · rw [(Elsewhere.emptySlot (mine := (· = i)) s w rfl).links k fun j hj => by rwa [hj]]
      exact hfree

theorem State.freed_tag (s : State) (k : LinkIx) (tag : LinkTag) : ((s.freed k tag).link k).tag tag = .free := by
  rw [State.freed, State.setLink_self, Link.setTag_tag]

/-- Settles O47: by the tag, the phase and the status. -/
theorem goneEmptiesTheSlot : Obligations.GoneEmptiesTheSlot := by
  refine ⟨fun s x k tag b e status data c h hx hstate hc => ?_, fun s k tag b data c hup htag hstate hc => ?_⟩
  · obtain ⟨owner, hexec⟩ := exec_answer hc s
    rw [State.answerTag_of_bound _ _ _ h.up h.bound rfl] at hexec
    refine ⟨fun hphase he => ?_, fun hstatus hlive => ⟨_, hexec, ?_⟩⟩
    · rw [hexec, State.boundAnswer_of_faulted (s := s.freed k tag) hx _ _ hphase he]
      rfl
    · rw [hstatus, show Status.ofCode 4 = .gone from rfl, State.boundAnswer_of_gone (s := s.freed k tag) hx _ hlive]
      obtain ⟨hempty, hlist, -, houtcome, hrecords, hrest, htags⟩ :=
        State.emptySlot_close (s := s.freed k tag) (i := b.slot) .removedEarly hstate
      refine ⟨hempty, hlist, htags k tag (State.freed_tag s k tag), houtcome, hrecords.trans ?_, hrest⟩
      rw [State.recordsWithout, State.head_eq (s := s.freed k tag) hx]
      rfl
  · obtain ⟨owner, hexec⟩ := exec_answer hc s
    rw [State.answerTag_of_abandoned _ _ _ hup htag rfl, if_pos (show Status.ofCode 4 = .gone from rfl)] at hexec
    obtain ⟨hempty, hlist, hmark, houtcome, hrecords, hrest, htags⟩ :=
      State.emptySlot_close (s := s.freed k tag) (i := b.slot) .removedEarly hstate
    exact ⟨_, hexec, hempty, hlist, htags k tag (State.freed_tag s k tag), houtcome, hmark, hrecords, hrest⟩

/-! ### The owner of an answer -/

section
variable {s : State} {x : Session} {k : LinkIx} {tag : LinkTag} {b : Busy} {e : Entry} (h : s.Answers k tag b e)
  (hx : s.session = some x) (hlive : x.phase ≠ .faulted ∨ (s.slot b.slot).state.enrolled = false) {status : Byte}
  (hst : status ≠ 4)
include h hx hlive hst

/-- A BOUND answer is handed to the owner of its command, and the event closes (R93). -/
theorem State.answerTag_owned (owner : SlotIx → Entry → State → State) :
    s.answerTag k tag e.work.kind (Status.ofCode status) owner = (owner b.slot e (s.freed k tag)).close := by
  rw [State.answerTag_of_bound _ _ _ h.up h.bound h.kind, State.boundAnswer_of_entry (s := s.freed k tag) hx _ hlive
    h.entry (by rwa [ne_eq, Status.ofCode_eq_gone_iff])]

theorem exec_writeAck_owned (hkind : e.work.kind = .write) : exec (.writeAck k tag status) s =
    .next (writeOwner tag (Status.ofCode status) b.slot e (s.freed k tag)).close := by
  rw [exec_writeAck, ← hkind, State.answerTag_owned h hx hlive hst]

theorem exec_capacity_owned (hkind : e.work.kind = .size) (data : List Byte) : exec (.capacity k tag status data) s =
    .next (capacityOwner tag (Status.ofCode status) data b.slot e (s.freed k tag)).close := by
  rw [exec_capacity, ← hkind, State.answerTag_owned h hx hlive hst]

theorem exec_readData_owned (hkind : e.work.kind = .read) (data : List Byte) : exec (.readData k tag status data) s =
    .next (readOwner tag (Status.ofCode status) data b.slot e (s.freed k tag)).close := by
  rw [exec_readData, ← hkind, State.answerTag_owned h hx hlive hst]

end

/-- The codes of an errored answer (R191): every code above 4 is a MEDIUM-ERROR. -/
theorem Status.ofCode_medium {status : Byte} (h : status = 1 ∨ 4 < status.toNat) :
    Status.ofCode status = .mediumError ∧ status ≠ 4 := by
  rcases h with rfl | h
  · exact ⟨rfl, by decide⟩
  · refine ⟨?_, fun e => by rw [e] at h; exact absurd h (by decide)⟩
    unfold Status.ofCode
    split
    · omega
    · omega
    · omega
    · omega
    · rfl

/-! ### The retry decisions -/

/-- The retry decision for a command that is then issued again from its place in the list (R104, R145). -/
theorem State.retryEntry_decides {u : State} {x : Session} (hx : u.session = some x) (i : SlotIx) (tag : LinkTag)
    (e : Entry) (w : Nat) (o : Outcome) :
    RetryDecision u x i w e.retries (fun y => y.putEntry tag ⟨e.work, none, e.retries + 1⟩) o
      (.next (u.raiseTrouble i w (fun t => t.retryEntry i tag e o)).close) := by
  refine State.raiseTrouble_decision u x i w e.retries _ _ o (State.ses_eq hx) fun v hv => ⟨fun hn => ?_, fun hn => ?_⟩
  · exact if_pos (by rwa [hv])
  · exact if_neg (by rw [hv]; omega)

theorem RetryDecision.congr {u : State} {x : Session} {i : SlotIx} {w n : Nat} {again again' : Slot → Slot} {o : Outcome}
    {out : Host.Outcome State Fault Refusal} (h : RetryDecision u x i w n again o out)
    (hagain : again ((u.slot i).risen x w (u.places i)) = again' ((u.slot i).risen x w (u.places i))) :
    RetryDecision u x i w n again' o out :=
  ⟨h.ejected, fun he hn => by rw [h.retried he hn, hagain], h.exhausted⟩

theorem Slot.risen_qual (sl : Slot) (x : Session) (w places : Nat) : (sl.risen x w places).qual = sl.qual := by
  unfold Slot.risen
  dsimp only
  split
  · rfl
  · split <;> rfl

/-- The retry decision for a qualification command, issued again by its record (R71, R72). -/
theorem State.retryQual_decides {u : State} {x : Session} (hx : u.session = some x) (i : SlotIx) {q : Qualification}
    (hq : (u.slot i).qual = some q) (e : Entry) (w : Nat) :
    RetryDecision u x i w e.retries (fun y => { y with qual := some { q with retries := e.retries + 1 } })
      e.work.qualOutcome (.next (u.raiseTrouble i w (fun t => t.retryQual i e)).close) := by
  refine RetryDecision.congr (again := fun y => { y with qual := y.qual.map (fun q => { q with retries := e.retries + 1 }) })
    ?_ ?_
  · refine State.raiseTrouble_decision u x i w e.retries _ _ _ (State.ses_eq hx) fun v hv => ⟨fun hn => ?_, fun hn => ?_⟩
    · exact if_pos (by rwa [hv])
    · exact if_neg (by rw [hv]; omega)
  · rw [Slot.risen_qual, hq]
    rfl

/-! ### Image pieces -/

theorem writeOwner_of_piece {e : Entry} {c p n : Nat} (he : e.work = .piece c p n) (tag : LinkTag) (st : Status)
    (i : SlotIx) (u : State) : writeOwner tag st i e u = u.pieceAnswer i tag e c n st := by
  rw [writeOwner, he]

theorem readOwner_of_verify {e : Entry} {c n : Nat} (he : e.work = .verify c n) (tag : LinkTag) (st : Status)
    (data : List Byte) (i : SlotIx) (u : State) :
    readOwner tag st data i e u = u.verifyAnswer i tag e c n st data := by
  rw [readOwner, he]

/-- Settles O48: by whether the chunk is written, and the verify mode. -/
theorem pieceAcknowledgedOk : Obligations.PieceAcknowledgedOk := by
  intro s x k tag b e c p n h hx hphase he sl u counted
  have hexec : exec (.writeAck k tag 0) s = .next ((s.freed k tag).pieceDone b.slot tag c n).close := by
    rw [exec_writeAck_owned h hx (.inl (by simp [hphase])) (by decide) (by rw [he]; rfl), writeOwner_of_piece he]
    rfl
  have hses : (s.freed k tag).ses = x := State.ses_eq hx
  have hslot : ((s.freed k tag).countSlot b.slot ctrWritten).slot b.slot = { sl with counters := counted } :=
    State.updSlot_self _ _ _
  unfold State.pieceDone at hexec
  dsimp only at hexec
  have hwritten : Slot.written (Slot.dropEntry { sl with counters := counted } tag) c = (sl.dropEntry tag).written c := rfl
  rw [hses, hslot, hwritten] at hexec
  refine ⟨fun hw => ?_, fun hw hv => ?_, fun hw hv => ?_⟩
  · rw [hexec, if_pos hw, State.countSlot, State.updSlot, State.setSlot_setSlot]
    rfl
  · rw [hexec, if_neg (by simp [hw]), if_pos hv, State.countSlot, State.updSlot_updSlot]
    rfl
  · rw [hexec, if_neg (by simp [hw]), if_neg hv, State.countSlot, State.updSlot, State.setSlot_setSlot]
    rfl

/-- Settles O50: by the status, through the retry decision of the entry. -/
theorem pieceErrorsAreRetried : Obligations.PieceErrorsAreRetried := by
  refine ⟨fun s x k tag b e c p n status h hx hphase he => ?_, fun s x k tag b e c n status data h hx hphase he => ?_⟩
  · intro sl u counted decides
    have hexec : status ≠ 4 → exec (.writeAck k tag status) s =
        .next ((s.freed k tag).pieceAnswer b.slot tag e c n (Status.ofCode status)).close := fun hst => by
      rw [exec_writeAck_owned h hx (.inl (by simp [hphase])) hst (by rw [he]; rfl), writeOwner_of_piece he]
    refine ⟨fun hst => ?_, fun hst => ?_, fun hst => ⟨_, ?_, State.failSlot_failed _ _ _⟩⟩
    · obtain ⟨hmedium, hne⟩ := Status.ofCode_medium hst
      have hdecides := State.retryEntry_decides (u := counted) hx b.slot tag e 4 ⟨.writeFailed, some c, none, none⟩
      rwa [← show exec (.writeAck k tag status) s = .next (counted.raiseTrouble b.slot 4 _).close by
        rw [hexec hne, hmedium]; rfl] at hdecides
    · have hdecides := State.retryEntry_decides (u := u) hx b.slot tag e 2 ⟨.writeFailed, some c, none, none⟩
      rwa [← show exec (.writeAck k tag status) s = .next (u.raiseTrouble b.slot 2 _).close by
        subst hst; rw [hexec (by decide)]; rfl] at hdecides
    · subst hst
      rw [hexec (by decide)]
      rfl
  · intro sl u counted decides
    have hexec : status ≠ 4 → exec (.readData k tag status data) s =
        .next ((s.freed k tag).verifyAnswer b.slot tag e c n (Status.ofCode status) data).close := fun hst => by
      rw [exec_readData_owned h hx (.inl (by simp [hphase])) hst (by rw [he]; rfl), readOwner_of_verify he]
    refine ⟨fun hst => ?_, fun hst => ?_⟩
    · have hdecides := State.retryEntry_decides (u := counted) hx b.slot tag e 4 ⟨.readFailed, some c, none, none⟩
      have hout : exec (.readData k tag status data) s = .next ((s.freed k tag).readMedium b.slot tag e c).close := by
        rcases hst with hst | rfl | hst | ⟨rfl, hlen⟩
        · obtain ⟨hmedium, hne⟩ := Status.ofCode_medium (.inl hst)
          rw [hexec hne, hmedium]
          rfl
        · rw [hexec (by decide)]
          rfl
        · obtain ⟨hmedium, hne⟩ := Status.ofCode_medium (.inr hst)
          rw [hexec hne, hmedium]
          rfl
        · rw [hexec (by decide)]
          exact congrArg (fun t : State => Host.Outcome.next t.close) (if_neg hlen)
      rwa [← show exec (.readData k tag status data) s = .next (counted.raiseTrouble b.slot 4 _).close from hout]
        at hdecides
    · have hdecides := State.retryEntry_decides (u := u) hx b.slot tag e 2 ⟨.readFailed, some c, none, none⟩
      rwa [← show exec (.readData k tag status data) s = .next (u.raiseTrouble b.slot 2 _).close by
        subst hst; rw [hexec (by decide)]; rfl] at hdecides

end Sys2Proof.Machine
end

section
/-! SUPPORT. Qualification: the answers and timeouts of its commands, each with its entry out of the list. Then the
statements about sizing and probing. -/

set_option Elab.async false

namespace Sys2Proof.Machine

theorem State.live_of_qualifying {s : State} {i : SlotIx} (h : (s.slot i).state = .sizing ∨ (s.slot i).state = .probing) :
    (s.slot i).state.enrolled = false := by
  rcases h with h | h <;> rw [h] <;> rfl

/-! ### Sizing -/

theorem capacityOwner_of_ok {data : List Byte} (hlen : data.length = 8) (tag : LinkTag) (i : SlotIx) (e : Entry)
    (u : State) : capacityOwner tag .ok data i e u =
      (u.updSlot i (fun sl => sl.dropEntry tag)).sized i (leValue data) := by
  rw [capacityOwner, if_pos rfl, if_pos hlen]

theorem capacityOwner_of_wrong {data : List Byte} (hlen : data.length ≠ 8) (tag : LinkTag) (i : SlotIx) (e : Entry)
    (u : State) : capacityOwner tag .ok data i e u = (u.updSlot i (fun sl => sl.dropEntry tag)).qualMedium i e := by
  rw [capacityOwner, if_pos rfl, if_neg hlen]

theorem capacityOwner_of_error {st : Status} (hst : st ≠ .ok) (tag : LinkTag) (data : List Byte) (i : SlotIx) (e : Entry)
    (u : State) : capacityOwner tag st data i e u = (u.updSlot i (fun sl => sl.dropEntry tag)).qualError i e st :=
  if_neg hst

/-- The retry decision of a medium error, the entry out of the list (R71). -/
theorem State.qualMedium_decides {u : State} {x : Session} (hx : u.session = some x) (i : SlotIx) {q : Qualification}
    (hq : (u.slot i).qual = some q) (tag : LinkTag) (e : Entry) :
    RetryDecision (u.setSlot i { (u.slot i).dropEntry tag with
        counters := (u.slot i).counters.set 3 (u.slot i).counters[3].bump }) x i 4 e.retries
      (fun y => { y with qual := some { q with retries := e.retries + 1 } }) e.work.qualOutcome
      (.next ((u.updSlot i (fun sl => sl.dropEntry tag)).qualMedium i e).close) := by
  have hcounted : (u.updSlot i (fun sl => sl.dropEntry tag)).countSlot i ctrMedium = u.setSlot i
      { (u.slot i).dropEntry tag with counters := (u.slot i).counters.set 3 (u.slot i).counters[3].bump } := by
    rw [State.countSlot, State.updSlot_updSlot]
    rfl
  unfold State.qualMedium
  rw [hcounted]
  refine State.retryQual_decides ?_ i ?_ e 4
  · exact hx
  · rw [State.setSlot_self]
    exact hq

/-- Settles O51: by the length of the answer, the capacity and the qualify mode. -/
theorem capacityDecidesSizing : Obligations.CapacityDecidesSizing := by
  intro s x k tag b e q data h hx he hstate hqual sl u
  have hexec : exec (.capacity k tag 0 data) s = .next (capacityOwner tag .ok data b.slot e (s.freed k tag)).close :=
    exec_capacity_owned h hx (.inr (State.live_of_qualifying (.inl hstate))) (by decide) (by rw [he]; rfl) data
  have hsized : data.length = 8 → exec (.capacity k tag 0 data) s = .next
      ((u.setSlot b.slot (sl.dropEntry tag)).sized b.slot (leValue data)).close := fun hlen => by
    rw [hexec, capacityOwner_of_ok hlen]
    rfl
  have hses : (u.setSlot b.slot (sl.dropEntry tag)).ses = x := State.ses_eq hx
  have hcapacity : (u.setSlot b.slot (sl.dropEntry tag)).updSlot b.slot
      (fun sl => { sl with capacity := some (leValue data) }) =
      u.setSlot b.slot { sl.dropEntry tag with capacity := some (leValue data) } := by
    rw [State.updSlot, State.setSlot_self, State.setSlot_setSlot]
  unfold State.sized at hsized
  rw [hses, hcapacity] at hsized
  refine ⟨fun hlen hsmall => ⟨_, ?_, State.failSlot_failed _ _ _⟩, fun hlen hfits hq => ?_, fun hlen hfits hq => ?_,
    fun hlen => ?_⟩
  · rw [hsized hlen]
    exact congrArg (fun t : State => Host.Outcome.next t.close) (if_pos hsmall)
  · rw [hsized hlen]
    refine congrArg (fun t : State => Host.Outcome.next t.close) ((if_neg (not_lt.mpr hfits)).trans ((if_pos hq).trans ?_))
    rw [State.updSlot, State.setSlot_self, State.setSlot_setSlot]
  · rw [hsized hlen]
    exact congrArg (fun t : State => Host.Outcome.next t.close)
      ((if_neg (not_lt.mpr hfits)).trans (if_neg (by simp [hq])))
  · have hdecides := State.qualMedium_decides (u := u) hx b.slot hqual tag e
    rw [hexec, capacityOwner_of_wrong hlen]
    rw [show e.work.qualOutcome = ⟨.sizeFailed, none, none, none⟩ by rw [he]; rfl] at hdecides
    exact hdecides

/-! ### Probing -/

theorem readOwner_of_probe {e : Entry} {j : Nat} (he : e.work = .probeRead j) (tag : LinkTag) (st : Status)
    (data : List Byte) (i : SlotIx) (u : State) : readOwner tag st data i e u =
      if st = .ok then
        if data.length = 512 then (u.updSlot i (fun sl => sl.dropEntry tag)).probeRead i j data
        else (u.updSlot i (fun sl => sl.dropEntry tag)).qualMedium i e
      else (u.updSlot i (fun sl => sl.dropEntry tag)).qualError i e st := by
  rw [readOwner, he]
  rfl

theorem writeOwner_of_probe {e : Entry} {j : Nat} (he : e.work = .probeWrite j) (tag : LinkTag) (st : Status)
    (i : SlotIx) (u : State) : writeOwner tag st i e u =
      if st = .ok then (u.updSlot i (fun sl => sl.dropEntry tag)).probeWritten i j
      else (u.updSlot i (fun sl => sl.dropEntry tag)).qualError i e st := by
  rw [writeOwner, he]

/-- Settles O53: by the content the sector equals. -/
theorem probeReadsDecide : Obligations.ProbeReadsDecide := by
  intro s x k tag b e j cap data h hx he hstate hcap hlen sl u content fails
  have hexec : exec (.readData k tag 0 data) s =
      .next ((u.setSlot b.slot (sl.dropEntry tag)).probeRead b.slot j data).close := by
    rw [exec_readData_owned h hx (.inr (State.live_of_qualifying (.inr hstate))) (by decide) (by rw [he]; rfl),
      readOwner_of_probe he, if_pos (by rfl), if_pos hlen]
    rfl
  have hses : (u.setSlot b.slot (sl.dropEntry tag)).ses = x := State.ses_eq hx
  have hcontent : ∀ n, (u.setSlot b.slot (sl.dropEntry tag)).probeContent b.slot n = content n := fun n => by
    have hcap' : (sl.dropEntry tag).capacity = some cap := hcap
    rw [State.probeContent, hses, State.setSlot_self, hcap', Option.getD_some]
  unfold State.probeRead at hexec
  simp only [hses, hcontent] at hexec
  refine ⟨fun hsame hmore => ?_, fun hsame hlast => ?_, fun n hdiff hn hsame hfirst => ⟨_, ?_, State.failSlot_failed _ _ _⟩,
    fun hdiff hnone => ⟨_, ?_, State.failSlot_failed _ _ _⟩⟩
  · rw [hexec, if_pos hsame, if_pos hmore, State.updSlot, State.setSlot_self, State.setSlot_setSlot]
  · rw [hexec, if_pos hsame, if_neg (by omega)]
  · have hfind : (List.range x.probeCount).find? (fun q => data == content q) = some n := by
      rw [List.find?_range_eq_some]
      exact ⟨by simpa using hsame, List.mem_range.mpr hn, fun m hm => by simpa using hfirst m hm⟩
    rw [hexec, if_neg hdiff, hfind]
  · have hfind : (List.range x.probeCount).find? (fun q => data == content q) = none := by
      rw [List.find?_eq_none]
      exact fun m hm => by simpa using hnone m (List.mem_range.mp hm)
    rw [hexec, if_neg hdiff, hfind]

/-! ### The lapse of a tag -/

/-- A link record but for its path and its tags is as it was. -/
def LinkKept (s t : State) (k : LinkIx) : Prop :=
  ∃ p tags, t.link k = { s.link k with path := p, tags := tags }

theorem LinkKept.of_eq {s t : State} {k : LinkIx} (h : t.link k = s.link k) : LinkKept s t k := ⟨_, _, h⟩

theorem LinkKept.trans {s t u : State} {k : LinkIx} (a : LinkKept s t k) (b : LinkKept t u k) : LinkKept s u k := by
  obtain ⟨p, tags, ha⟩ := a
  obtain ⟨p', tags', hb⟩ := b
  exact ⟨p', tags', by rw [hb, ha]⟩

theorem LinkKept.updSlot (s : State) (i : SlotIx) (f : Slot → Slot) (k : LinkIx) : LinkKept s (s.updSlot i f) k :=
  .of_eq (congrFun (State.updSlot_link _ _ _) _)

theorem LinkKept.failSlot (s : State) (i : SlotIx) (o : Outcome) (k : LinkIx) : LinkKept s (s.failSlot i o) k := by
  have hfailed := State.failSlot_failed s i o
  by_cases hk : k = linkOf i
  · subst hk
    exact ⟨_, _, hfailed.link⟩
  · exact .of_eq (hfailed.links k hk)

theorem LinkKept.raiseTrouble {s : State} {k : LinkIx} (i : SlotIx) (w : Nat) {go : State → State}
    (hgo : ∀ t, LinkKept t (go t) k) : LinkKept s (s.raiseTrouble i w go) k := by
  unfold State.raiseTrouble
  dsimp only
  split
  · exact (LinkKept.updSlot _ _ _ _).trans (LinkKept.failSlot _ _ _ _)
  · refine LinkKept.trans ?_ (hgo _)
    split
    · exact (LinkKept.updSlot _ _ _ _).trans (LinkKept.updSlot _ _ _ _)
    · exact LinkKept.updSlot _ _ _ _

theorem LinkKept.retryEntry (t : State) (i : SlotIx) (tag : LinkTag) (e : Entry) (o : Outcome) (k : LinkIx) :
    LinkKept t (t.retryEntry i tag e o) k := by
  unfold State.retryEntry
  split
  · exact LinkKept.updSlot _ _ _ _
  · exact LinkKept.failSlot _ _ _ _

theorem LinkKept.retryQual (t : State) (i : SlotIx) (e : Entry) (k : LinkIx) : LinkKept t (t.retryQual i e) k := by
  unfold State.retryQual
  split
  · exact LinkKept.updSlot _ _ _ _
  · exact LinkKept.failSlot _ _ _ _

theorem LinkKept.timeout (s : State) (i : SlotIx) (tag : LinkTag) (k : LinkIx) : LinkKept s (s.timeout i tag) k := by
  unfold State.timeout
  split
  · exact LinkKept.updSlot _ _ _ _
  · split
    · exact .of_eq rfl
    · next e _ =>
      dsimp only
      cases e.work with
      | piece c p n =>
        exact (LinkKept.updSlot _ _ _ _).trans (LinkKept.raiseTrouble i 8 fun t => LinkKept.retryEntry t i tag e _ k)
      | verify c n =>
        exact (LinkKept.updSlot _ _ _ _).trans (LinkKept.raiseTrouble i 8 fun t => LinkKept.retryEntry t i tag e _ k)
      | size | probeWrite _ | probeRead _ =>
        exact (LinkKept.updSlot _ _ _ _).trans ((LinkKept.updSlot _ _ _ _).trans
          (LinkKept.raiseTrouble i 8 fun t => LinkKept.retryQual t i e k))

theorem exec_tagLapse (k : LinkIx) (tag : LinkTag) (s : State) : exec (.tagLapse k tag) s = .next (
    match (s.link k).tag tag with
    | .free | .lapsed => s
    | .bound b => ((s.lapse k tag b).timeout b.slot tag).afterLapse k
    | .abandoned b | .orphaned b => (s.lapse k tag b).afterLapse k) := rfl

theorem State.lapse_link (s : State) (k : LinkIx) (tag : LinkTag) (b : Busy) : (s.lapse k tag b).link k =
    { (s.link k).setTag tag .lapsed with lapsed := (s.link k).lapsed + 1 } :=
  State.updLink_self (s.reach b.deadline) k (fun l => { (l.setTag tag .lapsed) with lapsed := l.lapsed + 1 })

theorem State.afterLapse_of_few {s : State} {k : LinkIx} (h : (s.link k).lapsed < 192) : s.afterLapse k = s.close :=
  if_neg fun hlost => absurd hlost.2 (by rw [Config.lapsedLimit]; omega)

/-- Below 192 LAPSED tags the event of a lapse closes after the timeout of its command (R92). -/
theorem exec_tagLapse_of_few {s : State} {k : LinkIx} {tag : LinkTag} {b : Busy} (h : (s.link k).tag tag = .bound b)
    (hfew : (s.link k).lapsed + 1 < 192) :
    exec (.tagLapse k tag) s = .next ((s.lapse k tag b).timeout b.slot tag).close := by
  rw [exec_tagLapse, h]
  refine congrArg Host.Outcome.next (State.afterLapse_of_few ?_)
  obtain ⟨p, tags, hlink⟩ := LinkKept.timeout (s.lapse k tag b) b.slot tag k
  rw [hlink, State.lapse_link]
  exact hfew

theorem State.timeout_of_entry {s : State} {i : SlotIx} {tag : LinkTag} {e : Entry}
    (hlive : ¬(s.faulted = true ∧ (s.slot i).state.enrolled = true)) (he : (s.slot i).entry tag = some e) :
    s.timeout i tag = match e.work with
      | .piece c _ _ => (s.countSlot i ctrTimeouts).raiseTrouble i 8
          (fun t => t.retryEntry i tag e ⟨.writeFailed, some c, none, none⟩)
      | .verify c _ => (s.countSlot i ctrTimeouts).raiseTrouble i 8
          (fun t => t.retryEntry i tag e ⟨.readFailed, some c, none, none⟩)
      | .size | .probeWrite _ | .probeRead _ =>
        ((s.countSlot i ctrTimeouts).updSlot i (fun sl => sl.dropEntry tag)).raiseTrouble i 8
          (fun t => t.retryQual i e) := by
  rw [State.timeout, if_neg hlive, he] <;> rfl

/-! ### Qualification commands -/

/-- A command of the qualification of a slot, and the answer that names it. -/
def QualAnswer (k : LinkIx) (tag : LinkTag) (status : Byte) (data : List Byte) (c : Instr) (w : Work) (j : Nat) : Prop :=
  (c = .capacity k tag status data ∧ w = .size) ∨ (c = .writeAck k tag status ∧ w = .probeWrite j) ∨
    (c = .readData k tag status data ∧ w = .probeRead j)

theorem QualAnswer.qualOutcome {k : LinkIx} {tag : LinkTag} {status : Byte} {data : List Byte} {c : Instr} {w : Work}
    {j : Nat} (h : QualAnswer k tag status data c w j) : w.qualOutcome =
      ⟨if w = .size then .sizeFailed else .probeFailed, none, if w = .size then none else some j, none⟩ := by
  rcases h with ⟨-, rfl⟩ | ⟨-, rfl⟩ | ⟨-, rfl⟩ <;> rfl

section
variable {s : State} {x : Session} {k : LinkIx} {tag : LinkTag} {b : Busy} {e : Entry} (h : s.Answers k tag b e)
  (hx : s.session = some x) (hstate : (s.slot b.slot).state = .sizing ∨ (s.slot b.slot).state = .probing)
  {status : Byte} {data : List Byte} {c : Instr} {j : Nat} (hc : QualAnswer k tag status data c e.work j)
include h hx hstate hc

theorem exec_qualification_error (hst : status ≠ 4) (hok : Status.ofCode status ≠ .ok) : exec c s = .next
    (((s.freed k tag).updSlot b.slot (fun sl => sl.dropEntry tag)).qualError b.slot e (Status.ofCode status)).close := by
  have hlive : x.phase ≠ .faulted ∨ (s.slot b.slot).state.enrolled = false := .inr (State.live_of_qualifying hstate)
  rcases hc with ⟨rfl, he⟩ | ⟨rfl, he⟩ | ⟨rfl, he⟩
  · rw [exec_capacity_owned h hx hlive hst (by rw [he]; rfl), capacityOwner_of_error hok]
  · rw [exec_writeAck_owned h hx hlive hst (by rw [he]; rfl), writeOwner_of_probe he, if_neg hok]
  · rw [exec_readData_owned h hx hlive hst (by rw [he]; rfl), readOwner_of_probe he, if_neg hok]

/-- What counts as a medium error of a qualification command (R71, R192). -/
theorem exec_qualification_medium (hmedium : status = 1 ∨ 4 < status.toNat ∨ (status = 3 ∧ e.work = .probeRead j) ∨
      (status = 0 ∧ ((e.work = .size ∧ data.length ≠ 8) ∨ (e.work = .probeRead j ∧ data.length ≠ 512)))) :
    exec c s = .next (((s.freed k tag).updSlot b.slot (fun sl => sl.dropEntry tag)).qualMedium b.slot e).close := by
  have hlive : x.phase ≠ .faulted ∨ (s.slot b.slot).state.enrolled = false := .inr (State.live_of_qualifying hstate)
  have hcode : status = 1 ∨ 4 < status.toNat → exec c s =
      .next (((s.freed k tag).updSlot b.slot (fun sl => sl.dropEntry tag)).qualMedium b.slot e).close := fun hst => by
    obtain ⟨hmedium, hne⟩ := Status.ofCode_medium hst
    rw [exec_qualification_error h hx hstate hc hne (by rw [hmedium]; decide), hmedium]
    rfl
  rcases hmedium with hst | hst | ⟨rfl, he⟩ | ⟨rfl, ⟨he, hlen⟩ | ⟨he, hlen⟩⟩
  · exact hcode (.inl hst)
  · exact hcode (.inr hst)
  · rw [exec_qualification_error h hx hstate hc (by decide) (by decide)]
    change Host.Outcome.next (State.qualError _ _ _ .protected_).close = _
    rw [State.qualError, he]
  · rcases hc with ⟨rfl, -⟩ | ⟨-, he'⟩ | ⟨-, he'⟩
    · rw [exec_capacity_owned h hx hlive (by decide) (by rw [he]; rfl)]
      exact congrArg (fun t : State => Host.Outcome.next t.close) (capacityOwner_of_wrong hlen tag b.slot e _)
    · rw [he] at he'
      cases he'
    · rw [he] at he'
      cases he'
  · rcases hc with ⟨-, he'⟩ | ⟨-, he'⟩ | ⟨rfl, -⟩
    · rw [he] at he'
      cases he'
    · rw [he] at he'
      cases he'
    · rw [exec_readData_owned h hx hlive (by decide) (by rw [he]; rfl), readOwner_of_probe he, if_pos (by rfl),
        if_neg hlen]

end

/-- Settles O52: by the status, through the retry decision of the qualification record. -/
theorem qualificationAnswersAndTimeouts : Obligations.QualificationAnswersAndTimeouts := by
  intro s x k tag b e q j status data c h hx hstate hqual hc sl u late probe medium decides
  have hlive : x.phase ≠ .faulted ∨ (s.slot b.slot).state.enrolled = false := .inr (State.live_of_qualifying hstate)
  have houtcome := QualAnswer.qualOutcome hc
  refine ⟨fun he hst => ?_, fun hst => ?_, fun hst => ?_, fun hst he => ⟨_, ?_, State.failSlot_failed _ _ _⟩,
    fun hfew => ?_⟩
  · rcases hc with ⟨-, he'⟩ | ⟨rfl, -⟩ | ⟨-, he'⟩
    · rw [he] at he'
      cases he'
    · subst hst
      rw [exec_writeAck_owned h hx hlive (by decide) (by rw [he]; rfl), writeOwner_of_probe he, if_pos (by rfl),
        State.probeWritten, State.updSlot_updSlot]
      have hses : ((s.freed k tag).updSlot b.slot (fun sl => sl.dropEntry tag)).ses = x := State.ses_eq hx
      rw [hses]
      rfl
    · rw [he] at he'
      cases he'
  · have hdecides := State.qualMedium_decides (u := s.freed k tag) hx b.slot hqual tag e
    rw [houtcome, ← exec_qualification_medium h hx hstate hc hst] at hdecides
    exact hdecides
  · have hexec := exec_qualification_error h hx hstate hc (by rw [hst]; decide) (by rw [hst]; decide)
    have hdecides := State.retryQual_decides (u := u.setSlot b.slot (sl.dropEntry tag)) hx b.slot (q := q)
      (by rw [State.setSlot_self]; exact hqual) e 2
    subst hst
    rw [houtcome, ← show exec c s = .next ((u.setSlot b.slot (sl.dropEntry tag)).raiseTrouble b.slot 2 _).close
      from hexec] at hdecides
    exact hdecides
  · subst hst
    rw [exec_qualification_error h hx hstate hc (by decide) (by decide)]
    refine congrArg (fun t : State => Host.Outcome.next t.close) ?_
    rcases hc with ⟨-, he'⟩ | ⟨-, he'⟩ | ⟨-, he'⟩
    · change State.qualError _ _ _ .protected_ = _
      simp only [State.qualError, he', probe]
      rfl
    · change State.qualError _ _ _ .protected_ = _
      simp only [State.qualError, he', probe]
      rfl
    · exact absurd he' he
  · have hskip : ¬((s.lapse k tag b).faulted = true ∧ ((s.lapse k tag b).slot b.slot).state.enrolled = true) :=
      fun ⟨_, he⟩ => absurd ((State.live_of_qualifying hstate).symm.trans he) (by decide)
    have hdecides := State.retryQual_decides (u := late.setSlot b.slot { sl.dropEntry tag with
      counters := sl.counters.set 2 sl.counters[2].bump }) hx b.slot (q := q)
      (by rw [State.setSlot_self]; exact hqual) e 8
    have hout : exec (.tagLapse k tag) s = .next ((late.setSlot b.slot { sl.dropEntry tag with
        counters := sl.counters.set 2 sl.counters[2].bump }).raiseTrouble b.slot 8
          (fun t => t.retryQual b.slot e)).close := by
      rw [exec_tagLapse_of_few h.bound hfew, State.timeout_of_entry (s := s.lapse k tag b) hskip h.entry]
      refine congrArg (fun t : State => Host.Outcome.next t.close) ?_
      rcases hc with ⟨-, he'⟩ | ⟨-, he'⟩ | ⟨-, he'⟩ <;> rw [he'] <;> dsimp only <;>
        rw [State.countSlot, State.updSlot_updSlot] <;> rfl
    rw [houtcome, ← hout] at hdecides
    exact hdecides

end Sys2Proof.Machine
end

section
/-! SUPPORT. The acknowledged-ahead set, the acknowledgement of a chunk, the comparison of a read-back and what follows it.
Then the statements about them. -/

set_option Elab.async false

namespace Sys2Proof.Machine

/-! ### The acknowledged-ahead set (R103) -/

/-- Passing over an ascending set from `q` stops at the first number it lacks. -/
theorem advance_spec : ∀ (ahead : List Nat) (q : Nat), ahead.Pairwise (· < ·) → (∀ d ∈ ahead, q ≤ d) →
    q ≤ advance q ahead ∧ (∀ d, q ≤ d → d < advance q ahead → d ∈ ahead) ∧ advance q ahead ∉ ahead
  | [], q, _, _ => ⟨le_rfl, fun d h1 h2 => absurd h2 (not_lt.mpr h1), List.not_mem_nil⟩
  | a :: as, q, hasc, hlow => by
    obtain ⟨hfirst, hasc'⟩ := List.pairwise_cons.mp hasc
    by_cases ha : a = q
    · subst ha
      have hstep : advance a (a :: as) = advance (a + 1) as := by simp [advance]
      obtain ⟨hle, hin, hout⟩ := advance_spec as (a + 1) hasc' hfirst
      rw [hstep]
      refine ⟨by omega, fun d h1 h2 => ?_, fun h => ?_⟩
      · rcases Nat.eq_or_lt_of_le h1 with rfl | h1
        · exact List.mem_cons_self
        · exact List.mem_cons_of_mem _ (hin d h1 h2)
      · rcases List.mem_cons.mp h with h | h
        · omega
        · exact hout h
    · have hqa : q < a := lt_of_le_of_ne (hlow a List.mem_cons_self) (Ne.symm ha)
      have hstep : advance q (a :: as) = advance q as := by simp [advance, ha]
      have hlow' : ∀ d ∈ as, q ≤ d := fun d hd => (hqa.trans (hfirst d hd)).le
      obtain ⟨hle, hin, hout⟩ := advance_spec as q hasc' hlow'
      have hstop : advance q as = q := by
        refine le_antisymm (not_lt.mp fun hlt => ?_) hle
        have hq := hfirst q (hin q le_rfl hlt)
        omega
      rw [hstep, hstop]
      refine ⟨le_rfl, fun d h1 h2 => absurd h2 (not_lt.mpr h1), fun h => ?_⟩
      rcases List.mem_cons.mp h with h | h
      · exact ha h.symm
      · rw [← hstop] at h
        exact hout h

theorem mem_addAhead (c : Nat) : ∀ (as : List Nat) (d : Nat), d ∈ addAhead c as ↔ d = c ∨ d ∈ as
  | [], d => by simp [addAhead]
  | a :: as, d => by
    unfold addAhead
    split
    · rw [List.mem_cons]
    · split
      · next h => simp [h]
      · rw [List.mem_cons, mem_addAhead c as d, List.mem_cons]
        tauto

theorem addAhead_ascending (c : Nat) : ∀ as : List Nat, as.Pairwise (· < ·) → (addAhead c as).Pairwise (· < ·)
  | [], _ => by simp [addAhead]
  | a :: as, hasc => by
    obtain ⟨hfirst, hasc'⟩ := List.pairwise_cons.mp hasc
    unfold addAhead
    split
    · next hca =>
      refine List.pairwise_cons.mpr ⟨fun d hd => ?_, hasc⟩
      rcases List.mem_cons.mp hd with rfl | hd
      · exact hca
      · exact hca.trans (hfirst d hd)
    · split
      · exact hasc
      · refine List.pairwise_cons.mpr ⟨fun d hd => ?_, addAhead_ascending c as hasc'⟩
        rcases (mem_addAhead c as d).mp hd with rfl | hd
        · omega
        · exact hfirst d hd

theorem Slot.acknowledged_of_point {sl : Slot} {c : Nat} (h : sl.ackPoint = some c) : sl.acknowledged c = { sl with
    ackPoint := some (advance (c + 1) sl.ahead)
    ahead := sl.ahead.filter (fun a => decide (advance (c + 1) sl.ahead ≤ a)) } := if_pos h

theorem Slot.acknowledged_of_other {sl : Slot} {c : Nat} (h : sl.ackPoint ≠ some c) :
    sl.acknowledged c = { sl with ahead := addAhead c sl.ahead } := if_neg h

theorem Slot.acknowledged_frame (sl : Slot) (c : Nat) :
    sl.acknowledged c = { sl with ackPoint := (sl.acknowledged c).ackPoint, ahead := (sl.acknowledged c).ahead } := by
  unfold Slot.acknowledged
  split <;> rfl

/-! ### Acknowledgement -/

/-- The chunk acknowledged and its count lowered, before the span is looked at (R103). -/
def State.chunkAcknowledged (s : State) (i : SlotIx) (c : Nat) : State :=
  { s.setSlot i ((s.slot i).acknowledged c) with win.records := lowerOwed (fun d => d == c) s.win.records }

@[simp] theorem State.chunkAcknowledged_self (s : State) (i : SlotIx) (c : Nat) :
    (s.chunkAcknowledged i c).slot i = (s.slot i).acknowledged c := State.setSlot_self s i _

theorem State.chunkAcknowledged_ne (s : State) {i j : SlotIx} (c : Nat) (h : i ≠ j) :
    (s.chunkAcknowledged i c).slot j = s.slot j := State.updSlot_slot_ne s (fun sl => sl.acknowledged c) h

theorem State.acknowledge_eq {s : State} {i : SlotIx} {sp : Span} (hsp : (s.slot i).span = some sp) (c : Nat) :
    s.acknowledge i c = if ((s.slot i).acknowledged c).ackPoint = some sp.hi then (s.chunkAcknowledged i c).spanUsed i
      else s.chunkAcknowledged i c := by
  have hspan : ((s.slot i).acknowledged c).span = some sp := by rw [Slot.acknowledged_frame, hsp]
  have hunfold : s.acknowledge i c =
      if ((s.chunkAcknowledged i c).slot i).ackPoint = ((s.chunkAcknowledged i c).slot i).span.map Span.hi then
        (s.chunkAcknowledged i c).spanUsed i
      else s.chunkAcknowledged i c := rfl
  rw [hunfold, State.chunkAcknowledged_self, hspan]
  rfl

theorem State.spanUsed_of_deferred {s : State} {i : SlotIx} {d : Span} (h : (s.slot i).deferred = some d) :
    s.spanUsed i = (s.updSlot i (fun sl => { sl with
      span := some d, deferred := none, rostered := false, ackPoint := some d.lo, issueCursor := some d.lo
      ahead := [], piecesSent := 0, pinCount := 0, clearCount := 0 })).moveSlot i .waiting := by
  rw [State.spanUsed, h]

theorem State.spanUsed_of_last {s : State} {i : SlotIx} (h : (s.slot i).deferred = none) : s.spanUsed i =
    if s.ses.verify = .trailing then (s.updSlot i (fun sl => { sl with verifyCursor := some 0 })).moveSlot i .verifying
    else (s.updSlot i (fun sl => sl.withOutcome ⟨.passed, none, none, none⟩)).moveSlot i .done := by
  rw [State.spanUsed, h]

theorem State.spanUsed_win (s : State) (i : SlotIx) : (s.spanUsed i).win = s.win := by
  unfold State.spanUsed
  split
  · simp
  · split <;> simp

theorem State.spanUsed_ne (s : State) {i j : SlotIx} (h : i ≠ j) : (s.spanUsed i).slot j = s.slot j := by
  unfold State.spanUsed
  split
  · simp [h]
  · split <;> simp [h]

/-- Settles O49: by whether the span is used up; the set by its ascending order. -/
theorem acknowledgementAdvancesTheSpan : Obligations.AcknowledgementAdvancesTheSpan := by
  refine ⟨fun s x i c sp hx hlive hsp => ?_, fun sl a c ha hasc hlow => ⟨fun hc => ?_, fun hc => ?_⟩⟩
  · have hack := State.acknowledge_eq hsp c
    have hspan : ((s.slot i).acknowledged c).span = some sp := by rw [Slot.acknowledged_frame, hsp]
    have hdeferred : ((s.slot i).acknowledged c).deferred = (s.slot i).deferred := by rw [Slot.acknowledged_frame]
    have houtcome : ((s.slot i).acknowledged c).outcome = (s.slot i).outcome := by rw [Slot.acknowledged_frame]
    have hses : (s.chunkAcknowledged i c).ses = x := State.ses_eq hx
    refine ⟨?_, Slot.acknowledged_frame _ _, fun j hj => ?_, fun hend => ?_, fun d hend hd => ?_, fun hend hd hv => ?_,
      fun hend hd hv => ?_⟩
    · rw [hack]
      split
      · rw [State.spanUsed_win]
        rfl
      · rfl
    · rw [hack]
      split
      · rw [State.spanUsed_ne _ (Ne.symm hj), State.chunkAcknowledged_ne _ _ (Ne.symm hj)]
      · rw [State.chunkAcknowledged_ne _ _ (Ne.symm hj)]
    · rw [hack, if_neg hend]
      rfl
    · rw [hack, if_pos hend, State.spanUsed_of_deferred (d := d) (by rw [State.chunkAcknowledged_self, hdeferred, hd])]
      simp [Slot.moved]
    · rw [hack, if_pos hend, State.spanUsed_of_last (by rw [State.chunkAcknowledged_self, hdeferred, hd]), hses, if_pos hv,
        State.moveSlot_self, State.updSlot_self, State.chunkAcknowledged_self]
      exact ⟨rfl, rfl, hspan, hend⟩
    · rw [hack, if_pos hend, State.spanUsed_of_last (by rw [State.chunkAcknowledged_self, hdeferred, hd]), hses, if_neg hv,
        State.moveSlot_self, State.updSlot_self, State.chunkAcknowledged_self]
      exact ⟨rfl, congrArg (fun o : Option Outcome => some (o.getD _)) houtcome, hspan⟩
  · subst hc
    obtain ⟨hle, hin, hout⟩ := advance_spec sl.ahead (c + 1) hasc hlow
    rw [Slot.acknowledged_of_point ha]
    refine ⟨_, rfl, hle, fun d h1 h2 => hin d h1 h2, hout, fun d => ?_⟩
    rw [List.mem_filter, decide_eq_true_eq]
    refine and_congr_right fun hd => ⟨fun h => lt_of_le_of_ne h fun e => hout (e ▸ hd), le_of_lt⟩
  · rw [Slot.acknowledged_of_other (by rw [ha]; simp; omega)]
    exact ⟨ha, addAhead_ascending c _ hasc, mem_addAhead c _⟩

/-! ### The comparison (R139) -/

theorem overwrite_length {bs new : List Byte} {off : Nat} (h : off + new.length ≤ bs.length) :
    (overwrite bs off new).length = bs.length := by
  simp only [overwrite, List.length_append, List.length_take, List.length_drop]
  omega

theorem overwrite_get {bs new : List Byte} {off : Nat} (h : off + new.length ≤ bs.length) (b : Nat) :
    (overwrite bs off new)[b]? = if off ≤ b ∧ b < off + new.length then new[b - off]? else bs[b]? := by
  have hoff : (bs.take off).length = off := by rw [List.length_take]; omega
  unfold overwrite
  by_cases h1 : b < off
  · rw [List.getElem?_append_left (by omega), List.getElem?_take_of_lt h1, if_neg (by omega)]
  · rw [List.getElem?_append_right (by omega), hoff]
    by_cases h2 : b < off + new.length
    · rw [List.getElem?_append_left (by omega), if_pos ⟨by omega, h2⟩]
    · rw [List.getElem?_append_right (by omega), List.getElem?_drop, if_neg (by omega)]
      congr 1
      omega

/-- Bytes put back from an image are the image's where a site covers them, and stay elsewhere. -/
theorem restored_get (image : List Byte) : ∀ (l : List (Nat × Site)) (bs : List Byte), bs.length = image.length →
    (∀ p ∈ l, p.2.offset + p.2.width ≤ image.length ∧
      p.2.pristine = some ((image.drop p.2.offset).take p.2.width)) →
    let out := l.foldl (fun bs p => overwrite bs p.2.offset (p.2.pristine.getD [])) bs
    out.length = image.length ∧ ∀ b, out[b]? =
      if ∃ p ∈ l, p.2.offset ≤ b ∧ b < p.2.offset + p.2.width then image[b]? else bs[b]?
  | [], bs, hlen, _ => ⟨hlen, fun b => by simp⟩
  | p :: l, bs, hlen, hsites => by
    obtain ⟨hfit, hpristine⟩ := hsites p List.mem_cons_self
    have hnew : (p.2.pristine.getD []).length = p.2.width := by
      rw [hpristine, Option.getD_some, List.length_take, List.length_drop]
      omega
    have hroom : p.2.offset + (p.2.pristine.getD []).length ≤ bs.length := by omega
    obtain ⟨hout, hget⟩ := restored_get image l (overwrite bs p.2.offset (p.2.pristine.getD []))
      ((overwrite_length hroom).trans hlen) fun q hq => hsites q (List.mem_cons_of_mem _ hq)
    refine ⟨hout, fun b => (hget b).trans ?_⟩
    rw [overwrite_get hroom, hnew]
    by_cases hrest : ∃ q ∈ l, q.2.offset ≤ b ∧ b < q.2.offset + q.2.width
    · obtain ⟨q, hq, hb⟩ := hrest
      rw [if_pos ⟨q, hq, hb⟩, if_pos ⟨q, List.mem_cons_of_mem _ hq, hb⟩]
    · rw [if_neg hrest]
      by_cases hb : p.2.offset ≤ b ∧ b < p.2.offset + p.2.width
      · rw [if_pos hb, if_pos ⟨p, List.mem_cons_self, hb⟩, hpristine, Option.getD_some,
          List.getElem?_take_of_lt (by omega), List.getElem?_drop]
        congr 1
        omega
      · have hnone : ¬∃ q ∈ p :: l, q.2.offset ≤ b ∧ b < q.2.offset + q.2.width := by
          rintro ⟨q, hq, hqb⟩
          rcases List.mem_cons.mp hq with rfl | hq
          · exact hb hqb
          · exact hrest ⟨q, hq, hqb⟩
        rw [if_neg hb, if_neg hnone]

theorem State.compareChunk_iff (s : State) (i : SlotIx) (c : Nat) (data : List Byte) : s.compareChunk i c data = true ↔
    (∀ p ∈ sitesOf s.stu.sites c, (s.entry i p.1).bytes? = some ((data.drop p.2.offset).take p.2.width)) ∧
    s.referenceCrc i c = some (crc ((sitesOf s.stu.sites c).foldl
      (fun bs p => overwrite bs p.2.offset (p.2.pristine.getD [])) data)) := by
  rw [State.compareChunk, Bool.and_eq_true, List.all_eq_true, beq_iff_eq]
  simp only [beq_iff_eq]

/-- Settles O55: the sites of the chunk one by one, then the bytes put back. -/
theorem comparisonChecksSitesAndCrc : Obligations.ComparisonChecksSitesAndCrc := by
  intro s i c data
  refine ⟨fun n t ht hc hne => ?_, fun hnone => ?_, fun image hlen hsites hrest => ?_, fun hv => if_pos hv, fun hv =>
    ⟨fun r y hr hy => ?_, fun hnone => ?_⟩⟩
  · rw [← Bool.not_eq_true, State.compareChunk_iff]
    exact fun h => hne (h.1 (n, t) (mem_sitesOf.mpr ⟨ht, hc⟩))
  · rw [State.compareChunk_iff, sitesOf_nil hnone]
    simp
  · have hall : ∀ p ∈ sitesOf s.stu.sites c, p.2.offset + p.2.width ≤ image.length ∧
        p.2.pristine = some ((image.drop p.2.offset).take p.2.width) := fun p hp => by
      obtain ⟨ht, hc⟩ := mem_sitesOf.mp hp
      obtain ⟨hfit, -, hpristine⟩ := hsites p.1 p.2 ht hc
      exact ⟨by omega, hpristine⟩
    have hentries : ∀ p ∈ sitesOf s.stu.sites c,
        (s.entry i p.1).bytes? = some ((data.drop p.2.offset).take p.2.width) := fun p hp => by
      obtain ⟨ht, hc⟩ := mem_sitesOf.mp hp
      exact (hsites p.1 p.2 ht hc).2.1
    obtain ⟨-, hget⟩ := restored_get image (sitesOf s.stu.sites c) data hlen.symm hall
    have himage : (sitesOf s.stu.sites c).foldl (fun bs p => overwrite bs p.2.offset (p.2.pristine.getD [])) data =
        image := by
      refine List.ext_getElem? fun b => ?_
      rw [hget b]
      split
      · rfl
      · next hout =>
        refine (hrest b fun t ht hc hb => hout ?_).symm
        obtain ⟨n, hn⟩ := List.mem_iff_getElem?.mp ht
        exact ⟨(n, t), mem_sitesOf.mpr ⟨hn, hc⟩, hb⟩
    rw [State.compareChunk_iff, himage]
    exact and_iff_right hentries
  · rw [State.referenceCrc, if_neg hv, hr, Option.bind_some, hy]
    rfl
  · rw [State.referenceCrc, if_neg hv]
    cases hr : s.record c with
    | none => rfl
    | some r =>
      cases hy : r.resident with
      | none => simp [hy]
      | some y => exact absurd hy (hnone r y hr)

/-! ### Verify reads -/

theorem State.verifyAnswer_of_chunk {data : List Byte} (hlen : data.length = 65536) (u : State) (i : SlotIx)
    (tag : LinkTag) (e : Entry) (c n : Nat) : u.verifyAnswer i tag e c n .ok data =
      if (u.slot i).state = .verifying then u.trailingResult i tag c (u.compareChunk i c data)
      else u.inlineResult i tag c n (u.compareChunk i c data) := if_pos hlen

theorem State.endRead_mismatched (u : State) (i : SlotIx) (tag : LinkTag) : (u.endRead i tag).countSlot i ctrMismatches =
    u.setSlot i { ((u.slot i).dropEntry tag).givePlaces 1 with
      counters := (u.slot i).counters.set 4 (u.slot i).counters[4].bump } := by
  rw [State.countSlot, State.endRead, State.updSlot_updSlot]
  rfl

/-- A trailing read's entry out of the list, its place given up and its DIGEST transfer asked for (R148, log 31). -/
def State.readTaken (s : State) (i : SlotIx) (tag : LinkTag) : State :=
  State.setSlot { s with win.waiting := s.win.waiting ++ [.digest] } i (((s.slot i).dropEntry tag).givePlaces 1)

theorem State.readTaken_self (s : State) (i : SlotIx) (tag : LinkTag) :
    (s.readTaken i tag).slot i = ((s.slot i).dropEntry tag).givePlaces 1 := State.setSlot_self _ i _

theorem State.trailingResult_same (s : State) (i : SlotIx) (tag : LinkTag) (c : Nat) : s.trailingResult i tag c true =
    if ((s.readTaken i tag).slot i).verifyCursor = some s.ses.imageLength ∧ ((s.readTaken i tag).slot i).inFlight = [] then
      ((s.readTaken i tag).updSlot i (fun sl => sl.withOutcome ⟨.passed, none, none, none⟩)).moveSlot i .done
    else s.readTaken i tag := rfl

/-- Settles O54: by the slot's state and the comparison. -/
theorem verifyReadsCompare : Obligations.VerifyReadsCompare := by
  intro s x k tag b e c n data h hx hphase he hlen sl gone u read mismatched out
  have hexec : out = .next (if sl.state = .verifying then
      (s.freed k tag).trailingResult b.slot tag c (s.compareChunk b.slot c data)
      else (s.freed k tag).inlineResult b.slot tag c n (s.compareChunk b.slot c data)).close := by
    have howned := exec_readData_owned h hx (.inl (by simp [hphase])) (status := 0) (by decide) (by rw [he]; rfl) data
    rw [readOwner_of_verify he] at howned
    exact howned.trans (congrArg (fun t : State => Host.Outcome.next t.close)
      (State.verifyAnswer_of_chunk hlen (s.freed k tag) b.slot tag e c n))
  have hses : (s.freed k tag).ses = x := State.ses_eq hx
  refine ⟨fun hlive hsame => ?_, fun hlive hdiff => ?_, fun hv hdiff => ⟨_, ?_, State.failSlot_failed _ _ _⟩, fun hv hsame =>
    ⟨fun hlast hempty => ?_, fun hmore => ?_⟩⟩
  · rw [hexec, if_neg (by rw [hlive]; decide), hsame]
    rfl
  · rw [if_neg (by rw [hlive]; decide), hdiff] at hexec
    have hout : out = .next ((u.setSlot b.slot mismatched).raiseTrouble b.slot 6
        (fun t => t.queueRewrite b.slot c n)).close := by
      rw [hexec]
      refine congrArg (fun t : State => Host.Outcome.next t.close) ?_
      change ((((s.freed k tag).endRead b.slot tag).countSlot b.slot ctrMismatches).raiseTrouble b.slot 6
        (fun t => t.queueRewrite b.slot c n)) = _
      rw [State.endRead_mismatched]
      rfl
    rw [hout]
    refine State.raiseTrouble_decision _ x b.slot 6 n _ _ _ (State.ses_eq hx) fun v hv => ⟨fun hn => ?_, fun hn => ?_⟩
    · exact if_pos (by rwa [hv])
    · exact if_neg (by rw [hv]; omega)
  · rw [hexec, if_pos hv, hdiff]
    refine congrArg (fun t : State => Host.Outcome.next t.close) ?_
    change (State.countSlot { (s.freed k tag).endRead b.slot tag with
      win.waiting := s.win.waiting ++ [Transfer.digest] } b.slot ctrMismatches).failSlot b.slot _ = _
    refine congrArg (fun t : State => t.failSlot b.slot _) ?_
    have hcount := State.endRead_mismatched (s.freed k tag) b.slot tag
    exact congrArg (fun t : State => { t with win.waiting := s.win.waiting ++ [Transfer.digest] }) hcount
  · rw [hexec, if_pos hv, hsame, State.trailingResult_same]
    refine congrArg (fun t : State => Host.Outcome.next t.close) ((if_pos ⟨?_, ?_⟩).trans ?_)
    · rw [State.updSlot, State.readTaken_self, State.readTaken, State.setSlot_setSlot]
      rfl
    · rw [State.readTaken_self, hses]
      exact hlast
    · rw [State.readTaken_self]
      exact hempty
  · rw [hexec, if_pos hv, hsame, State.trailingResult_same]
    refine congrArg (fun t : State => Host.Outcome.next t.close) ((if_neg ?_).trans rfl)
    rw [State.readTaken_self, hses]
    exact fun ⟨hlast, hempty⟩ => hmore.elim (fun h => h hlast) (fun h => h hempty)

end Sys2Proof.Machine
end

section
/-! SUPPORT. What the timeout of a command leaves, the loss of a link by LAPSED tags, PING and PONG. Then the statements
about the lapse of a tag and about PINGs. -/

set_option Elab.async false

namespace Sys2Proof.Machine

/-! ### What a timeout does to one slot -/

/-- A relation kept by every change of slot `i` that leaves its state and its span as they are, and by its failure. -/
structure SlotSteps (R : State → State → Prop) (i : SlotIx) : Prop where
  refl : ∀ s, R s s
  trans : ∀ {s t u}, R s t → R t u → R s u
  upd : ∀ s (f : Slot → Slot), (∀ sl, (f sl).state = sl.state ∧ (f sl).ackPoint = sl.ackPoint ∧ (f sl).span = sl.span ∧
    (f sl).ahead = sl.ahead) → R s (s.updSlot i f)
  fail : ∀ s o, R s (s.failSlot i o)

section
variable {R : State → State → Prop} {i : SlotIx} (h : SlotSteps R i)
include h

theorem SlotSteps.throttleSlot (s : State) : R s (s.throttleSlot i) := by
  unfold State.throttleSlot
  dsimp only
  refine h.upd s _ fun sl => ?_
  split <;> exact ⟨rfl, rfl, rfl, rfl⟩

theorem SlotSteps.raiseTrouble (s : State) (w : Nat) {go : State → State} (hgo : ∀ t, R t (go t)) :
    R s (s.raiseTrouble i w go) := by
  unfold State.raiseTrouble
  dsimp only
  have htrouble := h.upd s (fun sl => { sl with trouble := min 63 ((s.slot i).trouble + w) })
    fun _ => ⟨rfl, rfl, rfl, rfl⟩
  split
  · exact h.trans htrouble (h.fail _ _)
  · refine h.trans ?_ (hgo _)
    split
    · exact h.trans htrouble (h.throttleSlot _)
    · exact htrouble

theorem SlotSteps.retryEntry (t : State) (tag : LinkTag) (e : Entry) (o : Outcome) : R t (t.retryEntry i tag e o) := by
  unfold State.retryEntry
  split
  · exact h.upd _ _ fun _ => ⟨rfl, rfl, rfl, rfl⟩
  · exact h.fail _ _

theorem SlotSteps.retryQual (t : State) (e : Entry) : R t (t.retryQual i e) := by
  unfold State.retryQual
  split
  · exact h.upd _ _ fun _ => ⟨rfl, rfl, rfl, rfl⟩
  · exact h.fail _ _

theorem SlotSteps.timeout (s : State) (tag : LinkTag) : R s (s.timeout i tag) := by
  unfold State.timeout
  split
  · exact h.upd _ _ fun _ => ⟨rfl, rfl, rfl, rfl⟩
  · split
    · exact h.refl s
    · next e _ =>
      have hcount : R s (s.countSlot i ctrTimeouts) := h.upd _ _ fun _ => ⟨rfl, rfl, rfl, rfl⟩
      dsimp only
      cases e.work with
      | piece c p n => exact h.trans hcount (h.raiseTrouble _ 8 fun t => h.retryEntry t tag e _)
      | verify c n => exact h.trans hcount (h.raiseTrouble _ 8 fun t => h.retryEntry t tag e _)
      | size | probeWrite _ | probeRead _ =>
        exact h.trans hcount (h.trans (h.upd _ (fun sl => sl.dropEntry tag) fun _ => ⟨rfl, rfl, rfl, rfl⟩)
          (h.raiseTrouble _ 8 fun t => h.retryQual t e))

end

theorem Elsewhere.mono {s t : State} {mine mine' : SlotIx → Prop} (h : Elsewhere s t mine)
    (hle : ∀ i, mine i → mine' i) : Elsewhere s t mine' :=
  ⟨fun j hj => h.slots j fun hm => hj (hle j hm), fun k hk => h.links k fun j hm => hk j (hle j hm), h.session,
    h.counters, h.rest⟩

theorem Elsewhere.slotSteps {mine : SlotIx → Prop} {i : SlotIx} (hi : mine i) :
    SlotSteps (fun s t => Elsewhere s t mine) i :=
  ⟨fun s => Elsewhere.refl s mine, fun a b => a.trans b, fun s f _ => Elsewhere.updSlot s f hi,
    fun s o => Elsewhere.failSlot s o hi⟩

/-! ### What the LIVE slots of a link owe -/

/-- Slot `j` of link `k` is LIVE and owes chunk `c`. -/
def State.owesOn (s : State) (k : LinkIx) (c : Nat) (j : SlotIx) : Bool :=
  linkOf j == k && (s.slot j).state == .live && (s.slot j).owes (s.head.getD 0) c

theorem State.recordsWithoutLink_eq (s : State) (k : LinkIx) : s.recordsWithoutLink k =
    s.win.records.map (fun r => { r with resident := r.resident.map (fun y => { y with
      owed := y.owed - (List.finRange 192).countP (s.owesOn k r.chunk) }) }) := rfl

theorem State.recordsWithoutLink_congr {s t : State} {k : LinkIx} (hrecords : t.win.records = s.win.records)
    (h : ∀ c j, t.owesOn k c j = s.owesOn k c j) : t.recordsWithoutLink k = s.recordsWithoutLink k := by
  have hfun : ∀ c, t.owesOn k c = s.owesOn k c := fun c => funext (h c)
  simp only [State.recordsWithoutLink_eq, hrecords, hfun]

/-- A count over the slots, less one of them. -/
theorem countP_finRange_remove (p : SlotIx → Bool) (i : SlotIx) :
    (List.finRange 192).countP p = (List.finRange 192).countP (fun j => p j && j != i) + (if p i then 1 else 0) := by
  have hsplit := List.countP_eq_countP_filter_add (List.finRange 192) p (fun j => j != i)
  rw [List.countP_filter, List.countP_filter] at hsplit
  have hone : (List.finRange 192).countP (fun j => p j && !(j != i)) = if p i then 1 else 0 := by
    have hi : ∀ j, (p j && !(j != i)) = (p i && j == i) := fun j => by
      by_cases hj : j = i
      · rw [hj, bne, Bool.not_not]
      · rw [bne, Bool.not_not, beq_eq_false_iff_ne.mpr hj, Bool.and_false, Bool.and_false]
    rw [show (fun j => p j && !(j != i)) = fun j => p i && j == i from funext hi]
    cases p i with
    | false => simp
    | true =>
      have hcount : (List.finRange 192).count i = 1 :=
        List.count_eq_one_of_mem (List.nodup_finRange 192) (List.mem_finRange i)
      simpa [List.count] using hcount
  rw [hone] at hsplit
  exact hsplit

/-- A slot of the link that fails releases what it owed, and owes nothing then: what the link releases stays the same. -/
theorem State.recordsWithoutLink_failSlot (s : State) {i : SlotIx} {k : LinkIx} (hi : linkOf i = k) (o : Outcome) :
    (s.failSlot i o).recordsWithoutLink k = s.recordsWithoutLink k := by
  have hfailed := State.failSlot_failed s i o
  have hhead : (s.failSlot i o).head = s.head := by rw [State.head, State.failSlot_session]; rfl
  have howes : ∀ c, (s.failSlot i o).owesOn k c = fun j => s.owesOn k c j && j != i := fun c => funext fun j => by
    by_cases hj : j = i
    · subst hj
      simp [State.owesOn, hfailed.own]
    · simp [State.owesOn, hfailed.others j hj, hhead, hj]
  have hown : ∀ c, s.owesOn k c i = ((s.slot i).state == .live && (s.slot i).owes (s.head.getD 0) c) := fun c => by
    simp [State.owesOn, hi]
  simp only [State.recordsWithoutLink_eq, howes, State.failSlot_records, State.recordsWithout]
  split
  · next hlive =>
    rw [lowerOwed_map, List.map_map]
    refine List.map_congr_left fun r _ => ?_
    simp only [Function.comp, Option.map_map]
    refine congrArg (fun f => { r with resident := Option.map f r.resident }) (funext fun y => ?_)
    rw [countP_finRange_remove (s.owesOn k r.chunk) i, hown, hlive]
    simp only [Function.comp, beq_self_eq_true, Bool.true_and, Resident.mk.injEq, true_and, and_true]
    omega
  · next hlive =>
    refine List.map_congr_left fun r _ => ?_
    rw [countP_finRange_remove (s.owesOn k r.chunk) i, hown]
    simp [hlive]

theorem State.recordsWithoutLink_slotSteps {i : SlotIx} {k : LinkIx} (hi : linkOf i = k) :
    SlotSteps (fun s t => t.recordsWithoutLink k = s.recordsWithoutLink k) i where
  refl _ := rfl
  trans a b := b.trans a
  upd s f hf := State.recordsWithoutLink_congr rfl fun c j => by
    have hhead : (s.updSlot i f).head = s.head := rfl
    unfold State.owesOn
    rw [hhead]
    by_cases hj : i = j
    · subst hj
      obtain ⟨hstate, hack, hspan, hahead⟩ := hf (s.slot i)
      rw [State.updSlot_self]
      simp only [Slot.owes, hstate, hack, hspan, hahead]
    · rw [State.updSlot_slot_ne _ _ hj]
  fail s o := State.recordsWithoutLink_failSlot s hi o

/-! ### The loss of a link -/

/-- What the loss of a link, and the close of its event, leave (R83, R90). -/
theorem State.loseLink_close (w : State) (k : LinkIx) (cause : LossCause) :
    let t := (w.loseLink k cause).close
    t.link k = (w.link k).lost ∧ t.ncu.seen.getLsbD 7 = true ∧ Elsewhere w t (fun i => linkOf i = k) ∧
      (∀ i, linkOf i = k → (t.slot i).state = .empty ∧ (t.slot i).lamp = ⟨.off, none⟩ ∧
        ((w.slot i).state.enrolled = true →
          (t.slot i).outcome = some ((w.slot i).outcome.getD ⟨.linkLost, none, none, none⟩))) ∧
      t.win.records = retired (w.recordsWithoutLink k) ∧
      ∃ v : State, t = (v.raise (.linkLost k cause)).close ∧ v.win.records = retired (w.recordsWithoutLink k) ∧
        Elsewhere w v (fun i => linkOf i = k) := by
  intro t
  obtain ⟨v, hv, hrecords, hrest⟩ := State.loseLink_lost w k cause
  refine ⟨?_, State.close_seen _ _ (State.loseLink_seen w k cause),
    (Elsewhere.loseLink w k cause).trans (Elsewhere.close _ _), fun i hi => ?_, ?_, v, ?_, hrecords, hrest⟩
  · rw [State.close_link, State.loseLink_link]
  · obtain ⟨hempty, hlamp, houtcome⟩ := (State.loseLink_slot w k cause i).1 hi
    rw [(State.close_slot_eq (w.loseLink k cause) i).1]
    exact ⟨hempty, hlamp, houtcome⟩
  · rw [State.close_records, hv, State.raise_win, hrecords, retired_retired]
  · rw [← hv]

theorem State.afterLapse_of_many {s : State} {k : LinkIx} (hup : (s.link k).up = true) (h : 192 ≤ (s.link k).lapsed) :
    s.afterLapse k = (s.loseLink k .lapsedTags).close := if_pos ⟨hup, h⟩

/-- The loss of a link at its 192nd LAPSED tag, the command's timeout `w` having kept the link (R89). -/
theorem State.afterLapse_lost {s w : State} {k : LinkIx} {tag : LinkTag} {b : Busy} (hup : (s.link k).up = true)
    (hmany : 192 ≤ (s.link k).lapsed + 1) (hkept : LinkKept (s.lapse k tag b) w k) :
    w.afterLapse k = (w.loseLink k .lapsedTags).close ∧ (w.link k).lost = { s.link k with
      up := false, missed := 0, tags := .replicate 256 .free, lapsed := 0, lastTag := 255, lastSocket := 15
      path := none } := by
  obtain ⟨p, tags, hlink⟩ := hkept
  rw [State.lapse_link] at hlink
  exact ⟨State.afterLapse_of_many (by rw [hlink]; exact hup) (by rw [hlink]; exact hmany), by rw [hlink]; rfl⟩

/-- Settles O56: by the state of the tag, the phase and the count of LAPSED tags. -/
theorem tagLapseTimesOut : Obligations.TagLapseTimesOut := by
  intro s k tag b sl l u
  refine ⟨fun hfew htag => ?_, fun x e c hx hfew htag hphase he hwork => ?_, fun x hx hfew htag hphase henrolled => ?_,
    fun hup hmany htag => ?_⟩
  · have hlapsed : ((s.lapse k tag b).link k).lapsed < 192 := by rw [State.lapse_link]; exact hfew
    have hclose := State.afterLapse_of_few hlapsed
    rcases htag with htag | htag
    · rw [exec_tagLapse, htag]
      exact congrArg Host.Outcome.next hclose
    · rw [exec_tagLapse, htag]
      exact congrArg Host.Outcome.next hclose
  · have hskip : ¬((s.lapse k tag b).faulted = true ∧ ((s.lapse k tag b).slot b.slot).state.enrolled = true) :=
      fun hf => absurd ((State.faulted_iff (s := s.lapse k tag b) hx).mp hf.1) (by simp [hphase])
    rw [exec_tagLapse_of_few htag hfew, State.timeout_of_entry (s := s.lapse k tag b) hskip he]
    rcases hwork with ⟨p, n, hw⟩ | ⟨n, hw⟩
    · have hdecides := State.retryEntry_decides (u := (s.lapse k tag b).countSlot b.slot ctrTimeouts) hx b.slot tag e 8
        ⟨.writeFailed, some c, none, none⟩
      rw [hw] at hdecides ⊢
      exact hdecides
    · have hdecides := State.retryEntry_decides (u := (s.lapse k tag b).countSlot b.slot ctrTimeouts) hx b.slot tag e 8
        ⟨.readFailed, some c, none, none⟩
      rw [hw] at hdecides ⊢
      exact hdecides
  · rw [exec_tagLapse_of_few htag hfew]
    exact congrArg (fun t : State => Host.Outcome.next t.close)
      (if_pos ⟨(State.faulted_iff (s := s.lapse k tag b) hx).mpr hphase, henrolled⟩)
  · have hexec : ∃ w, exec (.tagLapse k tag) s = .next (w.afterLapse k) ∧ LinkKept (s.lapse k tag b) w k ∧
        Elsewhere u w (fun i => linkOf i = k ∨ (l.tag tag = .bound b ∧ i = b.slot)) ∧ (l.tag tag ≠ .bound b → w = u) ∧
        (linkOf b.slot = k → w.recordsWithoutLink k = s.recordsWithoutLink k ∧ Elsewhere u w (fun i => linkOf i = k)) := by
      by_cases hbound : l.tag tag = .bound b
      · refine ⟨(s.lapse k tag b).timeout b.slot tag, ?_, LinkKept.timeout _ _ _ _,
          (Elsewhere.slotSteps (.inr ⟨hbound, rfl⟩)).timeout _ _, fun h => absurd hbound h, fun hk =>
          ⟨(State.recordsWithoutLink_slotSteps hk).timeout _ _, (Elsewhere.slotSteps hk).timeout _ _⟩⟩
        rw [exec_tagLapse, hbound]
      · refine ⟨u, ?_, .of_eq rfl, Elsewhere.refl _ _, fun _ => rfl, fun _ => ⟨rfl, Elsewhere.refl _ _⟩⟩
        rcases htag with htag | htag | htag
        · exact absurd htag hbound
        · rw [exec_tagLapse, htag]
          rfl
        · rw [exec_tagLapse, htag]
          rfl
    obtain ⟨w, hexec, hkept, hrest, hsame, hlinked⟩ := hexec
    obtain ⟨hlost, hlink⟩ := State.afterLapse_lost hup hmany hkept
    obtain ⟨htlink, hseen, helse, hslots, hrecords, v, hv, hvrecords, hvelse⟩ := State.loseLink_close w k .lapsedTags
    rw [hlost] at hexec
    refine ⟨_, hexec, htlink.trans hlink, fun i hi => ?_, fun i hi he hne => ?_, hseen,
      hrest.trans (helse.mono fun i hi => .inl hi), fun hown => ?_⟩
    · obtain ⟨hempty, hlamp, -⟩ := hslots i hi
      exact ⟨hempty, hlamp⟩
    · obtain ⟨-, -, houtcome⟩ := hslots i hi
      rw [hsame hne] at houtcome ⊢
      exact houtcome he
    · have hw : w.recordsWithoutLink k = s.recordsWithoutLink k ∧ Elsewhere u w (fun i => linkOf i = k) := by
        rcases hown with hne | hk
        · rw [hsame hne]
          exact ⟨rfl, Elsewhere.refl _ _⟩
        · exact hlinked hk
      obtain ⟨hreleased, hwelse⟩ := hw
      exact ⟨by rw [hrecords, hreleased], v, hv, by rw [hvrecords, hreleased], hwelse.trans hvelse⟩

end Sys2Proof.Machine
end

section
/-! SUPPORT. PING and PONG: the lamps that become due, and the miss that loses the link. Then the statement about them. -/

set_option Elab.async false

namespace Sys2Proof.Machine

/-! ### PONG -/

/-- The lamp of a slot due with the pattern of its state (R82). -/
def Slot.lampDue (sl : Slot) : Slot := { sl with lamp := { sl.lamp with due := some sl.state.lamp } }

theorem State.dueLamps_slot (s : State) (k : LinkIx) (i : SlotIx) :
    (s.dueLamps k).slot i = if linkOf i = k then (s.slot i).lampDue else s.slot i := by
  obtain ⟨hown, hother⟩ := linkFold_slot k (fun i t => t.updSlot i Slot.lampDue)
    (fun i j t hij => State.updSlot_slot_ne t Slot.lampDue hij) (fun _ sl v => v = sl.lampDue)
    (fun i t => State.updSlot_self t i Slot.lampDue) s i
  split
  · next h => exact hown h
  · next h => exact hother h

theorem State.dueLamps_frame (s : State) (k : LinkIx) : s.dueLamps k = { s with slots := (s.dueLamps k).slots } := by
  unfold State.dueLamps
  generalize List.finRange 16 = l
  exact List.foldlRecOn (motive := fun t : State => t = { s with slots := t.slots }) l _ rfl fun t ht _ _ => by
    rw [ht]
    rfl

/-- A link whose PING has been answered (R88). -/
def State.ponged (s : State) (k : LinkIx) : State :=
  s.updLink k (fun l => { l with up := true, missed := 0, pingOpen := false })

theorem State.ponged_self (s : State) (k : LinkIx) :
    (s.ponged k).link k = { s.link k with up := true, missed := 0, pingOpen := false } :=
  State.updLink_self s k (fun l => { l with up := true, missed := 0, pingOpen := false })

theorem State.ponged_ne (s : State) {k k' : LinkIx} (h : k' ≠ k) : (s.ponged k).link k' = s.link k' :=
  State.updLink_link_ne s (fun l => { l with up := true, missed := 0, pingOpen := false }) (Ne.symm h)

theorem exec_pong (k : LinkIx) (s : State) :
    exec (.pong k) s = .next (if (s.link k).up then s.ponged k else (s.ponged k).dueLamps k) := rfl

/-- What a PONG leaves (R88, R82). -/
theorem exec_pong_leaves (s : State) (k : LinkIx) : ∃ t, exec (.pong k) s = .next t ∧
    t.link k = { s.link k with up := true, missed := 0, pingOpen := false } ∧
    (∀ k', k' ≠ k → t.link k' = s.link k') ∧ t = { s with links := t.links, slots := t.slots } ∧
    ((s.link k).up = true → t.slots = s.slots) ∧
    ((s.link k).up = false → ∀ i, t.slot i = if linkOf i = k then (s.slot i).lampDue else s.slot i) := by
  rw [exec_pong]
  by_cases hup : (s.link k).up = true
  · rw [if_pos hup]
    exact ⟨_, rfl, s.ponged_self k, fun k' => s.ponged_ne, rfl, fun _ => rfl, fun h => absurd (hup.symm.trans h) (by decide)⟩
  · have hframe := State.dueLamps_frame (s.ponged k) k
    have hslot := State.dueLamps_slot (s.ponged k) k
    rw [if_neg hup]
    generalize (s.ponged k).dueLamps k = t at hframe hslot
    have hlink : ∀ k', t.link k' = (s.ponged k).link k' := fun k' => by rw [hframe]; rfl
    refine ⟨t, rfl, (hlink k).trans (s.ponged_self k), fun k' hk => (hlink k').trans (s.ponged_ne hk), ?_,
      fun h => absurd h hup, fun _ i => hslot i⟩
    rw [hframe]
    rfl

/-! ### PING -/

/-- The time of a PING reached, and the next due (R88). -/
def State.pingTimed (s : State) (k : LinkIx) : State :=
  (s.reach (s.link k).pingAt).updLink k (fun x => { x with pingAt := (s.link k).pingAt + 100 })

/-- A PING waiting, with a count of those missed (R88). -/
def State.pingWaits (s : State) (k : LinkIx) (missed : Nat) : State := (s.reach (s.link k).pingAt).setLink k
  { s.link k with pingAt := (s.link k).pingAt + 100, pingWaiting := true, missed := missed }

theorem State.pingWaits_eq (s : State) (k : LinkIx) (missed : Nat) :
    (s.pingTimed k).updLink k (fun x => { x with missed := missed, pingWaiting := true }) = s.pingWaits k missed :=
  State.updLink_updLink (s.reach (s.link k).pingAt) k (fun x => { x with pingAt := (s.link k).pingAt + 100 })
    (fun x => { x with missed := missed, pingWaiting := true })

theorem exec_pingDue (k : LinkIx) (s : State) : exec (.pingDue k) s = .next (
    if (s.link k).pingWaiting then s.pingTimed k
    else if (s.link k).up = true ∧
        3 ≤ (if (s.link k).up && (s.link k).pingOpen then (s.link k).missed + 1 else (s.link k).missed) then
      ((s.pingWaits k (if (s.link k).up && (s.link k).pingOpen then (s.link k).missed + 1
        else (s.link k).missed)).loseLink k .ping).close
    else s.pingWaits k (if (s.link k).up && (s.link k).pingOpen then (s.link k).missed + 1 else (s.link k).missed)) := by
  rw [← State.pingWaits_eq]
  rfl

theorem Elsewhere.setLink (s : State) (k : LinkIx) (v : Link) : Elsewhere s (s.setLink k v) (fun i => linkOf i = k) := by
  have hk : linkOf (slotAt k 0) = k := linkOf_slotAt k 0
  have hupd := Elsewhere.updLink (mine := fun i => linkOf i = k) s (i := slotAt k 0) (fun _ => v) hk
  rw [hk] at hupd
  exact hupd

/-- Settles O39: PONG by the link, PING_DUE by the PING waiting and the count of those missed. -/
theorem pingsEstablishAndLoseTheLink : Obligations.PingsEstablishAndLoseTheLink := by
  refine ⟨exec_pong_leaves, fun s k => ?_, ⟨rfl, rfl, rfl, rfl, rfl, rfl, rfl, rfl, rfl, rfl, rfl⟩,
    fun l p => ⟨fun h => ?_, fun h => ?_⟩, State.moveSlot_spec⟩
  · intro l u
    refine ⟨fun hwait => ?_, fun hwait hquiet hfew => ?_, fun hwait hup hopen hfew => ?_, fun hwait hup hopen hmissed => ?_⟩
    · rw [exec_pingDue, if_pos hwait]
      rfl
    · have hcount : (if (s.link k).up && (s.link k).pingOpen then (s.link k).missed + 1 else (s.link k).missed) =
          (s.link k).missed := if_neg (by rw [Bool.and_eq_true]; rintro ⟨h1, h2⟩; rcases hquiet with h | h <;> simp [l, h1, h2] at h)
      rw [exec_pingDue, if_neg (by simp [hwait, l]), hcount, if_neg fun h => absurd h.2 (not_le.mpr hfew)]
      rfl
    · have hcount : (if (s.link k).up && (s.link k).pingOpen then (s.link k).missed + 1 else (s.link k).missed) =
          (s.link k).missed + 1 := if_pos (by rw [Bool.and_eq_true]; exact ⟨hup, hopen⟩)
      rw [exec_pingDue, if_neg (by simp [hwait, l]), hcount,
        if_neg fun h => absurd h.2 (not_le.mpr (Nat.succ_lt_succ hfew))]
      rfl
    · have hcount : (if (s.link k).up && (s.link k).pingOpen then (s.link k).missed + 1 else (s.link k).missed) =
          3 := (if_pos (by rw [Bool.and_eq_true]; exact ⟨hup, hopen⟩)).trans (by rw [hmissed])
      obtain ⟨hlink, hseen, helse, hslots, hrecords, v, hv, hvrecords, hvelse⟩ :=
        State.loseLink_close (s.pingWaits k 3) k .ping
      have hset : Elsewhere u (s.pingWaits k 3) (fun i => linkOf i = k) := Elsewhere.setLink u k _
      rw [exec_pingDue, if_neg (by simp [hwait, l]), hcount, if_pos ⟨hup, le_rfl⟩]
      refine ⟨_, rfl, hlink.trans ?_, hslots, hset.trans helse, hseen, hrecords, v, hv, hvrecords, hset.trans hvelse⟩
      rw [State.pingWaits, State.setLink_self]
      rfl
  · rw [Lamp.eval, if_pos h]
  · rw [Lamp.eval, if_neg h]

end Sys2Proof.Machine
end

section
/-! SUPPORT. The pace tick: the counts of every slot, then the slots declared, one after another. Then the statement about
it. -/

set_option Elab.async false

namespace Sys2Proof.Machine

/-! ### Rounds over a list of slots -/

/-- Rounds that each touch their own slot alone, while `Q` holds, do to each slot of a list what its own round does. -/
theorem foldl_slot (Q : State → Prop) {f : State → SlotIx → State} (keep : ∀ t i, Q t → Q (f t i))
    (only : ∀ t i j, i ≠ j → (f t i).slot j = t.slot j) (P : Slot → Slot → Prop)
    (self : ∀ t i, Q t → P (t.slot i) ((f t i).slot i)) :
    ∀ (l : List SlotIx) (t : State), l.Nodup → Q t → ∀ i,
      (i ∉ l → (l.foldl f t).slot i = t.slot i) ∧ (i ∈ l → P (t.slot i) ((l.foldl f t).slot i))
  | [], t, _, _, i => ⟨fun _ => rfl, fun h => absurd h List.not_mem_nil⟩
  | k :: l, t, hnodup, hQ, i => by
    obtain ⟨hk, hnodup'⟩ := List.nodup_cons.mp hnodup
    obtain ⟨hout, hin⟩ := foldl_slot Q keep only P self l (f t k) hnodup' (keep t k hQ) i
    rw [List.foldl_cons]
    refine ⟨fun h => ?_, fun h => ?_⟩
    · rw [hout (List.not_mem_of_not_mem_cons h), only t k i (Ne.symm (List.ne_of_not_mem_cons h))]
    · rcases List.mem_cons.mp h with rfl | hil
      · rw [hout hk]
        exact self t i hQ
      · have hne : k ≠ i := fun e => hk (e ▸ hil)
        rw [← only t k i hne]
        exact hin hil

/-! ### One slot declared -/

section
variable {s : State} {x : Session} (hx : s.session = some x) (i : SlotIx)
include hx

theorem State.declareLaggard_wait (h : x.laggard = .wait) : s.declareLaggard i =
    (s.updSlot i (fun sl => { sl with laggard := true })).raise
      (.laggard i ((s.slot i).ordinal.getD 0) ((s.slot i).ackPoint.getD 0) (s.slot i).pinCount .wait) := by
  rw [State.declareLaggard, State.ses_eq hx, State.updSlot_self, h]

theorem State.declareLaggard_detach (h : x.laggard = .detach) : s.declareLaggard i =
    ((s.updSlot i (fun sl => { sl with laggard := true })).raise (.laggard i ((s.slot i).ordinal.getD 0)
      ((s.slot i).ackPoint.getD 0) (s.slot i).pinCount .detach)).detachSlot i := by
  rw [State.declareLaggard, State.ses_eq hx, State.updSlot_self, h]

theorem State.declareLaggard_fail (h : x.laggard = .fail) : s.declareLaggard i =
    ((s.updSlot i (fun sl => { sl with laggard := true })).raise (.laggard i ((s.slot i).ordinal.getD 0)
      ((s.slot i).ackPoint.getD 0) (s.slot i).pinCount .fail)).failSlot i
        ⟨.laggard, (s.slot i).ackPoint, none, none⟩ := by
  rw [State.declareLaggard, State.ses_eq hx, State.updSlot_self, h]

end

theorem State.detachSlot_self (s : State) (i : SlotIx) : (s.detachSlot i).slot i = Slot.moved
    { (s.slot i).left (s.places i) with
      span := (s.slot i).span.map (fun sp => ⟨(s.slot i).ackPoint.getD sp.lo, sp.hi⟩)
      issueCursor := (s.slot i).ackPoint, pinCount := 0, clearCount := 0 } .waiting := by
  rw [State.detachSlot, State.moveSlot_self, State.updSlot_self, State.leave_self]
  rfl

theorem State.detachSlot_ne (s : State) {i j : SlotIx} (h : i ≠ j) : (s.detachSlot i).slot j = s.slot j := by
  rw [State.detachSlot, State.moveSlot_ne _ _ h, State.updSlot_slot_ne _ _ h, State.leave_ne _ _ h]

theorem State.detachSlot_records (s : State) (i : SlotIx) : (s.detachSlot i).win.records = s.recordsWithout i := by
  rw [State.detachSlot, State.moveSlot_win, State.updSlot_win, State.leave_records]

theorem State.detachSlot_session (s : State) (i : SlotIx) : (s.detachSlot i).session = s.session := by
  rw [State.detachSlot, State.moveSlot_session, State.updSlot_session, State.leave_session]

theorem State.moveSlot_seen (s : State) (i : SlotIx) (m : SlotState) (n : Nat) (h : s.ncu.seen.getLsbD n = true) :
    (s.moveSlot i m).ncu.seen.getLsbD n = true := by
  rw [State.moveSlot_spec, State.raise_seen, BitVec.getLsbD_or]
  exact Bool.or_eq_true_iff.mpr (.inl h)

theorem State.declareLaggard_ne (s : State) {i j : SlotIx} (h : i ≠ j) : (s.declareLaggard i).slot j = s.slot j := by
  unfold State.declareLaggard
  dsimp only
  split
  · rw [State.raise_slot, State.updSlot_slot_ne _ _ h]
  · rw [State.detachSlot_ne _ h, State.raise_slot, State.updSlot_slot_ne _ _ h]
  · rw [State.failSlot_ne _ _ h, State.raise_slot, State.updSlot_slot_ne _ _ h]

/-- A slot after its declaration, by the policy (R158 to R160). -/
def Slot.DeclaredAs (p : LaggardPolicy) (sl v : Slot) : Prop :=
  match p with
  | .wait => v = { sl with laggard := true }
  | .detach => ∃ places, v = Slot.moved { Slot.left { sl with laggard := true } places with
      span := sl.span.map (fun sp => ⟨sl.ackPoint.getD sp.lo, sp.hi⟩)
      issueCursor := sl.ackPoint, pinCount := 0, clearCount := 0 } .waiting
  | .fail => ∃ places, v = Slot.moved { (Slot.left { sl with laggard := true } places).withOutcome
      ⟨.laggard, sl.ackPoint, none, none⟩ with qual := none } .failed

/-- What a declaration leaves, in a session that stands. -/
structure DeclareStep (s t : State) (x : Session) (i : SlotIx) : Prop where
  session : t.session = some x
  others : ∀ j, i ≠ j → t.slot j = s.slot j
  own : (s.slot i).DeclaredAs x.laggard (t.slot i)
  seen : ∀ n, (n = 5 ∨ s.ncu.seen.getLsbD n = true) → t.ncu.seen.getLsbD n = true
  records : x.laggard ≠ .wait → t.win.records = s.recordsWithout i
  elsewhere : ∀ mine : SlotIx → Prop, mine i → Elsewhere s t mine

theorem State.declareLaggard_step {s : State} {x : Session} (hx : s.session = some x) (i : SlotIx) :
    DeclareStep s (s.declareLaggard i) x i := by
  have hseen : ∀ (e : Event), e.member = 5 → ∀ n, (n = 5 ∨ s.ncu.seen.getLsbD n = true) →
      ((s.updSlot i (fun sl => { sl with laggard := true })).raise e).ncu.seen.getLsbD n = true := fun e he n hn => by
    rw [State.raise_seen, BitVec.getLsbD_or]
    rcases hn with rfl | hn
    · exact Bool.or_eq_true_iff.mpr (.inr ((Event.bit_getLsbD e 5).trans (decide_eq_true he.symm)))
    · exact Bool.or_eq_true_iff.mpr (.inl hn)
  have hself : ∀ e : Event, ((s.updSlot i (fun sl => { sl with laggard := true })).raise e).slot i =
      { s.slot i with laggard := true } := fun e => by rw [State.raise_slot, State.updSlot_self]
  have hother : ∀ (e : Event) j, i ≠ j → ((s.updSlot i (fun sl => { sl with laggard := true })).raise e).slot j =
      s.slot j := fun e j h => by rw [State.raise_slot, State.updSlot_slot_ne _ _ h]
  have hflag : ∀ (e : Event) (mine : SlotIx → Prop), mine i →
      Elsewhere s ((s.updSlot i (fun sl => { sl with laggard := true })).raise e) mine := fun e mine h =>
    (Elsewhere.updSlot s _ h).trans (Elsewhere.raise _ e mine)
  have hrecords : ∀ e : Event, ((s.updSlot i (fun sl => { sl with laggard := true })).raise e).recordsWithout i =
      s.recordsWithout i := fun e => by
    rw [State.recordsWithout, State.recordsWithout, hself, State.raise_win]
    have hhead : ((s.updSlot i (fun sl => { sl with laggard := true })).raise e).head = s.head := by
      rw [State.head, State.raise_session]
      rfl
    rw [hhead]
    rfl
  cases hp : x.laggard with
  | wait =>
    rw [State.declareLaggard_wait hx i hp]
    exact ⟨by rw [State.raise_session]; exact hx, hother _, by rw [hp, hself]; rfl, hseen _ rfl,
      fun h => absurd hp h, hflag _⟩
  | detach =>
    rw [State.declareLaggard_detach hx i hp]
    refine ⟨by rw [State.detachSlot_session, State.raise_session]; exact hx,
      fun j h => by rw [State.detachSlot_ne _ h, hother _ j h], ?_, fun n hn => ?_,
      fun _ => by rw [State.detachSlot_records, hrecords], fun mine h => (hflag _ mine h).trans (Elsewhere.detachSlot _ h)⟩
    · rw [hp, State.detachSlot_self, hself]
      exact ⟨_, rfl⟩
    · unfold State.detachSlot
      refine State.moveSlot_seen _ _ _ _ ?_
      rw [State.updSlot_ncu, State.leave_ncu]
      exact hseen _ rfl n hn
  | fail =>
    rw [State.declareLaggard_fail hx i hp]
    refine ⟨by rw [State.failSlot_session, State.raise_session]; exact hx,
      fun j h => by rw [State.failSlot_ne _ _ h, hother _ j h], ?_, fun n hn => ?_,
      fun _ => by rw [State.failSlot_records, hrecords], fun mine h => (hflag _ mine h).trans (Elsewhere.failSlot _ _ h)⟩
    · rw [hp, State.failSlot_self, hself]
      exact ⟨_, rfl⟩
    · unfold State.failSlot
      refine State.moveSlot_seen _ _ _ _ ?_
      rw [State.updSlot_ncu, State.leave_ncu]
      exact hseen _ rfl n hn

theorem Slot.DeclaredAs.laggard {p : LaggardPolicy} {sl v : Slot} (h : sl.DeclaredAs p v) : v.laggard = true := by
  cases p with
  | wait => rw [show v = { sl with laggard := true } from h]
  | detach =>
    obtain ⟨places, rfl⟩ := h
    rfl
  | fail =>
    obtain ⟨places, rfl⟩ := h
    rfl

/-! ### Every slot declared -/

/-- The slots of a list are declared, in its order (R157, log 11). -/
def State.declareAll (s : State) (l : List SlotIx) : State := l.foldl (fun u i => u.declareLaggard i) s

section
variable {s : State} {x : Session} (hx : s.session = some x)
include hx

theorem State.declareAll_slot {l : List SlotIx} (hl : l.Nodup) (i : SlotIx) :
    (i ∉ l → (s.declareAll l).slot i = s.slot i) ∧
      (i ∈ l → (s.slot i).DeclaredAs x.laggard ((s.declareAll l).slot i)) := by
  exact foldl_slot (fun t => t.session = some x) (fun t i ht => (State.declareLaggard_step ht i).session)
    (fun t _ _ h => t.declareLaggard_ne h)
    (Slot.DeclaredAs x.laggard) (fun t i ht => (State.declareLaggard_step ht i).own) l s hl hx i

theorem State.declareAll_records (hp : x.laggard ≠ .wait) {l : List SlotIx} (hl : l.Nodup) :
    (s.declareAll l).win.records = s.win.records.map (fun r => { r with resident := r.resident.map (fun y =>
      { y with owed := y.owed - l.countP (fun i => (s.slot i).state == .live && (s.slot i).owes x.nextChunk r.chunk) }) }) := by
  have hfold := foldl_recordsWithout id (fun u i => u.declareLaggard i) (some x)
    (fun t i ht => (State.declareLaggard_step ht i).records hp) (fun t i ht => (State.declareLaggard_step ht i).session)
    (fun t _ _ h => t.declareLaggard_ne h) l s hx (by rwa [List.map_id])
  rw [State.head_eq hx] at hfold
  exact hfold

end

theorem State.declareAll_seen {x : Session} : ∀ (l : List SlotIx) (s : State), s.session = some x → ∀ n,
    ((n = 5 ∧ l ≠ []) ∨ s.ncu.seen.getLsbD n = true) → (s.declareAll l).ncu.seen.getLsbD n = true
  | [], s, _, n, h => h.elim (fun h => absurd rfl h.2) id
  | k :: l, s, hs, n, h => by
    have hstep := State.declareLaggard_step hs k
    exact State.declareAll_seen l _ hstep.session n (.inr (hstep.seen n (h.imp_left And.left)))

theorem State.declareAll_elsewhere {x : Session} (mine : SlotIx → Prop) : ∀ (l : List SlotIx) (s : State), s.session = some x →
    (∀ i ∈ l, mine i) → Elsewhere s (s.declareAll l) mine
  | [], s, _, _ => Elsewhere.refl s mine
  | k :: l, s, hs, h => by
    have hstep := State.declareLaggard_step hs k
    exact (hstep.elsewhere mine (h k List.mem_cons_self)).trans
      (State.declareAll_elsewhere mine l _ hstep.session fun i hi => h i (List.mem_cons_of_mem k hi))

/-- Under WAIT a declaration touches slot records and notices alone. -/
theorem State.declareAll_wait {x : Session} (hp : x.laggard = .wait) : ∀ (l : List SlotIx) (s : State),
    s.session = some x → s.declareAll l = { s with slots := (s.declareAll l).slots, ncu := (s.declareAll l).ncu }
  | [], _, _ => rfl
  | k :: l, s, hs => by
    have hrest := State.declareAll_wait hp l _ (State.declareLaggard_step hs k).session
    have hcons : s.declareAll (k :: l) = (s.declareLaggard k).declareAll l := rfl
    rw [hcons, hrest, State.declareLaggard_wait hs k hp, State.raise_spec]
    rfl

/-- Under WAIT the notices of the slots declared stand in the order of the list (R158). -/
theorem State.declareAll_notices {x : Session} (hp : x.laggard = .wait) : ∀ (l : List SlotIx) (s : State), l.Nodup →
    s.session = some x → s.ncu.mask = BitVec.allOnes 10 → s.ncu.notices.length + l.length ≤ 32 →
    (s.declareAll l).ncu.notices = s.ncu.notices ++ l.map (fun i =>
      .laggard i ((s.slot i).ordinal.getD 0) ((s.slot i).ackPoint.getD 0) (s.slot i).pinCount .wait)
  | [], s, _, _, _, _ => (List.append_nil _).symm
  | k :: l, s, hl, hs, hmask, hroom => by
    obtain ⟨hk, hl'⟩ := List.nodup_cons.mp hl
    rw [List.length_cons] at hroom
    have hstep := State.declareLaggard_step hs k
    have hwait := State.declareLaggard_wait hs k hp
    have hone : (s.declareLaggard k).ncu.notices = s.ncu.notices ++
        [.laggard k ((s.slot k).ordinal.getD 0) ((s.slot k).ackPoint.getD 0) (s.slot k).pinCount .wait] := by
      rw [hwait]
      exact State.raise_notices (s := s.updSlot k (fun sl => { sl with laggard := true })) hmask (by
        change s.ncu.notices.length < 32
        omega) _
    have hmask' : (s.declareLaggard k).ncu.mask = BitVec.allOnes 10 := by
      rw [hwait, State.raise_mask]
      exact hmask
    have hsame : ∀ i ∈ l, (s.declareLaggard k).slot i = s.slot i := fun i hi =>
      hstep.others i fun e => hk (e ▸ hi)
    have hcons : s.declareAll (k :: l) = (s.declareLaggard k).declareAll l := rfl
    rw [hcons, State.declareAll_notices hp l _ hl' hstep.session hmask' (by
      rw [hone, List.length_append, List.length_singleton]; omega), hone, List.append_assoc, List.map_cons,
      List.singleton_append]
    exact congrArg (fun es => _ ++ (_ :: es)) (List.map_congr_left fun i hi => by rw [hsame i hi])

/-! ### The tick -/

/-- The pace tick's time reached, and the next due (R154). -/
def State.paceTimed (s : State) (x : Session) (d : Nat) : State :=
  { s with now := max s.now d, wsc.paceAt := some (max s.now d + x.tune.paceInterval) }

section
variable {s : State} {x : Session} {d : Nat} (hx : s.session = some x) (hd : s.wsc.paceAt = some d)
include hx

theorem State.tail_eq : s.tail = some (((s.win.records.head?).map ChunkRecord.chunk).getD x.nextChunk) := by
  rw [State.tail, hx, Option.map_some]

theorem State.paceEvaluated_iff :
    s.paceEvaluated = true ↔ x.phase = .running ∧ s.wsc.hold = .run ∧ x.pass ≠ .noPass := by
  rw [State.paceEvaluated, Bool.and_eq_true, Bool.and_eq_true, State.running_iff hx, beq_iff_eq, bne_iff_ne,
    State.ses_eq hx, and_assoc]

include hd

theorem exec_paceTick : exec .paceTick s = .next (
    if (s.paceTimed x d).paceEvaluated then (s.paceTimed x d).paceEvaluate else s.paceTimed x d) := by
  change execPaceTick s = _
  have hses : (s.reach d).ses = x := State.ses_eq hx
  unfold execPaceTick
  rw [hd]
  dsimp only
  rw [hses]
  rfl

end

/-- The slots declared at a tick, in ascending slot number (R157). -/
def State.declaredSlots (s : State) (free tail declareAt : Nat) : List SlotIx :=
  (List.finRange 192).filter (fun i => (s.slot i).declared free tail declareAt)

/-- Every slot counted (R156). -/
def State.pacedAll (s : State) (free tail clearAt : Nat) : State :=
  { s with slots := s.slots.map (fun (sl : Slot) => sl.paced free tail clearAt) }

theorem State.pacedAll_slot (s : State) (free tail clearAt : Nat) (i : SlotIx) :
    (s.pacedAll free tail clearAt).slot i = (s.slot i).paced free tail clearAt := Vector.getElem_map _ _

theorem State.paceEvaluate_eq {s : State} {x : Session} (hx : s.session = some x) :
    let free := x.windowSize - s.win.records.length
    let tail := ((s.win.records.head?).map ChunkRecord.chunk).getD x.nextChunk
    s.paceEvaluate = ((s.pacedAll free tail x.tune.clearCount).declareAll
      (s.declaredSlots free tail x.tune.declareCount)).close := by
  rw [State.paceEvaluate, State.free_eq hx, State.tail_eq hx, State.ses_eq hx]
  rfl

theorem Slot.declared_iff (sl : Slot) (free tail declareAt : Nat) : sl.declared free tail declareAt = true ↔
    (sl.state = .live ∧ free = 0 ∧ sl.ackPoint = some tail) ∧ sl.pinCount + 1 = declareAt ∧ sl.pinCount < 255 := by
  simp only [Slot.declared, Slot.pins, Bool.and_eq_true, beq_iff_eq, decide_eq_true_eq]
  tauto

theorem Slot.paced_eq (sl : Slot) (free tail clearAt : Nat) : sl.paced free tail clearAt =
    if sl.state = .live ∧ free = 0 ∧ sl.ackPoint = some tail then
      { sl with pinCount := min 255 (sl.pinCount + 1), clearCount := 0 }
    else if sl.state = .live then { sl with
      pinCount := 0, clearCount := min 255 (sl.clearCount + 1)
      laggard := sl.laggard && decide (min 255 (sl.clearCount + 1) < clearAt) }
    else sl := by
  unfold Slot.paced
  by_cases hlive : sl.state = .live
  · by_cases hpins : free = 0 ∧ sl.ackPoint = some tail
    · have hpinned : sl.pins free tail = true := by
        rw [Slot.pins, Bool.and_eq_true, beq_iff_eq, beq_iff_eq]
        exact hpins
      have hall : sl.state = .live ∧ free = 0 ∧ sl.ackPoint = some tail := ⟨hlive, hpins⟩
      rw [if_pos hlive, if_pos hpinned, if_pos hall]
    · have hnot : ¬sl.pins free tail = true := by
        rw [Slot.pins, Bool.and_eq_true, beq_iff_eq, beq_iff_eq]
        exact hpins
      rw [if_pos hlive, if_neg hnot, if_neg fun h => hpins h.2, if_pos hlive]
  · rw [if_neg hlive, if_neg fun h => hlive h.1, if_neg hlive]

/-- A slot declared, once counted. -/
theorem Slot.paced_of_declared {sl : Slot} {free tail declareAt : Nat} (clearAt : Nat)
    (h : (sl.state = .live ∧ free = 0 ∧ sl.ackPoint = some tail) ∧ sl.pinCount + 1 = declareAt ∧ sl.pinCount < 255) :
    sl.paced free tail clearAt = { sl with pinCount := declareAt, clearCount := 0 } := by
  obtain ⟨hpins, hn, hlt⟩ := h
  rw [Slot.paced_eq, if_pos hpins, show min 255 (sl.pinCount + 1) = declareAt by omega]

theorem State.mem_declaredSlots {s : State} {free tail declareAt : Nat} {i : SlotIx} :
    i ∈ s.declaredSlots free tail declareAt ↔
      ((s.slot i).state = .live ∧ free = 0 ∧ (s.slot i).ackPoint = some tail) ∧ (s.slot i).pinCount + 1 = declareAt ∧
        (s.slot i).pinCount < 255 := by
  rw [State.declaredSlots, List.mem_filter, and_iff_right (List.mem_finRange i), Slot.declared_iff]

theorem State.declaredSlots_nodup (s : State) (free tail declareAt : Nat) :
    (s.declaredSlots free tail declareAt).Nodup := (List.nodup_finRange 192).filter _

/-- Settles O37: an evaluated tick counts every slot, declares those risen to N, and closes. -/
theorem paceTickCountsAndPoliciesAct : Obligations.PaceTickCountsAndPoliciesAct := by
  intro s x d hx hd free tail u pins paced declared
  have hu : (s.paceTimed x d).session = some x := hx
  have hexec := exec_paceTick hx hd
  have hpaced : ∀ sl : Slot, sl.paced free tail x.tune.clearCount = paced sl := fun sl =>
    Slot.paced_eq sl free tail x.tune.clearCount
  have hmap : u.pacedAll free tail x.tune.clearCount = { u with slots := s.slots.map paced } :=
    congrArg (fun f : Slot → Slot => ({ u with slots := s.slots.map f } : State)) (funext hpaced)
  have hmem : ∀ i, i ∈ u.declaredSlots free tail x.tune.declareCount ↔ declared i := fun i => State.mem_declaredSlots
  refine ⟨fun hidle => ?_, fun hrun hhold hpass => ?_⟩
  · rw [hexec, if_neg fun h => hidle ((State.paceEvaluated_iff hu).mp h)]
    rfl
  · rw [if_pos ((State.paceEvaluated_iff hu).mpr ⟨hrun, hhold, hpass⟩)] at hexec
    replace hexec : exec .paceTick s = .next ((u.pacedAll free tail x.tune.clearCount).declareAll
        (u.declaredSlots free tail x.tune.declareCount)).close :=
      hexec.trans (congrArg Host.Outcome.next (State.paceEvaluate_eq hu))
    have hnodup := u.declaredSlots_nodup free tail x.tune.declareCount
    have hbase : (u.pacedAll free tail x.tune.clearCount).session = some x := hx
    have hown : ∀ i, declared i → ((u.pacedAll free tail x.tune.clearCount).slot i) =
        { s.slot i with pinCount := x.tune.declareCount, clearCount := 0 } := fun i hi =>
      (u.pacedAll_slot free tail x.tune.clearCount i).trans (Slot.paced_of_declared x.tune.clearCount hi)
    have hack : ∀ i, declared i → (s.slot i).ackPoint = some tail := fun i hi => hi.1.2.2
    have hslot := fun i => State.declareAll_slot hbase hnodup i
    have hclose := fun i => State.close_slot_eq ((u.pacedAll free tail x.tune.clearCount).declareAll
      (u.declaredSlots free tail x.tune.declareCount)) i
    refine ⟨_, hexec, ?_, fun hnone => ?_, fun i hi => ⟨?_, ?_⟩, fun hp => ⟨_, rfl, ?_, fun i => ?_, ?_⟩, fun hp => ?_,
      fun i sp hi hp hsp => ?_, fun i hi hp => ?_⟩
    · rw [← hmap]
      exact (State.declareAll_elsewhere declared _ _ hbase fun i hi => (hmem i).mp hi).trans (Elsewhere.close _ _)
    · have hnil : u.declaredSlots free tail x.tune.declareCount = [] :=
        List.eq_nil_iff_forall_not_mem.mpr fun i hi => hnone i ((hmem i).mp hi)
      rw [← hmap, hnil]
      rfl
    · exact State.close_seen _ _ (State.declareAll_seen _ _ hbase 5
        (.inl ⟨rfl, List.ne_nil_of_mem ((hmem i).mpr hi)⟩))
    · rw [(hclose i).1]
      exact ((hslot i).2 ((hmem i).mpr hi)).laggard
    · exact State.declareAll_wait hp _ _ hbase
    · by_cases hi : declared i
      · have hdeclared := (hslot i).2 ((hmem i).mpr hi)
        rw [hp] at hdeclared
        rw [if_pos hi, ← hpaced]
        exact hdeclared.trans (by rw [State.pacedAll_slot]; rfl)
      · rw [if_neg hi, ← hpaced, (hslot i).1 fun h => hi ((hmem i).mp h)]
        exact State.pacedAll_slot u free tail x.tune.clearCount i
    · intro raised hmask hroom
      have hlist : u.declaredSlots free tail x.tune.declareCount =
          (List.finRange 192).filter (fun i => decide (declared i)) := List.filter_congr fun i _ => by
        rw [Bool.eq_iff_iff, decide_eq_true_eq]
        exact Slot.declared_iff _ _ _ _
      have hlength : raised.length = (u.declaredSlots free tail x.tune.declareCount).length := by
        rw [hlist, List.length_map]
      refine (State.declareAll_notices hp _ _ hnodup hbase hmask (by rw [← hlength]; exact hroom)).trans ?_
      refine congrArg (s.ncu.notices ++ ·) ?_
      rw [show raised = ((List.finRange 192).filter (fun i => decide (declared i))).map _ from rfl, ← hlist]
      refine List.map_congr_left fun i hi => ?_
      have hi' := (hmem i).mp hi
      rw [hown i hi', hack i hi']
      rfl
    · have hrecords := State.declareAll_records hbase hp hnodup
      rw [State.close_records, hrecords]
      refine congrArg retired (List.map_congr_left fun r _ => ?_)
      refine congrArg (fun f => { r with resident := Option.map f r.resident }) (funext fun y => ?_)
      refine congrArg (fun n => { y with owed := y.owed - n }) ?_
      rw [State.declaredSlots, List.countP_filter]
      refine List.countP_congr fun i _ => ?_
      simp only [Bool.and_eq_true, decide_eq_true_eq, beq_iff_eq]
      have hdec : (u.slot i).declared free tail x.tune.declareCount = true ↔ declared i := Slot.declared_iff _ _ _ _
      rw [hdec]
      refine ⟨fun ⟨⟨_, howes⟩, hi⟩ => ⟨hi, ?_⟩, fun ⟨hi, howes⟩ => ⟨?_, hi⟩⟩
      · rw [hown i hi] at howes
        exact howes
      · rw [hown i hi]
        exact ⟨hi.1.1, howes⟩
    · have hdeclared := (hslot i).2 ((hmem i).mpr hi)
      rw [hp, hown i hi] at hdeclared
      obtain ⟨places, hv⟩ := hdeclared
      obtain ⟨hkeep, hroster⟩ := hclose i
      have hoff := hroster (by rw [hv]; rfl)
      intro v
      rw [show v = _ from hkeep, hoff, hv]
      simp [Slot.moved, Slot.left, Slot.givePlaces, hack i hi, hsp]
    · have hdeclared := (hslot i).2 ((hmem i).mpr hi)
      rw [hp, hown i hi] at hdeclared
      obtain ⟨places, hv⟩ := hdeclared
      obtain ⟨hkeep, hroster⟩ := hclose i
      have hoff := hroster (by rw [hv]; rfl)
      intro v
      rw [show v = _ from hkeep, hoff, hv]
      simp [Slot.moved, Slot.left, Slot.givePlaces, Slot.withOutcome, hack i hi]

end Sys2Proof.Machine
end

section
/-! SUPPORT. The tag allocated next, what a slot has to issue, the stamp entries of a chunk, and the grant of the transmit
path. Then the statements about issuable commands and the transmit path. -/

set_option Elab.async false

namespace Sys2Proof.Machine

/-! ### The tag allocated next (R91) -/

theorem Link.nextTag_eq (l : Link) : l.nextTag =
    ((List.range 256).find? (fun d => l.tag (l.lastTag + 1 + BitVec.ofNat 8 d) == .free)).map
      (fun d => l.lastTag + 1 + BitVec.ofNat 8 d) := by
  rw [Link.nextTag, List.find?_map]
  rfl

theorem Link.nextTag_eq_none_iff (l : Link) : l.nextTag = none ↔ ∀ t, l.tag t ≠ .free := by
  rw [Link.nextTag_eq, Option.map_eq_none_iff, List.find?_eq_none]
  simp only [List.mem_range, beq_iff_eq]
  refine ⟨fun h t ht => ?_, fun h d _ => h _⟩
  have hd := h (t - (l.lastTag + 1)).toNat (t - (l.lastTag + 1)).isLt
  rw [BitVec.ofNat_toNat, BitVec.setWidth_eq, add_sub_cancel] at hd
  exact hd ht

theorem Link.nextTag_isSome_iff (l : Link) : l.nextTag.isSome = true ↔ ∃ t, l.tag t = .free := by
  rw [← Option.ne_none_iff_isSome, ne_eq, Link.nextTag_eq_none_iff]
  simp only [not_forall, not_not]

/-- The tags passed over before the one allocated are not FREE. -/
theorem Link.nextTag_first {l : Link} {t : LinkTag} (h : l.nextTag = some t) (d : LinkTag)
    (hd : d < t - (l.lastTag + 1)) : l.tag (l.lastTag + 1 + d) ≠ .free := by
  rw [Link.nextTag_eq, Option.map_eq_some_iff] at h
  obtain ⟨n, hfind, rfl⟩ := h
  rw [List.find?_range_eq_some] at hfind
  obtain ⟨-, hn, hfirst⟩ := hfind
  rw [add_sub_cancel_left, BitVec.lt_def, BitVec.toNat_ofNat, Nat.mod_eq_of_lt (List.mem_range.mp hn)] at hd
  have hfree := hfirst d.toNat hd
  rw [BitVec.ofNat_toNat, BitVec.setWidth_eq] at hfree
  simpa using hfree

/-! ### What a slot has to issue -/

theorem oldestWaiting_of_split {pre post : List Entry} {e : Entry} (hpre : ∀ d ∈ pre, d.tag ≠ none) (he : e.tag = none) :
    oldestWaiting (pre ++ e :: post) = some e := by
  have hnone : pre.find? (fun e => e.tag.isNone) = none :=
    List.find?_eq_none.mpr fun d hd => by simpa [Option.isSome_iff_ne_none] using hpre d hd
  rw [oldestWaiting, List.find?_append, hnone, Option.none_or, List.find?_cons_of_pos (by simp [he])]

theorem oldestWaiting_of_none {es : List Entry} (h : ∀ e ∈ es, e.tag ≠ none) : oldestWaiting es = none :=
  List.find?_eq_none.mpr fun d hd => by simpa [Option.isSome_iff_ne_none] using h d hd

theorem StampEntry.ready_iff (e : StampEntry) : e.ready = true ↔ e.bytes? ≠ none := by
  cases e <;> simp [StampEntry.ready, StampEntry.bytes?]

theorem State.chunkReady_iff (s : State) (i : SlotIx) (c : Nat) : s.chunkReady i c = true ↔
    ∀ n t, s.stu.sites[n]? = some t → t.chunk = c → (s.entry i n).bytes? ≠ none := by
  rw [State.chunkReady, List.all_eq_true]
  simp only [StampEntry.ready_iff]
  exact ⟨fun h n t ht hc => h (n, t) (mem_sitesOf.mpr ⟨ht, hc⟩),
    fun h p hp => h p.1 p.2 (mem_sitesOf.mp hp).1 (mem_sitesOf.mp hp).2⟩

section
variable {s : State} {i : SlotIx}

theorem State.nextSend_of_live (h : (s.slot i).state = .live) : s.nextSend i = s.liveSend i := by
  rw [State.nextSend, h]

theorem State.nextSend_of_verifying (h : (s.slot i).state = .verifying) : s.nextSend i = s.verifySend i := by
  rw [State.nextSend, h]

theorem State.nextSend_of_qualifying (h : (s.slot i).state = .sizing ∨ (s.slot i).state = .probing) : s.nextSend i =
    if (s.slot i).inFlight = [] then (s.slot i).qual.map (fun q => (q.work, q.retries, .first)) else none := by
  rcases h with h | h <;> rw [State.nextSend, h]

theorem State.nextSend_of_other (h : (s.slot i).state ∉ [.sizing, .probing, .live, .verifying]) :
    s.nextSend i = none := by
  rw [State.nextSend]
  cases hstate : (s.slot i).state <;> simp_all

theorem State.running_iff_phase (s : State) : s.running = true ↔ s.phase = some .running := by
  rw [State.running, beq_iff_eq]

variable (hrun : s.phase = some .running)
include hrun

theorem State.liveSend_of_running : s.liveSend i = match oldestWaiting (s.slot i).inFlight with
    | some e => if s.wsc.hold = .held then none else some (e.work, e.retries, .waiting)
    | none => match (s.slot i).rewrites with
      | w :: _ =>
        if s.wsc.hold ≠ .held ∧ s.places i < s.depth i then some (.piece w.chunk w.nextPiece w.number, 0, .rewrite)
        else none
      | [] => s.cursorSend i :=
  if_neg (by rw [Bool.not_eq_false]; exact s.running_iff_phase.mpr hrun)

theorem State.liveSend_of_waiting {e : Entry} (he : oldestWaiting (s.slot i).inFlight = some e) :
    s.liveSend i = if s.wsc.hold = .held then none else some (e.work, e.retries, .waiting) := by
  rw [State.liveSend_of_running hrun, he]

theorem State.liveSend_of_rewrite (he : oldestWaiting (s.slot i).inFlight = none) {w : Rewrite} {ws : List Rewrite}
    (hw : (s.slot i).rewrites = w :: ws) : s.liveSend i =
      if s.wsc.hold ≠ .held ∧ s.places i < s.depth i then some (.piece w.chunk w.nextPiece w.number, 0, .rewrite)
      else none := by
  rw [State.liveSend_of_running hrun, he, hw]

theorem State.liveSend_of_cursor (he : oldestWaiting (s.slot i).inFlight = none) (hw : (s.slot i).rewrites = []) :
    s.liveSend i = s.cursorSend i := by
  rw [State.liveSend_of_running hrun, he, hw]

theorem State.verifySend_of_running : s.verifySend i =
    match oldestWaiting (s.slot i).inFlight, (s.slot i).verifyCursor with
    | some e, _ => if s.wsc.hold = .held then none else some (e.work, e.retries, .waiting)
    | none, some c =>
      if s.wsc.hold = .run ∧ c < s.ses.imageLength ∧ s.places i < s.depth i then some (.verify c 0, 0, .first) else none
    | none, none => none :=
  if_neg (by rw [Bool.not_eq_false]; exact s.running_iff_phase.mpr hrun)

end

/-- The six conditions of R100 for the piece at the issue cursor. -/
theorem State.cursorSend_eq {s : State} {i : SlotIx} {x : Session} {c a : Nat} {sp : Span} (hx : s.session = some x)
    (hc : (s.slot i).issueCursor = some c) (ha : (s.slot i).ackPoint = some a) (hsp : (s.slot i).span = some sp) :
    let sl := s.slot i
    let ok := s.places i < s.depth i ∧ c < sp.hi ∧ c < x.nextChunk ∧ sl.stall = none ∧
      (sl.piecesSent = 0 → s.wsc.hold = .run ∧ c < a + s.depth i) ∧ (sl.piecesSent ≠ 0 → s.wsc.hold ≠ .held) ∧
      ∃ p, (s.pieces c)[sl.piecesSent]? = some p ∧ (p.stamped = true →
        ∀ n t, s.stu.sites[n]? = some t → t.chunk = c → (s.entry i n).bytes? ≠ none)
    (ok → s.cursorSend i = some (.piece c sl.piecesSent 0, 0, .first)) ∧ (¬ok → s.cursorSend i = none) := by
  intro sl ok
  have hunfold : s.cursorSend i = if s.places i < s.depth i ∧ c < sp.hi ∧ c < s.ses.nextChunk ∧ sl.stall = none ∧
      sl.piecesSent < (s.pieces c).length ∧
      (if decide (0 < sl.piecesSent) then s.wsc.hold ≠ .held else s.wsc.hold = .run ∧ c < a + s.depth i) ∧
      (((s.pieces c)[sl.piecesSent]?).any Piece.stamped = true → s.chunkReady i c = true) then
        some (.piece c sl.piecesSent 0, 0, .first) else none := by
    rw [State.cursorSend, hc, ha, hsp]
  have hstart : (if decide (0 < sl.piecesSent) then s.wsc.hold ≠ .held else s.wsc.hold = .run ∧ c < a + s.depth i) ↔
      (sl.piecesSent = 0 → s.wsc.hold = .run ∧ c < a + s.depth i) ∧ (sl.piecesSent ≠ 0 → s.wsc.hold ≠ .held) := by
    by_cases h0 : sl.piecesSent = 0
    · simp [h0]
    · simp [h0, Nat.pos_of_ne_zero h0]
  have hpiece : (sl.piecesSent < (s.pieces c).length ∧
      (((s.pieces c)[sl.piecesSent]?).any Piece.stamped = true → s.chunkReady i c = true)) ↔
      ∃ p, (s.pieces c)[sl.piecesSent]? = some p ∧ (p.stamped = true →
        ∀ n t, s.stu.sites[n]? = some t → t.chunk = c → (s.entry i n).bytes? ≠ none) := by
    rw [State.chunkReady_iff]
    constructor
    · rintro ⟨hlt, hready⟩
      rw [List.getElem?_eq_getElem hlt] at hready ⊢
      exact ⟨_, rfl, hready⟩
    · rintro ⟨p, hp, hready⟩
      rw [hp]
      exact ⟨(List.getElem?_eq_some_iff.mp hp).1, hready⟩
  rw [hunfold, State.ses_eq hx]
  refine ⟨fun h => if_pos ?_, fun h => if_neg fun h' => h ?_⟩
  · obtain ⟨hplace, hspan, hhead, hstall, hzero, hmore, hp⟩ := h
    obtain ⟨hlt, hready⟩ := hpiece.mpr hp
    exact ⟨hplace, hspan, hhead, hstall, hlt, hstart.mpr ⟨hzero, hmore⟩, hready⟩
  · obtain ⟨hplace, hspan, hhead, hstall, hlt, hgo, hready⟩ := h'
    obtain ⟨hzero, hmore⟩ := hstart.mp hgo
    exact ⟨hplace, hspan, hhead, hstall, hzero, hmore, hpiece.mp ⟨hlt, hready⟩⟩

theorem State.places_of_grant {s : State} {i : SlotIx} {g : Grant} (hg : (s.link (linkOf i)).path = some g)
    (hslot : g.slot = i) (horigin : g.origin ≠ .waiting) : s.places i = (s.slot i).inFlight.length + 1 := by
  rw [State.places, State.grantPlace, hg, if_pos]
  simp [hslot, horigin]

theorem State.places_of_none {s : State} {i : SlotIx}
    (h : ∀ g, (s.link (linkOf i)).path = some g → g.slot ≠ i ∨ g.origin = .waiting) :
    s.places i = (s.slot i).inFlight.length := by
  rw [State.places, State.grantPlace, if_neg, Nat.add_zero]
  rw [Option.any_eq_true]
  rintro ⟨g, hg, hboth⟩
  rw [Bool.and_eq_true, beq_iff_eq, bne_iff_ne] at hboth
  exact (h g hg).elim (fun h => h hboth.1) fun h => hboth.2 h

/-- Settles O40: by the slot's state, then by its list, its rewrite queue and its cursors. -/
theorem issuableCommandsFollowTheRules : Obligations.IssuableCommandsFollowTheRules := by
  intro s i sl
  refine ⟨?_, fun ⟨g, hg, hslot, horigin⟩ => State.places_of_grant hg hslot horigin, State.places_of_none,
    fun he => ?_, fun x hx he ht => State.depth_of_enrolled hx he ht, fun d he ht hd => ?_,
    fun q hstate hq => ⟨fun hlist => ?_, fun hlist hp => ?_, fun hlist hp => ?_, fun hlist hp => ?_⟩,
    State.nextSend_of_other, fun hstate hphase => ?_, fun pre e post hstate hrun hlist hpre he => ?_,
    fun w ws hstate hrun hlist hw => ?_, fun x c a sp hx hstate hphase hlist hw hc ha hsp => ?_,
    fun x c hx hstate hphase hlist hc => ?_⟩
  · rw [State.eligible, Bool.or_eq_true, Bool.and_eq_true, Link.nextTag_isSome_iff, ← Option.ne_none_iff_isSome,
      ← Option.ne_none_iff_isSome]
  · simp [State.depth, sl, he]
  · simp [State.depth, sl, he, ht, hd]
  · rw [State.nextSend_of_qualifying hstate, if_neg hlist]
  · rw [State.nextSend_of_qualifying hstate, if_pos hlist, hq, Option.map_some, Qualification.work, hp]
  · rw [State.nextSend_of_qualifying hstate, if_pos hlist, hq, Option.map_some, Qualification.work, hp]
  · rw [State.nextSend_of_qualifying hstate, if_pos hlist, hq, Option.map_some, Qualification.work, hp]
  · have hidle : s.running = false := by rw [← Bool.not_eq_true, State.running_iff_phase]; exact hphase
    rcases hstate with hstate | hstate
    · rw [State.nextSend_of_live hstate]
      exact if_pos hidle
    · rw [State.nextSend_of_verifying hstate]
      exact if_pos hidle
  · have hold : oldestWaiting (s.slot i).inFlight = some e := by rw [hlist]; exact oldestWaiting_of_split hpre he
    rcases hstate with hstate | hstate
    · rw [State.nextSend_of_live hstate, State.liveSend_of_waiting hrun hold]
    · rw [State.nextSend_of_verifying hstate, State.verifySend_of_running hrun, hold]
  · rw [State.nextSend_of_live hstate, State.liveSend_of_rewrite hrun (oldestWaiting_of_none hlist) hw]
  · have hrun : s.phase = some .running := by rw [State.phase, hx, Option.map_some, hphase]
    rw [State.nextSend_of_live hstate, State.liveSend_of_cursor hrun (oldestWaiting_of_none hlist) hw]
    exact State.cursorSend_eq hx hc ha hsp
  · have hrun : s.phase = some .running := by rw [State.phase, hx, Option.map_some, hphase]
    rw [State.nextSend_of_verifying hstate, State.verifySend_of_running hrun, oldestWaiting_of_none hlist, hc,
      State.ses_eq hx]

end Sys2Proof.Machine
end

section
/-! SUPPORT. The grant of the transmit path and of the buffer port, then the statements about them. -/

set_option Elab.async false

namespace Sys2Proof.Machine

/-! ### The transmit path (R96, R97) -/

/-- What TRANSMIT_GRANT comes to for the socket whose turn it is: its LAMP, or the path for its command. -/
theorem exec_transmitGrant_of_turn {s : State} {k : LinkIx} {j : Socket} (hpath : (s.link k).path = none)
    (hping : (s.link k).pingWaiting = false) (hup : (s.link k).up = true) (hturn : s.turn k = some j) :
    (∀ p, (s.slot (slotAt k j)).lamp.due = some p → exec (.transmitGrant k) s =
      .next ((s.updLink k fun x => { x with lastSocket := j }).sendLamp (slotAt k j) p)) ∧
    ∀ x, (s.slot (slotAt k j)).lamp.due = none → s.nextSend (slotAt k j) = some x → exec (.transmitGrant k) s =
      .next ((s.updLink k fun x => { x with lastSocket := j }).grantCommand k (slotAt k j) x) := by
  change (∀ p, _ → execTransmitGrant k s = _) ∧ ∀ x, _ → _ → execTransmitGrant k s = _
  unfold execTransmitGrant
  dsimp only
  rw [hpath, hping, hup, hturn]
  refine ⟨fun p hp => ?_, fun x hp hx => ?_⟩
  · dsimp only
    rw [hp]
    rfl
  · dsimp only
    rw [hp, hx]
    rfl

/-- A slot that is eligible has a socket whose turn it is. -/
theorem State.turn_eq_none {s : State} {k : LinkIx} (h : ∀ j, s.eligible (slotAt k j) = false) : s.turn k = none := by
  rw [State.turn, List.find?_eq_none]
  intro j _
  rw [h j]
  exact Bool.false_ne_true

theorem exec_transmitGrant_of_busy {s : State} {k : LinkIx} (h : (s.link k).path.isSome = true) :
    exec (.transmitGrant k) s = .next s :=
  congrArg Host.Outcome.next (if_pos h)

theorem exec_transmitGrant_of_ping {s : State} {k : LinkIx} (hpath : (s.link k).path = none)
    (h : (s.link k).pingWaiting = true) : exec (.transmitGrant k) s = .next (s.setLink k
      { s.link k with pingWaiting := false, pingOpen := true, sent := some [0x14#8] }) :=
  congrArg Host.Outcome.next ((if_neg (by simp [hpath])).trans (if_pos h))

theorem exec_transmitGrant_of_down {s : State} {k : LinkIx} (hpath : (s.link k).path = none)
    (hping : (s.link k).pingWaiting = false) (h : (s.link k).up = false) : exec (.transmitGrant k) s = .next s :=
  congrArg Host.Outcome.next
    ((if_neg (by simp [hpath])).trans ((if_neg (by simp [hping])).trans (if_pos h)))

theorem exec_transmitGrant_of_none {s : State} {k : LinkIx} (hpath : (s.link k).path = none)
    (hping : (s.link k).pingWaiting = false) (h : ∀ j, s.eligible (slotAt k j) = false) :
    exec (.transmitGrant k) s = .next s := by
  by_cases hup : (s.link k).up = false
  · exact exec_transmitGrant_of_down hpath hping hup
  · change execTransmitGrant k s = _
    unfold execTransmitGrant
    dsimp only
    rw [hpath, hping, if_neg hup, State.turn_eq_none h]
    rfl

/-- The LAMP message of a grant, the lamp shown and the link's turn. -/
theorem State.sendLamp_eq (s : State) (k : LinkIx) (j : Socket) (p : LampPattern) :
    (s.updLink k fun x => { x with lastSocket := j }).sendLamp (slotAt k j) p =
      (s.setSlot (slotAt k j) { s.slot (slotAt k j) with lamp := ⟨p, none⟩ }).setLink k
        { s.link k with lastSocket := j, sent := some [0x13#8, BitVec.ofNat 8 j.val, BitVec.ofNat 8 p.code] } := by
  rw [State.sendLamp, linkOf_slotAt, socketOf_slotAt]
  exact State.updLink_updLink (s.updSlot (slotAt k j) fun sl => { sl with lamp := ⟨p, none⟩ }) k
    (fun x => { x with lastSocket := j }) _

/-- The path as it is taken for a command (R97). -/
def State.granted (s : State) (i : SlotIx) (x : Send) : Grant :=
  ⟨i, x.1, x.2.1, x.2.2, s.sourceOf x.1, 0, match x.1 with
    | .probeWrite j => s.probeContent i j
    | _ => []⟩

theorem State.grantCommand_eq (s : State) (k : LinkIx) (j : Socket) (i : SlotIx) (x : Send) :
    (s.updLink k fun x => { x with lastSocket := j }).grantCommand k i x = { s with
      links := s.links.set k { s.link k with lastSocket := j, path := some (s.granted i x) }
      win.waiting := s.win.waiting ++
        (if 0 < (s.granted i x).transfers then [(s.granted i x).transfer k] else []) } := by
  change (((s.updLink k _).updLink k _).requestTransfer k (s.granted i x) : State) = _
  rw [State.requestTransfer_spec, State.updLink_updLink]
  rfl

/-- A grant for an image piece reads its record's frame, twice over where the piece is stamped (R97, R129). -/
theorem State.granted_of_piece {s : State} {i : SlotIx} {x : Send} {c p m : Nat} {r : ChunkRecord} {q : Piece}
    (hx : x.1 = .piece c p m) (hr : s.record c = some r) (hq : (s.pieces c)[p]? = some q) (k : LinkIx) :
    (s.granted i x).source = some (r.frame, q) ∧ (s.granted i x).data = [] ∧
      (s.granted i x).transfers = (if q.stamped then 2 else 1) * ((512 * q.count + 4095) / 4096) ∧
      (s.granted i x).transfer k = if q.stamped then .stamp k else .drain k := by
  have hsource : (s.granted i x).source = some (r.frame, q) := by
    rw [State.granted, hx, State.sourceOf, hr, hq]
  have hdata : (s.granted i x).data = [] := by rw [State.granted, hx]
  refine ⟨hsource, hdata, ?_, ?_⟩
  · rw [Grant.transfers, hsource]
    cases hstamped : q.stamped
    · exact (if_neg (by simp [hstamped])).trans (Nat.one_mul _).symm
    · exact if_pos hstamped
  · rw [Grant.transfer, hsource]
    rfl

/-- A grant for a READ or a SIZE carries no bytes. -/
theorem State.granted_of_bare {s : State} {i : SlotIx} {x : Send} (hx : x.1.kind ≠ .write) :
    (s.granted i x).source = none ∧ (s.granted i x).data = [] := by
  obtain ⟨w, n, o⟩ := x
  cases w with
  | size | probeRead j | verify c n => exact ⟨rfl, rfl⟩
  | probeWrite j | piece c p m => exact absurd rfl hx

/-- A grant for a probe WRITE carries the probe's pattern (R73). -/
theorem State.granted_of_probe {s : State} {i : SlotIx} {x : Send} {q cap : Nat} {y : Session}
    (hx : x.1 = .probeWrite q) (hy : s.session = some y) (hcap : (s.slot i).capacity = some cap) :
    (s.granted i x).source = none ∧ (s.granted i x).data = (List.replicate 32 (leBytes 4 y.sessionTag.toNat ++
      leBytes 2 i.val ++ leBytes 2 q ++ leBytes 4 (q * (cap - 1) / (y.probeCount - 1)) ++
      leBytes 4 (~~~y.sessionTag).toNat)).flatten := by
  obtain ⟨w, n, o⟩ := x
  subst hx
  refine ⟨rfl, ?_⟩
  change s.probeContent i q = _
  rw [State.probeContent, State.ses_eq hy, hcap, Option.getD_some, probeData, probePattern, probeSector]

/-- Settles O41: along the arbiter's order, and then by the kind of the command granted. -/
theorem transmitPathIsGrantedInTurn : Obligations.TransmitPathIsGrantedInTurn := by
  intro s k l
  refine ⟨exec_transmitGrant_of_busy, exec_transmitGrant_of_ping, exec_transmitGrant_of_down,
    exec_transmitGrant_of_none, fun n j hpath hping hup hj he hfirst => ?_⟩
  obtain ⟨hlamp, hsend⟩ := exec_transmitGrant_of_turn hpath hping hup (s.turn_eq k n j hj he hfirst)
  refine ⟨fun p hp => (hlamp p hp).trans (congrArg _ (s.sendLamp_eq k j p)), fun x hp hx => ?_⟩
  have hlink : ∀ v : Link, (s.links.set k v)[k] = v := fun v => Vector.getElem_set_self _
  refine ⟨_, s.granted (slotAt k j) x, (hsend x hp hx).trans (congrArg _ (s.grantCommand_eq k j _ x)), hlink _, rfl, rfl,
    rfl, rfl, rfl, fun c p m r q hw hr hq => State.granted_of_piece hw hr hq k, State.granted_of_bare,
    fun q y cap hw hy hcap => State.granted_of_probe hw hy hcap, fun hnone => ?_, fun k' hk' => ?_, rfl, rfl, rfl⟩
  · rw [Grant.transfers, hnone]
  · exact State.setLink_link_ne s _ (Ne.symm hk')

/-! ### The buffer port (R43) -/

theorem exec_bufferTransferGrant_of_fill {s : State} (h : .fill ∈ s.win.waiting) :
    exec .bufferTransferGrant s = .next { s with win.waiting := s.win.waiting.erase .fill } :=
  congrArg Host.Outcome.next (if_pos (List.contains_iff_mem.mpr h))

/-- The state in which the port is granted to a ring member's transfer. -/
def State.portGranted (s : State) (m : Fin 14) (t : Transfer) : State :=
  { s with win.waiting := s.win.waiting.erase t, win.ring := m }

/-- What the transfer granted does: a piece's moves its bytes, the others have moved theirs (log 5). -/
def State.transferred (s : State) : Transfer → State
  | .stamp k | .drain k => s.moveBytes k
  | .fill | .digest | .capture => s

/-- The port is granted to the first ring member that waits, and a piece's transfer moves its bytes. -/
theorem exec_bufferTransferGrant_of_ring {s : State} {n m : Fin 14} {t : Transfer} (hfill : .fill ∉ s.win.waiting)
    (hm : m = s.win.ring + 1 + n)
    (hfirst : ∀ d : Fin 14, d < n → ∀ u ∈ s.win.waiting, u.ringMember ≠ some (s.win.ring + 1 + d))
    (ht : s.win.waiting.find? (fun u => u.ringMember == some m) = some t) :
    exec .bufferTransferGrant s = .next ((s.portGranted m t).transferred t) := by
  have hring : (ringOrder s.win.ring).find? (fun m => s.win.waiting.any (fun t => t.ringMember == some m)) = some m := by
    refine ringOrder_find _ n m _ hm ?_ fun d hd => ?_
    · exact List.any_eq_true.mpr ⟨t, List.mem_of_find?_eq_some ht, List.find?_some (p := fun u : Transfer => u.ringMember == some m) ht⟩
    · rw [List.any_eq_false]
      intro u hu
      rw [beq_iff_eq]
      exact hfirst d hd u hu
  change execBufferTransferGrant s = _
  unfold execBufferTransferGrant
  rw [if_neg (fun h => hfill (List.contains_iff_mem.mp h)), hring]
  dsimp only
  rw [ht]
  cases t <;> rfl

/-- A DRAIN moves the next part of its piece toward the link. -/
theorem State.moveBytes_of_plain {s : State} {k : LinkIx} {g : Grant} {f : Nat} {p : Piece}
    (hg : (s.link k).path = some g) (hsource : g.source = some (f, p)) (hplain : p.stamped = false) :
    s.moveBytes k =
      (s.updLink k fun l => { l with path := some { g with
        moved := g.moved + 1
        data := g.data ++ s.win.frames.read (frameAddr f (512 * p.first + 4096 * g.moved))
          (min 4096 (512 * p.count - 4096 * g.moved)) } }).requestTransfer k { g with
        moved := g.moved + 1
        data := g.data ++ s.win.frames.read (frameAddr f (512 * p.first + 4096 * g.moved))
          (min 4096 (512 * p.count - 4096 * g.moved)) } := by
  unfold State.moveBytes
  rw [hg]
  dsimp only
  rw [hsource]
  dsimp only
  rw [hplain]
  rfl

/-- Settles O42: FILL, then the first ring member that waits, by its transfer. -/
theorem bufferPortIsGrantedInTurn : Obligations.BufferPortIsGrantedInTurn := by
  refine ⟨fun s => exec_bufferTransferGrant_of_fill, fun s n m t hfill hm hfirst ht => ?_⟩
  have hgrant := exec_bufferTransferGrant_of_ring hfill hm hfirst ht
  refine ⟨?_, fun k g f p hdrain hg hsource hplain => ?_⟩
  · rintro (rfl | rfl)
    · exact hgrant
    · exact hgrant
  · subst hdrain
    refine hgrant.trans (congrArg _ ?_)
    change (s.portGranted m (.drain k)).moveBytes k = _
    rw [State.moveBytes_of_plain (s := s.portGranted m (.drain k)) hg hsource hplain, State.requestTransfer_spec]
    have haddr : frameAddr f (512 * p.first + 4096 * g.moved) = 65536 * f + 512 * p.first + 4096 * g.moved := by
      rw [frameAddr, Nat.add_assoc]
      rfl
    have hdrain : ∀ d : List Byte, ({ g with moved := g.moved + 1, data := d } : Grant).transfer k = .drain k := fun d => by
      rw [Grant.transfer, hsource]
      exact if_neg (by simp [hplain])
    rw [haddr, hdrain]
    rfl

end Sys2Proof.Machine
end

section
/-! SUPPORT. Guard sums as sums of naturals and integers, the attempt at a GUARD entry and what it turns on. Then the
statement about guard sums. -/

set_option Elab.async false

namespace Sys2Proof.Machine

/-! ### Guard sums (R126, R127) -/

/-- The sum of a function of the positions of a list, its first position split off. -/
theorem sum_range_cons {M : Type} [AddCommMonoid M] (n : Nat) (f : Nat → M) :
    ((List.range (n + 1)).map f).sum = f 0 + ((List.range n).map fun i => f (i + 1)).sum := by
  rw [List.range_succ_eq_map, List.map_cons, List.sum_cons, List.map_map]
  rfl

theorem guardSum_eq (skip : Nat → Bool) (bs : List Byte) : ∀ k : Nat, guardSum skip k bs = BitVec.ofNat 32
    (((List.range bs.length).map fun i => if skip (k + i) then 0 else (bs.getD i 0).toNat * ((k + i) % 255 + 1)).sum) := by
  induction bs with
  | nil => exact fun _ => rfl
  | cons b bs ih =>
    intro k
    have hhead : (if skip k then 0 else b.setWidth 32 * guardWeight k) =
        BitVec.ofNat 32 (if skip k then 0 else b.toNat * (k % 255 + 1)) := by
      split
      · rfl
      · rw [guardWeight, ← BitVec.ofNat_toNat, ← BitVec.ofNat_mul]
    have hshift : ∀ i, k + 1 + i = k + (i + 1) := fun i => by omega
    rw [guardSum, ih, hhead, ← BitVec.ofNat_add, List.length_cons, sum_range_cons]
    simp only [hshift]
    rfl

theorem guardSum_append (skip : Nat → Bool) (b : List Byte) (a : List Byte) : ∀ k : Nat,
    guardSum skip k (a ++ b) = guardSum skip k a + guardSum skip (k + a.length) b := by
  induction a with
  | nil => exact fun k => (BitVec.zero_add _).symm
  | cons x a ih =>
    intro k
    rw [List.cons_append, guardSum, guardSum, ih, BitVec.add_assoc, List.length_cons, Nat.add_right_comm]
    rfl

/-- Where no position is left out, other bytes change a guard sum by their weighted differences. -/
theorem guardSum_of_delta (skip : Nat → Bool) (new : List Byte) : ∀ (old : List Byte) (k : Nat),
    old.length = new.length → (∀ i, k ≤ i → i < k + old.length → skip i = false) →
    guardSum skip k new = guardSum skip k old + guardDelta k new old := by
  induction new with
  | nil =>
    intro old k hlen _
    rw [List.length_eq_zero_iff.mp hlen]
    rfl
  | cons b new ih =>
    intro old k hlen hskip
    obtain _ | ⟨p, old⟩ := old
    · cases hlen
    · have hk : skip k = false := hskip k le_rfl (by rw [List.length_cons]; omega)
      have htail := ih old (k + 1) (Nat.succ.inj hlen) fun i h1 h2 =>
        hskip i (by omega) (by rw [List.length_cons]; omega)
      rw [guardSum, guardSum, guardDelta, htail, hk, if_neg Bool.false_ne_true, if_neg Bool.false_ne_true]
      ring

theorem guardDelta_eq (new : List Byte) : ∀ (old : List Byte) (k : Nat), old.length = new.length →
    guardDelta k new old = BitVec.ofInt 32 (((List.range new.length).map fun j =>
      (((new.getD j 0).toNat : Int) - ((old.getD j 0).toNat : Int)) * ((k + j) % 255 + 1 : Nat)).sum) := by
  induction new with
  | nil => exact fun _ _ _ => by simp [guardDelta]
  | cons b new ih =>
    intro old k hlen
    obtain _ | ⟨p, old⟩ := old
    · cases hlen
    · have hhead : (b.setWidth 32 - p.setWidth 32) * guardWeight k =
          BitVec.ofInt 32 (((b.toNat : Int) - (p.toNat : Int)) * (k % 255 + 1 : Nat)) := by
        rw [guardWeight, ← BitVec.ofNat_toNat, ← BitVec.ofNat_toNat, BitVec.ofInt_mul, sub_eq_add_neg,
          sub_eq_add_neg, BitVec.ofInt_add, BitVec.ofInt_neg, BitVec.ofInt_natCast, BitVec.ofInt_natCast,
          BitVec.ofInt_natCast]
      have hshift : ∀ i, k + 1 + i = k + (i + 1) := fun i => by omega
      rw [guardDelta, ih old (k + 1) (Nat.succ.inj hlen), hhead, ← BitVec.ofInt_add, List.length_cons, sum_range_cons]
      simp only [hshift]
      rfl

theorem guardSkip_iff {sites : List Site} {r : Nat} {g : Region} {i : Nat} : guardSkip sites r g i = true ↔
    ∃ t ∈ sites, t.kind = .guard r ∧ t.offset ≤ g.start + i ∧ g.start + i < t.offset + t.width := by
  rw [guardSkip, List.any_eq_true]
  refine exists_congr fun t => and_congr_right fun _ => ?_
  rw [Bool.and_eq_true, Bool.and_eq_true, beq_iff_eq, decide_eq_true_eq, decide_eq_true_eq, and_assoc]

/-! ### The attempt at a GUARD entry (R127) -/

/-- What the sites of a region other than its GUARD site add to its base sum (R127). -/
def State.guardAdded (s : State) (i : SlotIx) (m : Nat) (g : Region) : Word32 :=
  ((s.stu.sites.zipIdx.filter fun p => p.2 != m && p.1.inside g).map fun p =>
    guardDelta (p.1.offset - g.start) (((s.entry i p.2).bytes?).getD []) (p.1.pristine.getD [])).foldr (· + ·) 0

/-- Every site inside a region but its GUARD site is RENDERED or SUPPLIED. -/
def State.othersReady (s : State) (i : SlotIx) (m : Nat) (g : Region) : Prop :=
  ∀ n q, s.stu.sites[n]? = some q → n ≠ m → q.inside g = true → (s.entry i n).bytes? ≠ none

theorem mem_others {sites : List Site} {m n : Nat} {q : Site} {g : Region} :
    (q, n) ∈ sites.zipIdx.filter (fun p => p.2 != m && p.1.inside g) ↔
      sites[n]? = some q ∧ n ≠ m ∧ q.inside g = true := by
  rw [List.mem_filter, List.mem_zipIdx_iff_getElem?, Bool.and_eq_true, bne_iff_ne]

theorem foldl_add_eq {α : Type} (f : α → Word32) (l : List α) : ∀ b : Word32,
    l.foldl (fun acc p => acc + f p) b = b + (l.map f).foldr (· + ·) 0 := by
  induction l with
  | nil => exact fun b => (BitVec.add_zero b).symm
  | cons a l ih => exact fun b => (ih _).trans (BitVec.add_assoc _ _ _)

theorem State.guardValue_of_ready {s : State} {i : SlotIx} {m : Nat} {g : Region} {base : Word32}
    (h : s.othersReady i m g) (hbase : g.baseSum = some base) :
    s.guardValue i m g = some (base + s.guardAdded i m g) := by
  rw [State.guardValue]
  rw [if_pos, hbase, Option.map_some, foldl_add_eq]
  · rfl
  · rw [List.all_eq_true]
    rintro ⟨q, n⟩ hq
    obtain ⟨hsite, hne, hin⟩ := mem_others.mp hq
    exact (StampEntry.ready_iff _).mpr (h n q hsite hne hin)

theorem State.guardValue_of_not {s : State} {i : SlotIx} {m : Nat} {g : Region}
    (h : ¬(g.baseSum ≠ none ∧ s.othersReady i m g)) : s.guardValue i m g = none := by
  rw [State.guardValue]
  split
  · next hall =>
    rw [List.all_eq_true] at hall
    rw [Option.map_eq_none_iff]
    by_contra hbase
    exact h ⟨hbase, fun n q hsite hne hin =>
      (StampEntry.ready_iff _).mp (hall (q, n) (mem_others.mpr ⟨hsite, hne, hin⟩))⟩
  · rfl

section
variable {s : State} {i : SlotIx} {m r : Nat} {t : Site} {g : Region}

theorem State.attemptGuard_of_ready {base : Word32} (ht : s.stu.sites[m]? = some t) (hk : t.kind = .guard r)
    (hg : s.stu.regions[r]? = some g) (he : s.entry i m = .unrendered) (hbase : g.baseSum = some base)
    (h : s.othersReady i m g) :
    s.attemptGuard i m = s.setEntry i m (.rendered (leBytes 4 (base + s.guardAdded i m g).toNat)) := by
  rw [State.attemptGuard, ht]
  dsimp only
  rw [hk]
  dsimp only
  rw [hg]
  dsimp only
  rw [he, State.guardValue_of_ready h hbase]

theorem State.attemptGuard_of_not (ht : s.stu.sites[m]? = some t) (hk : t.kind = .guard r)
    (hg : s.stu.regions[r]? = some g)
    (h : ¬(s.entry i m = .unrendered ∧ g.baseSum ≠ none ∧ s.othersReady i m g)) : s.attemptGuard i m = s := by
  rw [State.attemptGuard, ht]
  dsimp only
  rw [hk]
  dsimp only
  rw [hg]
  dsimp only
  by_cases he : s.entry i m = .unrendered
  · rw [he, State.guardValue_of_not fun hr => h ⟨he, hr⟩]
  · split
    · next hentry _ => exact absurd hentry he
    · rfl

end

/-- Settles O59: the sums along the bytes, the attempt by whether the region is ready for it. -/
theorem guardSumFollowsStamps : Obligations.GuardSumFollowsStamps := by
  refine ⟨fun skip bs => (guardSum_eq skip bs 0).trans ?_, fun sites r g i => guardSkip_iff,
    fun skip pre old new post hlen hskip => ?_, fun i new old hlen => guardDelta_eq new old i hlen,
    fun s i m r t g hm ht hk hg => ⟨State.attemptGuard_of_not ht hk hg, fun base hready hbase => ?_⟩⟩
  · simp only [Nat.zero_add]
  · rw [List.append_assoc, List.append_assoc, guardSum_append, guardSum_append, guardSum_append _ _ pre,
      guardSum_append, Nat.zero_add, guardSum_of_delta skip new old pre.length hlen hskip, hlen]
    ring
  · obtain ⟨he, -, hothers⟩ := hready
    have hset := State.attemptGuard_of_ready ht hk hg he hbase hothers
    exact ⟨hset, by rw [hset, State.setEntry_entry, if_pos ⟨rfl, rfl, hm⟩]; rfl⟩

end Sys2Proof.Machine
end

section
/-! SUPPORT. The attempts at the GUARD entries of a chunk, the stall test after them, and the send of a granted command.
Then the statements about the stall test and about sending. -/

set_option Elab.async false

namespace Sys2Proof.Machine

/-! ### The attempts at the GUARD entries of a chunk (R127, R130) -/

/-- Two states that differ in stamp entries alone. -/
def State.EntriesOnly (s t : State) : Prop := t = { s with stu := { s.stu with entries := t.stu.entries } }

theorem State.EntriesOnly.refl (s : State) : s.EntriesOnly s := rfl

theorem State.EntriesOnly.trans {s t u : State} (h : s.EntriesOnly t) (k : t.EntriesOnly u) : s.EntriesOnly u := by
  unfold State.EntriesOnly at h k ⊢
  rw [h] at k
  exact k

theorem State.EntriesOnly.stu {s t : State} (h : s.EntriesOnly t) : t.stu = { s.stu with entries := t.stu.entries } :=
  congrArg State.stu h

theorem State.EntriesOnly.sites {s t : State} (h : s.EntriesOnly t) : t.stu.sites = s.stu.sites :=
  by rw [h.stu]

theorem State.EntriesOnly.regions {s t : State} (h : s.EntriesOnly t) : t.stu.regions = s.stu.regions :=
  by rw [h.stu]

/-- An attempt writes the entry of a GUARD site, or does nothing. -/
theorem State.attemptGuard_cases (s : State) (i : SlotIx) (m : Nat) : s.attemptGuard i m = s ∨
    ∃ t r e, s.stu.sites[m]? = some t ∧ t.kind = .guard r ∧ s.attemptGuard i m = s.setEntry i m e := by
  unfold State.attemptGuard
  split
  · next t ht =>
    split
    · next r hk =>
      split
      · split
        · exact .inr ⟨t, r, _, ht, hk, rfl⟩
        · exact .inl rfl
      · exact .inl rfl
    · exact .inl rfl
  · exact .inl rfl

theorem State.attemptGuard_only (s : State) (i : SlotIx) (m : Nat) : s.EntriesOnly (s.attemptGuard i m) := by
  obtain h | ⟨_, _, e, _, _, h⟩ := s.attemptGuard_cases i m
  · rw [h]
    exact State.EntriesOnly.refl s
  · rw [h]
    exact s.setEntry_spec i m e

/-- An attempt leaves the entry of another slot, of another site, and of a site that is no GUARD. -/
theorem State.attemptGuard_entry_of_ne {s : State} {i j : SlotIx} {m n : Nat}
    (h : j ≠ i ∨ m ≠ n ∨ ∀ t r, s.stu.sites[n]? = some t → t.kind ≠ .guard r) :
    (s.attemptGuard i m).entry j n = s.entry j n := by
  obtain hsame | ⟨t, r, e, ht, hk, hset⟩ := s.attemptGuard_cases i m
  · rw [hsame]
  · rw [hset, State.setEntry_entry, if_neg]
    rintro ⟨hij, rfl, -⟩
    rcases h with h | h | h
    · exact h hij.symm
    · exact h rfl
    · exact h t r ht hk

/-- A site's attempt turns on its own entry and on those of the other sites of its region. -/
theorem State.attemptGuard_entry_congr {s u : State} {i : SlotIx} {m r : Nat} {t : Site} (hu : s.EntriesOnly u)
    (ht : s.stu.sites[m]? = some t) (hk : t.kind = .guard r) (hm : u.entry i m = s.entry i m)
    (hothers : ∀ g n q, s.stu.regions[r]? = some g → s.stu.sites[n]? = some q → n ≠ m → q.inside g = true →
      u.entry i n = s.entry i n) :
    (u.attemptGuard i m).entry i m = (s.attemptGuard i m).entry i m := by
  have hut : u.stu.sites[m]? = some t := by rw [hu.sites, ht]
  cases hg : s.stu.regions[r]? with
  | none =>
    have hnone : ∀ v : State, v.stu.sites[m]? = some t → v.stu.regions[r]? = none → v.attemptGuard i m = v := by
      intro v hv hvr
      rw [State.attemptGuard, hv]
      dsimp only
      rw [hk]
      dsimp only
      rw [hvr]
    rw [hnone s ht hg, hnone u hut (by rw [hu.regions, hg]), hm]
  | some g =>
    have hug : u.stu.regions[r]? = some g := by rw [hu.regions, hg]
    have hiff : u.othersReady i m g ↔ s.othersReady i m g := by
      rw [State.othersReady, State.othersReady, hu.sites]
      refine forall_congr' fun n => forall_congr' fun q => forall_congr' fun hq => forall_congr' fun hne =>
        forall_congr' fun hin => ?_
      rw [hothers g n q hg hq hne hin]
    have hadded : u.guardAdded i m g = s.guardAdded i m g := by
      rw [State.guardAdded, State.guardAdded, hu.sites]
      refine congrArg (List.foldr (· + ·) 0) (List.map_congr_left fun p hp => ?_)
      obtain ⟨q, n⟩ := p
      obtain ⟨hq, hne, hin⟩ := mem_others.mp hp
      rw [hothers g n q hg hq hne hin]
    by_cases h : s.entry i m = .unrendered ∧ g.baseSum ≠ none ∧ s.othersReady i m g
    · obtain ⟨he, hbase, hready⟩ := h
      obtain ⟨base, hbase⟩ := Option.ne_none_iff_exists'.mp hbase
      rw [State.attemptGuard_of_ready ht hk hg he hbase hready,
        State.attemptGuard_of_ready hut hk hug (hm.trans he) hbase (hiff.mpr hready), hadded, State.setEntry_entry,
        State.setEntry_entry, hm]
    · rw [State.attemptGuard_of_not ht hk hg h, State.attemptGuard_of_not hut hk hug (by rw [hm, hiff]; exact h), hm]

/-- A run of attempts, none of which changes an entry, leaves that entry. -/
theorem State.attempts_keep {i j : SlotIx} {n : Nat} (l : List (Nat × Site)) : ∀ s : State,
    (∀ p ∈ l, ∀ t, s.EntriesOnly t → (t.attemptGuard i p.1).entry j n = t.entry j n) →
    s.EntriesOnly (l.foldl (fun t p => t.attemptGuard i p.1) s) ∧
      (l.foldl (fun t p => t.attemptGuard i p.1) s).entry j n = s.entry j n := by
  induction l with
  | nil => exact fun s _ => ⟨State.EntriesOnly.refl s, rfl⟩
  | cons p l ih =>
    intro s h
    have hone := s.attemptGuard_only i p.1
    obtain ⟨honly, hentry⟩ := ih (s.attemptGuard i p.1) fun q hq t ht => h q (List.mem_cons_of_mem _ hq) t (hone.trans ht)
    exact ⟨hone.trans honly, hentry.trans (h p List.mem_cons_self s (State.EntriesOnly.refl s))⟩

theorem State.attemptGuards_only (s : State) (i : SlotIx) (c : Nat) : s.EntriesOnly (s.attemptGuards i c) := by
  have hfold : ∀ (l : List (Nat × Site)) (t : State), t.EntriesOnly (l.foldl (fun t p => t.attemptGuard i p.1) t) := by
    intro l
    induction l with
    | nil => exact fun t => State.EntriesOnly.refl t
    | cons p l ih => exact fun t => (t.attemptGuard_only i p.1).trans (ih _)
  exact hfold _ s

/-- The attempts leave every entry of another slot, and every one that is no GUARD's of the chunk. -/
theorem State.attemptGuards_entry_of_ne {s : State} {i j : SlotIx} {c n : Nat}
    (h : j ≠ i ∨ ∀ t r, s.stu.sites[n]? = some t → t.chunk = c → t.kind ≠ .guard r) :
    (s.attemptGuards i c).entry j n = s.entry j n := by
  refine (State.attempts_keep _ s fun p hp t ht => State.attemptGuard_entry_of_ne ?_).2
  obtain ⟨hsite, hchunk⟩ := mem_sitesOf.mp hp
  by_cases hn : p.1 = n
  · refine h.imp_right fun h => .inr fun q r hq => ?_
    subst hn
    rw [ht.sites, hsite] at hq
    rw [← Option.some.inj hq]
    exact h _ r hsite hchunk
  · exact .inr (.inl hn)

/-- A GUARD entry whose region holds no other GUARD is as its own attempt leaves it. -/
theorem State.attemptGuards_entry_of_guard {s : State} {i : SlotIx} {c m r : Nat} {t : Site}
    (ht : s.stu.sites[m]? = some t) (hc : t.chunk = c) (hk : t.kind = .guard r)
    (halone : ∀ g m' t' r', s.stu.regions[r]? = some g → s.stu.sites[m']? = some t' → t'.kind = .guard r' → m' ≠ m →
      t'.inside g = false) :
    (s.attemptGuards i c).entry i m = (s.attemptGuard i m).entry i m := by
  obtain ⟨pre, post, hsplit⟩ := List.append_of_mem (mem_sitesOf.mpr ⟨ht, hc⟩)
  have hnodup := sitesOf_nodup s.stu.sites c
  rw [hsplit, List.nodup_middle, List.nodup_cons] at hnodup
  have hother : ∀ p ∈ pre ++ post, p.1 ≠ m := by
    intro p hp hm
    have hin : p ∈ sitesOf s.stu.sites c := by
      rw [hsplit]
      exact List.mem_append.mpr ((List.mem_append.mp hp).imp_right (List.mem_cons_of_mem _))
    have hsite := (mem_sitesOf.mp hin).1
    rw [hm, ht] at hsite
    exact hnodup.1 ((Prod.ext hm (Option.some.inj hsite).symm : p = (m, t)) ▸ hp)
  rw [State.attemptGuards, hsplit, List.foldl_append, List.foldl_cons]
  have hpre := fun n (h : n = m ∨ ∀ q r', s.stu.sites[n]? = some q → q.kind ≠ .guard r') =>
    State.attempts_keep (i := i) (j := i) (n := n) pre s fun p hp u hu => State.attemptGuard_entry_of_ne (.inr (by
      rcases h with rfl | h
      · exact .inl (hother p (List.mem_append_left _ hp))
      · exact .inr fun q r' hq => h q r' (by rw [← hu.sites, hq])))
  have hpost := fun u : State => (State.attempts_keep (i := i) (j := i) (n := m) post u fun p hp v _ =>
    State.attemptGuard_entry_of_ne (.inr (.inl (hother p (List.mem_append_right _ hp))))).2
  rw [hpost]
  refine State.attemptGuard_entry_congr (hpre m (.inl rfl)).1 ht hk (hpre m (.inl rfl)).2 fun g n q hg hq hne hin => ?_
  refine (hpre n (.inr fun q' r' hq' hguard => ?_)).2
  rw [hq] at hq'
  rw [← Option.some.inj hq'] at hguard
  exact absurd hin (by rw [halone g n q r' hg hq hguard hne]; exact Bool.false_ne_true)

/-! ### The stall test (R130) -/

theorem sitesOf_ascending (sites : List Site) (c : Nat) : (sitesOf sites c).Pairwise fun p q => p.1 < q.1 := by
  rw [sitesOf]
  refine List.Pairwise.filter _ ?_
  have hnumbers : ((sites.zipIdx.map fun p => (p.2, p.1)).map Prod.fst).Pairwise (· < ·) := by
    rw [List.map_map]
    have hsnd : (Prod.fst ∘ fun p : Site × Nat => (p.2, p.1)) = Prod.snd := rfl
    rw [hsnd, List.zipIdx_map_snd]
    exact List.pairwise_lt_range'
  exact List.pairwise_map.mp hnumbers

/-- In an ascending list the first element that passes is the lowest one that does. -/
theorem find?_ascending {α : Type} {key : α → Nat} {p : α → Bool} {l : List α} {a : α}
    (hl : l.Pairwise fun x y => key x < key y) :
    l.find? p = some a ↔ a ∈ l ∧ p a = true ∧ ∀ b ∈ l, key b < key a → p b = false := by
  constructor
  · intro h
    obtain ⟨hp, pre, post, rfl, hpre⟩ := List.find?_eq_some_iff_append.mp h
    refine ⟨by simp, hp, fun b hb hlt => ?_⟩
    obtain hb | hb | hb : b ∈ pre ∨ b = a ∨ b ∈ post := by simpa using hb
    · simpa using hpre b hb
    · exact absurd hlt (by rw [hb]; exact lt_irrefl _)
    · have hab : key a < key b := (List.pairwise_cons.mp (List.pairwise_append.mp hl).2.1).1 b hb
      exact absurd hlt (by omega)
  · rintro ⟨ha, hp, hlow⟩
    obtain ⟨pre, post, rfl⟩ := List.append_of_mem ha
    refine List.find?_eq_some_iff_append.mpr ⟨hp, pre, post, rfl, fun b hb => ?_⟩
    have hba : key b < key a := (List.pairwise_append.mp hl).2.2 b hb a List.mem_cons_self
    simp [hlow b (by simp [hb]) hba]

theorem State.lowestDeferred_eq_some_iff {s : State} {i : SlotIx} {c n : Nat} : s.lowestDeferred i c = some n ↔
    (∃ t, s.stu.sites[n]? = some t ∧ t.chunk = c) ∧ s.entry i n = .deferred ∧
      ∀ m t, m < n → s.stu.sites[m]? = some t → t.chunk = c → s.entry i m ≠ .deferred := by
  rw [State.lowestDeferred, Option.map_eq_some_iff]
  simp only [find?_ascending (sitesOf_ascending s.stu.sites c), beq_iff_eq, beq_eq_false_iff_ne]
  constructor
  · rintro ⟨⟨n, t⟩, ⟨hmem, hentry, hlow⟩, rfl⟩
    exact ⟨⟨t, mem_sitesOf.mp hmem⟩, hentry, fun m q hm hq hc => hlow (m, q) (mem_sitesOf.mpr ⟨hq, hc⟩) hm⟩
  · rintro ⟨⟨t, ht⟩, hentry, hlow⟩
    exact ⟨(n, t), ⟨mem_sitesOf.mpr ht, hentry, fun q hq hm =>
      hlow q.1 q.2 hm (mem_sitesOf.mp hq).1 (mem_sitesOf.mp hq).2⟩, rfl⟩

theorem State.stallTest_of_ready {s : State} {i : SlotIx} {c : Nat} (h : (s.attemptGuards i c).chunkReady i c = true) :
    s.stallTest i c = s.attemptGuards i c := by
  rw [State.stallTest]
  exact if_pos h

theorem State.stallTest_of_deferred {s : State} {i : SlotIx} {c n : Nat}
    (h : (s.attemptGuards i c).chunkReady i c = false) (hn : (s.attemptGuards i c).lowestDeferred i c = some n) :
    s.stallTest i c = ((s.attemptGuards i c).setSlot i
      { s.slot i with stall := some ⟨n, c, s.now + 1000 * s.ses.tune.stampWait⟩ }).raise
        (.stampStalled i ((s.slot i).ordinal.getD 0) n c) := by
  have honly := s.attemptGuards_only i c
  rw [State.stallTest]
  generalize s.attemptGuards i c = u at *
  refine (if_neg (by rw [h]; exact Bool.false_ne_true)).trans ?_
  rw [hn]
  unfold State.EntriesOnly at honly
  generalize u.stu.entries = e at honly
  rw [honly]
  rfl

/-- A chunk without a site is never stalled. -/
theorem State.stallTest_of_noSites {s : State} {i : SlotIx} {c : Nat} (h : ∀ t ∈ s.stu.sites, t.chunk ≠ c) :
    s.stallTest i c = s := by
  have hnone : s.attemptGuards i c = s := by rw [State.attemptGuards, sitesOf_nil h, List.foldl_nil]
  rw [State.stallTest_of_ready, hnone]
  rw [hnone, State.chunkReady, sitesOf_nil h, List.all_nil]

/-! ### Sending a command (R97, R101) -/

theorem writeMessage_eq (tag : LinkTag) (j : Socket) (first count : Nat) (data : List Byte) :
    writeMessage tag j first count data =
      0x10#8 :: tag :: BitVec.ofNat 8 j.val :: (leBytes 8 first ++ BitVec.ofNat 8 count :: data) := by
  rw [writeMessage, List.append_assoc, List.append_assoc]
  rfl

theorem readMessage_eq (tag : LinkTag) (j : Socket) (first count : Nat) : readMessage tag j first count =
    0x11#8 :: tag :: BitVec.ofNat 8 j.val :: (leBytes 8 first ++ [BitVec.ofNat 8 count]) := by
  rw [readMessage, List.append_assoc]
  rfl

/-- A granted command on the line: its tag bound, its message out and the path idle. -/
def State.sentOn (s : State) (x : Session) (k : LinkIx) (g : Grant) (tag : LinkTag) : State :=
  s.setLink k { (s.link k).setTag tag (.bound ⟨g.slot, g.work.kind, s.now + x.tune.commandTimeout⟩) with
    lastTag := tag, path := none, sent := some (s.message g tag) }

theorem exec_commandSend_of_sent {s : State} {x : Session} {k : LinkIx} {g : Grant} {tag : LinkTag}
    (hx : s.session = some x) (hg : (s.link k).path = some g) (htag : (s.link k).nextTag = some tag)
    (hmoved : g.transfers ≤ g.moved) : exec (.commandSend k) s =
      .next (((s.sentOn x k g tag).updSlot g.slot (fun sl => sl.sentEntry g tag)).afterSend g).testHeld := by
  change execCommandSend k s = _
  unfold execCommandSend
  dsimp only
  rw [hg, htag]
  dsimp only
  rw [if_neg (Nat.not_lt.mpr hmoved), State.ses_eq hx]
  rfl

theorem exec_commandSend_of_nothing {s : State} {k : LinkIx} (h : (s.link k).path = none ∨ (s.link k).nextTag = none ∨
    ∃ g, (s.link k).path = some g ∧ g.moved < g.transfers) : exec (.commandSend k) s = .next s := by
  change execCommandSend k s = _
  unfold execCommandSend
  dsimp only
  split
  · next g tag hg htag =>
    obtain hnone | hnone | ⟨g', hg', hmoved⟩ := h
    · exact absurd (hg.symm.trans hnone) (by simp)
    · exact absurd (htag.symm.trans hnone) (by simp)
    · rw [hg, Option.some.injEq] at hg'
      rw [if_pos (by rw [hg']; exact hmoved)]
  · rfl

section
variable {s : State} {x : Session} {k : LinkIx} {g : Grant} {tag : LinkTag}

/-- The command sent is a new entry of its slot's list. -/
theorem Slot.sentEntry_of_new (sl : Slot) (h : g.origin ≠ .waiting) :
    sl.sentEntry g tag = { sl with inFlight := sl.inFlight ++ [⟨g.work, some tag, g.retries⟩] } := by
  rw [Slot.sentEntry]
  cases horigin : g.origin with
  | first => rfl
  | rewrite => rfl
  | waiting => exact absurd horigin h

/-- The command sent fills the entry that was waiting for it. -/
theorem Slot.sentEntry_of_waiting {sl : Slot} {pre post : List Entry} {e : Entry} (horigin : g.origin = .waiting)
    (hlist : sl.inFlight = pre ++ e :: post) (he : e.tag = none) (hw : e.work = g.work)
    (hpre : ∀ d ∈ pre, d.tag ≠ none ∨ d.work ≠ g.work) :
    sl.sentEntry g tag = { sl with inFlight := pre ++ { e with tag := some tag } :: post } := by
  rw [Slot.sentEntry, horigin, hlist]
  dsimp only
  rw [fillWaiting_spec g.work tag post hpre he hw]

/-- A piece sent for the first time moves the slot's record of pieces sent on, and tests the chunk for a stall after its
last pristine piece (R101, R130). -/
theorem State.sentPiece_eq (u : State) (i : SlotIx) (v : Slot) (c p : Nat) : (u.setSlot i v).sentPiece i c p =
    if p + 1 = pristineCount (u.pieces c) then
      (u.setSlot i (if p + 1 = (u.pieces c).length then { v with issueCursor := some (c + 1), piecesSent := 0 }
        else { v with piecesSent := p + 1 })).stallTest i c
    else u.setSlot i (if p + 1 = (u.pieces c).length then { v with issueCursor := some (c + 1), piecesSent := 0 }
        else { v with piecesSent := p + 1 }) := by
  have hpieces : (u.setSlot i v).pieces c = u.pieces c := rfl
  rw [State.sentPiece, hpieces, State.updSlot, State.setSlot_self, State.setSlot_setSlot]

end

/-! ### What each kind of command sends and leaves (R87, R101, R143, R147) -/

/-- A tag bound to a grant's slot, and a message of a code and its fields on the line. -/
def State.sentAs (s : State) (x : Session) (k : LinkIx) (g : Grant) (tag : LinkTag) (kind : CmdKind) (code : Byte)
    (fields : List Byte) : State :=
  s.setLink k { (s.link k).setTag tag (.bound ⟨g.slot, kind, s.now + x.tune.commandTimeout⟩) with
    lastTag := tag, path := none
    sent := some (code :: tag :: BitVec.ofNat 8 (socketOf g.slot).val :: fields) }

section
variable {s : State} {x : Session} {k : LinkIx} {g : Grant} {tag : LinkTag}

theorem State.sentOn_size (h : g.work = .size) : s.sentOn x k g tag = s.sentAs x k g tag .size 0x12#8 [] := by
  rw [State.sentOn, State.message, h]
  rfl

theorem State.sentOn_probeWrite {j : Nat} (hx : s.session = some x) (h : g.work = .probeWrite j) :
    s.sentOn x k g tag = s.sentAs x k g tag .write 0x10#8
      (leBytes 8 (j * ((s.slot g.slot).capacity.getD 0 - 1) / (x.probeCount - 1)) ++ 1#8 :: g.data) := by
  rw [State.sentOn, State.message, h]
  dsimp only
  rw [writeMessage_eq, State.ses_eq hx]
  rfl

theorem State.sentOn_probeRead {j : Nat} (hx : s.session = some x) (h : g.work = .probeRead j) :
    s.sentOn x k g tag = s.sentAs x k g tag .read 0x11#8
      (leBytes 8 (j * ((s.slot g.slot).capacity.getD 0 - 1) / (x.probeCount - 1)) ++ [1#8]) := by
  rw [State.sentOn, State.message, h]
  dsimp only
  rw [readMessage_eq, State.ses_eq hx]
  rfl

theorem State.sentOn_verify {c n : Nat} (h : g.work = .verify c n) :
    s.sentOn x k g tag = s.sentAs x k g tag .read 0x11#8 (leBytes 8 (128 * c) ++ [128#8]) := by
  rw [State.sentOn, State.message, h]
  dsimp only
  rw [readMessage_eq]
  rfl

theorem State.sentOn_piece {c p n f : Nat} {q : Piece} (h : g.work = .piece c p n) (hsource : g.source = some (f, q)) :
    s.sentOn x k g tag = s.sentAs x k g tag .write 0x10#8
      (leBytes 8 (128 * c + q.first) ++ BitVec.ofNat 8 q.count :: g.data) := by
  rw [State.sentOn, State.message, h, hsource]
  dsimp only
  rw [writeMessage_eq]
  rfl

theorem State.updSlot_sentEntry_of_new (u : State) (h : g.origin ≠ .waiting) :
    u.updSlot g.slot (fun sl => sl.sentEntry g tag) = u.setSlot g.slot { u.slot g.slot with
      inFlight := (u.slot g.slot).inFlight ++ [⟨g.work, some tag, g.retries⟩] } := by
  rw [State.updSlot, Slot.sentEntry_of_new _ h]

theorem State.updSlot_sentEntry_of_waiting {u : State} {pre post : List Entry} {e : Entry} (horigin : g.origin = .waiting)
    (hlist : (u.slot g.slot).inFlight = pre ++ e :: post) (he : e.tag = none) (hw : e.work = g.work)
    (hpre : ∀ d ∈ pre, d.tag ≠ none ∨ d.work ≠ g.work) :
    u.updSlot g.slot (fun sl => sl.sentEntry g tag) = u.setSlot g.slot { u.slot g.slot with
      inFlight := pre ++ { e with tag := some tag } :: post } := by
  rw [State.updSlot, Slot.sentEntry_of_waiting horigin hlist he hw hpre]

theorem State.afterSend_of_qual (u : State) (horigin : g.origin = .first)
    (hw : g.work = .size ∨ ∃ j, g.work = .probeWrite j ∨ g.work = .probeRead j) : u.afterSend g = u := by
  rw [State.afterSend, horigin]
  obtain hw | ⟨j, hw | hw⟩ := hw <;> rw [hw]

theorem State.afterSend_of_verify (u : State) {c n : Nat} (horigin : g.origin = .first) (hw : g.work = .verify c n) :
    u.afterSend g = u.updSlot g.slot fun sl => { sl with verifyCursor := some (c + 1) } := by
  rw [State.afterSend, horigin, hw]

theorem State.afterSend_of_reread (u : State) {c n : Nat} (horigin : g.origin = .waiting) (hw : g.work = .verify c n) :
    u.afterSend g = u := by
  rw [State.afterSend, horigin, hw]

theorem State.afterSend_of_piece (u : State) {c p n : Nat} (horigin : g.origin = .first) (hw : g.work = .piece c p n) :
    u.afterSend g = u.sentPiece g.slot c p := by
  rw [State.afterSend, horigin, hw]

theorem State.afterSend_of_rewrite (u : State) {c p n : Nat} (horigin : g.origin = .rewrite)
    (hw : g.work = .piece c p n) : u.afterSend g = u.sentRewrite g.slot c p := by
  rw [State.afterSend, horigin, hw]

theorem State.afterSend_of_reissue (u : State) {c p n : Nat} (horigin : g.origin = .waiting)
    (hw : g.work = .piece c p n) : u.afterSend g = u.countSlot g.slot ctrRetried := by
  rw [State.afterSend, horigin, hw]

/-- The last pristine piece of a chunk that holds stamped ones is followed by the test for a stall (R130). -/
theorem State.sentPiece_of_last {u : State} {i : SlotIx} {v : Slot} {c p : Nat}
    (hlast : p + 1 = pristineCount (u.pieces c)) (hmore : p + 1 < (u.pieces c).length) :
    (u.setSlot i v).sentPiece i c p = (u.setSlot i { v with piecesSent := p + 1 }).stallTest i c := by
  rw [State.sentPiece_eq, if_pos hlast, if_neg (Nat.ne_of_lt hmore)]

theorem State.sentRewrite_eq {u : State} {i : SlotIx} {v : Slot} {c p : Nat} {w : Rewrite} {ws : List Rewrite}
    (h : v.rewrites = w :: ws) : (u.setSlot i v).sentRewrite i c p = u.setSlot i { v with
      rewrites := if p + 1 = (u.pieces c).length then ws else { w with nextPiece := p + 1 } :: ws } := by
  have hpieces : (u.setSlot i v).pieces c = u.pieces c := rfl
  rw [State.sentRewrite, hpieces, State.updSlot, State.setSlot_self, State.setSlot_setSlot, h]

end

/-- Settles O45: the first send of the last pristine piece, then the attempts one site at a time. -/
theorem stallsBeginAtTheLastPristinePiece : Obligations.StallsBeginAtTheLastPristinePiece := by
  refine ⟨fun s x k g tag c p n f q hx hg htag hmoved hwork horigin hsource hlast hmore => ?_, fun s i c => ?_⟩
  · rw [exec_commandSend_of_sent hx hg htag hmoved,
      State.updSlot_sentEntry_of_new _ (by rw [horigin]; exact fun h => nomatch h),
      State.afterSend_of_piece _ horigin hwork, State.sentPiece_of_last (u := s.sentOn x k g tag) hlast hmore,
      State.sentOn_piece hwork hsource]
    rfl
  · refine ⟨State.stallTest_of_ready, fun n => State.stallTest_of_deferred, s.chunkReady_iff i c,
      fun n => State.lowestDeferred_eq_some_iff, s.attemptGuards_only i c,
      fun j m hj => State.attemptGuards_entry_of_ne (.inl hj), fun m h => State.attemptGuards_entry_of_ne (.inr ?_),
      fun m t r ht hc hk halone => State.attemptGuards_entry_of_guard ht hc hk halone⟩
    exact fun t r ht hc => h t r ht hc

/-- Settles O44: by the kind of the command granted and by where it came from. -/
theorem commandsAreSentWithATag : Obligations.CommandsAreSentWithATag := by
  refine ⟨fun s k => exec_commandSend_of_nothing, fun s x k g tag hx hg htag hmoved => ?_,
    fun l => ⟨fun t ht => ⟨Link.tag_nextTag ht, fun d hd => Link.nextTag_first ht d hd⟩, l.nextTag_eq_none_iff⟩⟩
  have hsend := exec_commandSend_of_sent hx hg htag hmoved
  have hnew := fun (h : g.origin ≠ .waiting) (u : State) => State.updSlot_sentEntry_of_new (tag := tag) u h
  have hfirst : g.origin = .first → g.origin ≠ .waiting := fun h => by rw [h]; exact fun h => nomatch h
  have hheld : ∀ t : State, ((s.sentOn x k g tag).updSlot g.slot (fun sl => sl.sentEntry g tag)).afterSend g = t →
      exec (.commandSend k) s = .next t.testHeld := fun t ht => by rw [hsend, ht]
  refine ⟨fun hw ho => hheld _ ?_, fun j hw ho => hheld _ ?_, fun j hw ho => hheld _ ?_,
    fun c n hw => ⟨fun ho => hheld _ ?_, fun pre e post ho hlist he hwork hpre => hheld _ ?_⟩,
    fun c p n f q hw hsource => ⟨fun ho hstall => hheld _ ?_, fun w ws ho hrewrites => hheld _ ?_,
      fun pre e post ho hlist he hwork hpre => hheld _ ?_⟩⟩
  · rw [State.sentOn_size hw, hnew (hfirst ho), State.afterSend_of_qual _ ho (.inl hw)]
    rfl
  · rw [State.sentOn_probeWrite hx hw, hnew (hfirst ho), State.afterSend_of_qual _ ho (.inr ⟨j, .inl hw⟩)]
    rfl
  · rw [State.sentOn_probeRead hx hw, hnew (hfirst ho), State.afterSend_of_qual _ ho (.inr ⟨j, .inr hw⟩)]
    rfl
  · rw [State.sentOn_verify hw, hnew (hfirst ho), State.afterSend_of_verify _ ho hw, State.updSlot, State.setSlot_self,
      State.setSlot_setSlot]
    rfl
  · rw [State.sentOn_verify hw, State.afterSend_of_reread _ ho hw]
    exact State.updSlot_sentEntry_of_waiting ho hlist he hwork hpre
  · rw [State.sentOn_piece hw hsource, hnew (hfirst ho), State.afterSend_of_piece _ ho hw, State.sentPiece_eq]
    rcases hstall with hstall | hstall
    · exact if_neg hstall
    · rw [State.stallTest_of_noSites, ite_self]
      · rfl
      · exact hstall
  · rw [State.sentOn_piece hw hsource, hnew (by rw [ho]; exact fun h => nomatch h), State.afterSend_of_rewrite _ ho hw]
    exact State.sentRewrite_eq hrewrites
  · rw [State.updSlot_sentEntry_of_waiting (u := s.sentOn x k g tag) ho hlist he hwork hpre,
      State.afterSend_of_reissue _ ho hw, State.sentOn_piece hw hsource, State.countSlot, State.updSlot,
      State.setSlot_self, State.setSlot_setSlot]
    rfl

end Sys2Proof.Machine
end

section
/-! SUPPORT. The build of a stamped piece in its link's scratch area: the bytes copied, the stamps laid over them and the
bytes read back. Then the statement about it. -/

set_option Elab.async false

namespace Sys2Proof.Machine

/-! ### Bytes written to memory -/

theorem Memory.byte_write (m : Memory) (a x : Nat) (bytes : List Byte) :
    (m.write a bytes).byte x = if a ≤ x ∧ x < a + bytes.length then bytes.getD (x - a) 0 else m.byte x := by
  split
  · next h =>
    have hlt : x - a < bytes.length := by omega
    rw [List.getD_eq_getElem _ _ hlt, ← Memory.byte_write_in m a bytes (x - a) hlt, Nat.add_sub_cancel' h.1]
  · next h => exact Memory.byte_write_out m a bytes x (by omega)

theorem scratchAddr_eq (k : LinkIx) (n : Nat) : scratchAddr k n = 32768 * k.val + n := rfl

theorem frameAddr_eq (f n : Nat) : frameAddr f n = 65536 * f + n := rfl

/-! ### The stamps laid over a scratch area (R129) -/

section
variable {s : State} {k : LinkIx} {i : SlotIx} {p : Piece}

/-- A site lies within a piece. -/
def Site.within (q : Site) (p : Piece) : Prop :=
  512 * p.first ≤ q.offset ∧ q.offset + q.width ≤ 512 * (p.first + p.count)

/-- The bytes of a slot's entry for a site of a piece, laid over the scratch area. -/
def State.overlayOne (s : State) (k : LinkIx) (i : SlotIx) (p : Piece) (m : Memory) (x : Nat × Site) : Memory :=
  if 512 * p.first ≤ x.2.offset ∧ x.2.offset + x.2.width ≤ 512 * (p.first + p.count) then
    m.write (scratchAddr k (x.2.offset - 512 * p.first)) (((s.entry i x.1).bytes?).getD [])
  else m

theorem State.overlay_eq (s : State) (k : LinkIx) (i : SlotIx) (c : Nat) (p : Piece) :
    s.overlay k i c p = (sitesOf s.stu.sites c).foldl (s.overlayOne k i p) s.stu.scratch := rfl

theorem State.overlayOne_of_bytes {m : Memory} {n : Nat} {q : Site} {bs : List Byte} (hin : q.within p)
    (hbytes : (s.entry i n).bytes? = some bs) :
    s.overlayOne k i p m (n, q) = m.write (scratchAddr k (q.offset - 512 * p.first)) bs := by
  refine (if_pos hin).trans ?_
  rw [hbytes, Option.getD_some]

/-- A site's stamp leaves every byte outside its place. -/
theorem State.overlayOne_byte_out {m : Memory} {x : Nat × Site} {a : Nat} (h : x.2.within p →
    ∀ bs, (s.entry i x.1).bytes? = some bs → bs.length ≤ x.2.width ∧
      (a + 512 * p.first < 32768 * k.val + x.2.offset ∨ 32768 * k.val + x.2.offset + x.2.width ≤ a + 512 * p.first)) :
    (s.overlayOne k i p m x).byte a = m.byte a := by
  rw [State.overlayOne]
  split
  · next hin =>
    cases hb : (s.entry i x.1).bytes? with
    | none =>
      refine Memory.byte_write_out _ _ _ _ ?_
      rw [Option.getD_none, List.length_nil]
      omega
    | some bs =>
      obtain ⟨hlen, hout⟩ := h hin bs hb
      refine Memory.byte_write_out _ _ _ _ ?_
      rw [Option.getD_some, scratchAddr_eq]
      have hoff := hin.1
      omega
  · rfl

theorem State.overlay_byte_out {a : Nat} (l : List (Nat × Site)) : ∀ m : Memory, (∀ x ∈ l, x.2.within p →
    ∀ bs, (s.entry i x.1).bytes? = some bs → bs.length ≤ x.2.width ∧
      (a + 512 * p.first < 32768 * k.val + x.2.offset ∨ 32768 * k.val + x.2.offset + x.2.width ≤ a + 512 * p.first)) →
    (l.foldl (s.overlayOne k i p) m).byte a = m.byte a := by
  induction l with
  | nil => exact fun _ _ => rfl
  | cons x l ih =>
    intro m h
    exact (ih _ fun y hy => h y (List.mem_cons_of_mem _ hy)).trans
      (State.overlayOne_byte_out (h x List.mem_cons_self))

/-- A site's stamp stands at its place when the stamps of the other sites lie beside it. -/
theorem State.overlay_byte_in {pre post : List (Nat × Site)} {n : Nat} {q : Site} {bs : List Byte} {d : Nat} (m : Memory)
    (hin : q.within p) (hbytes : (s.entry i n).bytes? = some bs) (hlen : bs.length = q.width) (hd : d < q.width)
    (hpost : ∀ x ∈ post, x.2.within p → ∀ bs', (s.entry i x.1).bytes? = some bs' → bs'.length ≤ x.2.width ∧
      (x.2.offset + x.2.width ≤ q.offset ∨ q.offset + q.width ≤ x.2.offset)) :
    ((pre ++ (n, q) :: post).foldl (s.overlayOne k i p) m).byte
      (32768 * k.val + (q.offset - 512 * p.first) + d) = bs.getD d 0 := by
  have hoff := hin.1
  rw [List.foldl_append, List.foldl_cons, State.overlay_byte_out]
  · rw [State.overlayOne_of_bytes hin hbytes, Memory.byte_write, scratchAddr_eq, if_pos (by omega),
      Nat.add_sub_cancel_left]
  · intro x hx hxin bs' hbs'
    obtain ⟨hle, hout⟩ := hpost x hx hxin bs' hbs'
    exact ⟨hle, by omega⟩

end

/-! ### One transfer of a stamped piece (R43, R129) -/

/-- The scratch area once the next part of a piece has been copied from its frame. -/
def State.copied (s : State) (k : LinkIx) (f : Nat) (p : Piece) (n : Nat) : Memory :=
  s.stu.scratch.write (scratchAddr k (4096 * n))
    (s.win.frames.read (frameAddr f (512 * p.first + 4096 * n)) (min 4096 (512 * p.count - 4096 * n)))

/-- The scratch once a stamped piece's transfer is done: the part copied, with the last of them the stamps. -/
def State.built (s : State) (k : LinkIx) (g : Grant) (f : Nat) (p : Piece) : Memory :=
  if g.moved < p.transfers then
    if g.moved + 1 = p.transfers then
      (sitesOf s.stu.sites g.work.chunk).foldl (s.overlayOne k g.slot p) (s.copied k f p g.moved)
    else s.copied k f p g.moved
  else s.stu.scratch

/-- The bytes a stamped piece's transfer reads toward the link: none while the piece is copied. -/
def State.readBack (s : State) (k : LinkIx) (g : Grant) (p : Piece) : List Byte :=
  if g.moved < p.transfers then [] else
    s.stu.scratch.read (scratchAddr k (4096 * (g.moved - p.transfers)))
      (min 4096 (512 * p.count - 4096 * (g.moved - p.transfers)))

/-- A grant after a transfer. -/
def Grant.after (g : Grant) (got : List Byte) : Grant := { g with moved := g.moved + 1, data := g.data ++ got }

theorem State.moveBytes_of_stamped {s : State} {k : LinkIx} {g : Grant} {f : Nat} {p : Piece}
    (hg : (s.link k).path = some g) (hsource : g.source = some (f, p)) (hstamped : p.stamped = true) :
    s.moveBytes k = (({ s with stu.scratch := s.built k g f p } : State).updLink k fun l =>
      { l with path := some (g.after (s.readBack k g p)) }).requestTransfer k (g.after (s.readBack k g p)) := by
  obtain ⟨i, w, retries, origin, source, moved, data⟩ := g
  obtain rfl : source = some (f, p) := hsource
  unfold State.moveBytes
  rw [hg]
  dsimp only
  rw [hstamped, Bool.true_and, State.built, State.readBack]
  by_cases h : moved < p.transfers
  · rw [if_pos h, if_pos h, decide_eq_true h, decide_eq_false (Nat.not_le.mpr h)]
    by_cases hlast : moved + 1 = p.transfers
    · rw [if_pos hlast, if_pos hlast]
      rfl
    · rw [if_neg hlast, if_neg hlast]
      rfl
  · rw [if_neg h, if_neg h, decide_eq_false h, decide_eq_true (Nat.not_lt.mp h)]
    rfl

theorem exec_bufferTransferGrant_of_stamp {s : State} {n : Fin 14} {k : LinkIx} {g : Grant} {f : Nat} {p : Piece}
    (hfill : .fill ∉ s.win.waiting) (hm : 1 = s.win.ring + 1 + n)
    (hfirst : ∀ d : Fin 14, d < n → ∀ u ∈ s.win.waiting, u.ringMember ≠ some (s.win.ring + 1 + d))
    (ht : s.win.waiting.find? (fun u => u.ringMember == some 1) = some (.stamp k))
    (hg : (s.link k).path = some g) (hsource : g.source = some (f, p)) (hstamped : p.stamped = true) :
    exec .bufferTransferGrant s = .next { s with
      win.ring := 1
      win.waiting := s.win.waiting.erase (.stamp k) ++ (if g.moved + 1 < 2 * p.transfers then [.stamp k] else [])
      links := s.links.set k { s.link k with path := some (g.after (s.readBack k g p)) }
      stu.scratch := s.built k g f p } := by
  refine (exec_bufferTransferGrant_of_ring hfill hm hfirst ht).trans (congrArg _ ?_)
  change (s.portGranted 1 (.stamp k)).moveBytes k = _
  have htransfer : ∀ d, (g.after d).transfer k = .stamp k := fun d => by
    rw [Grant.transfer, Grant.after, hsource]
    exact if_pos (by simp [hstamped])
  have htransfers : ∀ d, (g.after d).transfers = 2 * p.transfers := fun d => by
    rw [Grant.transfers, Grant.after, hsource]
    exact if_pos hstamped
  rw [State.moveBytes_of_stamped (s := s.portGranted 1 (.stamp k)) hg hsource hstamped, State.requestTransfer_spec,
    htransfer, htransfers]
  rfl

/-- The bytes of an area once a part has been copied there. -/
theorem State.copied_byte {s : State} (hwf : s.win.frames.wf = true) (k : LinkIx) (f : Nat) (p : Piece) (n a : Nat) :
    (s.copied k f p n).byte a =
      if 32768 * k.val + 4096 * n ≤ a ∧ a < 32768 * k.val + 4096 * n + min 4096 (512 * p.count - 4096 * n) then
        s.win.frames.byte (65536 * f + 512 * p.first + (a - 32768 * k.val)) else s.stu.scratch.byte a := by
  rw [State.copied, Memory.byte_write, Memory.read_eq hwf, List.length_map, List.length_range, scratchAddr_eq, frameAddr_eq]
  split
  · next h =>
    generalize min 4096 (512 * p.count - 4096 * n) = len at h ⊢
    have hlt : a - (32768 * k.val + 4096 * n) < len := by omega
    rw [List.getD_eq_getElem _ _ (by simpa using hlt), List.getElem_map, List.getElem_range]
    exact congrArg _ (by omega)
  · rfl

section
variable {s : State} {k : LinkIx} {g : Grant} {f : Nat} {p : Piece}

theorem State.built_of_copied (h : p.transfers ≤ g.moved) : s.built k g f p = s.stu.scratch :=
  if_neg (Nat.not_lt.mpr h)

theorem State.built_of_copying (h : g.moved + 1 < p.transfers) : s.built k g f p = s.copied k f p g.moved :=
  (if_pos (Nat.lt_of_succ_lt h)).trans (if_neg (Nat.ne_of_lt h))

theorem State.built_of_last (h : g.moved + 1 = p.transfers) : s.built k g f p =
    (sitesOf s.stu.sites g.work.chunk).foldl (s.overlayOne k g.slot p) (s.copied k f p g.moved) :=
  (if_pos (by omega)).trans (if_pos h)

/-- Outside the stamps an area under construction holds what has been copied from the frame. -/
theorem State.built_byte_copied (hwf : s.win.frames.wf = true) (h : g.moved < p.transfers) {a : Nat}
    (hout : g.moved + 1 < p.transfers ∨ ∀ (m : Nat) (q : Site), s.stu.sites[m]? = some q → q.chunk = g.work.chunk → q.within p →
      ¬(32768 * k.val + q.offset ≤ a + 512 * p.first ∧ a + 512 * p.first < 32768 * k.val + q.offset + q.width))
    (hwidth : ∀ (m : Nat) (q : Site) bs, s.stu.sites[m]? = some q → q.chunk = g.work.chunk → q.within p →
      (s.entry g.slot m).bytes? = some bs → bs.length ≤ q.width) :
    (s.built k g f p).byte a = (s.copied k f p g.moved).byte a := by
  by_cases hmore : g.moved + 1 < p.transfers
  · rw [State.built_of_copying hmore]
  · rw [State.built_of_last (by omega)]
    refine State.overlay_byte_out _ _ fun x hx hin bs hbs => ?_
    obtain ⟨hsite, hchunk⟩ := mem_sitesOf.mp hx
    have hplace := (hout.resolve_left hmore) x.1 x.2 hsite hchunk hin
    exact ⟨hwidth x.1 x.2 bs hsite hchunk hin hbs, by omega⟩

/-- With the last part copied each stamp stands at its place. -/
theorem State.built_byte_stamp (h : g.moved + 1 = p.transfers) {m : Nat} {q : Site} {bs : List Byte} {d : Nat}
    (hsite : s.stu.sites[m]? = some q) (hchunk : q.chunk = g.work.chunk) (hin : q.within p)
    (hbytes : (s.entry g.slot m).bytes? = some bs) (hlen : bs.length = q.width) (hd : d < q.width)
    (hothers : ∀ (m' : Nat) (q' : Site) bs', m' ≠ m → s.stu.sites[m']? = some q' → q'.chunk = g.work.chunk → q'.within p →
      (s.entry g.slot m').bytes? = some bs' →
      bs'.length ≤ q'.width ∧ (q'.offset + q'.width ≤ q.offset ∨ q.offset + q.width ≤ q'.offset)) :
    (s.built k g f p).byte (32768 * k.val + (q.offset - 512 * p.first) + d) = bs.getD d 0 := by
  obtain ⟨pre, post, hsplit⟩ := List.append_of_mem (mem_sitesOf.mpr ⟨hsite, hchunk⟩)
  have hnodup := sitesOf_nodup s.stu.sites g.work.chunk
  rw [hsplit, List.nodup_middle, List.nodup_cons] at hnodup
  rw [State.built_of_last h, hsplit]
  refine State.overlay_byte_in _ hin hbytes hlen hd fun x hx hxin bs' hbs' => ?_
  have hmem : x ∈ sitesOf s.stu.sites g.work.chunk := by
    rw [hsplit]
    exact List.mem_append_right _ (List.mem_cons_of_mem _ hx)
  obtain ⟨hxsite, hxchunk⟩ := mem_sitesOf.mp hmem
  refine hothers x.1 x.2 bs' (fun hm => hnodup.1 ?_) hxsite hxchunk hxin hbs'
  have hxq : x = (m, q) := Prod.ext hm (by rw [hm, hsite] at hxsite; exact (Option.some.inj hxsite).symm)
  rw [← hxq]
  exact List.mem_append_right _ hx

end

/-- Settles O43: the part copied, the stamps with the last of them, and the reads after it. -/
theorem stampedPiecesAreBuiltInScratch : Obligations.StampedPiecesAreBuiltInScratch := by
  intro s n k g f p hwf hfill hm hfirst ht hg hsource hstamped c total start len placed
  have hcopying : g.moved < total → start = 4096 * g.moved := fun h => congrArg (4096 * ·) (if_pos h)
  have hreading : ¬g.moved < total → start = 4096 * (g.moved - total) := fun h => congrArg (4096 * ·) (if_neg h)
  have hlen : len = min 4096 (512 * p.count - start) := rfl
  refine ⟨_, exec_bufferTransferGrant_of_stamp hfill hm hfirst ht hg hsource hstamped, rfl, rfl, ?_,
    State.built_of_copied, fun h => ⟨fun a hplace hwidth => ?_, fun hlast m q bs d hq hplaced hbs hbytes hd hothers => ?_⟩⟩
  · have hread : s.readBack k g p =
        if g.moved < total then [] else s.stu.scratch.read (32768 * k.val + start) len := by
      rw [State.readBack, scratchAddr_eq]
      by_cases h : g.moved < total
      · exact (if_pos h).trans (if_pos h).symm
      · rw [hlen, hreading h]
        rfl
    rw [hread]
    rfl
  · rw [hlen, hcopying h]
    refine (State.built_byte_copied hwf.1 h ?_ fun m q bs hq hchunk hin => hwidth m q bs hq ⟨hchunk, hin⟩).trans
      (State.copied_byte hwf.1 k f p g.moved a)
    exact hplace.imp_right fun hout m q hq hchunk hin => hout m q hq ⟨hchunk, hin⟩
  · obtain ⟨hchunk, hin⟩ := hplaced
    exact State.built_byte_stamp hlast hq hchunk hin hbs hbytes hd fun m' q' bs' hne hq' hchunk' hin' =>
      hothers m' q' bs' hne hq' ⟨hchunk', hin'⟩

end Sys2Proof.Machine
end

section
/-! SUPPORT. The maximal runs of like sectors, then the statement about the pieces of a chunk. -/

set_option Elab.async false

namespace Sys2Proof.Machine

/-- A list of pieces that lays out the sectors from `a` to below `b` in runs, each as long as its kind allows (R98). -/
def Runs (like : Nat → Bool) (a b : Nat) : List Piece → Prop
  | [] => a = b
  | p :: ps => p.first = a ∧ 0 < p.count ∧ (∀ n, a ≤ n → n < a + p.count → like n = p.stamped) ∧
    (∀ q ∈ ps.head?, q.stamped ≠ p.stamped) ∧ Runs like (a + p.count) b ps

section
variable {like : Nat → Bool}

theorem runsOf_runs (like : Nat → Bool) : ∀ n a : Nat, Runs like a (a + n) (runsOf like (List.range' a n)) := by
  intro n
  induction n with
  | zero => exact fun a => rfl
  | succ n ih =>
    intro a
    have hrest := ih (a + 1)
    rw [List.range'_succ, runsOf, show a + (n + 1) = a + 1 + n by omega]
    generalize runsOf like (List.range' (a + 1) n) = ps at hrest
    have hone : ∀ m, a ≤ m → m < a + 1 → like m = like a := fun m h1 h2 => by rw [show m = a by omega]
    match ps, hrest with
    | [], hrest => exact ⟨rfl, Nat.one_pos, hone, fun q hq => (nomatch hq), hrest⟩
    | p :: ps, hrest =>
      obtain ⟨hfirst, hpos, hlike, hhead, htail⟩ := id hrest
      dsimp only
      split
      · next hsame =>
        refine ⟨rfl, Nat.succ_pos _, fun m h1 h2 => ?_, ?_, ?_⟩
        · dsimp only at h2 ⊢
          by_cases hm : m < a + 1
          · exact hone m h1 hm
          · rw [hlike m (by omega) (by omega), hsame]
        · rw [← hsame]
          exact hhead
        · rw [show a + 1 + p.count = a + (p.count + 1) by omega] at htail
          exact htail
      · next hdiff =>
        refine ⟨rfl, Nat.one_pos, hone, fun q hq => ?_, hrest⟩
        obtain rfl := Option.some.inj hq
        exact hdiff

theorem Runs.sum_count : ∀ {ps : List Piece} {a b : Nat}, Runs like a b ps → a + (ps.map Piece.count).sum = b
  | [], _, _, h => h
  | p :: ps, a, b, h => by
    obtain ⟨-, -, -, -, htail⟩ := h
    have hsum := htail.sum_count
    rw [List.map_cons, List.sum_cons]
    omega

theorem Runs.cover : ∀ {ps : List Piece} {a b : Nat}, Runs like a b ps → ∀ n, a ≤ n → n < b →
    ∃ p ∈ ps, p.first ≤ n ∧ n < p.first + p.count
  | [], _, _, h, n, h1, h2 => absurd (h ▸ h2) (Nat.not_lt.mpr h1)
  | p :: ps, a, b, h, n, h1, h2 => by
    obtain ⟨hfirst, -, -, -, htail⟩ := h
    by_cases hn : n < a + p.count
    · exact ⟨p, List.mem_cons_self, by omega, by omega⟩
    · obtain ⟨q, hq, hcover⟩ := htail.cover n (by omega) h2
      exact ⟨q, List.mem_cons_of_mem _ hq, hcover⟩

theorem Runs.bounds : ∀ {ps : List Piece} {a b : Nat}, Runs like a b ps → ∀ p ∈ ps,
    0 < p.count ∧ a ≤ p.first ∧ p.first + p.count ≤ b
  | q :: ps, a, b, h, p, hp => by
    have hsum := h.sum_count
    rw [List.map_cons, List.sum_cons] at hsum
    obtain ⟨hfirst, hpos, -, -, htail⟩ := h
    rcases List.mem_cons.mp hp with rfl | hp
    · exact ⟨hpos, by omega, by omega⟩
    · obtain ⟨h1, h2, h3⟩ := htail.bounds p hp
      exact ⟨h1, by omega, h3⟩

theorem Runs.uniform : ∀ {ps : List Piece} {a b : Nat}, Runs like a b ps → ∀ p ∈ ps, ∀ n, p.first ≤ n →
    n < p.first + p.count → like n = p.stamped
  | q :: ps, a, b, h, p, hp => by
    obtain ⟨hfirst, -, hlike, -, htail⟩ := h
    rcases List.mem_cons.mp hp with rfl | hp
    · rw [hfirst]
      exact hlike
    · exact htail.uniform p hp

theorem Runs.ascending : ∀ {ps : List Piece} {a b : Nat}, Runs like a b ps → ps.Pairwise fun p q => p.first < q.first
  | [], _, _, _ => List.Pairwise.nil
  | p :: ps, a, b, h => by
    obtain ⟨hfirst, hpos, -, -, htail⟩ := h
    refine List.pairwise_cons.mpr ⟨fun q hq => ?_, htail.ascending⟩
    have hq := (htail.bounds q hq).2.1
    omega

/-- The sectors a run stops at, before it and after it, are of the other kind. -/
theorem Runs.maximal : ∀ {ps : List Piece} {a b : Nat}, Runs like a b ps → ∀ p ∈ ps,
    (a < p.first → like (p.first - 1) ≠ p.stamped) ∧
      (p.first + p.count < b → like (p.first + p.count) ≠ p.stamped)
  | q :: ps, a, b, h, p, hp => by
    obtain ⟨hfirst, hpos, hlike, hhead, htail⟩ := h
    rcases List.mem_cons.mp hp with rfl | hp
    · refine ⟨fun h => absurd hfirst (by omega), fun hmore => ?_⟩
      match ps, htail, hhead with
      | [], htail, _ => exact absurd hmore (by rw [hfirst, htail]; exact lt_irrefl _)
      | r :: rs, htail, hhead =>
        obtain ⟨-, hrpos, hrlike, -, -⟩ := htail
        rw [hfirst, hrlike (a + p.count) le_rfl (by omega)]
        exact hhead r rfl
    · obtain ⟨hleft, hright⟩ := htail.maximal p hp
      refine ⟨fun _ => ?_, hright⟩
      by_cases hstart : a + q.count < p.first
      · exact hleft hstart
      · have hle := (htail.bounds p hp).2.1
        rw [hlike (p.first - 1) (by omega) (by omega)]
        match ps, htail, hhead, hp with
        | r :: rs, htail, hhead, hp =>
          rcases List.mem_cons.mp hp with rfl | hp
          · exact (hhead p rfl).symm
          · obtain ⟨hrfirst, hrpos, -, -, hrtail⟩ := htail
            have hbeyond := (hrtail.bounds p hp).2.1
            omega

end

theorem sectorStamped_iff {sites : List Site} {c n : Nat} : sectorStamped sites c n = true ↔
    ∃ t ∈ sites, t.chunk = c ∧ ∃ b, t.offset ≤ b ∧ b < t.offset + t.width ∧ 512 * n ≤ b ∧ b < 512 * (n + 1) := by
  rw [sectorStamped, List.any_eq_true]
  refine exists_congr fun t => and_congr_right fun _ => ?_
  rw [Bool.and_eq_true, Bool.and_eq_true, Bool.and_eq_true, beq_iff_eq, decide_eq_true_eq, decide_eq_true_eq,
    decide_eq_true_eq, and_assoc, and_assoc]
  refine and_congr_right fun _ => ⟨fun ⟨hwidth, hbelow, habove⟩ => ?_, fun ⟨b, h1, h2, h3, h4⟩ => ⟨?_, ?_, ?_⟩⟩
  · change t.offset < 512 * (n + 1) at hbelow
    change 512 * n < t.offset + t.width at habove
    exact ⟨max t.offset (512 * n), by omega, by omega, by omega, by omega⟩
  · omega
  · change t.offset < 512 * (n + 1)
    omega
  · change 512 * n < t.offset + t.width
    omega

/-- The pieces of a chunk with the mark set: its runs, the pristine ones first (R98). -/
theorem piecesOf_marked (sites : List Site) (c : Nat) : ∃ runs, Runs (sectorStamped sites c) 0 128 runs ∧
    piecesOf sites c true = runs.filter (fun p => !p.stamped) ++ runs.filter (fun p => p.stamped) := by
  have hruns := runsOf_runs (sectorStamped sites c) 128 0
  rw [← List.range_eq_range', Nat.zero_add] at hruns
  exact ⟨_, hruns, if_pos rfl⟩

/-- Settles O57: a marked chunk's pieces are its runs in another order. -/
theorem piecesCoverTheChunk : Obligations.PiecesCoverTheChunk := by
  intro sites c
  obtain ⟨runs, hruns, hpieces⟩ := piecesOf_marked sites c
  have hperm : (piecesOf sites c true).Perm runs := by
    rw [hpieces]
    refine List.Perm.trans (List.perm_append_comm) ?_
    exact List.filter_append_perm (fun p : Piece => p.stamped) runs
  refine ⟨if_neg Bool.false_ne_true, fun n => sectorStamped_iff, ?_, fun n hn => ?_, fun p hp => ?_,
    runs.filter (fun p => !p.stamped), runs.filter (fun p => p.stamped), hpieces, fun p hp => ?_, fun p hp => ?_,
    hruns.ascending.filter _, hruns.ascending.filter _, ?_⟩
  · rw [(hperm.map Piece.count).sum_eq]
    exact (Nat.zero_add _).symm.trans hruns.sum_count
  · obtain ⟨p, hp, hfirst, hlast⟩ := hruns.cover n n.zero_le hn
    exact ⟨p, hperm.mem_iff.mpr hp, hfirst, hlast, (hruns.uniform p hp n hfirst hlast).symm⟩
  · have hp := hperm.mem_iff.mp hp
    obtain ⟨hpos, -, hle⟩ := hruns.bounds p hp
    obtain ⟨hleft, hright⟩ := hruns.maximal p hp
    exact ⟨hpos, hle, hruns.uniform p hp, hleft, hright⟩
  · simpa using List.of_mem_filter hp
  · exact List.of_mem_filter hp
  · rw [hpieces, pristineCount, List.filter_append, List.filter_filter, List.filter_filter]
    have hnone : ∀ p : Piece, (!p.stamped && p.stamped) = false := fun p => Bool.not_and_self _
    simp only [Bool.and_self, hnone, List.filter_false, List.append_nil]

end Sys2Proof.Machine
end

section
/-! SUPPORT. The digits and bytes of a stamp's value, counted from the least significant. Then the statement about
stamps. -/

set_option Elab.async false

namespace Sys2Proof.Machine

/-! ### Bytes and digits (R124) -/

theorem leBytes_getElem? (w : Nat) : ∀ v i : Nat, i < w → (leBytes w v)[i]? = some (BitVec.ofNat 8 (v / 256 ^ i)) := by
  induction w with
  | zero => exact fun v i h => absurd h i.not_lt_zero
  | succ w ih =>
    intro v i h
    obtain _ | i := i
    · rw [Nat.pow_zero, Nat.div_one]
      rfl
    · rw [leBytes, List.getElem?_cons_succ, ih _ i (Nat.lt_of_succ_lt_succ h), Nat.div_div_eq_div_mul, Nat.pow_succ']

theorem leBytes_reverse_getElem? {w v i : Nat} (h : i < w) :
    (leBytes w v).reverse[w - 1 - i]? = some (BitVec.ofNat 8 (v / 256 ^ i)) := by
  rw [List.getElem?_reverse (by rw [leBytes_length]; omega), leBytes_length,
    show w - 1 - (w - 1 - i) = i by omega, leBytes_getElem? w v i h]

theorem length_digits (b w : Nat) : ∀ v : Nat, (digits b w v).length = w := by
  induction w with
  | zero => exact fun _ => rfl
  | succ w ih => intro v; rw [digits, List.length_append, ih]; rfl

/-- Digit `i` from the right is the value's digit of that weight. -/
theorem digits_reverse (b w : Nat) : ∀ v : Nat, (digits b w v).reverse = (List.range w).map fun i => v / b ^ i % b := by
  induction w with
  | zero => exact fun _ => rfl
  | succ w ih =>
    intro v
    rw [digits, List.reverse_append, List.reverse_singleton, List.singleton_append, ih, List.range_succ_eq_map,
      List.map_cons, List.map_map, Nat.pow_zero, Nat.div_one]
    refine congrArg _ (List.map_congr_left fun i _ => ?_)
    rw [Function.comp_apply, Nat.div_div_eq_div_mul, Nat.pow_succ']

theorem digits_getElem? {b w v i : Nat} (h : i < w) : (digits b w v)[w - 1 - i]? = some (v / b ^ i % b) := by
  have hrev : (digits b w v).reverse[i]? = _ := congrArg (·[i]?) (digits_reverse b w v)
  rw [List.getElem?_reverse (by rw [length_digits]; exact h), length_digits, List.getElem?_map,
    List.getElem?_range h] at hrev
  exact hrev

theorem asciiDigit_dec (d : Nat) : asciiDigit (d % 10) = BitVec.ofNat 8 (48 + d % 10) := by
  rw [asciiDigit, if_pos (Nat.mod_lt d (by omega))]

/-- The weights 3 and 1 in turn (R125), from the one that `heavy` names. -/
theorem checkSum_eq (ds : List Nat) : ∀ heavy : Bool, checkSum ds heavy =
    ((List.range ds.length).map fun j => (if (j % 2 == 0) = heavy then 3 else 1) * ds.getD j 0).sum := by
  induction ds with
  | nil => exact fun _ => rfl
  | cons d ds ih =>
    intro heavy
    rw [checkSum, ih, List.length_cons, sum_range_cons]
    congr 1
    · cases heavy
      · simp
      · simp
    · refine congrArg List.sum (List.map_congr_left fun j _ => ?_)
      rw [List.getD_cons_succ]
      congr 2
      cases heavy <;> simp <;> omega

/-! ### Widths and limits (R123, R124) -/

theorem length_encodeValue (k : SiteKind) {w : Nat} (h : 1 ≤ w) (v : Nat) : (encodeValue k w v).length = w := by
  unfold encodeValue
  split
  · rw [List.length_reverse, leBytes_length]
  · rw [List.length_map, length_digits]
  · rw [List.length_append, List.length_map, length_digits, List.length_singleton]
    omega
  · rw [List.length_map, length_digits]
  · rw [List.length_reverse, leBytes_length]
  · exact leBytes_length w v

section
variable {t : Site} {n c : Nat} {m : OverflowMode}

theorem renderSite_below (hm : t.kind.mode = some m) (h : siteValue t.kind n c < siteLimit t.kind t.width) :
    renderSite t n c = (.rendered (encodeValue t.kind t.width (siteValue t.kind n c)), none) := by
  rw [renderSite, hm]
  exact if_pos h

theorem renderSite_wrap (hm : t.kind.mode = some .wrap) (h : siteLimit t.kind t.width ≤ siteValue t.kind n c) :
    renderSite t n c =
      (.rendered (encodeValue t.kind t.width (siteValue t.kind n c % siteLimit t.kind t.width)), none) := by
  rw [renderSite, hm]
  exact if_neg (Nat.not_lt.mpr h)

theorem renderSite_clamp (hm : t.kind.mode = some .clamp) (h : siteLimit t.kind t.width ≤ siteValue t.kind n c) :
    renderSite t n c = (.rendered (encodeValue t.kind t.width (siteLimit t.kind t.width - 1)), none) := by
  rw [renderSite, hm]
  exact if_neg (Nat.not_lt.mpr h)

theorem renderSite_defer (hm : t.kind.mode = some .defer) (h : siteLimit t.kind t.width ≤ siteValue t.kind n c) :
    renderSite t n c = (.deferred, some (siteValue t.kind n c)) := by
  rw [renderSite, hm]
  exact if_neg (Nat.not_lt.mpr h)

theorem length_of_rendered (hm : t.kind.mode = some m) (hw : 1 ≤ t.width) {bs : List Byte}
    (h : (renderSite t n c).1 = .rendered bs) : bs.length = t.width := by
  by_cases hlt : siteValue t.kind n c < siteLimit t.kind t.width
  · rw [renderSite_below hm hlt] at h
    rw [← StampEntry.rendered.inj h]
    exact length_encodeValue _ hw _
  · have hle := Nat.not_lt.mp hlt
    cases m with
    | wrap =>
      rw [renderSite_wrap hm hle] at h
      rw [← StampEntry.rendered.inj h]
      exact length_encodeValue _ hw _
    | clamp =>
      rw [renderSite_clamp hm hle] at h
      rw [← StampEntry.rendered.inj h]
      exact length_encodeValue _ hw _
    | defer =>
      rw [renderSite_defer hm hle] at h
      cases h

end

/-- The room from an offset, rounded down to units (R122). -/
theorem siteValue_capacity {f : Bool} {m : OverflowMode} {off al n c : Nat} (hal : 0 < al) :
    let y := siteValue (.capacity f m off al) n c
    y ≤ c - off ∧ c - off < y + al ∧ al ∣ y := by
  refine ⟨Nat.div_mul_le_self _ _, ?_, Nat.dvd_mul_left _ _⟩
  have hmod := Nat.div_add_mod (c - off) al
  have hlt := Nat.mod_lt (c - off) hal
  change c - off < (c - off) / al * al + al
  rw [Nat.mul_comm]
  omega

theorem checkDigit_digits (w v : Nat) : checkDigit (digits 10 w v) =
    (10 - ((List.range w).map fun j => (if j % 2 = 0 then 3 else 1) * (v / 10 ^ j % 10)).sum % 10) % 10 := by
  rw [checkDigit, digits_reverse, checkSum_eq, List.length_map, List.length_range]
  have hmap : ((List.range w).map fun j => (if (j % 2 == 0) = true then 3 else 1) *
      ((List.range w).map fun i => v / 10 ^ i % 10).getD j 0) =
      (List.range w).map fun j => (if j % 2 = 0 then 3 else 1) * (v / 10 ^ j % 10) := by
    refine List.map_congr_left fun j hj => ?_
    rw [List.getD_eq_getElem _ _ (by simpa using List.mem_range.mp hj), List.getElem_map, List.getElem_range]
    simp only [beq_iff_eq]
  rw [hmap]

/-- Settles O58: the overflow modes, then the bytes and digits of each encoding. -/
theorem stampsAreRenderedToWidth : Obligations.StampsAreRenderedToWidth := by
  refine ⟨fun t n c m hm hw => ⟨fun bs => length_of_rendered hm hw, renderSite_below hm,
      fun h hmode => renderSite_wrap (hmode ▸ hm) h, fun h hmode => renderSite_clamp (hmode ▸ hm) h,
      fun h hmode => renderSite_defer (hmode ▸ hm) h⟩, fun t n c hk => ?_, fun m b d n c w v i =>
    ⟨fun f => rfl, fun f off al _ hal => siteValue_capacity hal, rfl, rfl, rfl, rfl, rfl, fun f off al => rfl,
      fun h => ⟨leBytes_getElem? w v i h, leBytes_reverse_getElem? h,
        fun off al => ⟨leBytes_getElem? w v i h, leBytes_reverse_getElem? h⟩, ?_, ?_, ?_⟩, ?_⟩⟩
  · rw [renderSite, hk]
    rfl
  · change ((digits 10 w v).map asciiDigit)[w - 1 - i]? = _
    rw [List.getElem?_map, digits_getElem? h, Option.map_some, asciiDigit_dec]
  · change ((digits 16 w v).map asciiDigit)[w - 1 - i]? = _
    rw [List.getElem?_map, digits_getElem? h]
    rfl
  · change ((digits 10 w v).map asciiDigit ++ [asciiDigit (checkDigit (digits 10 w v))])[w - 1 - i]? = _
    rw [List.getElem?_append_left (by rw [List.length_map, length_digits]; omega), List.getElem?_map,
      digits_getElem? h, Option.map_some, asciiDigit_dec]
  · change ((digits 10 w v).map asciiDigit ++ [asciiDigit (checkDigit (digits 10 w v))])[w]? = _
    rw [List.getElem?_append_right (by rw [List.length_map, length_digits]), List.length_map, length_digits,
      Nat.sub_self, List.getElem?_cons_zero, checkDigit_digits, asciiDigit_dec]

end Sys2Proof.Machine
end

section
/-! SUPPORT. The last segment of a chunk: the digest check that fails, and what the fault leaves of every slot and link.
Then the statement about a digest mismatch. -/

set_option Elab.async false

namespace Sys2Proof.Machine

/-! ### The last segment of a chunk -/

/-- The state once the bytes of segment 15 stand in the frame (R50, log 5). -/
def State.filledLast (s : State) (a : Assembly) (bytes : List Byte) : State :=
  { s with
    win.frames := s.win.frames.write (65536 * a.frame + 61440) bytes
    win.waiting := s.win.waiting ++ [.fill]
    intake.assembly := some { a with nextSegment := a.nextSegment + 1, crc := crcRun a.crc bytes } }

theorem State.appendSegment_last (s : State) {a : Assembly} (h : a.nextSegment = 15) (bytes : List Byte) :
    s.appendSegment a bytes = s.filledLast a bytes := by
  have haddr : frameAddr a.frame (Config.segmentBytes * a.nextSegment) = 65536 * a.frame + 61440 := by
    rw [h, frameAddr_eq, Config.segmentBytes]
  rw [State.appendSegment, State.fill, haddr]
  rfl

/-- Segment 15 of a chunk in assembly goes to the digest check (R53). -/
theorem exec_segment_last {s : State} {x : Session} {a : Assembly} {chunk : Word32} {bytes : List Byte}
    (hup : s.intake.linkUp = true) (hlen : bytes.length = 4096) (hx : s.session = some x) (hrun : x.phase = .running)
    (hpass : x.pass = .streaming) (hchunk : chunk.toNat = x.nextChunk) (ha : s.intake.assembly = some a)
    (hnext : a.nextSegment = 15) : exec (.segment chunk 15 bytes) s =
      .next ((s.filledLast a bytes).complete x.nextChunk a.frame (~~~ crcRun a.crc bytes)) := by
  have hindex : ((15 : Byte).toNat : Nat) = 15 := rfl
  rw [exec_segment_of_head hup hlen chunk 15 hx hrun hpass hchunk, State.segmentOfH_of_assembly ha, hindex, hnext,
    if_neg (by omega), if_pos rfl, State.appendSegment_last s hnext]

theorem State.complete_of_differs {s : State} {c frame : Nat} {v d : Word32} (h : digestEntry s.win.digest c = some d)
    (hne : d ≠ v) :
    s.complete c frame v = State.mismatch { s with win.waiting := s.win.waiting ++ [.digest] } c d v := by
  rw [State.complete, h]
  exact if_neg hne

/-! ### The fault (R17, R54, R107) -/

/-- What a fault leaves of the slots and links: granted commands stopped, waiting entries dropped, marks clear. -/
def State.discarded (s : State) : State := { s.stopEnrolled with slots := s.stopEnrolled.slots.map Slot.faulted }

theorem State.discarded_frame (s : State) : s.discarded = { s with
    slots := s.discarded.slots, links := s.discarded.links, win.waiting := s.discarded.win.waiting } := by
  have hstop := s.stopEnrolled_frame
  unfold State.discarded
  generalize s.stopEnrolled = u at hstop ⊢
  rw [hstop]

theorem State.discarded_session (s : State) : s.discarded.session = s.session := by rw [State.discarded_frame]
theorem State.discarded_intake (s : State) : s.discarded.intake = s.intake := by rw [State.discarded_frame]
theorem State.discarded_wsc (s : State) : s.discarded.wsc = s.wsc := by rw [State.discarded_frame]
theorem State.discarded_stu (s : State) : s.discarded.stu = s.stu := by rw [State.discarded_frame]
theorem State.discarded_req (s : State) : s.discarded.req = s.req := by rw [State.discarded_frame]
theorem State.discarded_ncu (s : State) : s.discarded.ncu = s.ncu := by rw [State.discarded_frame]
theorem State.discarded_now (s : State) : s.discarded.now = s.now := by rw [State.discarded_frame]
theorem State.discarded_win (s : State) : s.discarded.win = { s.win with waiting := s.discarded.win.waiting } := by
  rw [State.discarded_frame]

theorem State.discarded_link (s : State) (k : LinkIx) : s.discarded.link k = { s.link k with
    path := (s.link k).path.filter (fun g => !(linkOf g.slot == k && (s.slot g.slot).state.enrolled)) } := by
  rw [← State.stopEnrolled_link]
  unfold State.discarded
  generalize s.stopEnrolled = u
  rfl

theorem Slot.faulted_of_enrolled {sl : Slot} (h : sl.state.enrolled = true) : sl.faulted =
    { sl.givePlaces (sl.inFlight.length - (sl.inFlight.filter (fun e => e.tag.isSome)).length) with
      inFlight := sl.inFlight.filter (fun e => e.tag.isSome), rostered := false } :=
  if_pos h

theorem Slot.faulted_of_other {sl : Slot} (h : sl.state.enrolled = false) : sl.faulted = { sl with rostered := false } :=
  if_neg (by rw [h]; exact Bool.false_ne_true)

/-- The entries that wait are those the filter on sent ones leaves out. -/
theorem countP_waiting (es : List Entry) :
    es.length - (es.filter (fun e => e.tag.isSome)).length = es.countP (fun e => e.tag.isNone) := by
  have hsplit := List.length_eq_countP_add_countP (fun e : Entry => e.tag.isSome) (l := es)
  have hnone : es.countP (fun e => decide ¬(e.tag.isSome = true)) = es.countP (fun e => e.tag.isNone) :=
    List.countP_congr fun e _ => by cases e.tag <;> simp
  rw [← List.countP_eq_length_filter, ← hnone]
  omega

theorem State.discarded_slot (s : State) (i : SlotIx) :
    ((s.slot i).state.enrolled = false → s.discarded.slot i = { s.slot i with rostered := false }) ∧
    ((s.slot i).state.enrolled = true → s.discarded.slot i = { s.slot i with
      rostered := false, inFlight := (s.slot i).inFlight.filter (fun e => e.tag.isSome)
      throttledDepth := (s.slot i).throttledDepth.map (fun n =>
        max 1 (n - ((s.slot i).inFlight.countP (fun e => e.tag.isNone) + s.grantPlace i))) }) := by
  have hslot : s.discarded.slot i = (s.stopEnrolled.slot i).faulted := Vector.getElem_map _ _
  rw [hslot, State.stopEnrolled_slot]
  generalize s.slot i = sl
  refine ⟨fun h => ?_, fun h => ?_⟩
  · rw [if_neg (by rw [h]; exact Bool.false_ne_true), Slot.faulted_of_other h]
  · rw [if_pos h, Slot.faulted_of_enrolled (sl := sl.givePlaces (s.grantPlace i)) h]
    have hdepth : ((sl.throttledDepth.map fun d => max 1 (d - s.grantPlace i)).map fun d =>
        max 1 (d - (sl.inFlight.length - (sl.inFlight.filter (fun e => e.tag.isSome)).length))) =
        sl.throttledDepth.map fun n => max 1 (n - (sl.inFlight.countP (fun e => e.tag.isNone) + s.grantPlace i)) := by
      rw [Option.map_map, countP_waiting]
      refine congrArg (sl.throttledDepth.map ·) (funext fun n => ?_)
      rw [Function.comp_apply]
      omega
    rw [← hdepth]
    rfl

/-- A FAULTED session comes to rest exactly when no enrolled slot has a sent entry left (R109). -/
theorem State.discarded_rest (s : State) : (∀ i, (s.discarded.slot i).state.enrolled = true →
      (s.discarded.slot i).inFlight = [] ∧ ∀ g, (s.discarded.link (linkOf i)).path = some g → g.slot ≠ i) ↔
    ∀ i, (s.slot i).state.enrolled = true → ∀ e ∈ (s.slot i).inFlight, e.tag = none := by
  have hstate : ∀ i, (s.discarded.slot i).state = (s.slot i).state := fun i => by
    obtain ⟨hother, henrolled⟩ := s.discarded_slot i
    cases h : (s.slot i).state.enrolled with
    | false => rw [hother h]
    | true => rw [henrolled h]
  refine forall_congr' fun i => ?_
  rw [hstate]
  refine forall_congr' fun h => ?_
  have hpath : ∀ g, (s.discarded.link (linkOf i)).path = some g → g.slot ≠ i := by
    intro g hg
    rw [State.discarded_link, Option.filter_eq_some_iff] at hg
    rintro rfl
    simp [h] at hg
  rw [(s.discarded_slot i).2 h, List.filter_eq_nil_iff]
  refine ⟨fun ⟨hsent, _⟩ e he => by simpa using hsent e he, fun hnone => ⟨fun e he => by simp [hnone e he], hpath⟩⟩

/-- Steps of a mismatch before anything is stopped: the assembly gone, IMAGE-MISMATCH raised, the session FAULTED. -/
def State.mismatched (s : State) (x : Session) (c : Nat) (recorded received : Word32) : State :=
  { s.abandonAssembly.raise (.imageMismatch c recorded received x.passNumber) with
    session := some { x with phase := .faulted, faultChunk := some c, pass := .noPass } }

theorem State.mismatch_eq {s : State} {x : Session} (hx : s.session = some x) (c : Nat) (recorded received : Word32) :
    s.mismatch c recorded received = ((s.mismatched x c recorded received).discarded.evalFlow).testHeld := by
  have hupd := State.updSession_eq (s := s.abandonAssembly.raise (.imageMismatch c recorded received x.passNumber))
    (x := x) (by rw [State.raise_session]; exact hx)
    (fun y => { y with phase := .faulted, faultChunk := some c, pass := .noPass })
  unfold State.mismatch
  dsimp only
  rw [State.ses_eq hx, hupd]
  unfold State.mismatched State.discarded
  rfl

/-- Outside a STREAMING pass flow is PAUSED, with a FLOW frame where it was OPEN (R58). -/
theorem State.evalFlow_of_noPass {s : State} {x : Session} (hx : s.session = some x) (hup : s.intake.linkUp = true)
    (hpass : x.pass ≠ .streaming) : s.evalFlow = { s with
      intake.flow := .paused
      req.flowOut := if s.intake.flow = .opened then
        (if s.req.flowOut.length < 8 then s.req.flowOut else s.req.flowOut.dropLast) ++
          [⟨.paused, some x.nextChunk, some (x.windowSize - s.win.records.length)⟩] else s.req.flowOut } := by
  obtain ⟨-, -, hflow⟩ := flowFollowsMarks s
  obtain ⟨hopened, hpaused⟩ := hflow x hx hup
  cases hf : s.intake.flow with
  | opened => rw [(hopened hf).1 (.inr (.inr hpass)), if_pos rfl]
  | paused =>
    rw [(hpaused hf).2 (.inr (.inr hpass)), if_neg (fun h => nomatch h), ← hf]

/-- What a digest mismatch has done before the test for HELD. -/
structure State.FaultedAs (s : State) (x : Session) (c : Nat) (t : State) : Prop where
  session : t.session = some { x with phase := .faulted, faultChunk := some c, pass := .noPass }
  assembly : t.intake.assembly = none
  flow : t.intake.flow = .paused
  records : t.win.records = s.win.records.filter (fun r => r.resident.isSome)
  digest : t.win.digest = s.win.digest
  frames : t.win.frames = s.win.frames
  stu : t.stu = s.stu
  wsc : t.wsc = s.wsc
  now : t.now = s.now
  req : t.req = { s.req with flowOut := if s.intake.flow = .opened then
    (if s.req.flowOut.length < 8 then s.req.flowOut else s.req.flowOut.dropLast) ++
      [⟨.paused, some x.nextChunk, some (x.windowSize - t.win.records.length)⟩] else s.req.flowOut }
  seen : t.ncu.seen.getLsbD 6 = true
  counters : ∀ n : Fin 10, n ≠ 9 → t.ncu.counters[n] = s.ncu.counters[n]
  links : ∀ k, t.link k = { s.link k with
    path := (s.link k).path.filter (fun g => !(linkOf g.slot == k && (s.slot g.slot).state.enrolled)) }
  others : ∀ i, (s.slot i).state.enrolled = false → t.slot i = { s.slot i with rostered := false }
  enrolled : ∀ i, (s.slot i).state.enrolled = true → t.slot i = { s.slot i with
    rostered := false, inFlight := (s.slot i).inFlight.filter (fun e => e.tag.isSome)
    throttledDepth := (s.slot i).throttledDepth.map (fun n =>
      max 1 (n - ((s.slot i).inFlight.countP (fun e => e.tag.isNone) + s.grantPlace i))) }
  rest : (∀ i, (t.slot i).state.enrolled = true → (t.slot i).inFlight = [] ∧
      ∀ g, (t.link (linkOf i)).path = some g → g.slot ≠ i) ↔
    ∀ i, (s.slot i).state.enrolled = true → ∀ e ∈ (s.slot i).inFlight, e.tag = none

section
variable (s : State) (x : Session) (c : Nat) (recorded received : Word32)

theorem State.mismatched_frame : s.mismatched x c recorded received = { s.abandonAssembly with
    session := some { x with phase := .faulted, faultChunk := some c, pass := .noPass }
    ncu := (s.mismatched x c recorded received).ncu } := by
  unfold State.mismatched
  rw [State.raise_spec]

theorem State.mismatched_slot : (s.mismatched x c recorded received).slot = s.slot :=
  funext fun i => State.raise_slot s.abandonAssembly (.imageMismatch c recorded received x.passNumber) i

theorem State.mismatched_link : (s.mismatched x c recorded received).link = s.link :=
  funext fun k => State.raise_link s.abandonAssembly (.imageMismatch c recorded received x.passNumber) k

theorem State.mismatched_grantPlace : (s.mismatched x c recorded received).grantPlace = s.grantPlace :=
  funext fun i => by rw [State.grantPlace, State.mismatched_link, State.grantPlace]

theorem State.mismatched_seen : (s.mismatched x c recorded received).ncu.seen.getLsbD 6 = true := by
  have hbit := Event.bit_getLsbD (.imageMismatch c recorded received x.passNumber) 6
  change (s.abandonAssembly.raise (.imageMismatch c recorded received x.passNumber)).ncu.seen.getLsbD 6 = true
  rw [State.raise_seen, BitVec.getLsbD_or]
  exact Bool.or_eq_true_iff.mpr (.inr (hbit.trans rfl))

theorem State.mismatched_counters (n : Fin 10) (hn : n ≠ 9) :
    (s.mismatched x c recorded received).ncu.counters[n] = s.ncu.counters[n] :=
  State.raise_counters s.abandonAssembly (.imageMismatch c recorded received x.passNumber) n hn

end

theorem State.mismatch_faultedAs {s : State} {x : Session} (hx : s.session = some x) (hup : s.intake.linkUp = true)
    (c : Nat) (recorded received : Word32) :
    ∃ t, s.mismatch c recorded received = t.testHeld ∧ s.FaultedAs x c t := by
  have hslots := (s.mismatched x c recorded received).discarded_slot
  have hlinks := (s.mismatched x c recorded received).discarded_link
  have hrest := (s.mismatched x c recorded received).discarded_rest
  have hframe := (s.mismatched x c recorded received).discarded_frame
  rw [State.mismatched_slot] at hslots hrest hlinks
  rw [State.mismatched_link] at hlinks
  rw [State.mismatched_grantPlace] at hslots
  have hseen := s.mismatched_seen x c recorded received
  have hcounters := s.mismatched_counters x c recorded received
  have hmis := s.mismatched_frame x c recorded received
  rw [State.mismatch_eq hx]
  generalize s.mismatched x c recorded received = f at *
  generalize f.discarded = g at *
  have hsession : g.session = some { x with phase := .faulted, faultChunk := some c, pass := .noPass } := by
    rw [hframe, hmis]
  have hintake : g.intake = { s.intake with assembly := none } := by rw [hframe, hmis]; rfl
  have hreq : g.req = s.req := by rw [hframe, hmis]; rfl
  have hncu : g.ncu = f.ncu := by rw [hframe]
  rw [State.evalFlow_of_noPass hsession (by rw [hintake]; exact hup) (fun h => nomatch h)]
  refine ⟨_, rfl, ?_⟩
  exact {
    session := hsession
    assembly := by rw [hintake]
    flow := rfl
    records := by rw [hframe, hmis]; rfl
    digest := by rw [hframe, hmis]; rfl
    frames := by rw [hframe, hmis]; rfl
    stu := by rw [hframe, hmis]; rfl
    wsc := by rw [hframe, hmis]; rfl
    now := by rw [hframe, hmis]; rfl
    req := by rw [hintake, hreq]
    seen := by rw [hncu]; exact hseen
    counters := by rw [hncu]; exact hcounters
    links := hlinks
    others := fun i => (hslots i).1
    enrolled := fun i => (hslots i).2
    rest := hrest }

/-- Settles O13: the last segment to the digest check, the fault, then the test for HELD on what it leaves. -/
theorem digestMismatchFaultsSession : Obligations.DigestMismatchFaultsSession := by
  intro s x a d chunk bytes hup hlen hx hrun hpass hchunk ha hnext hd hne
  have hexec := exec_segment_last hup hlen hx hrun hpass hchunk ha hnext
  rw [State.complete_of_differs (s := s.filledLast a bytes) hd hne] at hexec
  obtain ⟨t, hmismatch, ht⟩ := State.mismatch_faultedAs
    (s := { s.filledLast a bytes with win.waiting := (s.filledLast a bytes).win.waiting ++ [.digest] }) hx hup
    x.nextChunk d (~~~ crcRun a.crc bytes)
  rw [hmismatch] at hexec
  obtain ⟨-, hheld⟩ := holdReachesHeldAndIsReleased
  obtain ⟨hnot, hbusy, hquiet, hreply⟩ := hheld t _ ht.session (fun h => nomatch h)
  refine ⟨t.testHeld, hexec, ?_, ?_, ?_, ?_, ?_, ?_, ?_, t.testHeld_seen 6 ht.seen, fun n hn => ?_, ?_, ?_, ?_, ?_,
    ⟨fun h => ?_, fun hh hr => ?_⟩, fun k => ?_, fun i => ⟨fun h => ?_, fun h => ?_⟩⟩
  · rw [State.testHeld_session, ht.session]
  · rw [State.testHeld_intake, ht.assembly]
  · rw [State.testHeld_intake, ht.flow]
  · rw [State.testHeld_win, ht.records]
    rfl
  · rw [State.testHeld_win, ht.digest]
    rfl
  · rw [State.testHeld_stu, ht.stu]
    rfl
  · rw [State.testHeld_stu, ht.stu]
    rfl
  · rw [t.testHeld_counters n hn, ht.counters n hn]
    rfl
  · rw [State.testHeld_win, ht.frames]
    rfl
  · rw [State.testHeld_queue, ht.req]
    rfl
  · rw [State.testHeld_now, ht.now]
    rfl
  · have hflow : t.testHeld.req.flowOut = t.req.flowOut := by rw [State.testHeld_spec]
    rw [hflow, State.testHeld_win, ht.req]
    rfl
  · have hsame : t.testHeld = t := by
      rcases h with h | h
      · exact hnot (by rw [ht.wsc]; exact h)
      · refine hbusy fun hrest => h (ht.rest.mp fun i hi => ?_)
        obtain ⟨hlist, hpath, -⟩ := hrest i hi
        exact ⟨hlist, hpath⟩
    rw [hsame, ht.wsc, ht.req]
    exact ⟨rfl, rfl⟩
  · have hrest := ht.rest.mpr hr
    have hbit := Event.bit_getLsbD .held 4
    have hseen : ∀ u : State, (u.raise .held).ncu.seen.getLsbD 4 = true := fun u => by
      rw [State.raise_seen, BitVec.getLsbD_or]
      exact Bool.or_eq_true_iff.mpr (.inr (hbit.trans rfl))
    cases hp : s.wsc.holdReply with
    | none =>
      rw [hquiet (by rw [ht.wsc]; exact hh) (fun i hi => ⟨(hrest i hi).1, (hrest i hi).2, fun h => nomatch h⟩)
        (by rw [ht.wsc]; exact hp)]
      refine ⟨?_, ?_, hseen _⟩
      · rw [State.raise_wsc, ht.wsc, ← hp]
        rfl
      · rw [State.raise_req, ht.req]
        exact (List.append_nil _).symm
    | some tag =>
      rw [hreply tag (by rw [ht.wsc]; exact hh) (fun i hi => ⟨(hrest i hi).1, (hrest i hi).2, fun h => nomatch h⟩)
        (by rw [ht.wsc]; exact hp)]
      refine ⟨?_, ?_, hseen _⟩
      · rw [State.raise_wsc, ht.wsc]
        rfl
      · rw [State.raise_req, ht.req]
        rfl
  · rw [State.testHeld_link, ht.links k]
    rfl
  · rw [State.testHeld_slot, ht.others i h]
    rfl
  · rw [State.testHeld_slot, ht.enrolled i h]
    rfl

end Sys2Proof.Machine
end

section
/-! SUPPORT. The completion of a chunk step by step: the digest entry, the captures, the rostered slots LIVE, the record
RESIDENT, retirement and a pass end. Then the statement about completion. -/

set_option Elab.async false

namespace Sys2Proof.Machine

/-! ### The digest table (R40) -/

/-- A chunk's entry made PRESENT is the one written, and no other changes. -/
theorem digestEntry_put (d : List (Nat × Word32)) (c : Nat) (v : Word32) (n : Nat) :
    digestEntry (digestPut d c v) n = if n = c then some v else digestEntry d n := by
  rw [digestEntry, digestPut, List.find?_append, List.find?_filter, List.find?_cons, List.find?_filter]
  rcases lt_trichotomy n c with h | rfl | h
  · have hbelow : (fun e : Nat × Word32 => decide (decide (e.1 < c) = true ∧ (e.1 == n) = true)) = fun e => e.1 == n := by
      funext e
      by_cases he : e.1 = n <;> simp [he, h]
    have habove : ∀ e ∈ d, ¬decide (decide (c < e.1) = true ∧ (e.1 == n) = true) = true := fun e _ => by
      simp only [decide_eq_true_eq, beq_iff_eq]
      omega
    rw [hbelow, List.find?_eq_none.mpr habove, beq_eq_false_iff_ne.mpr (Nat.ne_of_gt h), if_neg (Nat.ne_of_lt h),
      Option.or_none]
    rfl
  · have hbelow : ∀ e ∈ d, ¬decide (decide (e.1 < n) = true ∧ (e.1 == n) = true) = true := fun e _ => by
      simp only [decide_eq_true_eq, beq_iff_eq]
      omega
    rw [List.find?_eq_none.mpr hbelow, beq_self_eq_true, if_pos rfl]
    rfl
  · have hbelow : ∀ e ∈ d, ¬decide (decide (e.1 < c) = true ∧ (e.1 == n) = true) = true := fun e _ => by
      simp only [decide_eq_true_eq, beq_iff_eq]
      omega
    have habove : (fun e : Nat × Word32 => decide (decide (c < e.1) = true ∧ (e.1 == n) = true)) = fun e => e.1 == n := by
      funext e
      by_cases he : e.1 = n <;> simp [he, h]
    rw [habove, List.find?_eq_none.mpr hbelow, beq_eq_false_iff_ne.mpr (Nat.ne_of_lt h), if_neg (Nat.ne_of_gt h)]
    rfl

/-- The state once the digest check has passed (R53): the entry PRESENT, the transfers of the check asked for. -/
def State.checked (s : State) (c : Nat) (v : Word32) : State :=
  { s with
    win.digest := if (digestEntry s.win.digest c).isSome then s.win.digest else digestPut s.win.digest c v
    win.waiting := s.win.waiting ++ (if (digestEntry s.win.digest c).isSome then [.digest] else [.digest, .digest]) }

theorem State.complete_of_passed {s : State} {c : Nat} {v : Word32}
    (h : ∀ d, digestEntry s.win.digest c = some d → d = v) (frame : Nat) :
    s.complete c frame v = ((s.checked c v).captureChunk c frame).finishChunk c v := by
  rw [State.complete, State.checked]
  cases hd : digestEntry s.win.digest c with
  | none => rfl
  | some d => exact if_pos (h d hd)

theorem State.checked_digest {s : State} {c : Nat} {v : Word32} (h : ∀ d, digestEntry s.win.digest c = some d → d = v)
    (n : Nat) : digestEntry (s.checked c v).win.digest n = if n = c then some v else digestEntry s.win.digest n := by
  rw [State.checked]
  cases hd : digestEntry s.win.digest c with
  | none => exact digestEntry_put s.win.digest c v n
  | some d =>
    change digestEntry (if (some d).isSome = true then s.win.digest else digestPut s.win.digest c v) n = _
    rw [if_pos Option.isSome_some]
    split
    · next hn => rw [hn, hd, h d hd]
    · rfl

/-! ### The rostered slots go LIVE (R10, R56) -/

/-- A slot is rostered on a chunk. -/
def Slot.joins (sl : Slot) (c : Nat) : Prop :=
  sl.state = .waiting ∧ sl.rostered = true ∧ sl.span.map Span.lo = some c

/-- The record of a slot that goes LIVE. -/
def Slot.joined (sl : Slot) : Slot :=
  Slot.moved { sl with
    ackPoint := sl.span.map Span.lo
    issueCursor := sl.span.map Span.lo
    ahead := [], piecesSent := 0, rostered := false, laggard := false } .live

theorem State.goLive_self (s : State) (i : SlotIx) : (s.goLive i).slot i = (s.slot i).joined := by
  rw [State.goLive, State.moveSlot_self, State.updSlot_self]
  rfl

theorem State.goLive_ne (s : State) {i j : SlotIx} (h : i ≠ j) : (s.goLive i).slot j = s.slot j := by
  rw [State.goLive, State.moveSlot_ne _ _ h, State.updSlot_slot_ne _ _ h]

/-- Two states that differ in slot records and in NCU alone. -/
def State.SlotsAndNoticesOnly (s t : State) : Prop := t = { s with slots := t.slots, ncu := t.ncu }

/-- Every engine counter but that of notices lost is as it was. -/
def State.CountersKept (s t : State) : Prop := ∀ n : Fin 10, n ≠ 9 → t.ncu.counters[n] = s.ncu.counters[n]

theorem State.goLive_frame (s : State) (i : SlotIx) :
    s.goLive i = { s with slots := (s.goLive i).slots, ncu := (s.goLive i).ncu } := by
  rw [State.goLive, State.moveSlot_spec, State.raise_spec]
  rfl

theorem State.goLive_counters (s : State) (i : SlotIx) (n : Fin 10) (h : n ≠ 9) :
    (s.goLive i).ncu.counters[n] = s.ncu.counters[n] := by
  rw [State.goLive, State.moveSlot_spec, State.raise_counters _ _ n h]
  rfl

section
variable (s : State) (c : Nat)

theorem State.rosterLive_slot (i : SlotIx) : ((s.slot i).joins c → (s.rosterLive c).slot i = (s.slot i).joined) ∧
    (¬(s.slot i).joins c → (s.rosterLive c).slot i = s.slot i) := by
  refine State.forSlots_slot (fun _ => True) (fun _ _ _ => trivial) (fun i j t hij => ?_)
    (fun _ a b => (a.joins c → b = a.joined) ∧ (¬a.joins c → b = a)) (fun i t _ => ⟨fun h => ?_, fun h => ?_⟩) trivial i
  · split
    · exact t.goLive_ne hij
    · rfl
  · exact (congrArg (fun u : State => u.slot i) (if_pos h)).trans (t.goLive_self i)
  · exact congrArg (fun u : State => u.slot i) (if_neg h)

theorem State.rosterLive_of_none (h : ∀ i, ¬(s.slot i).joins c) : s.rosterLive c = s := by
  refine State.forSlots_keeps (fun t => t = s) (fun i t ht => ?_) rfl
  subst ht
  exact if_neg (h i)

theorem State.rosterLive_frame : s.SlotsAndNoticesOnly (s.rosterLive c) := by
  refine State.forSlots_keeps s.SlotsAndNoticesOnly (fun i t ht => ?_) rfl
  split
  · unfold State.SlotsAndNoticesOnly at ht ⊢
    rw [State.goLive_frame, ht]
  · exact ht

theorem State.rosterLive_counters : s.CountersKept (s.rosterLive c) := by
  refine State.forSlots_keeps s.CountersKept (fun i t ht => ?_) fun _ _ => rfl
  split
  · exact fun n h => (State.goLive_counters t i n h).trans (ht n h)
  · exact ht

end

theorem State.liveOn_congr {s t : State} (h : ∀ i, (t.slot i).state = (s.slot i).state ∧ (t.slot i).span = (s.slot i).span)
    (c : Nat) : t.liveOn c = s.liveOn c := by
  rw [State.liveOn, State.liveOn, State.slots_toList, State.slots_toList, ← List.countP_eq_length_filter,
    ← List.countP_eq_length_filter, List.countP_map, List.countP_map]
  refine List.countP_congr fun i _ => ?_
  obtain ⟨hstate, hspan⟩ := h i
  rw [Function.comp_apply, Function.comp_apply, hstate, hspan]

/-! ### The record RESIDENT, H one higher and retirement (R31, R56) -/

theorem setOwed_makeResident_last {pre : List ChunkRecord} {c f n : Nat} {v : Word32} {m : Bool}
    (hpre : ∀ r ∈ pre, r.resident.isSome = true ∧ r.chunk ≠ c) :
    setOwed c n (makeResident ⟨v, 0, m⟩ (pre ++ [⟨c, f, none⟩])) = pre ++ [⟨c, f, some ⟨v, n, m⟩⟩] := by
  rw [setOwed, makeResident, List.map_map, List.map_append]
  have hkeep : ∀ r ∈ pre, ((fun r : ChunkRecord =>
      if r.chunk = c then { r with resident := r.resident.map (fun x => { x with owed := n }) } else r) ∘
      fun r : ChunkRecord => if r.resident.isNone then { r with resident := some ⟨v, 0, m⟩ } else r) r = id r := by
    intro r hr
    obtain ⟨hsome, hne⟩ := hpre r hr
    obtain ⟨y, hy⟩ := Option.isSome_iff_exists.mp hsome
    simp [hy, hne]
  rw [List.map_congr_left hkeep, List.map_id]
  simp

/-- Steps 3 and 4 of R56 on the slots and records of `w`. -/
def State.entered (w : State) (x : Session) (c : Nat) : State :=
  { w with
    session := some x.advanced
    intake.assembly := none
    win.records := setOwed c (w.liveOn c) w.win.records
    ncu.counters := w.ncu.counters.set 0 w.ncu.counters[0].bump }

theorem State.finishChunk_entered {u : State} {x : Session} (hx : u.session = some x) (c : Nat) (v : Word32) :
    u.finishChunk c v = (((u.withResident c v).rosterLive c).entered x c).retire.evalFlow := by
  obtain ⟨-, hsession, -⟩ := State.rosterLive_keeps (u.withResident c v) c
  rw [State.finishChunk_eq, State.completed]
  generalize (u.withResident c v).rosterLive c = w at *
  have hw : w.session = some x := hsession.trans hx
  have hupd := State.updSession_eq (s := { w with win.records := setOwed c (w.liveOn c) w.win.records }) (x := x) hw
    Session.advanced
  unfold State.counted
  rw [hupd]
  rfl

/-- What the completion of chunk H has done before flow is evaluated. -/
structure State.CompletedAs (u : State) (x : Session) (pre : List ChunkRecord) (frame : Nat) (v : Word32) (t : State) :
    Prop where
  kept : t = { u with
    session := t.session, intake.assembly := none, win.records := t.win.records, slots := t.slots, ncu := t.ncu }
  records : t.win.records = retired (pre ++ [⟨x.nextChunk, frame, some ⟨v, t.liveOn x.nextChunk,
    u.stu.sites.any (fun q => q.chunk == x.nextChunk)⟩⟩])
  session : t.session = some { x.advanced with
    pass := if x.nextChunk + 1 = x.imageLength then (if t.win.records = [] then .noPass else .draining) else x.pass }
  joined : ∀ i, (u.slot i).joins x.nextChunk → t.slot i = (u.slot i).joined
  others : ∀ i, ¬(u.slot i).joins x.nextChunk → t.slot i =
    if x.nextChunk + 1 = x.imageLength ∧ t.win.records = [] then { u.slot i with rostered := false } else u.slot i
  seen : x.nextChunk + 1 = x.imageLength ∧ t.win.records = [] → t.ncu.seen.getLsbD 1 = true
  quiet : (∀ i, ¬(u.slot i).joins x.nextChunk) →
    (¬(x.nextChunk + 1 = x.imageLength ∧ t.win.records = []) → t.ncu = (u.count ctrChunks).ncu) ∧
    (x.nextChunk + 1 = x.imageLength ∧ t.win.records = [] → t.ncu = ((u.count ctrChunks).raise (.passEnded x.passNumber
      ((List.finRange 192).countP (fun i => decide ((u.slot i).state = .waiting))) u.lowestFrom)).ncu)
  accepted : t.ncu.counters[0] = u.ncu.counters[0].bump
  counters : ∀ n : Fin 10, n ≠ 0 → n ≠ 9 → t.ncu.counters[n] = u.ncu.counters[n]

theorem State.lowestFrom_congr {s t : State} (h : t.slots = s.slots) : t.lowestFrom = s.lowestFrom := by
  rw [State.lowestFrom, State.waitingSlots, h]
  rfl

/-- Retirement at the completion of a chunk that does not end the pass. -/
theorem State.entered_retire_of_open {w : State} {x : Session} {c : Nat} (hpass : x.pass = .streaming)
    (h : ¬(x.nextChunk + 1 = x.imageLength ∧ retired (w.entered x c).win.records = [])) :
    (w.entered x c).retire = { w.entered x c with win.records := retired (w.entered x c).win.records } := by
  refine State.retire_of_open (x := x.advanced) rfl fun ⟨hdraining, hnone, _⟩ => h ⟨?_, hnone⟩
  by_contra hmore
  have hadvanced : x.advanced.pass = x.pass := if_neg hmore
  rw [hadvanced, hpass] at hdraining
  cases hdraining

/-- Retirement at the completion of the last chunk when the window is empty: the pass ends (R12). -/
theorem State.entered_retire_of_ended {w : State} {x : Session} {c : Nat} (hrec : (w.entered x c).win.records ≠ [])
    (hlast : x.nextChunk + 1 = x.imageLength) (hnone : retired (w.entered x c).win.records = []) :
    (w.entered x c).retire = State.raise { w.entered x c with
        win.records := [], session := some { x.advanced with pass := .noPass }
        slots := w.slots.map (fun (sl : Slot) => { sl with rostered := false }) }
      (.passEnded x.passNumber ((List.finRange 192).countP (fun i => decide ((w.slot i).state = .waiting)))
        w.lowestFrom) := by
  have hlow : (w.entered x c).lowestFrom = w.lowestFrom := State.lowestFrom_congr rfl
  rw [State.retire_of_ended (x := x.advanced) rfl ⟨if_pos hlast, hnone, hrec⟩, hlow]
  rfl

theorem State.completedAs {u : State} {x : Session} {pre : List ChunkRecord} {frame : Nat} (hpass : x.pass = .streaming) (hrec : u.win.records = pre ++ [⟨x.nextChunk, frame, none⟩])
    (hpre : ∀ r ∈ pre, r.resident.isSome = true ∧ r.chunk ≠ x.nextChunk) (v : Word32) :
    u.CompletedAs x pre frame v
      ((((u.withResident x.nextChunk v).rosterLive x.nextChunk).entered x x.nextChunk).retire) := by
  have hslot := (u.withResident x.nextChunk v).rosterLive_slot x.nextChunk
  have hframe := (u.withResident x.nextChunk v).rosterLive_frame x.nextChunk
  have hcounters := (u.withResident x.nextChunk v).rosterLive_counters x.nextChunk
  have hsame := (u.withResident x.nextChunk v).rosterLive_of_none x.nextChunk
  generalize (u.withResident x.nextChunk v).rosterLive x.nextChunk = w at *
  have hslot : ∀ i, ((u.slot i).joins x.nextChunk → w.slot i = (u.slot i).joined) ∧
    (¬(u.slot i).joins x.nextChunk → w.slot i = u.slot i) := hslot
  have hentered : (w.entered x x.nextChunk).win.records = pre ++ [⟨x.nextChunk, frame, some ⟨v, w.liveOn x.nextChunk,
      u.stu.sites.any (fun q => q.chunk == x.nextChunk)⟩⟩] := by
    have hw : w.win.records = makeResident ⟨v, 0, u.stu.sites.any (fun q => q.chunk == x.nextChunk)⟩ u.win.records := by
      rw [hframe]
      rfl
    change setOwed x.nextChunk (w.liveOn x.nextChunk) w.win.records = _
    rw [hw, hrec, setOwed_makeResident_last hpre]
  have hsome : (w.entered x x.nextChunk).win.records ≠ [] := by
    rw [hentered]
    exact List.append_ne_nil_of_right_ne_nil _ (List.cons_ne_nil _ _)
  have haccepted : (w.entered x x.nextChunk).ncu.counters[0] = u.ncu.counters[0].bump := by
    exact (Vector.getElem_set_self _).trans (congrArg Counter.bump (hcounters 0 (by decide)))
  have hothers : ∀ n : Fin 10, n ≠ 0 → n ≠ 9 → (w.entered x x.nextChunk).ncu.counters[n] = u.ncu.counters[n] :=
    fun n h0 h9 =>
      (Vector.getElem_set_ne (Nat.succ_pos 9) n.isLt fun h => h0 (Fin.ext h.symm)).trans (hcounters n h9)
  have hquiet : (∀ i, ¬(u.slot i).joins x.nextChunk) →
      w.slots = u.slots ∧ (w.entered x x.nextChunk).ncu = (u.count ctrChunks).ncu := fun h => by
    rw [hsame h]
    exact ⟨rfl, rfl⟩
  by_cases hend : x.nextChunk + 1 = x.imageLength ∧ retired (w.entered x x.nextChunk).win.records = []
  · obtain ⟨hlast, hnone⟩ := hend
    rw [State.entered_retire_of_ended hsome hlast hnone]
    have hnil : ∀ e, (State.raise { w.entered x x.nextChunk with
        win.records := [], session := some { x.advanced with pass := .noPass }
        slots := w.slots.map (fun (sl : Slot) => { sl with rostered := false }) } e).win.records = [] := fun e => by
      rw [State.raise_win]
    have hcleared : ∀ e i, (State.raise { w.entered x x.nextChunk with
        win.records := [], session := some { x.advanced with pass := .noPass }
        slots := w.slots.map (fun (sl : Slot) => { sl with rostered := false }) } e).slot i =
        { w.slot i with rostered := false } := fun e i => by
      rw [State.raise_slot]
      exact Vector.getElem_map _ _
    exact {
      kept := by
        rw [State.raise_spec, hframe]
        rfl
      records := by
        rw [State.liveOn_congr (s := w) fun i => by rw [hcleared]; exact ⟨rfl, rfl⟩, hnil, ← hentered, hnone]
      session := by
        rw [State.raise_session, hnil, if_pos hlast, if_pos rfl]
      joined := fun i h => by
        rw [hcleared, (hslot i).1 h]
        rfl
      others := fun i h => by
        rw [hcleared, (hslot i).2 h, hnil, if_pos ⟨hlast, rfl⟩]
      seen := fun _ => by
        rw [State.raise_seen, BitVec.getLsbD_or]
        exact Bool.or_eq_true_iff.mpr (.inr ((Event.bit_getLsbD _ 1).trans rfl))
      quiet := fun h => by
        obtain ⟨hslots, hncu⟩ := hquiet h
        have hcell : ∀ i, w.slot i = u.slot i := fun i => (hslot i).2 (h i)
        refine ⟨fun hmore => absurd ⟨hlast, hnil _⟩ hmore, fun _ => ?_⟩
        rw [State.lowestFrom_congr hslots]
        simp only [hcell]
        exact State.raise_ncu_congr _ hncu
      accepted := (State.raise_counters _ _ 0 (by decide)).trans haccepted
      counters := fun n h0 h9 => (State.raise_counters _ _ n h9).trans (hothers n h0 h9) }
  · rw [State.entered_retire_of_open hpass hend]
    exact {
      kept := by
        rw [hframe]
        rfl
      records := congrArg retired hentered
      session := by
        refine congrArg some (congrArg (fun p => { x.advanced with pass := p }) ?_)
        by_cases hlast : x.nextChunk + 1 = x.imageLength
        · have hkept : retired (w.entered x x.nextChunk).win.records ≠ [] := fun h => hend ⟨hlast, h⟩
          exact (if_pos hlast).trans ((if_pos hlast).trans (if_neg hkept)).symm
        · exact (if_neg hlast).trans (if_neg hlast).symm
      joined := fun i h => (hslot i).1 h
      others := fun i h => ((hslot i).2 h).trans (if_neg hend).symm
      seen := fun h => absurd h hend
      quiet := fun h => ⟨fun _ => (hquiet h).2, fun hclosed => absurd hclosed hend⟩
      accepted := haccepted
      counters := hothers }

/-! ### The whole event -/

/-- The evaluation of flow on a state is the evaluation on the state with flow and the FLOW outbox put back. -/
theorem State.evalFlow_again {s : State} {flow : FlowState} {out : List FlowFrame} (hflow : s.intake.flow = flow)
    (hout : s.req.flowOut = out) : s.evalFlow = State.evalFlow { s.evalFlow with intake.flow := flow, req.flowOut := out } := by
  have hback : ({ s.evalFlow with intake.flow := flow, req.flowOut := out } : State) = s := by
    rw [← hflow, ← hout, State.evalFlow_spec]
  rw [hback]

/-- A capture keeps every site's chunk. -/
theorem any_capture (sites : List Site) (c n frame : Nat) (m : Memory) :
    (sites.map fun q => q.capture c m frame).any (fun q => q.chunk == n) = sites.any fun q => q.chunk == n := by
  rw [List.any_map]
  refine congrArg sites.any (funext fun q => ?_)
  rw [Function.comp_apply, Site.capture]
  split <;> rfl

/-- The state in which the seven steps of R56 begin: bytes, digest check and captures done. -/
def State.readyToFinish (s : State) (a : Assembly) (bytes : List Byte) (c : Nat) (v : Word32) : State :=
  ((s.filledLast a bytes).checked c v).captureChunk c a.frame

theorem exec_segment_completes {s : State} {x : Session} {a : Assembly} {pre : List ChunkRecord} {chunk : Word32}
    {bytes : List Byte} (hup : s.intake.linkUp = true) (hlen : bytes.length = 4096) (hx : s.session = some x)
    (hrun : x.phase = .running) (hpass : x.pass = .streaming) (hchunk : chunk.toNat = x.nextChunk)
    (ha : s.intake.assembly = some a) (hnext : a.nextSegment = 15)
    (hrec : s.win.records = pre ++ [⟨x.nextChunk, a.frame, none⟩])
    (hpre : ∀ r ∈ pre, r.resident.isSome = true ∧ r.chunk ≠ x.nextChunk)
    (hd : ∀ d, digestEntry s.win.digest x.nextChunk = some d → d = ~~~ crcRun a.crc bytes) :
    ∃ t, exec (.segment chunk 15 bytes) s = .next t.evalFlow ∧
      (s.readyToFinish a bytes x.nextChunk (~~~ crcRun a.crc bytes)).CompletedAs x pre a.frame (~~~ crcRun a.crc bytes)
        t := by
  have hexec := exec_segment_last hup hlen hx hrun hpass hchunk ha hnext
  have hcompleted := State.completedAs (u := s.readyToFinish a bytes x.nextChunk (~~~ crcRun a.crc bytes)) hpass hrec
    hpre (~~~ crcRun a.crc bytes)
  rw [State.complete_of_passed (s := s.filledLast a bytes) hd] at hexec
  rw [← State.readyToFinish, State.finishChunk_entered (u := s.readyToFinish a bytes x.nextChunk (~~~ crcRun a.crc bytes)) hx] at hexec
  exact ⟨_, hexec, hcompleted⟩

/-- Settles O12: the seven steps of R56 on the state with the bytes, the digest check and the captures done. -/
theorem chunkCompletionRunsInOrder : Obligations.ChunkCompletionRunsInOrder := by
  intro s x a pre chunk bytes hup hlen hx hrun hpass hchunk ha hnext hrec hpre hd
  obtain ⟨t, hexec, ht⟩ := exec_segment_completes hup hlen hx hrun hpass hchunk ha hnext hrec hpre hd
  have hdigest := State.checked_digest (s := s.filledLast a bytes) hd
  have hwin : t.evalFlow.win =
      { (s.readyToFinish a bytes x.nextChunk (~~~ crcRun a.crc bytes)).win with records := t.win.records } := by
    rw [State.evalFlow_win, ht.kept]
  have hintake : t.intake = { s.intake with assembly := none } := by rw [ht.kept]; rfl
  have hreq : t.req = s.req := by rw [ht.kept]; rfl
  have hlive : t.evalFlow.liveOn x.nextChunk = t.liveOn x.nextChunk :=
    State.liveOn_congr (fun i => by rw [State.evalFlow_slot]; exact ⟨rfl, rfl⟩) _
  have hmark : (s.readyToFinish a bytes x.nextChunk (~~~ crcRun a.crc bytes)).stu.sites.any
      (fun q => q.chunk == x.nextChunk) = s.stu.sites.any fun q => q.chunk == x.nextChunk := any_capture _ _ _ _ _
  refine ⟨t.evalFlow, hexec, ?_, fun c hc => ?_, ?_, ?_, State.evalFlow_again ?_ ?_, ?_, ?_, ?_, ?_,
    ⟨_, (State.evalFlow_session t).trans ht.session, hrun, rfl, ?_⟩, fun i hw hr hs => ?_, ⟨fun i hi => ?_, fun hend => ?_, fun hnone => ⟨fun hmore => ?_, fun hend => ?_⟩⟩, ?_, ?_, ?_, ?_,
    ?_, ?_, fun n h0 h9 => ?_⟩
  · rw [hwin]
    exact (hdigest x.nextChunk).trans (if_pos rfl)
  · rw [hwin]
    exact (hdigest c).trans (if_neg hc)
  · rw [hwin]
    rfl
  · rw [hwin]
    exact (List.append_assoc _ _ _).trans (List.append_assoc _ _ _)
  · rw [hintake]
  · rw [hreq]
  · rw [State.evalFlow_linkUp, hintake]
    exact hup
  · rw [State.evalFlow_assembly, hintake]
  · rw [hwin]
    rfl
  · rw [State.evalFlow_win, hlive, ht.records, hmark]
  · rw [State.evalFlow_win, hpass]
  · rw [State.evalFlow_slot, ht.joined i ⟨hw, hr, hs⟩]
    exact ⟨rfl, hs, hs, rfl, rfl, rfl⟩
  · rw [State.evalFlow_slot, State.evalFlow_win, ht.others i hi]
    rfl
  · rw [State.evalFlow_ncu]
    rw [State.evalFlow_win] at hend
    exact ht.seen hend
  · rw [State.evalFlow_win] at hmore
    rw [State.evalFlow_ncu]
    exact ((ht.quiet hnone).1 hmore)
  · rw [State.evalFlow_win] at hend
    rw [State.evalFlow_ncu, (ht.quiet hnone).2 hend]
    exact State.raise_ncu_congr _ rfl
  · rw [State.evalFlow_stu, hwin, ht.kept]
    rfl
  · rw [State.evalFlow_links, ht.kept]
    rfl
  · rw [State.evalFlow_wsc, ht.kept]
    rfl
  · rw [State.evalFlow_spec, hreq]
  · rw [State.evalFlow_now, ht.kept]
    rfl
  · rw [State.evalFlow_ncu]
    exact ht.accepted
  · rw [State.evalFlow_ncu]
    exact ht.counters n h0 h9

end Sys2Proof.Machine
end
